-- ==== Sys2Proof/Word.lean ====
section
/-! DEFINITION. The machine's words: registers and addresses are 64 bits (R7, R9), memory is bytes (R62),
an instruction is one 32-bit word (R140), a register number is 5 bits (R141). -/

namespace Sys2Proof

/-- A register value or a virtual address: 64 bits (R7, R9). -/
abbrev Word := BitVec 64

/-- The addressable unit (R62). -/
abbrev Byte := BitVec 8

/-- One instruction word (R140). -/
abbrev Raw := BitVec 32

/-- A register number (R20, R141). -/
abbrev Reg := BitVec 5

end Sys2Proof
end

