-- ==== Sys2Proof/Syntax.lean ====
section
/-! DEFINITION. The 63 instructions of the opcode table (R150), their mnemonics and their six formats (R141).
A branch or jump offset is held whole, with its zero low bit (R148: a multiple of 2); WellFormed checks that bit. -/

namespace Sys2Proof

/-- The format tag of R141. -/
inductive Format where
  | R | I | S | B | U | J
  deriving DecidableEq, Repr

/-- A mnemonic id: one per row of the opcode table (R150). -/
inductive Mnemonic where
  | lui | auipc | jal | jalr | beq | bne | blt | bge
  | bltu | bgeu | lb | lh | lw | ld | lbu | lhu
  | lwu | sb | sh | sw | sd | addi | slti | sltiu
  | xori | ori | andi | slli | srli | srai | add | sub
  | sll | slt | sltu | xor | srl | sra | or | and
  | addiw | slliw | srliw | sraiw | addw | subw | sllw | srlw
  | sraw | mul | mulh | mulhsu | mulhu | div | divu | rem
  | remu | mulw | divw | divuw | remw | remuw | ecall
  deriving DecidableEq, Repr

/-- The ONE instruction type: one constructor per row of the opcode table (R150), operands in the order
destination, sources, immediate. -/
inductive Instr where
  /-- R171 -/
  | lui (rd : Reg) (imm20 : BitVec 20)
  /-- R172 -/
  | auipc (rd : Reg) (imm20 : BitVec 20)
  /-- R231 -/
  | jal (rd : Reg) (imm : BitVec 21)
  /-- R232 -/
  | jalr (rd rs1 : Reg) (imm : BitVec 12)
  /-- R233 -/
  | beq (rs1 rs2 : Reg) (imm : BitVec 13)
  /-- R234 -/
  | bne (rs1 rs2 : Reg) (imm : BitVec 13)
  /-- R235 -/
  | blt (rs1 rs2 : Reg) (imm : BitVec 13)
  /-- R236 -/
  | bge (rs1 rs2 : Reg) (imm : BitVec 13)
  /-- R237 -/
  | bltu (rs1 rs2 : Reg) (imm : BitVec 13)
  /-- R238 -/
  | bgeu (rs1 rs2 : Reg) (imm : BitVec 13)
  /-- R251 -/
  | lb (rd rs1 : Reg) (imm : BitVec 12)
  /-- R252 -/
  | lh (rd rs1 : Reg) (imm : BitVec 12)
  /-- R253 -/
  | lw (rd rs1 : Reg) (imm : BitVec 12)
  /-- R254 -/
  | ld (rd rs1 : Reg) (imm : BitVec 12)
  /-- R255 -/
  | lbu (rd rs1 : Reg) (imm : BitVec 12)
  /-- R256 -/
  | lhu (rd rs1 : Reg) (imm : BitVec 12)
  /-- R257 -/
  | lwu (rd rs1 : Reg) (imm : BitVec 12)
  /-- R258 -/
  | sb (rs1 rs2 : Reg) (imm : BitVec 12)
  /-- R259 -/
  | sh (rs1 rs2 : Reg) (imm : BitVec 12)
  /-- R260 -/
  | sw (rs1 rs2 : Reg) (imm : BitVec 12)
  /-- R261 -/
  | sd (rs1 rs2 : Reg) (imm : BitVec 12)
  /-- R173 -/
  | addi (rd rs1 : Reg) (imm : BitVec 12)
  /-- R174 -/
  | slti (rd rs1 : Reg) (imm : BitVec 12)
  /-- R175 -/
  | sltiu (rd rs1 : Reg) (imm : BitVec 12)
  /-- R176 -/
  | xori (rd rs1 : Reg) (imm : BitVec 12)
  /-- R177 -/
  | ori (rd rs1 : Reg) (imm : BitVec 12)
  /-- R178 -/
  | andi (rd rs1 : Reg) (imm : BitVec 12)
  /-- R179 -/
  | slli (rd rs1 : Reg) (shamt : BitVec 6)
  /-- R180 -/
  | srli (rd rs1 : Reg) (shamt : BitVec 6)
  /-- R181 -/
  | srai (rd rs1 : Reg) (shamt : BitVec 6)
  /-- R182 -/
  | add (rd rs1 rs2 : Reg)
  /-- R183 -/
  | sub (rd rs1 rs2 : Reg)
  /-- R184 -/
  | sll (rd rs1 rs2 : Reg)
  /-- R185 -/
  | slt (rd rs1 rs2 : Reg)
  /-- R186 -/
  | sltu (rd rs1 rs2 : Reg)
  /-- R187 -/
  | xor (rd rs1 rs2 : Reg)
  /-- R188 -/
  | srl (rd rs1 rs2 : Reg)
  /-- R189 -/
  | sra (rd rs1 rs2 : Reg)
  /-- R190 -/
  | or (rd rs1 rs2 : Reg)
  /-- R191 -/
  | and (rd rs1 rs2 : Reg)
  /-- R192 -/
  | addiw (rd rs1 : Reg) (imm : BitVec 12)
  /-- R193 -/
  | slliw (rd rs1 : Reg) (shamt : BitVec 5)
  /-- R194 -/
  | srliw (rd rs1 : Reg) (shamt : BitVec 5)
  /-- R195 -/
  | sraiw (rd rs1 : Reg) (shamt : BitVec 5)
  /-- R196 -/
  | addw (rd rs1 rs2 : Reg)
  /-- R197 -/
  | subw (rd rs1 rs2 : Reg)
  /-- R198 -/
  | sllw (rd rs1 rs2 : Reg)
  /-- R199 -/
  | srlw (rd rs1 rs2 : Reg)
  /-- R200 -/
  | sraw (rd rs1 rs2 : Reg)
  /-- R271 -/
  | mul (rd rs1 rs2 : Reg)
  /-- R272 -/
  | mulh (rd rs1 rs2 : Reg)
  /-- R273 -/
  | mulhsu (rd rs1 rs2 : Reg)
  /-- R274 -/
  | mulhu (rd rs1 rs2 : Reg)
  /-- R275 -/
  | div (rd rs1 rs2 : Reg)
  /-- R276 -/
  | divu (rd rs1 rs2 : Reg)
  /-- R277 -/
  | rem (rd rs1 rs2 : Reg)
  /-- R278 -/
  | remu (rd rs1 rs2 : Reg)
  /-- R279 -/
  | mulw (rd rs1 rs2 : Reg)
  /-- R280 -/
  | divw (rd rs1 rs2 : Reg)
  /-- R281 -/
  | divuw (rd rs1 rs2 : Reg)
  /-- R282 -/
  | remw (rd rs1 rs2 : Reg)
  /-- R283 -/
  | remuw (rd rs1 rs2 : Reg)
  /-- R290 -/
  | ecall
  deriving DecidableEq, Repr

/-- The classes of R152, which fix the format, the registers read and the destination slot. -/
inductive OpClass where
  /-- LUI, AUIPC -/
  | upper
  /-- JAL -/
  | jump
  /-- JALR -/
  | jumpReg
  /-- the six conditional branches -/
  | branch
  /-- the seven loads -/
  | load
  /-- the four stores -/
  | store
  /-- the register-immediate instructions, word forms and shifts included -/
  | regImm
  /-- the register-register instructions, word forms, multiply and divide included -/
  | regReg
  /-- ECALL -/
  | system
  deriving DecidableEq, Repr

end Sys2Proof
end

