-- ==== Sys2Proof/Config.lean ====
section
/-! DEFINITION. The configuration (R8, R35 to R37): what is fixed before reset and constant during a run, as
plain data, with the defaults of R8; the reset-time arguments ENTRY, IMAGE and INIT_REGS; and the one free
value, the integer the host delivers (R295). -/

namespace Sys2Proof

/-- Which of the two levels of R12 a step is. DESIGN CHOICE (entry 1): the model has both. -/
inductive Level where
  /-- one instruction a step -/
  | isa
  /-- one clock cycle a step -/
  | cycle
  deriving DecidableEq, Repr

/-- One cache's record (R36): SIZE in bytes, ASSOC ways, WT and WA. -/
structure CacheConfig where
  size : Nat
  assoc : Nat
  writeThrough : Bool
  writeAllocate : Bool
  deriving DecidableEq, Repr

/-- One store's StorageLatency (R37): HIT and BUS in ticks. -/
structure Latency where
  hit : Nat
  bus : Nat
  deriving DecidableEq, Repr

/-- A cache's number in the chain (R91). -/
inductive CacheLevel where
  | l1 | l2 | llc
  deriving DecidableEq, Repr

/-- The translation port as data (R66). A table maps an aligned 64-byte virtual block number to a physical
block number, so it is a function of the address alone and keeps the low 6 bits (R66 a, b); an unlisted
block is unmapped. DESIGN CHOICE of representation (entry 10). -/
inductive Translation where
  /-- the default: the identity on addresses below MEM_SIZE, none elsewhere -/
  | identity
  /-- (virtual block number, physical block number); the first match counts -/
  | table (blocks : List (Nat × Nat))
  deriving DecidableEq, Repr

/-- DIV_POLICY (R284). -/
inductive DivPolicy where
  | riscv | fatal
  deriving DecidableEq, Repr

/-- PRED_SCHEME (R367). -/
inductive PredScheme where
  | alwaysTaken | alwaysNotTaken | bimodal | adaptive
  deriving DecidableEq, Repr

/-- The parameters of R8 that hold from configuration to the end of a run (R410). -/
structure Config where
  level : Level
  l1 : CacheConfig
  l2 : CacheConfig
  llc : CacheConfig
  l1Lat : Latency
  l2Lat : Latency
  llcLat : Latency
  memLat : Latency
  memSize : Nat
  recencyMax : Nat
  predScheme : PredScheme
  predBuckets : Nat
  histBits : Nat
  predInit : BitVec 2
  /-- LAT: the listed latencies; an unlisted mnemonic has the default 1 (R8, entry 16) -/
  lat : List (Mnemonic × Nat)
  translation : Translation
  sysNumReg : Reg
  sysArgReg : Reg
  sysRetReg : Reg
  divPolicy : DivPolicy
  strCap : Nat
  deriving DecidableEq, Repr

/-- The defaults of R8. The level is the model's own (entry 1). -/
def Config.default : Config where
  level := .isa
  l1 := { size := 65536, assoc := 4, writeThrough := false, writeAllocate := true }
  l2 := { size := 262144, assoc := 8, writeThrough := false, writeAllocate := true }
  llc := { size := 8388608, assoc := 8, writeThrough := false, writeAllocate := true }
  l1Lat := { hit := 1, bus := 0 }
  l2Lat := { hit := 8, bus := 0 }
  llcLat := { hit := 20, bus := 0 }
  memLat := { hit := 100, bus := 0 }
  memSize := 4294967296
  recencyMax := 2147483647
  predScheme := .bimodal
  predBuckets := 1024
  histBits := 4
  predInit := 0
  lat := []
  translation := .identity
  sysNumReg := 17
  sysArgReg := 10
  sysRetReg := 10
  divPolicy := .riscv
  strCap := 100

/-- A byte of the flat memory and its physical address. -/
abbrev MemCell := Nat × Byte

/-- The reset-time arguments of R8: ENTRY, IMAGE (physical address and byte, R413) and INIT_REGS (slot 0 is
ignored, R411). -/
structure BootParams where
  entry : Word
  image : List MemCell
  initRegs : Vector Word 32
  deriving DecidableEq, Repr

/-- No image, INIT_REGS all zero (R8), ENTRY = 0x1000, where spec/95_test_vectors.md loads its programs:
DESIGN CHOICE (entry 2), since R412 gives no fixed reset vector. -/
def BootParams.default : BootParams where
  entry := 0x1000
  image := []
  initRegs := Vector.replicate 32 0

/-- The integer the host delivers to the n-th system call 92 once its listed inputs are used up (R295, U8):
a free value, nothing is known of it (entry 4). -/
opaque Config.readInt : Nat → Word

end Sys2Proof
end

