-- ==== Sys2Proof/WellFormed.lean ====
section
/-! DEFINITION. Which instructions have an encoding, and which configurations are legal. -/

namespace Sys2Proof

/-- An instruction is well formed when its operands have an encoding: a B or J immediate is a multiple of 2
(R148). Register numbers, the other immediates and shift amounts are in range by their widths. -/
def Instr.wf : Instr → Bool
  | .jal _ imm => imm.getLsbD 0 == false
  | .beq _ _ imm | .bne _ _ imm | .blt _ _ imm | .bge _ _ imm | .bltu _ _ imm | .bgeu _ _ imm =>
    imm.getLsbD 0 == false
  | .lui _ _ | .auipc _ _ | .jalr _ _ _ | .lb _ _ _ | .lh _ _ _ | .lw _ _ _ | .ld _ _ _ | .lbu _ _ _
  | .lhu _ _ _ | .lwu _ _ _ | .sb _ _ _ | .sh _ _ _ | .sw _ _ _ | .sd _ _ _ | .addi _ _ _ | .slti _ _ _
  | .sltiu _ _ _ | .xori _ _ _ | .ori _ _ _ | .andi _ _ _ | .slli _ _ _ | .srli _ _ _ | .srai _ _ _
  | .add _ _ _ | .sub _ _ _ | .sll _ _ _ | .slt _ _ _ | .sltu _ _ _ | .xor _ _ _ | .srl _ _ _
  | .sra _ _ _ | .or _ _ _ | .and _ _ _ | .addiw _ _ _ | .slliw _ _ _ | .srliw _ _ _ | .sraiw _ _ _
  | .addw _ _ _ | .subw _ _ _ | .sllw _ _ _ | .srlw _ _ _ | .sraw _ _ _ | .mul _ _ _ | .mulh _ _ _
  | .mulhsu _ _ _ | .mulhu _ _ _ | .div _ _ _ | .divu _ _ _ | .rem _ _ _ | .remu _ _ _ | .mulw _ _ _
  | .divw _ _ _ | .divuw _ _ _ | .remw _ _ _ | .remuw _ _ _ | .ecall => true

/-- A cache configuration is legal (R92, R387): ASSOC and SIZE are not 0, SIZE is a multiple of ASSOC * 64,
the set count divides the entry count SIZE / 64, and the set count is a power of two. -/
def CacheConfig.legal (c : CacheConfig) : Bool :=
  0 < c.assoc && 0 < c.size && c.size % (c.assoc * 64) == 0 &&
    (c.size / 64) % (c.size / (c.assoc * 64)) == 0 &&
    c.size / (c.assoc * 64) == 2 ^ Nat.log2 (c.size / (c.assoc * 64))

/-- The legal values of R8. No step and no rule of the model checks it (entry 18): `powerOn` refuses illegal caches only
(R387). -/
def Config.legal (c : Config) : Bool :=
  c.l1.legal && c.l2.legal && c.llc.legal && 0 < c.memSize && 0 < c.recencyMax && 0 < c.predBuckets &&
    0 < c.histBits && c.lat.all (fun p => 0 < p.2) && c.sysNumReg != 0 && c.sysArgReg != 0 &&
    c.sysRetReg != 0 && 0 < c.strCap

end Sys2Proof
end

