-- ==== Sys2Proof/Decode.lean ====
section
/-! DEFINITION. From bytes to instructions and back (30_encoding.md): the fields of an instruction word
(R141 to R147), its immediates (R148), the opcode table (R150) and decoding by it (R151, R155), the Fetch
stage's pre-decode (R153), and the encoder written from the same tables. -/

namespace Sys2Proof

/-- The row of the opcode table an instruction belongs to. -/
def Instr.mnemonic : Instr → Mnemonic
  | .lui _ _ => .lui
  | .auipc _ _ => .auipc
  | .jal _ _ => .jal
  | .jalr _ _ _ => .jalr
  | .beq _ _ _ => .beq
  | .bne _ _ _ => .bne
  | .blt _ _ _ => .blt
  | .bge _ _ _ => .bge
  | .bltu _ _ _ => .bltu
  | .bgeu _ _ _ => .bgeu
  | .lb _ _ _ => .lb
  | .lh _ _ _ => .lh
  | .lw _ _ _ => .lw
  | .ld _ _ _ => .ld
  | .lbu _ _ _ => .lbu
  | .lhu _ _ _ => .lhu
  | .lwu _ _ _ => .lwu
  | .sb _ _ _ => .sb
  | .sh _ _ _ => .sh
  | .sw _ _ _ => .sw
  | .sd _ _ _ => .sd
  | .addi _ _ _ => .addi
  | .slti _ _ _ => .slti
  | .sltiu _ _ _ => .sltiu
  | .xori _ _ _ => .xori
  | .ori _ _ _ => .ori
  | .andi _ _ _ => .andi
  | .slli _ _ _ => .slli
  | .srli _ _ _ => .srli
  | .srai _ _ _ => .srai
  | .add _ _ _ => .add
  | .sub _ _ _ => .sub
  | .sll _ _ _ => .sll
  | .slt _ _ _ => .slt
  | .sltu _ _ _ => .sltu
  | .xor _ _ _ => .xor
  | .srl _ _ _ => .srl
  | .sra _ _ _ => .sra
  | .or _ _ _ => .or
  | .and _ _ _ => .and
  | .addiw _ _ _ => .addiw
  | .slliw _ _ _ => .slliw
  | .srliw _ _ _ => .srliw
  | .sraiw _ _ _ => .sraiw
  | .addw _ _ _ => .addw
  | .subw _ _ _ => .subw
  | .sllw _ _ _ => .sllw
  | .srlw _ _ _ => .srlw
  | .sraw _ _ _ => .sraw
  | .mul _ _ _ => .mul
  | .mulh _ _ _ => .mulh
  | .mulhsu _ _ _ => .mulhsu
  | .mulhu _ _ _ => .mulhu
  | .div _ _ _ => .div
  | .divu _ _ _ => .divu
  | .rem _ _ _ => .rem
  | .remu _ _ _ => .remu
  | .mulw _ _ _ => .mulw
  | .divw _ _ _ => .divw
  | .divuw _ _ _ => .divuw
  | .remw _ _ _ => .remw
  | .remuw _ _ _ => .remuw
  | .ecall => .ecall

/-! ## Little-endian bytes (R64) -/

/-- The low `n` bytes of `v`, lowest first (R71). -/
def leBytes : Nat → Nat → List Byte
  | 0, _ => []
  | n + 1, v => BitVec.ofNat 8 v :: leBytes n (v / 256)

/-- The value whose bytes these are, lowest first (R70). -/
def ofLeBytes : List Byte → Nat
  | [] => 0
  | b :: bs => b.toNat + 256 * ofLeBytes bs

/-! ## Fields and immediates of an instruction word -/

namespace RawField

/-- `raw[6:0]` (R141). -/
def opcode (w : Raw) : BitVec 7 := w.extractLsb' 0 7

/-- `raw[11:7]` (R141). -/
def rd (w : Raw) : Reg := w.extractLsb' 7 5

/-- `raw[19:15]` (R141). -/
def rs1 (w : Raw) : Reg := w.extractLsb' 15 5

/-- `raw[24:20]` (R141). -/
def rs2 (w : Raw) : Reg := w.extractLsb' 20 5

/-- The I immediate before sign extension: `raw[31:20]` (R148). -/
def immI (w : Raw) : BitVec 12 := w.extractLsb' 20 12

/-- The S immediate before sign extension: raw[31:25], raw[11:7] (R148). -/
def immS (w : Raw) : BitVec 12 := w.extractLsb' 25 7 ++ w.extractLsb' 7 5

/-- The B immediate before sign extension: raw[31], raw[7], raw[30:25], raw[11:8], 0 (R148). -/
def immB (w : Raw) : BitVec 13 :=
  w.extractLsb' 31 1 ++ w.extractLsb' 7 1 ++ w.extractLsb' 25 6 ++ w.extractLsb' 8 4 ++ 0#1

/-- The U field `raw[31:12]`, the upper 20 bits of the U immediate (R148). -/
def immU (w : Raw) : BitVec 20 := w.extractLsb' 12 20

/-- The J immediate before sign extension: raw[31], raw[19:12], raw[20], raw[30:21], 0 (R148). -/
def immJ (w : Raw) : BitVec 21 :=
  w.extractLsb' 31 1 ++ w.extractLsb' 12 8 ++ w.extractLsb' 20 1 ++ w.extractLsb' 21 10 ++ 0#1

/-- The shift amount of SLLI, SRLI, SRAI: `raw[25:20]` (R143). -/
def shamt6 (w : Raw) : BitVec 6 := w.extractLsb' 20 6

/-- The shift amount of SLLIW, SRLIW, SRAIW: `raw[24:20]` (R143). -/
def shamt5 (w : Raw) : BitVec 5 := w.extractLsb' 20 5

end RawField

/-! ## The opcode table and the decoder -/

/-- A row of R150: the word `raw` is this row's instruction when `raw & mask = value`; `build` reads its
operands from the fields of the row's format. -/
structure Row where
  op : Mnemonic
  mask : Raw
  value : Raw
  build : Raw → Instr

/-- `raw & mask = match` (R150). -/
def Row.accepts (r : Row) (w : Raw) : Bool := (w &&& r.mask) == r.value

open RawField in
/-- R150: U-format and J-format rows, and JALR. -/
def upperAndJumpRows : List Row := [
  ⟨.lui, 0x0000007f, 0x00000037, fun w => .lui (rd w) (immU w)⟩,
  ⟨.auipc, 0x0000007f, 0x00000017, fun w => .auipc (rd w) (immU w)⟩,
  ⟨.jal, 0x0000007f, 0x0000006f, fun w => .jal (rd w) (immJ w)⟩,
  ⟨.jalr, 0x0000707f, 0x00000067, fun w => .jalr (rd w) (rs1 w) (immI w)⟩]

open RawField in
/-- R150: the B-format rows. -/
def branchRows : List Row := [
  ⟨.beq, 0x0000707f, 0x00000063, fun w => .beq (rs1 w) (rs2 w) (immB w)⟩,
  ⟨.bne, 0x0000707f, 0x00001063, fun w => .bne (rs1 w) (rs2 w) (immB w)⟩,
  ⟨.blt, 0x0000707f, 0x00004063, fun w => .blt (rs1 w) (rs2 w) (immB w)⟩,
  ⟨.bge, 0x0000707f, 0x00005063, fun w => .bge (rs1 w) (rs2 w) (immB w)⟩,
  ⟨.bltu, 0x0000707f, 0x00006063, fun w => .bltu (rs1 w) (rs2 w) (immB w)⟩,
  ⟨.bgeu, 0x0000707f, 0x00007063, fun w => .bgeu (rs1 w) (rs2 w) (immB w)⟩]

open RawField in
/-- R150: the loads. -/
def loadRows : List Row := [
  ⟨.lb, 0x0000707f, 0x00000003, fun w => .lb (rd w) (rs1 w) (immI w)⟩,
  ⟨.lh, 0x0000707f, 0x00001003, fun w => .lh (rd w) (rs1 w) (immI w)⟩,
  ⟨.lw, 0x0000707f, 0x00002003, fun w => .lw (rd w) (rs1 w) (immI w)⟩,
  ⟨.ld, 0x0000707f, 0x00003003, fun w => .ld (rd w) (rs1 w) (immI w)⟩,
  ⟨.lbu, 0x0000707f, 0x00004003, fun w => .lbu (rd w) (rs1 w) (immI w)⟩,
  ⟨.lhu, 0x0000707f, 0x00005003, fun w => .lhu (rd w) (rs1 w) (immI w)⟩,
  ⟨.lwu, 0x0000707f, 0x00006003, fun w => .lwu (rd w) (rs1 w) (immI w)⟩]

open RawField in
/-- R150: the S-format rows. -/
def storeRows : List Row := [
  ⟨.sb, 0x0000707f, 0x00000023, fun w => .sb (rs1 w) (rs2 w) (immS w)⟩,
  ⟨.sh, 0x0000707f, 0x00001023, fun w => .sh (rs1 w) (rs2 w) (immS w)⟩,
  ⟨.sw, 0x0000707f, 0x00002023, fun w => .sw (rs1 w) (rs2 w) (immS w)⟩,
  ⟨.sd, 0x0000707f, 0x00003023, fun w => .sd (rs1 w) (rs2 w) (immS w)⟩]

open RawField in
/-- R150: the 64-bit register-immediate rows. -/
def regImmRows : List Row := [
  ⟨.addi, 0x0000707f, 0x00000013, fun w => .addi (rd w) (rs1 w) (immI w)⟩,
  ⟨.slti, 0x0000707f, 0x00002013, fun w => .slti (rd w) (rs1 w) (immI w)⟩,
  ⟨.sltiu, 0x0000707f, 0x00003013, fun w => .sltiu (rd w) (rs1 w) (immI w)⟩,
  ⟨.xori, 0x0000707f, 0x00004013, fun w => .xori (rd w) (rs1 w) (immI w)⟩,
  ⟨.ori, 0x0000707f, 0x00006013, fun w => .ori (rd w) (rs1 w) (immI w)⟩,
  ⟨.andi, 0x0000707f, 0x00007013, fun w => .andi (rd w) (rs1 w) (immI w)⟩,
  ⟨.slli, 0xfc00707f, 0x00001013, fun w => .slli (rd w) (rs1 w) (shamt6 w)⟩,
  ⟨.srli, 0xfc00707f, 0x00005013, fun w => .srli (rd w) (rs1 w) (shamt6 w)⟩,
  ⟨.srai, 0xfc00707f, 0x40005013, fun w => .srai (rd w) (rs1 w) (shamt6 w)⟩]

open RawField in
/-- R150: the 64-bit register-register rows. -/
def regRegRows : List Row := [
  ⟨.add, 0xfe00707f, 0x00000033, fun w => .add (rd w) (rs1 w) (rs2 w)⟩,
  ⟨.sub, 0xfe00707f, 0x40000033, fun w => .sub (rd w) (rs1 w) (rs2 w)⟩,
  ⟨.sll, 0xfe00707f, 0x00001033, fun w => .sll (rd w) (rs1 w) (rs2 w)⟩,
  ⟨.slt, 0xfe00707f, 0x00002033, fun w => .slt (rd w) (rs1 w) (rs2 w)⟩,
  ⟨.sltu, 0xfe00707f, 0x00003033, fun w => .sltu (rd w) (rs1 w) (rs2 w)⟩,
  ⟨.xor, 0xfe00707f, 0x00004033, fun w => .xor (rd w) (rs1 w) (rs2 w)⟩,
  ⟨.srl, 0xfe00707f, 0x00005033, fun w => .srl (rd w) (rs1 w) (rs2 w)⟩,
  ⟨.sra, 0xfe00707f, 0x40005033, fun w => .sra (rd w) (rs1 w) (rs2 w)⟩,
  ⟨.or, 0xfe00707f, 0x00006033, fun w => .or (rd w) (rs1 w) (rs2 w)⟩,
  ⟨.and, 0xfe00707f, 0x00007033, fun w => .and (rd w) (rs1 w) (rs2 w)⟩]

open RawField in
/-- R150: the 32-bit rows. -/
def wordRows : List Row := [
  ⟨.addiw, 0x0000707f, 0x0000001b, fun w => .addiw (rd w) (rs1 w) (immI w)⟩,
  ⟨.slliw, 0xfe00707f, 0x0000101b, fun w => .slliw (rd w) (rs1 w) (shamt5 w)⟩,
  ⟨.srliw, 0xfe00707f, 0x0000501b, fun w => .srliw (rd w) (rs1 w) (shamt5 w)⟩,
  ⟨.sraiw, 0xfe00707f, 0x4000501b, fun w => .sraiw (rd w) (rs1 w) (shamt5 w)⟩,
  ⟨.addw, 0xfe00707f, 0x0000003b, fun w => .addw (rd w) (rs1 w) (rs2 w)⟩,
  ⟨.subw, 0xfe00707f, 0x4000003b, fun w => .subw (rd w) (rs1 w) (rs2 w)⟩,
  ⟨.sllw, 0xfe00707f, 0x0000103b, fun w => .sllw (rd w) (rs1 w) (rs2 w)⟩,
  ⟨.srlw, 0xfe00707f, 0x0000503b, fun w => .srlw (rd w) (rs1 w) (rs2 w)⟩,
  ⟨.sraw, 0xfe00707f, 0x4000503b, fun w => .sraw (rd w) (rs1 w) (rs2 w)⟩]

open RawField in
/-- R150: the multiply, divide and remainder rows. -/
def mulDivRows : List Row := [
  ⟨.mul, 0xfe00707f, 0x02000033, fun w => .mul (rd w) (rs1 w) (rs2 w)⟩,
  ⟨.mulh, 0xfe00707f, 0x02001033, fun w => .mulh (rd w) (rs1 w) (rs2 w)⟩,
  ⟨.mulhsu, 0xfe00707f, 0x02002033, fun w => .mulhsu (rd w) (rs1 w) (rs2 w)⟩,
  ⟨.mulhu, 0xfe00707f, 0x02003033, fun w => .mulhu (rd w) (rs1 w) (rs2 w)⟩,
  ⟨.div, 0xfe00707f, 0x02004033, fun w => .div (rd w) (rs1 w) (rs2 w)⟩,
  ⟨.divu, 0xfe00707f, 0x02005033, fun w => .divu (rd w) (rs1 w) (rs2 w)⟩,
  ⟨.rem, 0xfe00707f, 0x02006033, fun w => .rem (rd w) (rs1 w) (rs2 w)⟩,
  ⟨.remu, 0xfe00707f, 0x02007033, fun w => .remu (rd w) (rs1 w) (rs2 w)⟩,
  ⟨.mulw, 0xfe00707f, 0x0200003b, fun w => .mulw (rd w) (rs1 w) (rs2 w)⟩,
  ⟨.divw, 0xfe00707f, 0x0200403b, fun w => .divw (rd w) (rs1 w) (rs2 w)⟩,
  ⟨.divuw, 0xfe00707f, 0x0200503b, fun w => .divuw (rd w) (rs1 w) (rs2 w)⟩,
  ⟨.remw, 0xfe00707f, 0x0200603b, fun w => .remw (rd w) (rs1 w) (rs2 w)⟩,
  ⟨.remuw, 0xfe00707f, 0x0200703b, fun w => .remuw (rd w) (rs1 w) (rs2 w)⟩]

open RawField in
/-- R150: ECALL. -/
def systemRows : List Row := [
  ⟨.ecall, 0xffffffff, 0x00000073, fun _ => .ecall⟩]

/-- The complete instruction list: the 63 rows of R150. -/
def opcodeTable : List Row :=
  upperAndJumpRows ++ branchRows ++ loadRows ++ storeRows ++ regImmRows ++ regRegRows ++ wordRows ++
    mulDivRows ++ systemRows

/-- Why bytes are no instruction. -/
inductive DecodeError where
  /-- the word matches no row of R150 (R155) -/
  | unknownInstruction (raw : Raw)
  /-- not the four bytes of one instruction word (R140) -/
  | notOneWord (count : Nat)
  deriving DecidableEq, Repr

/-- R151: the row that `raw` matches, or unknown. -/
def decode (w : Raw) : Except DecodeError Instr :=
  match opcodeTable.find? (fun r => r.accepts w) with
  | some r => .ok (r.build w)
  | none => .error (.unknownInstruction w)

/-- The word assembled little-endian from bytes (R72, R140). -/
def rawOfBytes (bs : List Byte) : Raw := BitVec.ofNat 32 (ofLeBytes bs)

/-- Decoding, total on any bytes. -/
def decodeBytes (bs : List Byte) : Except DecodeError Instr :=
  if bs.length = 4 then decode (rawOfBytes bs) else .error (.notOneWord bs.length)

/-- The instruction the decoder reads from the low `nbits` bits of `w`, bit 0 the least significant bit of
the word, laid out as the four little-endian bytes the hardware fetches. -/
def decodeTableWord (nbits w : Nat) : Option Instr :=
  match decodeBytes (leBytes 4 (w % 2 ^ nbits)) with
  | .ok i => some i
  | .error _ => none

/-! ## The Fetch stage's pre-decode -/

/-- What Fetch sees in `raw[6:0]` (R153). -/
inductive FetchClass where
  | jump | branch | other
  deriving DecidableEq, Repr

/-- R153: the opcode alone decides; funct3 is not looked at. -/
def fetchClass (w : Raw) : FetchClass :=
  if RawField.opcode w = 0b1101111#7 then .jump
  else if RawField.opcode w = 0b1100011#7 then .branch
  else .other

/-! ## The encoder -/

/-- R142. -/
def encodeR (funct7 : BitVec 7) (rs2 rs1 : Reg) (funct3 : BitVec 3) (rd : Reg) (opcode : BitVec 7) : Raw :=
  funct7 ++ rs2 ++ rs1 ++ funct3 ++ rd ++ opcode

/-- R143. -/
def encodeI (imm : BitVec 12) (rs1 : Reg) (funct3 : BitVec 3) (rd : Reg) (opcode : BitVec 7) : Raw :=
  imm ++ rs1 ++ funct3 ++ rd ++ opcode

/-- R144. -/
def encodeS (imm : BitVec 12) (rs2 rs1 : Reg) (funct3 : BitVec 3) (opcode : BitVec 7) : Raw :=
  imm.extractLsb' 5 7 ++ rs2 ++ rs1 ++ funct3 ++ imm.extractLsb' 0 5 ++ opcode

/-- R145; the immediate's bit 0 has no place in the word. -/
def encodeB (imm : BitVec 13) (rs2 rs1 : Reg) (funct3 : BitVec 3) (opcode : BitVec 7) : Raw :=
  imm.extractLsb' 12 1 ++ imm.extractLsb' 5 6 ++ rs2 ++ rs1 ++ funct3 ++ imm.extractLsb' 1 4 ++
    imm.extractLsb' 11 1 ++ opcode

/-- R146. -/
def encodeU (imm20 : BitVec 20) (rd : Reg) (opcode : BitVec 7) : Raw := imm20 ++ rd ++ opcode

/-- R147; the immediate's bit 0 has no place in the word. -/
def encodeJ (imm : BitVec 21) (rd : Reg) (opcode : BitVec 7) : Raw :=
  imm.extractLsb' 20 1 ++ imm.extractLsb' 1 10 ++ imm.extractLsb' 11 1 ++ imm.extractLsb' 12 8 ++ rd ++ opcode

/-- The word of an instruction, written from the opcode, funct3 and funct7 columns of R150. -/
def encode : Instr → Raw
  | .lui rd imm20 => encodeU imm20 rd 0b0110111#7
  | .auipc rd imm20 => encodeU imm20 rd 0b0010111#7
  | .jal rd imm => encodeJ imm rd 0b1101111#7
  | .jalr rd rs1 imm => encodeI imm rs1 0b000#3 rd 0b1100111#7
  | .beq rs1 rs2 imm => encodeB imm rs2 rs1 0b000#3 0b1100011#7
  | .bne rs1 rs2 imm => encodeB imm rs2 rs1 0b001#3 0b1100011#7
  | .blt rs1 rs2 imm => encodeB imm rs2 rs1 0b100#3 0b1100011#7
  | .bge rs1 rs2 imm => encodeB imm rs2 rs1 0b101#3 0b1100011#7
  | .bltu rs1 rs2 imm => encodeB imm rs2 rs1 0b110#3 0b1100011#7
  | .bgeu rs1 rs2 imm => encodeB imm rs2 rs1 0b111#3 0b1100011#7
  | .lb rd rs1 imm => encodeI imm rs1 0b000#3 rd 0b0000011#7
  | .lh rd rs1 imm => encodeI imm rs1 0b001#3 rd 0b0000011#7
  | .lw rd rs1 imm => encodeI imm rs1 0b010#3 rd 0b0000011#7
  | .ld rd rs1 imm => encodeI imm rs1 0b011#3 rd 0b0000011#7
  | .lbu rd rs1 imm => encodeI imm rs1 0b100#3 rd 0b0000011#7
  | .lhu rd rs1 imm => encodeI imm rs1 0b101#3 rd 0b0000011#7
  | .lwu rd rs1 imm => encodeI imm rs1 0b110#3 rd 0b0000011#7
  | .sb rs1 rs2 imm => encodeS imm rs2 rs1 0b000#3 0b0100011#7
  | .sh rs1 rs2 imm => encodeS imm rs2 rs1 0b001#3 0b0100011#7
  | .sw rs1 rs2 imm => encodeS imm rs2 rs1 0b010#3 0b0100011#7
  | .sd rs1 rs2 imm => encodeS imm rs2 rs1 0b011#3 0b0100011#7
  | .addi rd rs1 imm => encodeI imm rs1 0b000#3 rd 0b0010011#7
  | .slti rd rs1 imm => encodeI imm rs1 0b010#3 rd 0b0010011#7
  | .sltiu rd rs1 imm => encodeI imm rs1 0b011#3 rd 0b0010011#7
  | .xori rd rs1 imm => encodeI imm rs1 0b100#3 rd 0b0010011#7
  | .ori rd rs1 imm => encodeI imm rs1 0b110#3 rd 0b0010011#7
  | .andi rd rs1 imm => encodeI imm rs1 0b111#3 rd 0b0010011#7
  | .slli rd rs1 shamt => encodeI (0b000000#6 ++ shamt) rs1 0b001#3 rd 0b0010011#7
  | .srli rd rs1 shamt => encodeI (0b000000#6 ++ shamt) rs1 0b101#3 rd 0b0010011#7
  | .srai rd rs1 shamt => encodeI (0b010000#6 ++ shamt) rs1 0b101#3 rd 0b0010011#7
  | .add rd rs1 rs2 => encodeR 0b0000000#7 rs2 rs1 0b000#3 rd 0b0110011#7
  | .sub rd rs1 rs2 => encodeR 0b0100000#7 rs2 rs1 0b000#3 rd 0b0110011#7
  | .sll rd rs1 rs2 => encodeR 0b0000000#7 rs2 rs1 0b001#3 rd 0b0110011#7
  | .slt rd rs1 rs2 => encodeR 0b0000000#7 rs2 rs1 0b010#3 rd 0b0110011#7
  | .sltu rd rs1 rs2 => encodeR 0b0000000#7 rs2 rs1 0b011#3 rd 0b0110011#7
  | .xor rd rs1 rs2 => encodeR 0b0000000#7 rs2 rs1 0b100#3 rd 0b0110011#7
  | .srl rd rs1 rs2 => encodeR 0b0000000#7 rs2 rs1 0b101#3 rd 0b0110011#7
  | .sra rd rs1 rs2 => encodeR 0b0100000#7 rs2 rs1 0b101#3 rd 0b0110011#7
  | .or rd rs1 rs2 => encodeR 0b0000000#7 rs2 rs1 0b110#3 rd 0b0110011#7
  | .and rd rs1 rs2 => encodeR 0b0000000#7 rs2 rs1 0b111#3 rd 0b0110011#7
  | .addiw rd rs1 imm => encodeI imm rs1 0b000#3 rd 0b0011011#7
  | .slliw rd rs1 shamt => encodeI (0b0000000#7 ++ shamt) rs1 0b001#3 rd 0b0011011#7
  | .srliw rd rs1 shamt => encodeI (0b0000000#7 ++ shamt) rs1 0b101#3 rd 0b0011011#7
  | .sraiw rd rs1 shamt => encodeI (0b0100000#7 ++ shamt) rs1 0b101#3 rd 0b0011011#7
  | .addw rd rs1 rs2 => encodeR 0b0000000#7 rs2 rs1 0b000#3 rd 0b0111011#7
  | .subw rd rs1 rs2 => encodeR 0b0100000#7 rs2 rs1 0b000#3 rd 0b0111011#7
  | .sllw rd rs1 rs2 => encodeR 0b0000000#7 rs2 rs1 0b001#3 rd 0b0111011#7
  | .srlw rd rs1 rs2 => encodeR 0b0000000#7 rs2 rs1 0b101#3 rd 0b0111011#7
  | .sraw rd rs1 rs2 => encodeR 0b0100000#7 rs2 rs1 0b101#3 rd 0b0111011#7
  | .mul rd rs1 rs2 => encodeR 0b0000001#7 rs2 rs1 0b000#3 rd 0b0110011#7
  | .mulh rd rs1 rs2 => encodeR 0b0000001#7 rs2 rs1 0b001#3 rd 0b0110011#7
  | .mulhsu rd rs1 rs2 => encodeR 0b0000001#7 rs2 rs1 0b010#3 rd 0b0110011#7
  | .mulhu rd rs1 rs2 => encodeR 0b0000001#7 rs2 rs1 0b011#3 rd 0b0110011#7
  | .div rd rs1 rs2 => encodeR 0b0000001#7 rs2 rs1 0b100#3 rd 0b0110011#7
  | .divu rd rs1 rs2 => encodeR 0b0000001#7 rs2 rs1 0b101#3 rd 0b0110011#7
  | .rem rd rs1 rs2 => encodeR 0b0000001#7 rs2 rs1 0b110#3 rd 0b0110011#7
  | .remu rd rs1 rs2 => encodeR 0b0000001#7 rs2 rs1 0b111#3 rd 0b0110011#7
  | .mulw rd rs1 rs2 => encodeR 0b0000001#7 rs2 rs1 0b000#3 rd 0b0111011#7
  | .divw rd rs1 rs2 => encodeR 0b0000001#7 rs2 rs1 0b100#3 rd 0b0111011#7
  | .divuw rd rs1 rs2 => encodeR 0b0000001#7 rs2 rs1 0b101#3 rd 0b0111011#7
  | .remw rd rs1 rs2 => encodeR 0b0000001#7 rs2 rs1 0b110#3 rd 0b0111011#7
  | .remuw rd rs1 rs2 => encodeR 0b0000001#7 rs2 rs1 0b111#3 rd 0b0111011#7
  | .ecall => encodeI 0 0 0b000#3 0 0b1110011#7

end Sys2Proof
end

