-- ==== Sys2Proof/Machine/State.lean ====
section
/-! DEFINITION. Everything the spec gives the machine as state (10_state.md), as plain data; why a step
stops; and the state after reset. -/

namespace Sys2Proof.Machine

/-! ## Fatal conditions and the run status -/

/-- The closed list of fatal reasons with the values that can be observed of each (R381). -/
inductive FatalReason where
  /-- `Translate` gives no address for this virtual address (R67) -/
  | translationMiss (va : Word)
  /-- an access of this many bytes at this physical address would cross a 64-byte block (R74, R99) -/
  | blockCrossing (addr size : Nat)
  /-- a request reached the flat memory beyond its size (R68, R95) -/
  | memoryRange (addr size : Nat)
  /-- this word, fetched from this address, matches no row of the opcode table (R155, R383) -/
  | unknownInstruction (raw : Raw) (pc : Word)
  /-- a system call whose number is not 88 to 93 (R297) -/
  | unknownSyscall (num : Word)
  /-- division by zero or signed overflow under DIV_POLICY = fatal (R284, R385) -/
  | divide
  /-- an illegal cache configuration, before reset (R92, R387) -/
  | badCacheConfig (level : CacheLevel) (cfg : CacheConfig)
  /-- a cache configured a second time, before reset (R36, R388) -/
  | reconfigure (level : CacheLevel)
  deriving DecidableEq, Repr

/-- The run status (R41). -/
inductive RunStatus where
  | running
  /-- ended by system call 93 with this exit status (R296, R396) -/
  | halted (status : Word)
  /-- stopped by a fatal condition (R380) -/
  | fatal (reason : FatalReason)
  deriving DecidableEq, Repr

/-! ## The storage hierarchy -/

/-- A store's StorageStats (R38). -/
structure Stats where
  access : Nat
  miss : Nat
  replace : Nat
  fetch : Nat
  time : Nat
  deriving DecidableEq, Repr

/-- All counters 0 (R414). -/
def Stats.zero : Stats := { access := 0, miss := 0, replace := 0, fetch := 0, time := 0 }

/-- A cache entry (R33). Its owning set is its index div ASSOC. `data` holds 64 bytes, lowest address first. -/
structure Entry where
  valid : Bool
  dirty : Bool
  tag : Nat
  recency : Nat
  data : List Byte
  deriving DecidableEq, Repr

/-- An entry as reset leaves it: invalid, clean, tag 0, 64 zero bytes (R33, R416); `recency` is 0 at reset and
grows with every `Touch` of another entry (R101). -/
def Entry.blank (recency : Nat) : Entry where
  valid := false
  dirty := false
  tag := 0
  recency := recency
  data := List.replicate 64 0

/-- A cache's state (R33, R38): the entries that were ever filled by index, indices strictly rising; and `untouched`,
the recency of every other one, the same for all of them since `Touch` ages them alike (R101, entry 6). `Cache.entry`
(Machine/Cache.lean) is the array of R33. -/
structure Cache where
  entries : List (Nat × Entry)
  untouched : Nat
  stats : Stats
  deriving DecidableEq, Repr

/-- The flat memory MEM (R32, R38): its bytes by physical address, in canonical form (`FlatMemory.wf`). An
address that is not listed holds 0, as the zero-initialized array does (R32). -/
structure FlatMemory where
  cells : List Host.Cell
  stats : Stats
  deriving DecidableEq, Repr

/-! ## The pipeline registers (R27 to R29): `none` is a bubble -/

/-- The fetch register PCF (R27). -/
structure FetchReg where
  pc : Word
  drain : Bool
  deriving DecidableEq, Repr

/-- FD: an instruction fetched and not yet decoded (R29). -/
structure FetchDecode where
  pc : Word
  raw : Raw
  predTaken : Bool
  deriving DecidableEq, Repr

/-- DE: an instruction decoded, its operands read (R29). -/
structure DecodeExecute where
  pc : Word
  raw : Raw
  op : Mnemonic
  fmt : Format
  imm : Word
  rs1 : Reg
  rs2 : Reg
  v1 : Word
  v2 : Word
  rdAlu : Reg
  rdMem : Reg
  predTaken : Bool
  deriving DecidableEq, Repr

/-- EM: an instruction executed (R29); `v2` is the store data. -/
structure ExecuteMemory where
  pc : Word
  raw : Raw
  op : Mnemonic
  fmt : Format
  imm : Word
  v2 : Word
  alu : Word
  btarget : Word
  rdAlu : Reg
  rdMem : Reg
  deriving DecidableEq, Repr

/-- MW: an instruction past the Memory stage (R29). -/
structure MemoryWriteback where
  pc : Word
  raw : Raw
  op : Mnemonic
  fmt : Format
  alu : Word
  mval : Word
  rdAlu : Reg
  rdMem : Reg
  deriving DecidableEq, Repr

/-! ## Predictor, counters, host -/

/-- The predictor's tables (R34), by index, a value listed only where it differs from its reset value: `ctr`
and `actr` from PRED_INIT, `hist` from 0 (R422). `actr[b][p]` has index `b * 2^HIST_BITS + p`. -/
structure Predictor where
  ctr : List (Nat × BitVec 2)
  actr : List (Nat × BitVec 2)
  hist : List (Nat × Nat)
  deriving DecidableEq, Repr

/-- The pipeline's counters (R39) and the predictor's (R40). -/
structure Counters where
  cycles : Nat
  ticks : Nat
  retired : Nat
  dataHazard : Nat
  loadUse : Nat
  controlHazard : Nat
  syscall : Nat
  fetchStall : Nat
  branchOk : Nat
  branchTotal : Nat
  deriving DecidableEq, Repr

/-- All counters 0 (R414). -/
def Counters.zero : Counters where
  cycles := 0
  ticks := 0
  retired := 0
  dataHazard := 0
  loadUse := 0
  controlHazard := 0
  syscall := 0
  fetchStall := 0
  branchOk := 0
  branchTotal := 0

/-- What the hardware hands to the host (R291 to R296): values, not text (U20). -/
inductive HostEvent where
  | sleep (arg : Word)
  | printInt (arg : Word)
  | printChar (arg : Word)
  | printString (bytes : List Byte) (truncated : Bool)
  /-- the host delivered this integer (R295) -/
  | readInt (value : Word)
  | exit (status : Word)
  deriving DecidableEq, Repr

/-! ## The machine -/

/-- The whole machine. INVENTORY.md lists each field with the rule that names it. -/
structure State where
  /-- the configuration, constant during a run (R35 to R37, R410) -/
  cfg : Config
  /-- the register file (R20); slot 0 is never written and never read (R21) -/
  x : Vector Word 32
  /-- the program counter of level ISA (R23) -/
  pc : Word
  /-- PCF (R27) -/
  pcf : FetchReg
  /-- FD (R28) -/
  fd : Option FetchDecode
  /-- DE (R28) -/
  de : Option DecodeExecute
  /-- EM (R28) -/
  em : Option ExecuteMemory
  /-- MW (R28) -/
  mw : Option MemoryWriteback
  /-- L1 (R33, R91) -/
  l1 : Cache
  /-- L2 -/
  l2 : Cache
  /-- LLC -/
  llc : Cache
  /-- MEM (R32) -/
  mem : FlatMemory
  /-- the predictor's tables (R34) -/
  pred : Predictor
  /-- the counters (R39, R40) -/
  counters : Counters
  /-- mem_time: the largest time an L1 request of the present cycle returned (R70, R340) -/
  memTime : Nat
  /-- the run status (R41) -/
  status : RunStatus
  /-- the host events so far, oldest first (R291 to R296) -/
  trace : List HostEvent
  /-- the integers the host has ready for system call 92 (R295); the model's own (entry 4) -/
  input : List Word
  /-- how many integers system call 92 has read; the model's own (entry 4) -/
  inputsRead : Nat
  /-- for each of the last three instructions of level ISA, newest first, the physical address and width it
  stored to; the model's own, for the refusal of R431 (entry 5) -/
  recentStores : List (Option (Nat × Nat))
  deriving DecidableEq, Repr

/-- Why a step stops: the machine has already stopped, and no rule makes a further step (R41, U4). Safe: no
claim about a next state can be proved of such a step. -/
inductive Fault where
  /-- raised by `step` on a machine that system call 93 has halted (R396). Safe. -/
  | halted (status : Word)
  /-- raised by `step` on a machine that a fatal condition has stopped (R380). Safe. -/
  | fatal (reason : FatalReason)
  deriving DecidableEq, Repr

/-- Why the model gives a step no meaning. -/
inductive Refusal where
  /-- raised by `exec` for an instruction that has no meaning yet; no arm raises it. Safe. -/
  | notModelled (mnemonic : String)
  /-- raised by `step` at level ISA for a fetch of bytes that one of the three preceding instructions stored
  to, as R82 and R431 ask of a model of that level (entry 5). Safe. Level CYCLE never raises it. -/
  | staleFetch (pc : Word)
  deriving DecidableEq, Repr

/-! ## Reset -/

/-- A cache at reset: every entry blank with recency 0, every counter 0 (R414, R416). -/
def Cache.empty : Cache := { entries := [], untouched := 0, stats := Stats.zero }

/-- A zero-initialized memory (R32, R413). -/
def FlatMemory.zero : FlatMemory := { cells := [], stats := Stats.zero }

/-- Every counter PRED_INIT, every history 0 (R422). -/
def Predictor.initial : Predictor := { ctr := [], actr := [], hist := [] }

/-- The machine right after reset (R411 to R417, R422) with the default configuration and boot arguments: no
image, ENTRY = 0x1000 (entry 2). `resetWith` (Machine/Boot.lean) is reset for any of them. -/
def State.reset : State where
  cfg := Config.default
  x := Vector.replicate 32 0
  pc := BootParams.default.entry
  pcf := { pc := BootParams.default.entry, drain := false }
  fd := none
  de := none
  em := none
  mw := none
  l1 := Cache.empty
  l2 := Cache.empty
  llc := Cache.empty
  mem := FlatMemory.zero
  pred := Predictor.initial
  counters := Counters.zero
  memTime := 0
  status := .running
  trace := []
  input := []
  inputsRead := 0
  recentStores := []

end Sys2Proof.Machine
end

