-- ==== Sys2Proof/Machine/Memory.lean ====
section
/-! DEFINITION. Sparse tables in canonical form, requests and replies (R90), and the flat memory (R93 to R96). -/

namespace Sys2Proof.Machine

/-! ## Sparse tables

A table is a list of (key, value) with keys strictly rising. With a default value, a table lists no default:
then equal tables are equal lists. -/

namespace Sparse

/-- The listed value at `k`. -/
def find? {α : Type} : List (Nat × α) → Nat → Option α
  | [], _ => none
  | (j, v) :: l, k => if k = j then some v else find? l k

/-- The value at `k`: the default `d` where nothing is listed. -/
def get {α : Type} (d : α) (l : List (Nat × α)) (k : Nat) : α := (find? l k).getD d

/-- List `v` at `k`, replacing what was listed there. -/
def insert {α : Type} : List (Nat × α) → Nat → α → List (Nat × α)
  | [], k, v => [(k, v)]
  | (j, w) :: l, k, v =>
    if k < j then (k, v) :: (j, w) :: l
    else if k = j then (k, v) :: l
    else (j, w) :: insert l k v

/-- List nothing at `k`. -/
def erase {α : Type} (l : List (Nat × α)) (k : Nat) : List (Nat × α) := l.filter (fun p => p.1 != k)

/-- Make the value at `k` be `v`, keeping the canonical form for the default `d`. -/
def set {α : Type} [DecidableEq α] (d : α) (l : List (Nat × α)) (k : Nat) (v : α) : List (Nat × α) :=
  if v = d then erase l k else insert l k v

/-- The keys strictly rise. -/
def sorted {α : Type} : List (Nat × α) → Bool
  | [] => true
  | (k, _) :: l => l.all (fun p => k < p.1) && sorted l

/-- The canonical form for the default `d`. -/
def wf {α : Type} [DecidableEq α] (d : α) (l : List (Nat × α)) : Bool :=
  sorted l && l.all (fun p => p.2 != d)

end Sparse

/-! ## Replies -/

/-- What an operation on a state of type `σ` answers: a value and the state after it, or a fatal condition and
the state it leaves, since changes made before the condition stay made (R380). -/
inductive Reply (σ α : Type) where
  | ok (a : α) (s : σ)
  | fatal (r : FatalReason) (s : σ)
  deriving DecidableEq, Repr

/-- Go on with the next operation; a fatal condition ends the sequence (R10, R380). -/
def Reply.bind {σ α β : Type} (r : Reply σ α) (k : α → σ → Reply σ β) : Reply σ β :=
  match r with
  | .ok a s => k a s
  | .fatal e s => .fatal e s

/-- The same reply about a larger state. -/
def Reply.embed {σ τ α : Type} (f : σ → τ) (r : Reply σ α) : Reply τ α :=
  match r with
  | .ok a s => .ok a (f s)
  | .fatal e s => .fatal e (f s)

/-- The same reply with another value. -/
def Reply.map {σ α β : Type} (f : α → β) (r : Reply σ α) : Reply σ β :=
  match r with
  | .ok a s => .ok (f a) s
  | .fatal e s => .fatal e s

/-! ## Requests -/

/-- `HandleRequest(addr, size, isRead, buffer)` (R90): a read has no use for `buffer`. -/
structure Request where
  addr : Nat
  size : Nat
  isRead : Bool
  buffer : List Byte
  deriving DecidableEq, Repr

/-- A read of `n` bytes. -/
def Request.read (addr n : Nat) : Request := { addr := addr, size := n, isRead := true, buffer := [] }

/-- A write of the bytes of `buffer`. -/
def Request.write (addr : Nat) (buffer : List Byte) : Request :=
  { addr := addr, size := buffer.length, isRead := false, buffer := buffer }

/-- The answer `(hit, time)` (R90) with the bytes a read puts in the buffer. -/
structure Answer where
  hit : Bool
  time : Nat
  bytes : List Byte
  deriving DecidableEq, Repr

/-! ## The flat memory -/

/-- What an unlisted address reads as: 0, since the array is zero-initialized (R32). -/
def FlatMemory.background : Byte := 0

/-- The byte MEM[pa] (R32). -/
def FlatMemory.byte (m : FlatMemory) (pa : Nat) : Byte := Sparse.get FlatMemory.background m.cells pa

/-- `buffer[k] <- MEM[addr + k]`, k in 0 to n - 1 (R93). -/
def FlatMemory.bytes (m : FlatMemory) (addr n : Nat) : List Byte :=
  (List.range n).map (fun k => m.byte (addr + k))

/-- `MEM[addr + k] <- buffer[k]` on the listed bytes (R93). -/
def writeCells (cells : List Host.Cell) (addr : Nat) : List Byte → List Host.Cell
  | [] => cells
  | b :: bs => writeCells (Sparse.set FlatMemory.background cells addr b) (addr + 1) bs

/-- The memory with the buffer's bytes written from `addr` up (R93). -/
def FlatMemory.writeBytes (m : FlatMemory) (addr : Nat) (buffer : List Byte) : FlatMemory :=
  { m with cells := writeCells m.cells addr buffer }

/-- The canonical form: addresses strictly rising, no byte equal to what an unlisted address reads as. -/
def FlatMemory.wf (m : FlatMemory) : Bool := Sparse.wf FlatMemory.background m.cells

/-- R96: one more access, HIT + BUS more ticks. -/
def FlatMemory.count (lat : Latency) (m : FlatMemory) : FlatMemory :=
  { m with stats := { m.stats with access := m.stats.access + 1, time := m.stats.time + (lat.hit + lat.bus) } }

/-- `MEM.HandleRequest` (R93 to R96): fatal beyond MEM_SIZE, before anything else (entry 17); else the bytes
are copied, and the answer is a hit in HIT + BUS ticks. -/
def memRequest (memSize : Nat) (lat : Latency) (q : Request) (m : FlatMemory) : Reply FlatMemory Answer :=
  if memSize < q.addr + q.size then .fatal (.memoryRange q.addr q.size) m
  else if q.isRead then
    .ok { hit := true, time := lat.hit + lat.bus, bytes := m.bytes q.addr q.size } (m.count lat)
  else
    .ok { hit := true, time := lat.hit + lat.bus, bytes := [] } ((m.writeBytes q.addr q.buffer).count lat)

end Sys2Proof.Machine
end

