-- ==== Sys2Proof/Machine/Cache.lean ====
section
/-! DEFINITION. The cache controller (R97 to R115, R125): one algorithm over whatever store lies below, used for
L1, L2 and LLC; and the coherent view (R73). -/

namespace Sys2Proof.Machine

/-! ## Geometry (R92, R98) -/

/-- `setCount = SIZE / (ASSOC * 64)` (R92). -/
def setCount (cc : CacheConfig) : Nat := cc.size / (cc.assoc * 64)

/-- `entryCount = SIZE / 64` (R33). -/
def entryCount (cc : CacheConfig) : Nat := cc.size / 64

/-- `offset = address mod 2^6` (R98). -/
def blockOffset (addr : Nat) : Nat := addr % 64

/-- The address of the first byte of the block (R98). -/
def blockBase (addr : Nat) : Nat := addr - blockOffset addr

/-- `setId = (address >> 6) mod setCount` (R98; a legal set count is a power of two, entry 13). -/
def setIndex (cc : CacheConfig) (addr : Nat) : Nat := addr / 64 % setCount cc

/-- `tag = address >> (6 + s)` with `setCount = 2^s` (R98; entry 13). -/
def tagOf (cc : CacheConfig) (addr : Nat) : Nat := addr / 64 / setCount cc

/-- The set that owns entry `i`: `i div ASSOC` (R33). -/
def owningSet (cc : CacheConfig) (i : Nat) : Nat := i / cc.assoc

/-- The address of the block that entry `i` holds with this tag, "reconstructed from its tag and the known set
id" (R98). -/
def entryBase (cc : CacheConfig) (i tag : Nat) : Nat := (tag * setCount cc + owningSet cc i) * 64

/-- The entries of set `q` in increasing index (R100). -/
def ways (cc : CacheConfig) (q : Nat) : List Nat := (List.range cc.assoc).map (fun w => q * cc.assoc + w)

/-! ## Entries -/

/-- Entry `i` of the array (R33); one that was never filled is blank (R416, entry 6). -/
def Cache.entry (c : Cache) (i : Nat) : Entry :=
  match Sparse.find? c.entries i with
  | some e => e
  | none => Entry.blank c.untouched

/-- Replace entry `i`. -/
def Cache.set (c : Cache) (i : Nat) (e : Entry) : Cache := { c with entries := Sparse.insert c.entries i e }

/-- Change entry `i`. -/
def Cache.modify (c : Cache) (i : Nat) (f : Entry → Entry) : Cache := c.set i (f (c.entry i))

/-- `valid && tag == addr_tag` (R100). -/
def Cache.holds (c : Cache) (i tag : Nat) : Bool := (c.entry i).valid && (c.entry i).tag == tag

/-- R100: the first entry of the set, in increasing index, that is valid with this tag. -/
def Cache.lookup (cc : CacheConfig) (c : Cache) (addr : Nat) : Option Nat :=
  (ways cc (setIndex cc addr)).find? (fun i => c.holds i (tagOf cc addr))

/-- R105: the first entry of the set, in increasing index, that is invalid. -/
def Cache.freeEntry (cc : CacheConfig) (c : Cache) (q : Nat) : Option Nat :=
  (ways cc q).find? (fun i => !(c.entry i).valid)

/-- R109: the entry with the largest recency, the lowest index on a tie. -/
def Cache.victim (cc : CacheConfig) (c : Cache) (q : Nat) : Nat :=
  (ways cc q).foldl (fun best i => if (c.entry best).recency < (c.entry i).recency then i else best) (q * cc.assoc)

/-- One access older, up to RECENCY_MAX (R101). -/
def older (recencyMax recency : Nat) : Nat := min (recency + 1) recencyMax

/-- Every entry of the cache one access older: "all sets, valid or not" (R101), the never filled ones together. -/
def Cache.age (recencyMax : Nat) (c : Cache) : Cache :=
  { c with
    entries := c.entries.map (fun p => (p.1, { p.2 with recency := older recencyMax p.2.recency }))
    untouched := older recencyMax c.untouched }

/-- R101, `Touch`: entry `i` becomes the most recently used; every other entry of the cache ages. -/
def Cache.touch (recencyMax : Nat) (c : Cache) (i : Nat) : Cache :=
  (c.age recencyMax).set i { c.entry i with recency := 0 }

/-- The data with `buffer` copied in at `offset` (R102 to R104). -/
def spliceBytes (data : List Byte) (offset : Nat) (buffer : List Byte) : List Byte :=
  data.take offset ++ buffer ++ data.drop (offset + buffer.length)

/-- `n` bytes of the data from `offset` (R102). -/
def sliceBytes (data : List Byte) (offset n : Nat) : List Byte := (data.drop offset).take n

/-- A block just fetched: valid, clean, recency 0 (R106). -/
def freshEntry (tag : Nat) (data : List Byte) : Entry :=
  { valid := true, dirty := false, tag := tag, recency := 0, data := data }

/-- Put a block fetched from the lower store into entry `i`, valid, clean and most recently used (R106). -/
def Cache.install (recencyMax : Nat) (c : Cache) (i tag : Nat) (data : List Byte) : Cache :=
  (c.set i (freshEntry tag data)).touch recencyMax i

/-! ## Statistics (R125) -/

/-- One more access. -/
def Cache.countAccess (c : Cache) : Cache := { c with stats := { c.stats with access := c.stats.access + 1 } }

/-- One more miss. -/
def Cache.countMiss (c : Cache) : Cache := { c with stats := { c.stats with miss := c.stats.miss + 1 } }

/-- One more eviction. -/
def Cache.countReplace (c : Cache) : Cache := { c with stats := { c.stats with replace := c.stats.replace + 1 } }

/-- One more block read from the lower store. -/
def Cache.countFetch (c : Cache) : Cache := { c with stats := { c.stats with fetch := c.stats.fetch + 1 } }

/-- The time returned to the requester is added to the cache's own. -/
def Cache.countTime (c : Cache) (t : Nat) : Cache := { c with stats := { c.stats with time := c.stats.time + t } }

/-! ## The request (R112) -/

/-- What one cache's controller is configured with (R36, R37, R8). -/
structure CacheParams where
  cfg : CacheConfig
  lat : Latency
  recencyMax : Nat
  deriving DecidableEq, Repr

/-- The time of a hit without lower stores: BUS + HIT (R113). -/
def CacheParams.hitTime (p : CacheParams) : Nat := p.lat.bus + p.lat.hit

section
variable {σ : Type} (lower : Request → σ → Reply σ Answer) (p : CacheParams)

/-- A request of this cache to its lower store. -/
def askLower (q : Request) (st : Cache × σ) : Reply (Cache × σ) Answer :=
  (lower q st.2).embed (fun l => (st.1, l))

/-- Return `(hit, time)` and the bytes, adding the time to the cache's own (R112, R125). -/
def respond (hit : Bool) (time : Nat) (bytes : List Byte) (st : Cache × σ) : Reply (Cache × σ) Answer :=
  .ok { hit := hit, time := time, bytes := bytes } (st.1.countTime time, st.2)

/-- A hit in entry `i`: R102 on a read, R103 on a write under write-through, R104 under write-back. -/
def cacheHit (q : Request) (i : Nat) (st : Cache × σ) : Reply (Cache × σ) Answer :=
  let c := st.1.touch p.recencyMax i
  if q.isRead then
    respond true p.hitTime (sliceBytes (c.entry i).data (blockOffset q.addr) q.size) (c, st.2)
  else
    let c := c.modify i (fun e => { e with data := spliceBytes e.data (blockOffset q.addr) q.buffer })
    if p.cfg.writeThrough then
      (askLower lower q (c, st.2)).bind fun a st =>
        respond true (p.hitTime + a.time) [] (st.1.modify i (fun e => { e with dirty := false }), st.2)
    else
      respond true p.hitTime [] (c.modify i (fun e => { e with dirty := true }), st.2)

/-- A write miss with no-allocate goes to the lower store and touches no entry (R108). -/
def cacheForward (q : Request) (st : Cache × σ) : Reply (Cache × σ) Answer :=
  (askLower lower q st).bind fun a st => respond false (p.hitTime + a.time + p.lat.bus) [] st

/-- A free entry of set `q`: an invalid one (R105), or else the victim (R109), whose block goes to the lower
store if it is dirty, its time not waited for (R110, R115), and which is then invalid (R111). -/
def makeRoom (q : Nat) (st : Cache × σ) : Reply (Cache × σ) Nat :=
  match st.1.freeEntry p.cfg q with
  | some i => .ok i st
  | none =>
    let v := st.1.victim p.cfg q
    let c := st.1.countReplace
    let drop : Cache × σ → Reply (Cache × σ) Nat := fun st =>
      .ok v (st.1.modify v (fun e => { e with valid := false, dirty := false }), st.2)
    let e := c.entry v
    if e.dirty then
      (askLower lower (Request.write (entryBase p.cfg v e.tag) e.data) (c, st.2)).bind fun _ st => drop st
    else drop (c, st.2)

/-- A miss that installs the block: R106 on a read; R107 on a write with write-allocate, three requests to the
lower store in the order block read, write, block read. -/
def cacheFill (q : Request) (st : Cache × σ) : Reply (Cache × σ) Answer :=
  let blockRead := Request.read (blockBase q.addr) 64
  (makeRoom lower p (setIndex p.cfg q.addr) st).bind fun i st =>
  (askLower lower blockRead st).bind fun a₁ st =>
  let st := (st.1.countFetch, st.2)
  if q.isRead then
    respond false (p.hitTime + a₁.time + p.lat.bus) (sliceBytes a₁.bytes (blockOffset q.addr) q.size)
      (st.1.install p.recencyMax i (tagOf p.cfg q.addr) a₁.bytes, st.2)
  else
    (askLower lower q st).bind fun a₂ st =>
    (askLower lower blockRead st).bind fun a₃ st =>
    respond false (p.hitTime + a₁.time + a₂.time + a₃.time + p.lat.bus) []
      (st.1.countFetch.install p.recencyMax i (tagOf p.cfg q.addr) a₃.bytes, st.2)

/-- `C.HandleRequest` (R112). -/
def cacheRequest (q : Request) (st : Cache × σ) : Reply (Cache × σ) Answer :=
  if 64 < blockOffset q.addr + q.size then .fatal (.blockCrossing q.addr q.size) st
  else
    let c := st.1.countAccess
    match c.lookup p.cfg q.addr with
    | some i => cacheHit lower p q i (c, st.2)
    | none =>
      if !q.isRead && !p.cfg.writeAllocate then cacheForward lower p q (c.countMiss, st.2)
      else cacheFill lower p q (c.countMiss, st.2)

end

/-! ## The chain L1, L2, LLC, MEM (R91) -/

/-- The four stores, each with what lies below it. -/
abbrev Chain := Cache × (Cache × (Cache × FlatMemory))

/-- L1's parameters. -/
def l1Params (cfg : Config) : CacheParams := ⟨cfg.l1, cfg.l1Lat, cfg.recencyMax⟩

/-- L2's parameters. -/
def l2Params (cfg : Config) : CacheParams := ⟨cfg.l2, cfg.l2Lat, cfg.recencyMax⟩

/-- LLC's parameters. -/
def llcParams (cfg : Config) : CacheParams := ⟨cfg.llc, cfg.llcLat, cfg.recencyMax⟩

/-- `LLC.HandleRequest`, with the flat memory below (R91). -/
def llcRequest (cfg : Config) : Request → Cache × FlatMemory → Reply (Cache × FlatMemory) Answer :=
  cacheRequest (memRequest cfg.memSize cfg.memLat) (llcParams cfg)

/-- `L2.HandleRequest`, with LLC below (R91). -/
def l2Request (cfg : Config) :
    Request → Cache × (Cache × FlatMemory) → Reply (Cache × (Cache × FlatMemory)) Answer :=
  cacheRequest (llcRequest cfg) (l2Params cfg)

/-- `L1.HandleRequest`, with L2 below (R91). -/
def l1Request (cfg : Config) : Request → Chain → Reply Chain Answer :=
  cacheRequest (l2Request cfg) (l1Params cfg)

/-! ## The coherent view (R73) -/

/-- The byte at `pa`: that of the valid entry that holds `pa`'s block, else what the lower store shows (R73). -/
def cacheView {σ : Type} (cc : CacheConfig) (lowerView : σ → Nat → Byte) (st : Cache × σ) (pa : Nat) : Byte :=
  match st.1.lookup cc pa with
  | some i => (st.1.entry i).data.getD (blockOffset pa) 0
  | none => lowerView st.2 pa

/-- `View` below L2. -/
def llcView (cfg : Config) : Cache × FlatMemory → Nat → Byte := cacheView cfg.llc FlatMemory.byte

/-- `View` below L1. -/
def l2View (cfg : Config) : Cache × (Cache × FlatMemory) → Nat → Byte := cacheView cfg.l2 (llcView cfg)

/-- `View(pa)` (R73): L1's byte if it holds the block, else L2's, else LLC's, else MEM[pa]. -/
def chainView (cfg : Config) : Chain → Nat → Byte := cacheView cfg.l1 (l2View cfg)

end Sys2Proof.Machine
end

