-- ==== Sys2Proof/Machine/Flags.lean ====
section
/-! DEFINITION. There are no status flags or condition codes (R25). What stands in their place is written here
once: the comparisons, the branch conditions computed from two registers (R233 to R238), the 0 or 1 that a compare
instruction writes (R174), and the division cases marked in the table of R284. -/

namespace Sys2Proof.Machine

/-! ## Comparisons (R10) -/

/-- `a <s b`. -/
def ltSigned (a b : Word) : Bool := decide (a.toInt < b.toInt)

/-- `a <u b`. -/
def ltUnsigned (a b : Word) : Bool := decide (a.toNat < b.toNat)

/-- The value a compare instruction writes: 1 or 0 (R174). -/
def boolWord (b : Bool) : Word := if b then 1 else 0

/-! ## Branch conditions -/

/-- R233. -/
def condBeq (a b : Word) : Bool := a == b

/-- R234. -/
def condBne (a b : Word) : Bool := a != b

/-- R235. -/
def condBlt (a b : Word) : Bool := ltSigned a b

/-- R236. -/
def condBge (a b : Word) : Bool := !ltSigned a b

/-- R237. -/
def condBltu (a b : Word) : Bool := ltUnsigned a b

/-- R238. -/
def condBgeu (a b : Word) : Bool := !ltUnsigned a b

/-! ## Division cases (R284) -/

/-- The low 32 bits, which are all a word form reads (R201 d, R280). -/
def low32 (v : Word) : BitVec 32 := v.setWidth 32

/-- "divisor = 0" of the 64-bit forms. -/
def divZero (b : Word) : Bool := b == 0

/-- The signed overflow of the 64-bit forms: most negative value divided by -1. -/
def divOverflow (a b : Word) : Bool := a == 0x8000000000000000#64 && b == 0xFFFFFFFFFFFFFFFF#64

/-- "divisor = 0" of the word forms. -/
def divZeroW (b : Word) : Bool := low32 b == 0

/-- The signed overflow of the word forms. -/
def divOverflowW (a b : Word) : Bool := low32 a == 0x80000000#32 && low32 b == 0xFFFFFFFF#32

end Sys2Proof.Machine
end

