-- ==== Sys2Proof/Machine/Alu.lean ====
section
/-! DEFINITION. What the Execute stage computes (40_integer_computational.md, 43_muldiv.md), one function per
operation, used by the meanings of level ISA and by the pipeline alike (R12). -/

namespace Sys2Proof.Machine

/-- `sext_N` of R10: the low `n` bits, bit n - 1 copied above. -/
def sext (n : Nat) (v : Word) : Word := (v.setWidth n).signExtend 64

/-- `zext_N` of R10: the low `n` bits, zeros above. -/
def zext (n : Nat) (v : Word) : Word := (v.setWidth n).setWidth 64

/-- A 32-bit result sign-extended to 64 bits (R192, R201 d). -/
def sextWord (v : BitVec 32) : Word := v.signExtend 64

namespace Alu

/-! ## 64-bit (R173 to R191) -/

/-- R182, R173. -/
def add (a b : Word) : Word := a + b

/-- R183. -/
def sub (a b : Word) : Word := a - b

/-- R185, R174. -/
def slt (a b : Word) : Word := boolWord (ltSigned a b)

/-- R186, R175. -/
def sltu (a b : Word) : Word := boolWord (ltUnsigned a b)

/-- R187, R176. -/
def xor (a b : Word) : Word := a ^^^ b

/-- R190, R177. -/
def or (a b : Word) : Word := a ||| b

/-- R191, R178. -/
def and (a b : Word) : Word := a &&& b

/-- The shift amount of the 64-bit shifts: bits 5 to 0 (R184, R201 c). -/
def shamt64 (b : Word) : Nat := (b.setWidth 6).toNat

/-- R184, R179. -/
def sll (a b : Word) : Word := a <<< shamt64 b

/-- R188, R180. -/
def srl (a b : Word) : Word := a >>> shamt64 b

/-- R189, R181. -/
def sra (a b : Word) : Word := a.sshiftRight (shamt64 b)

/-! ## Word forms (R192 to R200) -/

/-- R196, R192. -/
def addw (a b : Word) : Word := sextWord (low32 (a + b))

/-- R197. -/
def subw (a b : Word) : Word := sextWord (low32 (a - b))

/-- The shift amount of the word shifts: bits 4 to 0 (R198, R201 c). -/
def shamt32 (b : Word) : Nat := (b.setWidth 5).toNat

/-- R198, R193. -/
def sllw (a b : Word) : Word := sextWord (low32 a <<< shamt32 b)

/-- R199, R194. -/
def srlw (a b : Word) : Word := sextWord (low32 a >>> shamt32 b)

/-- R200, R195. -/
def sraw (a b : Word) : Word := sextWord ((low32 a).sshiftRight (shamt32 b))

/-! ## Multiplication (R271 to R274, R279) -/

/-- R271: the low 64 bits of the product. -/
def mul (a b : Word) : Word := a * b

/-- Bits 127 to 64 of an exact product. -/
def highHalf (product : Int) : Word := (BitVec.ofInt 128 product).extractLsb' 64 64

/-- R272: signed times signed. -/
def mulh (a b : Word) : Word := highHalf (a.toInt * b.toInt)

/-- R273: signed times unsigned. -/
def mulhsu (a b : Word) : Word := highHalf (a.toInt * (b.toNat : Int))

/-- R274: unsigned times unsigned. -/
def mulhu (a b : Word) : Word := highHalf ((a.toNat : Int) * (b.toNat : Int))

/-- R279. -/
def mulw (a b : Word) : Word := sextWord (low32 (a * b))

/-! ## Division and remainder (R275 to R278, R280 to R284): the results under DIV_POLICY = riscv -/

/-- R275, R284. -/
def div (a b : Word) : Word :=
  if divZero b then 0xFFFFFFFFFFFFFFFF#64
  else if divOverflow a b then a
  else BitVec.ofInt 64 (Int.tdiv a.toInt b.toInt)

/-- R276, R284. -/
def divu (a b : Word) : Word :=
  if divZero b then 0xFFFFFFFFFFFFFFFF#64 else BitVec.ofNat 64 (a.toNat / b.toNat)

/-- R277, R284. -/
def rem (a b : Word) : Word :=
  if divZero b then a
  else if divOverflow a b then 0
  else BitVec.ofInt 64 (a.toInt - b.toInt * Int.tdiv a.toInt b.toInt)

/-- R278, R284. -/
def remu (a b : Word) : Word :=
  if divZero b then a else BitVec.ofNat 64 (a.toNat % b.toNat)

/-- R280, R284. -/
def divw (a b : Word) : Word :=
  if divZeroW b then 0xFFFFFFFFFFFFFFFF#64
  else if divOverflowW a b then sextWord (low32 a)
  else sextWord (BitVec.ofInt 32 (Int.tdiv (low32 a).toInt (low32 b).toInt))

/-- R281, R284. -/
def divuw (a b : Word) : Word :=
  if divZeroW b then 0xFFFFFFFFFFFFFFFF#64
  else sextWord (BitVec.ofNat 32 ((low32 a).toNat / (low32 b).toNat))

/-- R282, R284. -/
def remw (a b : Word) : Word :=
  if divZeroW b then sextWord (low32 a)
  else if divOverflowW a b then 0
  else sextWord (BitVec.ofInt 32
    ((low32 a).toInt - (low32 b).toInt * Int.tdiv (low32 a).toInt (low32 b).toInt))

/-- R283, R284. -/
def remuw (a b : Word) : Word :=
  if divZeroW b then sextWord (low32 a)
  else sextWord (BitVec.ofNat 32 ((low32 a).toNat % (low32 b).toNat))

end Alu

end Sys2Proof.Machine
end

