-- ==== Sys2Proof/Machine/Operands.lean ====
section
/-! DEFINITION. The operand forms: immediates extended to 64 bits (R148), the registers an instruction reads and
the slot it writes (R152), the widths of loads and stores (R251 to R261), and, by mnemonic, what Execute computes
from operands (R320). -/

namespace Sys2Proof.Machine

/-! ## Immediates (R148) -/

/-- The I and S immediates: `sext_12`. -/
def imm12 (imm : BitVec 12) : Word := imm.signExtend 64

/-- The U immediate: `sext_32` of the field over twelve zeros. -/
def immUpper (imm20 : BitVec 20) : Word := (imm20 ++ 0#12 : BitVec 32).signExtend 64

/-- The B immediate: `sext_13`. -/
def immBranch (imm : BitVec 13) : Word := imm.signExtend 64

/-- The J immediate: `sext_21`. -/
def immJump (imm : BitVec 21) : Word := imm.signExtend 64

/-- The shift amount of SLLI, SRLI, SRAI, zero-extended. -/
def immShift6 (shamt : BitVec 6) : Word := shamt.setWidth 64

/-- The shift amount of SLLIW, SRLIW, SRAIW, zero-extended. -/
def immShift5 (shamt : BitVec 5) : Word := shamt.setWidth 64

/-! ## Registers and immediate of an instruction (R152, R311) -/

/-- Destination, sources and immediate; 0 for a register the instruction does not have (R152). -/
structure Operands where
  rd : Reg
  rs1 : Reg
  rs2 : Reg
  imm : Word
  deriving DecidableEq, Repr

/-- R148, R152, R311: a shift amount is zero-extended; ECALL has no register and immediate 0. -/
def operandsOf : Instr → Operands
  | .lui rd imm20 => ⟨rd, 0, 0, immUpper imm20⟩
  | .auipc rd imm20 => ⟨rd, 0, 0, immUpper imm20⟩
  | .jal rd imm => ⟨rd, 0, 0, immJump imm⟩
  | .jalr rd rs1 imm => ⟨rd, rs1, 0, imm12 imm⟩
  | .beq rs1 rs2 imm => ⟨0, rs1, rs2, immBranch imm⟩
  | .bne rs1 rs2 imm => ⟨0, rs1, rs2, immBranch imm⟩
  | .blt rs1 rs2 imm => ⟨0, rs1, rs2, immBranch imm⟩
  | .bge rs1 rs2 imm => ⟨0, rs1, rs2, immBranch imm⟩
  | .bltu rs1 rs2 imm => ⟨0, rs1, rs2, immBranch imm⟩
  | .bgeu rs1 rs2 imm => ⟨0, rs1, rs2, immBranch imm⟩
  | .lb rd rs1 imm => ⟨rd, rs1, 0, imm12 imm⟩
  | .lh rd rs1 imm => ⟨rd, rs1, 0, imm12 imm⟩
  | .lw rd rs1 imm => ⟨rd, rs1, 0, imm12 imm⟩
  | .ld rd rs1 imm => ⟨rd, rs1, 0, imm12 imm⟩
  | .lbu rd rs1 imm => ⟨rd, rs1, 0, imm12 imm⟩
  | .lhu rd rs1 imm => ⟨rd, rs1, 0, imm12 imm⟩
  | .lwu rd rs1 imm => ⟨rd, rs1, 0, imm12 imm⟩
  | .sb rs1 rs2 imm => ⟨0, rs1, rs2, imm12 imm⟩
  | .sh rs1 rs2 imm => ⟨0, rs1, rs2, imm12 imm⟩
  | .sw rs1 rs2 imm => ⟨0, rs1, rs2, imm12 imm⟩
  | .sd rs1 rs2 imm => ⟨0, rs1, rs2, imm12 imm⟩
  | .addi rd rs1 imm => ⟨rd, rs1, 0, imm12 imm⟩
  | .slti rd rs1 imm => ⟨rd, rs1, 0, imm12 imm⟩
  | .sltiu rd rs1 imm => ⟨rd, rs1, 0, imm12 imm⟩
  | .xori rd rs1 imm => ⟨rd, rs1, 0, imm12 imm⟩
  | .ori rd rs1 imm => ⟨rd, rs1, 0, imm12 imm⟩
  | .andi rd rs1 imm => ⟨rd, rs1, 0, imm12 imm⟩
  | .slli rd rs1 shamt => ⟨rd, rs1, 0, immShift6 shamt⟩
  | .srli rd rs1 shamt => ⟨rd, rs1, 0, immShift6 shamt⟩
  | .srai rd rs1 shamt => ⟨rd, rs1, 0, immShift6 shamt⟩
  | .add rd rs1 rs2 => ⟨rd, rs1, rs2, 0⟩
  | .sub rd rs1 rs2 => ⟨rd, rs1, rs2, 0⟩
  | .sll rd rs1 rs2 => ⟨rd, rs1, rs2, 0⟩
  | .slt rd rs1 rs2 => ⟨rd, rs1, rs2, 0⟩
  | .sltu rd rs1 rs2 => ⟨rd, rs1, rs2, 0⟩
  | .xor rd rs1 rs2 => ⟨rd, rs1, rs2, 0⟩
  | .srl rd rs1 rs2 => ⟨rd, rs1, rs2, 0⟩
  | .sra rd rs1 rs2 => ⟨rd, rs1, rs2, 0⟩
  | .or rd rs1 rs2 => ⟨rd, rs1, rs2, 0⟩
  | .and rd rs1 rs2 => ⟨rd, rs1, rs2, 0⟩
  | .addiw rd rs1 imm => ⟨rd, rs1, 0, imm12 imm⟩
  | .slliw rd rs1 shamt => ⟨rd, rs1, 0, immShift5 shamt⟩
  | .srliw rd rs1 shamt => ⟨rd, rs1, 0, immShift5 shamt⟩
  | .sraiw rd rs1 shamt => ⟨rd, rs1, 0, immShift5 shamt⟩
  | .addw rd rs1 rs2 => ⟨rd, rs1, rs2, 0⟩
  | .subw rd rs1 rs2 => ⟨rd, rs1, rs2, 0⟩
  | .sllw rd rs1 rs2 => ⟨rd, rs1, rs2, 0⟩
  | .srlw rd rs1 rs2 => ⟨rd, rs1, rs2, 0⟩
  | .sraw rd rs1 rs2 => ⟨rd, rs1, rs2, 0⟩
  | .mul rd rs1 rs2 => ⟨rd, rs1, rs2, 0⟩
  | .mulh rd rs1 rs2 => ⟨rd, rs1, rs2, 0⟩
  | .mulhsu rd rs1 rs2 => ⟨rd, rs1, rs2, 0⟩
  | .mulhu rd rs1 rs2 => ⟨rd, rs1, rs2, 0⟩
  | .div rd rs1 rs2 => ⟨rd, rs1, rs2, 0⟩
  | .divu rd rs1 rs2 => ⟨rd, rs1, rs2, 0⟩
  | .rem rd rs1 rs2 => ⟨rd, rs1, rs2, 0⟩
  | .remu rd rs1 rs2 => ⟨rd, rs1, rs2, 0⟩
  | .mulw rd rs1 rs2 => ⟨rd, rs1, rs2, 0⟩
  | .divw rd rs1 rs2 => ⟨rd, rs1, rs2, 0⟩
  | .divuw rd rs1 rs2 => ⟨rd, rs1, rs2, 0⟩
  | .remw rd rs1 rs2 => ⟨rd, rs1, rs2, 0⟩
  | .remuw rd rs1 rs2 => ⟨rd, rs1, rs2, 0⟩
  | .ecall => ⟨0, 0, 0, 0⟩

/-- The class of a mnemonic (R152). -/
def opClass : Mnemonic → OpClass
  | .lui | .auipc => .upper
  | .jal => .jump
  | .jalr => .jumpReg
  | .beq | .bne | .blt | .bge | .bltu | .bgeu => .branch
  | .lb | .lh | .lw | .ld | .lbu | .lhu | .lwu => .load
  | .sb | .sh | .sw | .sd => .store
  | .addi | .slti | .sltiu | .xori | .ori | .andi | .slli | .srli | .srai | .addiw | .slliw | .srliw
  | .sraiw => .regImm
  | .add | .sub | .sll | .slt | .sltu | .xor | .srl | .sra | .or | .and | .addw | .subw | .sllw | .srlw
  | .sraw | .mul | .mulh | .mulhsu | .mulhu | .div | .divu | .rem | .remu | .mulw | .divw | .divuw
  | .remw | .remuw => .regReg
  | .ecall => .system

/-- The format of a class (R152). -/
def classFormat : OpClass → Format
  | .upper => .U
  | .jump => .J
  | .jumpReg | .load | .regImm | .system => .I
  | .branch => .B
  | .store => .S
  | .regReg => .R

/-- The ALU destination (R152): a load has none. -/
def rdAluOf (i : Instr) : Reg := if opClass i.mnemonic = .load then 0 else (operandsOf i).rd

/-- The memory destination (R152): only a load has one. -/
def rdMemOf (i : Instr) : Reg := if opClass i.mnemonic = .load then (operandsOf i).rd else 0

/-! ## Loads and stores -/

/-- The width in bytes a load moves and whether it sign-extends. -/
structure LoadKind where
  size : Nat
  signed : Bool
  deriving DecidableEq, Repr

/-- The value a load writes from the `size` bytes read (R251 to R257). -/
def LoadKind.extend (k : LoadKind) (v : Word) : Word :=
  if k.signed then sext (8 * k.size) v else zext (8 * k.size) v

/-- What a mnemonic does in the Memory stage (R326). -/
inductive MemAccess where
  | load (k : LoadKind)
  | store (size : Nat)
  | none
  deriving DecidableEq, Repr

/-- R251 to R261, R326. -/
def memAccess : Mnemonic → MemAccess
  | .lb => .load ⟨1, true⟩
  | .lh => .load ⟨2, true⟩
  | .lw => .load ⟨4, true⟩
  | .ld => .load ⟨8, true⟩
  | .lbu => .load ⟨1, false⟩
  | .lhu => .load ⟨2, false⟩
  | .lwu => .load ⟨4, false⟩
  | .sb => .store 1
  | .sh => .store 2
  | .sw => .store 4
  | .sd => .store 8
  | .lui | .auipc | .jal | .jalr | .beq | .bne | .blt | .bge | .bltu | .bgeu | .addi | .slti | .sltiu
  | .xori | .ori | .andi | .slli | .srli | .srai | .add | .sub | .sll | .slt | .sltu | .xor | .srl
  | .sra | .or | .and | .addiw | .slliw | .srliw | .sraiw | .addw | .subw | .sllw | .srlw | .sraw | .mul
  | .mulh | .mulhsu | .mulhu | .div | .divu | .rem | .remu | .mulw | .divw | .divuw | .remw | .remuw
  | .ecall => .none

/-! ## Execute, by mnemonic (R320) -/

/-- `e_alu` of R320 from the operands `a`, `b`, the immediate and the instruction's own address; 0 where R320
calls it unused (entry 9). -/
def aluValue (op : Mnemonic) (pc a b imm : Word) : Word :=
  match op with
  | .lui => imm
  | .auipc => pc + imm
  | .jal => pc + 4
  | .jalr => pc + 4
  | .beq => 0
  | .bne => 0
  | .blt => 0
  | .bge => 0
  | .bltu => 0
  | .bgeu => 0
  | .lb => a + imm
  | .lh => a + imm
  | .lw => a + imm
  | .ld => a + imm
  | .lbu => a + imm
  | .lhu => a + imm
  | .lwu => a + imm
  | .sb => a + imm
  | .sh => a + imm
  | .sw => a + imm
  | .sd => a + imm
  | .addi => Alu.add a imm
  | .slti => Alu.slt a imm
  | .sltiu => Alu.sltu a imm
  | .xori => Alu.xor a imm
  | .ori => Alu.or a imm
  | .andi => Alu.and a imm
  | .slli => Alu.sll a imm
  | .srli => Alu.srl a imm
  | .srai => Alu.sra a imm
  | .add => Alu.add a b
  | .sub => Alu.sub a b
  | .sll => Alu.sll a b
  | .slt => Alu.slt a b
  | .sltu => Alu.sltu a b
  | .xor => Alu.xor a b
  | .srl => Alu.srl a b
  | .sra => Alu.sra a b
  | .or => Alu.or a b
  | .and => Alu.and a b
  | .addiw => Alu.addw a imm
  | .slliw => Alu.sllw a imm
  | .srliw => Alu.srlw a imm
  | .sraiw => Alu.sraw a imm
  | .addw => Alu.addw a b
  | .subw => Alu.subw a b
  | .sllw => Alu.sllw a b
  | .srlw => Alu.srlw a b
  | .sraw => Alu.sraw a b
  | .mul => Alu.mul a b
  | .mulh => Alu.mulh a b
  | .mulhsu => Alu.mulhsu a b
  | .mulhu => Alu.mulhu a b
  | .div => Alu.div a b
  | .divu => Alu.divu a b
  | .rem => Alu.rem a b
  | .remu => Alu.remu a b
  | .mulw => Alu.mulw a b
  | .divw => Alu.divw a b
  | .divuw => Alu.divuw a b
  | .remw => Alu.remw a b
  | .remuw => Alu.remuw a b
  | .ecall => 0

/-- The condition of a conditional branch (R233 to R238); false for every other mnemonic. -/
def branchTaken (op : Mnemonic) (a b : Word) : Bool :=
  match op with
  | .beq => condBeq a b
  | .bne => condBne a b
  | .blt => condBlt a b
  | .bge => condBge a b
  | .bltu => condBltu a b
  | .bgeu => condBgeu a b
  | .lui | .auipc | .jal | .jalr | .lb | .lh | .lw | .ld | .lbu | .lhu | .lwu | .sb | .sh | .sw | .sd
  | .addi | .slti | .sltiu | .xori | .ori | .andi | .slli | .srli | .srai | .add | .sub | .sll | .slt
  | .sltu | .xor | .srl | .sra | .or | .and | .addiw | .slliw | .srliw | .sraiw | .addw | .subw | .sllw
  | .srlw | .sraw | .mul | .mulh | .mulhsu | .mulhu | .div | .divu | .rem | .remu | .mulw | .divw
  | .divuw | .remw | .remuw | .ecall => false

/-- A case the table of R284 marks: division by zero or signed overflow. -/
def divMarked (op : Mnemonic) (a b : Word) : Bool :=
  match op with
  | .div | .rem => divZero b || divOverflow a b
  | .divu | .remu => divZero b
  | .divw | .remw => divZeroW b || divOverflowW a b
  | .divuw | .remuw => divZeroW b
  | .lui | .auipc | .jal | .jalr | .beq | .bne | .blt | .bge | .bltu | .bgeu | .lb | .lh | .lw | .ld
  | .lbu | .lhu | .lwu | .sb | .sh | .sw | .sd | .addi | .slti | .sltiu | .xori | .ori | .andi | .slli
  | .srli | .srai | .add | .sub | .sll | .slt | .sltu | .xor | .srl | .sra | .or | .and | .addiw
  | .slliw | .srliw | .sraiw | .addw | .subw | .sllw | .srlw | .sraw | .mul | .mulh | .mulhsu | .mulhu
  | .mulw | .ecall => false

/-- The target of a JALR: bit 0 of the sum cleared (R232). -/
def jalrTarget (a imm : Word) : Word := (a + imm) &&& ~~~1#64

end Sys2Proof.Machine
end

