-- ==== Sys2Proof/Machine/Ops.lean ====
section
/-! DEFINITION. The named operations over the machine: registers (R20, R21), the translation port (R66), the
primitives MemRead, MemWrite and Fetch32 (R70 to R72), a fatal condition (R380), the system-call trap and the
return from it (R290 to R297, R392, R393), and the completion of an instruction at level ISA. -/

namespace Sys2Proof.Machine

/-! ## Registers -/

/-- `x[r]`; `x[0]` reads 0 (R10, R21). -/
def State.reg (s : State) (r : Reg) : Word := if r = 0 then 0 else s.x[r.toNat]'r.isLt

/-- `x[r] <- v`; a write to `x[0]` is discarded (R10, R21). -/
def State.setReg (s : State) (r : Reg) (v : Word) : State :=
  if r = 0 then s else { s with x := s.x.set r.toNat v r.isLt }

/-! ## The storage hierarchy as one chain -/

/-- The four stores of the state (R91). -/
def State.chain (s : State) : Chain := (s.l1, (s.l2, (s.llc, s.mem)))

/-- The state with its four stores replaced. -/
def State.withChain (s : State) (ch : Chain) : State :=
  { s with l1 := ch.1, l2 := ch.2.1, llc := ch.2.2.1, mem := ch.2.2.2 }

/-- The byte a program sees at a physical address (R73). -/
def State.viewByte (s : State) (pa : Nat) : Byte := chainView s.cfg s.chain pa

/-! ## Memory -/

/-- `Translate(va)` (R66). A physical address is a natural number without a bound: R9 calls every address a 64-bit
vector, while R8 bounds neither MEM_SIZE nor what the port answers. DESIGN CHOICE (entry 19). -/
def translate (cfg : Config) (va : Word) : Option Nat :=
  match cfg.translation with
  | .identity => if va.toNat < cfg.memSize then some va.toNat else none
  | .table blocks =>
    (blocks.find? (fun p => p.1 == va.toNat / 64)).map (fun p => p.2 * 64 + va.toNat % 64)

/-- One request to L1 (R69); the cycle's mem_time is raised to the time it returns (R70). -/
def l1Access (q : Request) (s : State) : Reply State Answer :=
  match l1Request s.cfg q s.chain with
  | .ok a ch => .ok a { s.withChain ch with memTime := max s.memTime a.time }
  | .fatal r ch => .fatal r (s.withChain ch)

/-- Translate and check that `n` bytes stay in one block (R67, R74), then make the request built for the
physical address. -/
def accessAt (va : Word) (n : Nat) (request : Nat → Request) (s : State) : Reply State Answer :=
  match translate s.cfg va with
  | none => .fatal (.translationMiss va) s
  | some pa =>
    if 64 < blockOffset pa + n then .fatal (.blockCrossing pa n) s else l1Access (request pa) s

/-- `MemRead(va, n)` (R70): the unsigned value of `n` bytes, little-endian. -/
def memRead (va : Word) (n : Nat) (s : State) : Reply State Word :=
  (accessAt va n (fun pa => Request.read pa n) s).map (fun a => BitVec.ofNat 64 (ofLeBytes a.bytes))

/-- `MemWrite(va, n, v)` (R71): the low `n` bytes of `v`, little-endian. -/
def memWrite (va : Word) (n : Nat) (v : Word) (s : State) : Reply State Unit :=
  (accessAt va n (fun pa => Request.write pa (leBytes n v.toNat)) s).map (fun _ => ())

/-- `Fetch32(va)` (R72). -/
def fetch32 (va : Word) (s : State) : Reply State Raw :=
  (accessAt va 4 (fun pa => Request.read pa 4) s).map (fun a => rawOfBytes a.bytes)

/-- `ea = x[rs1] + imm` modulo 2^64 (R250). -/
def State.effectiveAddress (s : State) (rs1 : Reg) (imm : BitVec 12) : Word := s.reg rs1 + imm12 imm

/-! ## A fatal condition (R380): the one exception mechanism of this hardware -/

/-- `raise Fatal(reason)`: the run status becomes `fatal(reason)`; nothing is saved and no handler is entered
(R380, R41). There is no return from it. -/
def raiseFatal (reason : FatalReason) (s : State) : State := { s with status := .fatal reason }

/-- Go on with the value and state of a reply; a fatal condition ends the instruction in the state it leaves,
with the run status `fatal` (R380). -/
def settle {α : Type} (r : Reply State α) (k : α → State → Host.Outcome State Fault Refusal) :
    Host.Outcome State Fault Refusal :=
  match r with
  | .ok a s => k a s
  | .fatal e s => .next (raiseFatal e s)

/-! ## The system-call trap (R392) and the return from it (R393) -/

/-- `Host(event)`: the event joins the host's trace (R10). -/
def emit (e : HostEvent) (s : State) : State := { s with trace := s.trace ++ [e] }

/-- `halt(status)` (R396). -/
def halt (status : Word) (s : State) : State := { s with status := .halted status }

/-- The integer the host delivers next (R295): the first of the listed inputs, else the free value. -/
def State.nextInput (s : State) : Word :=
  match s.input with
  | v :: _ => v
  | [] => Config.readInt s.inputsRead

/-- The host has delivered one integer. -/
def State.dropInput (s : State) : State := { s with input := s.input.tail, inputsRead := s.inputsRead + 1 }

/-- The bytes of the string at `va` (R294): read one at a time until a zero byte or until `cap` bytes are read;
true when the cap stopped the read. -/
def readString : Nat → Word → State → Reply State (List Byte × Bool)
  | 0, _, s => .ok ([], true) s
  | cap + 1, va, s =>
    (memRead va 1 s).bind fun v s =>
      if v = 0 then .ok ([], false) s
      else (readString cap (va + 1) s).map (fun r => (v.setWidth 8 :: r.1, r.2))

/-- Taking the trap (R290, R331, R392): the call number and the argument are read from the register file and the
call is served as R291 to R296 say; any other number is fatal (R297). No register is saved, no mode changes. -/
def dispatchSyscall (s : State) : Reply State Unit :=
  let num := s.reg s.cfg.sysNumReg
  let arg := s.reg s.cfg.sysArgReg
  if num = 88 then .ok () (emit (.sleep arg) s)
  else if num = 89 then .ok () (emit (.printInt arg) s)
  else if num = 90 then .ok () (emit (.printChar arg) s)
  else if num = 91 then
    (readString s.cfg.strCap arg s).bind fun r s => .ok () (emit (.printString r.1 r.2) s)
  else if num = 92 then
    .ok () ((emit (.readInt s.nextInput) s.dropInput).setReg s.cfg.sysRetReg s.nextInput)
  else if num = 93 then .ok () (halt arg (emit (.exit arg) s))
  else .fatal (.unknownSyscall num) s

/-- One more system call dispatched (R331, R341). -/
def State.countSyscall (s : State) : State :=
  { s with counters := { s.counters with syscall := s.counters.syscall + 1 } }

/-- The return from the trap at level ISA (R393): execution goes on at `pc + 4`, unless the run has ended (R290). -/
def trapReturn (s : State) : State := if s.status = .running then { s with pc := s.pc + 4 } else s

/-! ## Completing an instruction at level ISA -/

/-- One more instruction retired (R330). -/
def State.countRetired (s : State) : State :=
  { s with counters := { s.counters with retired := s.counters.retired + 1 } }

/-- Remember what this instruction stored to, for the three instructions after it (R431, entry 5). -/
def State.pushStore (s : State) (stored : Option (Nat × Nat)) : State :=
  { s with recentStores := (stored :: s.recentStores).take 3 }

/-- The instruction is done: the next one is at `target` (R10, R23), and it is counted (R330). -/
def State.complete (s : State) (target : Word) (stored : Option (Nat × Nat)) : State :=
  { (s.countRetired.pushStore stored) with pc := target }

/-- R82, R431: the word at `pc` has a byte that one of the three preceding instructions stored to. (A fetch
that is fatal anyway is left to be so.) -/
def State.staleFetch (s : State) : Bool :=
  match translate s.cfg s.pc with
  | none => false
  | some pa =>
    blockOffset pa + 4 ≤ 64 &&
      s.recentStores.any (fun r =>
        match r with
        | some (a, n) => decide (max a pa < min (a + n) (pa + 4))
        | none => false)

/-! ## Placing bytes from outside (R413, entry 3) -/

/-- Put a byte into a cache's copy of its block, where there is one. -/
def Cache.poke (cc : CacheConfig) (c : Cache) (pa : Nat) (b : Byte) : Cache :=
  match c.lookup cc pa with
  | some i => c.modify i (fun e => { e with data := spliceBytes e.data (blockOffset pa) [b] })
  | none => c

/-- Put a byte into the memory and into every cached copy, so that the view shows it at every level. An address at or
beyond MEM_SIZE names no byte of MEM (R32), and the byte is dropped, as `placeImage` drops it: the spec says of neither
what becomes of it. DESIGN CHOICE (entry 3). -/
def State.pokeByte (s : State) (pa : Nat) (b : Byte) : State :=
  { s with
    l1 := s.l1.poke s.cfg.l1 pa b
    l2 := s.l2.poke s.cfg.l2 pa b
    llc := s.llc.poke s.cfg.llc pa b
    mem := if pa < s.cfg.memSize then s.mem.writeBytes pa [b] else s.mem }

/-- Put bytes from a physical address up. -/
def State.pokeBytes (s : State) (pa : Nat) : List Byte → State
  | [] => s
  | b :: bs => (s.pokeByte pa b).pokeBytes (pa + 1) bs

/-- Put an instruction's bytes where the instruction at `pc` is fetched. -/
def State.placeAtPc (s : State) (bytes : List Byte) : State :=
  match translate s.cfg s.pc with
  | none => s
  | some pa => s.pokeBytes pa bytes

end Sys2Proof.Machine
end

