-- ==== Sys2Proof/Machine/Control.lean ====
section
/-! DEFINITION. The control-transfer instructions (41_control_transfer.md). No target is checked (R230, R239). -/

namespace Sys2Proof.Machine

/-- Write the link value `pc + 4` and go to `target` (R231, R232). -/
def jumpLink (rd : Reg) (target : Word) (s : State) : Host.Outcome State Fault Refusal :=
  .next ((s.setReg rd (s.pc + 4)).complete target none)

/-- Go to `pc + imm` if the condition holds, else to `pc + 4` (R230). -/
def branchIf (taken : Bool) (imm : BitVec 13) (s : State) : Host.Outcome State Fault Refusal :=
  .next (s.complete (if taken then s.pc + immBranch imm else s.pc + 4) none)

/-! ## Jumps -/

/-- R231: link, then jump to `pc + imm`. -/
def execJal (rd : Reg) (imm : BitVec 21) (s : State) : Host.Outcome State Fault Refusal :=
  jumpLink rd (s.pc + immJump imm) s

/-- R232: the target is computed from the old `x[rs1]`, bit 0 of the sum cleared. -/
def execJalr (rd rs1 : Reg) (imm : BitVec 12) (s : State) : Host.Outcome State Fault Refusal :=
  jumpLink rd (jalrTarget (s.reg rs1) (imm12 imm)) s

/-! ## Conditional branches -/

/-- R233. -/
def execBeq (rs1 rs2 : Reg) (imm : BitVec 13) (s : State) : Host.Outcome State Fault Refusal :=
  branchIf (condBeq (s.reg rs1) (s.reg rs2)) imm s

/-- R234. -/
def execBne (rs1 rs2 : Reg) (imm : BitVec 13) (s : State) : Host.Outcome State Fault Refusal :=
  branchIf (condBne (s.reg rs1) (s.reg rs2)) imm s

/-- R235. -/
def execBlt (rs1 rs2 : Reg) (imm : BitVec 13) (s : State) : Host.Outcome State Fault Refusal :=
  branchIf (condBlt (s.reg rs1) (s.reg rs2)) imm s

/-- R236. -/
def execBge (rs1 rs2 : Reg) (imm : BitVec 13) (s : State) : Host.Outcome State Fault Refusal :=
  branchIf (condBge (s.reg rs1) (s.reg rs2)) imm s

/-- R237. -/
def execBltu (rs1 rs2 : Reg) (imm : BitVec 13) (s : State) : Host.Outcome State Fault Refusal :=
  branchIf (condBltu (s.reg rs1) (s.reg rs2)) imm s

/-- R238. -/
def execBgeu (rs1 rs2 : Reg) (imm : BitVec 13) (s : State) : Host.Outcome State Fault Refusal :=
  branchIf (condBgeu (s.reg rs1) (s.reg rs2)) imm s

end Sys2Proof.Machine
end

