-- ==== Sys2Proof/Machine/Integer.lean ====
section
/-! DEFINITION. The integer computational instructions (40_integer_computational.md): each reads its sources,
computes one value, writes `x[rd]` and goes on at `pc + 4` (R170). -/

namespace Sys2Proof.Machine

/-- R170: write the result and go on at `pc + 4`. -/
def writeResult (rd : Reg) (r : Word) (s : State) : Host.Outcome State Fault Refusal :=
  .next ((s.setReg rd r).complete (s.pc + 4) none)

/-! ## Upper-immediate -/

/-- R171: `x[rd] <- imm`. -/
def execLui (rd : Reg) (imm20 : BitVec 20) (s : State) : Host.Outcome State Fault Refusal :=
  writeResult rd (immUpper imm20) s

/-- R172: `x[rd] <- pc + imm`. -/
def execAuipc (rd : Reg) (imm20 : BitVec 20) (s : State) : Host.Outcome State Fault Refusal :=
  writeResult rd (s.pc + immUpper imm20) s

/-! ## Register-immediate -/

/-- R173. -/
def execAddi (rd rs1 : Reg) (imm : BitVec 12) (s : State) : Host.Outcome State Fault Refusal :=
  writeResult rd (Alu.add (s.reg rs1) (imm12 imm)) s

/-- R174. -/
def execSlti (rd rs1 : Reg) (imm : BitVec 12) (s : State) : Host.Outcome State Fault Refusal :=
  writeResult rd (Alu.slt (s.reg rs1) (imm12 imm)) s

/-- R175. -/
def execSltiu (rd rs1 : Reg) (imm : BitVec 12) (s : State) : Host.Outcome State Fault Refusal :=
  writeResult rd (Alu.sltu (s.reg rs1) (imm12 imm)) s

/-- R176. -/
def execXori (rd rs1 : Reg) (imm : BitVec 12) (s : State) : Host.Outcome State Fault Refusal :=
  writeResult rd (Alu.xor (s.reg rs1) (imm12 imm)) s

/-- R177. -/
def execOri (rd rs1 : Reg) (imm : BitVec 12) (s : State) : Host.Outcome State Fault Refusal :=
  writeResult rd (Alu.or (s.reg rs1) (imm12 imm)) s

/-- R178. -/
def execAndi (rd rs1 : Reg) (imm : BitVec 12) (s : State) : Host.Outcome State Fault Refusal :=
  writeResult rd (Alu.and (s.reg rs1) (imm12 imm)) s

/-- R179. -/
def execSlli (rd rs1 : Reg) (shamt : BitVec 6) (s : State) : Host.Outcome State Fault Refusal :=
  writeResult rd (Alu.sll (s.reg rs1) (immShift6 shamt)) s

/-- R180. -/
def execSrli (rd rs1 : Reg) (shamt : BitVec 6) (s : State) : Host.Outcome State Fault Refusal :=
  writeResult rd (Alu.srl (s.reg rs1) (immShift6 shamt)) s

/-- R181. -/
def execSrai (rd rs1 : Reg) (shamt : BitVec 6) (s : State) : Host.Outcome State Fault Refusal :=
  writeResult rd (Alu.sra (s.reg rs1) (immShift6 shamt)) s

/-! ## Register-register -/

/-- R182. -/
def execAdd (rd rs1 rs2 : Reg) (s : State) : Host.Outcome State Fault Refusal :=
  writeResult rd (Alu.add (s.reg rs1) (s.reg rs2)) s

/-- R183. -/
def execSub (rd rs1 rs2 : Reg) (s : State) : Host.Outcome State Fault Refusal :=
  writeResult rd (Alu.sub (s.reg rs1) (s.reg rs2)) s

/-- R184. -/
def execSll (rd rs1 rs2 : Reg) (s : State) : Host.Outcome State Fault Refusal :=
  writeResult rd (Alu.sll (s.reg rs1) (s.reg rs2)) s

/-- R185. -/
def execSlt (rd rs1 rs2 : Reg) (s : State) : Host.Outcome State Fault Refusal :=
  writeResult rd (Alu.slt (s.reg rs1) (s.reg rs2)) s

/-- R186. -/
def execSltu (rd rs1 rs2 : Reg) (s : State) : Host.Outcome State Fault Refusal :=
  writeResult rd (Alu.sltu (s.reg rs1) (s.reg rs2)) s

/-- R187. -/
def execXor (rd rs1 rs2 : Reg) (s : State) : Host.Outcome State Fault Refusal :=
  writeResult rd (Alu.xor (s.reg rs1) (s.reg rs2)) s

/-- R188. -/
def execSrl (rd rs1 rs2 : Reg) (s : State) : Host.Outcome State Fault Refusal :=
  writeResult rd (Alu.srl (s.reg rs1) (s.reg rs2)) s

/-- R189. -/
def execSra (rd rs1 rs2 : Reg) (s : State) : Host.Outcome State Fault Refusal :=
  writeResult rd (Alu.sra (s.reg rs1) (s.reg rs2)) s

/-- R190. -/
def execOr (rd rs1 rs2 : Reg) (s : State) : Host.Outcome State Fault Refusal :=
  writeResult rd (Alu.or (s.reg rs1) (s.reg rs2)) s

/-- R191. -/
def execAnd (rd rs1 rs2 : Reg) (s : State) : Host.Outcome State Fault Refusal :=
  writeResult rd (Alu.and (s.reg rs1) (s.reg rs2)) s

/-! ## Word forms -/

/-- R192. -/
def execAddiw (rd rs1 : Reg) (imm : BitVec 12) (s : State) : Host.Outcome State Fault Refusal :=
  writeResult rd (Alu.addw (s.reg rs1) (imm12 imm)) s

/-- R193. -/
def execSlliw (rd rs1 : Reg) (shamt : BitVec 5) (s : State) : Host.Outcome State Fault Refusal :=
  writeResult rd (Alu.sllw (s.reg rs1) (immShift5 shamt)) s

/-- R194. -/
def execSrliw (rd rs1 : Reg) (shamt : BitVec 5) (s : State) : Host.Outcome State Fault Refusal :=
  writeResult rd (Alu.srlw (s.reg rs1) (immShift5 shamt)) s

/-- R195. -/
def execSraiw (rd rs1 : Reg) (shamt : BitVec 5) (s : State) : Host.Outcome State Fault Refusal :=
  writeResult rd (Alu.sraw (s.reg rs1) (immShift5 shamt)) s

/-- R196. -/
def execAddw (rd rs1 rs2 : Reg) (s : State) : Host.Outcome State Fault Refusal :=
  writeResult rd (Alu.addw (s.reg rs1) (s.reg rs2)) s

/-- R197. -/
def execSubw (rd rs1 rs2 : Reg) (s : State) : Host.Outcome State Fault Refusal :=
  writeResult rd (Alu.subw (s.reg rs1) (s.reg rs2)) s

/-- R198. -/
def execSllw (rd rs1 rs2 : Reg) (s : State) : Host.Outcome State Fault Refusal :=
  writeResult rd (Alu.sllw (s.reg rs1) (s.reg rs2)) s

/-- R199. -/
def execSrlw (rd rs1 rs2 : Reg) (s : State) : Host.Outcome State Fault Refusal :=
  writeResult rd (Alu.srlw (s.reg rs1) (s.reg rs2)) s

/-- R200. -/
def execSraw (rd rs1 rs2 : Reg) (s : State) : Host.Outcome State Fault Refusal :=
  writeResult rd (Alu.sraw (s.reg rs1) (s.reg rs2)) s

end Sys2Proof.Machine
end

