-- ==== Sys2Proof/Machine/LoadStore.lean ====
section
/-! DEFINITION. The loads and stores (42_load_store.md). -/

namespace Sys2Proof.Machine

/-- Read `k.size` bytes at the effective address, extend, write `x[rd]` (R250, R262); a load with `rd = 0` still
performs its access (R262). -/
def loadWith (k : LoadKind) (rd : Reg) (ea : Word) (s : State) : Host.Outcome State Fault Refusal :=
  settle (memRead ea k.size s) fun v s => .next ((s.setReg rd (k.extend v)).complete (s.pc + 4) none)

/-- Write the low `n` bytes of `v` at the effective address (R250, R263); no register is written. -/
def storeWith (n : Nat) (ea v : Word) (s : State) : Host.Outcome State Fault Refusal :=
  settle (memWrite ea n v s) fun _ s =>
    .next (s.complete (s.pc + 4) ((translate s.cfg ea).map (fun pa => (pa, n))))

/-! ## Loads -/

/-- R251. -/
def execLb (rd rs1 : Reg) (imm : BitVec 12) (s : State) : Host.Outcome State Fault Refusal :=
  loadWith ⟨1, true⟩ rd (s.effectiveAddress rs1 imm) s

/-- R252. -/
def execLh (rd rs1 : Reg) (imm : BitVec 12) (s : State) : Host.Outcome State Fault Refusal :=
  loadWith ⟨2, true⟩ rd (s.effectiveAddress rs1 imm) s

/-- R253. -/
def execLw (rd rs1 : Reg) (imm : BitVec 12) (s : State) : Host.Outcome State Fault Refusal :=
  loadWith ⟨4, true⟩ rd (s.effectiveAddress rs1 imm) s

/-- R254. -/
def execLd (rd rs1 : Reg) (imm : BitVec 12) (s : State) : Host.Outcome State Fault Refusal :=
  loadWith ⟨8, true⟩ rd (s.effectiveAddress rs1 imm) s

/-- R255. -/
def execLbu (rd rs1 : Reg) (imm : BitVec 12) (s : State) : Host.Outcome State Fault Refusal :=
  loadWith ⟨1, false⟩ rd (s.effectiveAddress rs1 imm) s

/-- R256. -/
def execLhu (rd rs1 : Reg) (imm : BitVec 12) (s : State) : Host.Outcome State Fault Refusal :=
  loadWith ⟨2, false⟩ rd (s.effectiveAddress rs1 imm) s

/-- R257. -/
def execLwu (rd rs1 : Reg) (imm : BitVec 12) (s : State) : Host.Outcome State Fault Refusal :=
  loadWith ⟨4, false⟩ rd (s.effectiveAddress rs1 imm) s

/-! ## Stores -/

/-- R258. -/
def execSb (rs1 rs2 : Reg) (imm : BitVec 12) (s : State) : Host.Outcome State Fault Refusal :=
  storeWith 1 (s.effectiveAddress rs1 imm) (s.reg rs2) s

/-- R259. -/
def execSh (rs1 rs2 : Reg) (imm : BitVec 12) (s : State) : Host.Outcome State Fault Refusal :=
  storeWith 2 (s.effectiveAddress rs1 imm) (s.reg rs2) s

/-- R260. -/
def execSw (rs1 rs2 : Reg) (imm : BitVec 12) (s : State) : Host.Outcome State Fault Refusal :=
  storeWith 4 (s.effectiveAddress rs1 imm) (s.reg rs2) s

/-- R261. -/
def execSd (rs1 rs2 : Reg) (imm : BitVec 12) (s : State) : Host.Outcome State Fault Refusal :=
  storeWith 8 (s.effectiveAddress rs1 imm) (s.reg rs2) s

end Sys2Proof.Machine
end

