-- ==== Sys2Proof/Machine/MulDiv.lean ====
section
/-! DEFINITION. The multiply, divide and remainder instructions (43_muldiv.md). -/

namespace Sys2Proof.Machine

/-- R284, R385: under DIV_POLICY = fatal a marked case (division by zero, signed overflow) raises
`Fatal(divide)`; otherwise the result is written like any other (R270). -/
def divideResult (marked : Bool) (rd : Reg) (r : Word) (s : State) : Host.Outcome State Fault Refusal :=
  if s.cfg.divPolicy = .fatal ∧ marked = true then .next (raiseFatal .divide s) else writeResult rd r s

/-! ## Multiplication -/

/-- R271. -/
def execMul (rd rs1 rs2 : Reg) (s : State) : Host.Outcome State Fault Refusal :=
  writeResult rd (Alu.mul (s.reg rs1) (s.reg rs2)) s

/-- R272. -/
def execMulh (rd rs1 rs2 : Reg) (s : State) : Host.Outcome State Fault Refusal :=
  writeResult rd (Alu.mulh (s.reg rs1) (s.reg rs2)) s

/-- R273. -/
def execMulhsu (rd rs1 rs2 : Reg) (s : State) : Host.Outcome State Fault Refusal :=
  writeResult rd (Alu.mulhsu (s.reg rs1) (s.reg rs2)) s

/-- R274. -/
def execMulhu (rd rs1 rs2 : Reg) (s : State) : Host.Outcome State Fault Refusal :=
  writeResult rd (Alu.mulhu (s.reg rs1) (s.reg rs2)) s

/-- R279. -/
def execMulw (rd rs1 rs2 : Reg) (s : State) : Host.Outcome State Fault Refusal :=
  writeResult rd (Alu.mulw (s.reg rs1) (s.reg rs2)) s

/-! ## Division and remainder -/

/-- R275, R284. -/
def execDiv (rd rs1 rs2 : Reg) (s : State) : Host.Outcome State Fault Refusal :=
  divideResult (divMarked .div (s.reg rs1) (s.reg rs2)) rd (Alu.div (s.reg rs1) (s.reg rs2)) s

/-- R276, R284. -/
def execDivu (rd rs1 rs2 : Reg) (s : State) : Host.Outcome State Fault Refusal :=
  divideResult (divMarked .divu (s.reg rs1) (s.reg rs2)) rd (Alu.divu (s.reg rs1) (s.reg rs2)) s

/-- R277, R284. -/
def execRem (rd rs1 rs2 : Reg) (s : State) : Host.Outcome State Fault Refusal :=
  divideResult (divMarked .rem (s.reg rs1) (s.reg rs2)) rd (Alu.rem (s.reg rs1) (s.reg rs2)) s

/-- R278, R284. -/
def execRemu (rd rs1 rs2 : Reg) (s : State) : Host.Outcome State Fault Refusal :=
  divideResult (divMarked .remu (s.reg rs1) (s.reg rs2)) rd (Alu.remu (s.reg rs1) (s.reg rs2)) s

/-- R280, R284. -/
def execDivw (rd rs1 rs2 : Reg) (s : State) : Host.Outcome State Fault Refusal :=
  divideResult (divMarked .divw (s.reg rs1) (s.reg rs2)) rd (Alu.divw (s.reg rs1) (s.reg rs2)) s

/-- R281, R284. -/
def execDivuw (rd rs1 rs2 : Reg) (s : State) : Host.Outcome State Fault Refusal :=
  divideResult (divMarked .divuw (s.reg rs1) (s.reg rs2)) rd (Alu.divuw (s.reg rs1) (s.reg rs2)) s

/-- R282, R284. -/
def execRemw (rd rs1 rs2 : Reg) (s : State) : Host.Outcome State Fault Refusal :=
  divideResult (divMarked .remw (s.reg rs1) (s.reg rs2)) rd (Alu.remw (s.reg rs1) (s.reg rs2)) s

/-- R283, R284. -/
def execRemuw (rd rs1 rs2 : Reg) (s : State) : Host.Outcome State Fault Refusal :=
  divideResult (divMarked .remuw (s.reg rs1) (s.reg rs2)) rd (Alu.remuw (s.reg rs1) (s.reg rs2)) s

end Sys2Proof.Machine
end

