-- ==== Sys2Proof/Machine/System.lean ====
section
/-! DEFINITION. The system-call instruction (44_system.md). -/

namespace Sys2Proof.Machine

/-- R290: the trap is taken and served (`dispatchSyscall`), the call is counted (R331), and execution goes on at
`pc + 4` unless the run has ended (`trapReturn`). -/
def execEcall (s : State) : Host.Outcome State Fault Refusal :=
  settle (dispatchSyscall s) fun _ s => .next (trapReturn (s.countSyscall.pushStore none))

end Sys2Proof.Machine
end

