-- ==== Sys2Proof/Machine/Predictor.lean ====
section
/-! DEFINITION. The branch predictor (51_branch_predictor.md). -/

namespace Sys2Proof.Machine

/-- `bucket(a) = (a >> 2) mod PRED_BUCKETS` (R361). -/
def bucket (cfg : Config) (a : Word) : Nat := a.toNat / 4 % cfg.predBuckets

/-- `ctr[b]` (R34). -/
def Predictor.ctrAt (cfg : Config) (p : Predictor) (b : Nat) : BitVec 2 := Sparse.get cfg.predInit p.ctr b

/-- `hist[b]` (R34). -/
def Predictor.histAt (p : Predictor) (b : Nat) : Nat := Sparse.get 0 p.hist b

/-- The place of `actr[b][h]` in its table. -/
def actrIndex (cfg : Config) (b h : Nat) : Nat := b * 2 ^ cfg.histBits + h

/-- `actr[b][h]` (R34). -/
def Predictor.actrAt (cfg : Config) (p : Predictor) (b h : Nat) : BitVec 2 :=
  Sparse.get cfg.predInit p.actr (actrIndex cfg b h)

/-- A counter predicts taken iff it is 2 or 3 (R362, R364). -/
def predictsTaken (c : BitVec 2) : Bool := 2 ≤ c.toNat

/-- `Predict(a)` (R362). -/
def predict (cfg : Config) (p : Predictor) (a : Word) : Bool :=
  match cfg.predScheme with
  | .alwaysTaken => true
  | .alwaysNotTaken => false
  | .bimodal => predictsTaken (p.ctrAt cfg (bucket cfg a))
  | .adaptive => predictsTaken (p.actrAt cfg (bucket cfg a) (p.histAt (bucket cfg a)))

/-- The transition table of R364: success means that the branch resolved as the counter predicts. -/
def nextCounter (c : BitVec 2) (taken : Bool) : BitVec 2 :=
  let success := predictsTaken c == taken
  if c = 0 then (if success then 0 else 1)
  else if c = 1 then (if success then 0 else 2)
  else if c = 2 then (if success then 3 else 1)
  else (if success then 3 else 2)

/-- The history after a resolution (R366): shifted left, the inserted bit 1 if the prediction was wrong, masked
to HIST_BITS bits. -/
def nextHistory (cfg : Config) (h : Nat) (wrong : Bool) : Nat := (2 * h + wrong.toNat) % 2 ^ cfg.histBits

/-- `Update(a, taken)` (R363, R365, R366). -/
def Predictor.update (cfg : Config) (p : Predictor) (a : Word) (taken : Bool) : Predictor :=
  let b := bucket cfg a
  match cfg.predScheme with
  | .alwaysTaken => p
  | .alwaysNotTaken => p
  | .bimodal => { p with ctr := Sparse.set cfg.predInit p.ctr b (nextCounter (p.ctrAt cfg b) taken) }
  | .adaptive =>
    let h := p.histAt b
    let c := p.actrAt cfg b h
    { p with
      actr := Sparse.set cfg.predInit p.actr (actrIndex cfg b h) (nextCounter c taken)
      hist := Sparse.set 0 p.hist b (nextHistory cfg h (predictsTaken c != taken)) }

end Sys2Proof.Machine
end

