-- ==== Sys2Proof/Machine/Pipeline.lean ====
section
/-! DEFINITION. Level CYCLE: one clock cycle of the five-stage pipeline (50_pipeline.md). A stage reads the
committed pipeline registers, which are the fields of the state, and answers its next copy as a value; the
next copies become the fields at the end of the cycle (R302, R335, entry 8). -/

namespace Sys2Proof.Machine

/-! ## Fetch (R305 to R307) -/

/-- What Fetch computes: `f_out` and `f_next`. -/
structure FetchResult where
  out : Option FetchDecode
  next : Word
  deriving DecidableEq, Repr

/-- The next predicted program counter and the prediction recorded (R306). -/
def fetchNext (s : State) (raw : Raw) : Word × Bool :=
  match fetchClass raw with
  | .jump => (s.pcf.pc + immJump (RawField.immJ raw), false)
  | .branch =>
    let taken := predict s.cfg s.pred s.pcf.pc
    (if taken then s.pcf.pc + immBranch (RawField.immB raw) else s.pcf.pc + 4, taken)
  | .other => (s.pcf.pc + 4, false)

/-- R305 to R307: no access and a bubble while PCF.drain is set; else one 4-byte read at PCF.pc. -/
def fetchStage (s : State) : Reply State FetchResult :=
  if s.pcf.drain then .ok { out := none, next := s.pcf.pc } s
  else
    (fetch32 s.pcf.pc s).map fun raw =>
      { out := some { pc := s.pcf.pc, raw := raw, predTaken := (fetchNext s raw).2 }
        next := (fetchNext s raw).1 }

/-! ## Decode (R310 to R316) -/

/-- R310, R383: the instruction in FD, or none for a bubble; a word that matches no row is fatal. -/
def decodeWord (s : State) : Reply State (Option (FetchDecode × Instr)) :=
  match s.fd with
  | none => .ok none s
  | some fd =>
    match decode fd.raw with
    | .ok i => .ok (some (fd, i)) s
    | .error _ => .fatal (.unknownInstruction fd.raw fd.pc) s

/-- Where an operand comes from (R314). -/
inductive OperandSource where
  /-- index 0 or the register file -/
  | plain (v : Word)
  /-- one of the forwarding lines -/
  | forwarded (v : Word)
  /-- the second forwarding line: a load in Execute writes the register (R315) -/
  | loadUse
  deriving DecidableEq, Repr

/-- The value of an operand; a load-use operand has none yet and the decoded instruction is not used (R315). -/
def OperandSource.value : OperandSource → Word
  | .plain v => v
  | .forwarded v => v
  | .loadUse => 0

/-- 1 where a forwarding line served the operand (R314, R341). -/
def OperandSource.forwards : OperandSource → Nat
  | .forwarded _ => 1
  | .plain _ | .loadUse => 0

/-- The operand is the result of the load in Execute (R315). -/
def OperandSource.isLoadUse : OperandSource → Bool
  | .loadUse => true
  | .plain _ | .forwarded _ => false

/-- `Operand(r)` (R314): the first line that matches, the youngest producer first. `e` and `m` are the outputs of
Execute and Memory of this cycle, which hold `e_alu` and `m_val`; they are bubbles exactly when DE and EM are. -/
def operand (s : State) (e : Option ExecuteMemory) (m : Option MemoryWriteback) (r : Reg) : OperandSource :=
  if r = 0 then .plain 0
  else
    match e.filter (fun e => e.rdAlu = r || e.rdMem = r) with
    | some e => if e.rdAlu = r then .forwarded e.alu else .loadUse
    | none =>
      match m.filter (fun m => m.rdAlu = r || m.rdMem = r) with
      | some m => if m.rdAlu = r then .forwarded m.alu else .forwarded m.mval
      | none =>
        match s.mw.filter (fun w => w.rdAlu = r || w.rdMem = r) with
        | some w => if w.rdAlu = r then .forwarded w.alu else .forwarded w.mval
        | none => .plain (s.reg r)

/-- What Decode computes besides the word's instruction: `d_out`, `load_use`, `ecall_D` and the number of operands
forwarded. -/
structure DecodeResult where
  out : Option DecodeExecute
  loadUse : Bool
  ecall : Bool
  forwards : Nat
  deriving DecidableEq, Repr

/-- R310, R314 to R316, with the register file as it was at the start of the cycle (R312). -/
def decodeStage (s : State) (fetched : Option (FetchDecode × Instr)) (e : Option ExecuteMemory)
    (m : Option MemoryWriteback) : DecodeResult :=
  match fetched with
  | none => { out := none, loadUse := false, ecall := false, forwards := 0 }
  | some (fd, i) =>
    let ops := operandsOf i
    let o₁ := operand s e m ops.rs1
    let o₂ := operand s e m ops.rs2
    { out := some
        { pc := fd.pc, raw := fd.raw, op := i.mnemonic, fmt := classFormat (opClass i.mnemonic), imm := ops.imm,
          rs1 := ops.rs1, rs2 := ops.rs2, v1 := o₁.value, v2 := o₂.value, rdAlu := rdAluOf i,
          rdMem := rdMemOf i, predTaken := fd.predTaken }
      loadUse := o₁.isLoadUse || o₂.isLoadUse
      ecall := i.mnemonic = .ecall
      forwards := o₁.forwards + o₂.forwards }

/-! ## Execute (R320 to R323) -/

/-- What Execute computes: `e_out`, and the redirection of a control-hazard flush. -/
structure ExecuteResult where
  out : Option ExecuteMemory
  redirect : Option Word
  deriving DecidableEq, Repr

/-- `btarget` (R320); 0 where it is unused (entry 9). -/
def branchTarget (de : DecodeExecute) : Word :=
  match opClass de.op with
  | .jump | .branch => de.pc + de.imm
  | .jumpReg => jalrTarget de.v1 de.imm
  | .upper | .load | .store | .regImm | .regReg | .system => 0

/-- `e_out` (R320). -/
def executeOut (de : DecodeExecute) : ExecuteMemory :=
  { pc := de.pc, raw := de.raw, op := de.op, fmt := de.fmt, imm := de.imm, v2 := de.v2,
    alu := aluValue de.op de.pc de.v1 de.v2 de.imm, btarget := branchTarget de, rdAlu := de.rdAlu,
    rdMem := de.rdMem }

/-- The flush of R323: a JALR always, a conditional branch whose outcome differs from its prediction. -/
def executeRedirect (de : DecodeExecute) : Option Word :=
  match opClass de.op with
  | .jumpReg => some (branchTarget de)
  | .branch =>
    let taken := branchTaken de.op de.v1 de.v2
    if taken = de.predTaken then none else some (if taken then branchTarget de else de.pc + 4)
  | .upper | .jump | .load | .store | .regImm | .regReg | .system => none

/-- R322: the accuracy counters and the predictor, for a conditional branch and nothing else. -/
def resolveBranch (de : DecodeExecute) (s : State) : State :=
  match opClass de.op with
  | .branch =>
    let taken := branchTaken de.op de.v1 de.v2
    { s with
      pred := s.pred.update s.cfg de.pc taken
      counters := { s.counters with
        branchTotal := s.counters.branchTotal + 1
        branchOk := s.counters.branchOk + (if taken = de.predTaken then 1 else 0) } }
  | .upper | .jump | .jumpReg | .load | .store | .regImm | .regReg | .system => s

/-- R320 to R323; a marked division is fatal under DIV_POLICY = fatal (R385). -/
def executeStage (s : State) : Reply State ExecuteResult :=
  match s.de with
  | none => .ok { out := none, redirect := none } s
  | some de =>
    if s.cfg.divPolicy = .fatal ∧ divMarked de.op de.v1 de.v2 = true then .fatal .divide s
    else .ok { out := some (executeOut de), redirect := executeRedirect de } (resolveBranch de s)

/-! ## Memory (R326) -/

/-- `m_out` of the instruction in Memory with the value loaded; 0 for an instruction that is no load, which does
not use it (entry 9). -/
def memoryOut (em : ExecuteMemory) (mval : Word) : MemoryWriteback :=
  { pc := em.pc, raw := em.raw, op := em.op, fmt := em.fmt, alu := em.alu, mval := mval, rdAlu := em.rdAlu,
    rdMem := em.rdMem }

/-- R326. -/
def memoryStage (s : State) : Reply State (Option MemoryWriteback) :=
  match s.em with
  | none => .ok none s
  | some em =>
    match memAccess em.op with
    | .load k => (memRead em.alu k.size s).map fun v => some (memoryOut em (k.extend v))
    | .store n => (memWrite em.alu n em.v2 s).map fun _ => some (memoryOut em 0)
    | .none => .ok (some (memoryOut em 0)) s

/-! ## Writeback (R330, R331) -/

/-- R330, R331: write the result and count the instruction, or dispatch the system call; the answer says whether
one was dispatched. -/
def writebackStage (s : State) : Reply State Bool :=
  match s.mw with
  | none => .ok false s
  | some mw =>
    if mw.op = .ecall then
      (dispatchSyscall s).bind fun _ s => .ok true s.countSyscall
    else .ok false ((s.setReg mw.rdAlu mw.alu).setReg mw.rdMem mw.mval).countRetired

/-! ## The selection of the next state (R334) and the commit (R335) -/

/-- The five cases of R334. -/
inductive CycleCase where
  | flush (redirect : Word)
  | loadUse
  | syscallDecoded
  | draining
  | normal
  deriving DecidableEq, Repr

/-- What the five stages of a cycle have computed. -/
structure StageResults where
  fetch : FetchResult
  decode : DecodeResult
  execute : ExecuteResult
  memory : Option MemoryWriteback
  dispatched : Bool
  deriving DecidableEq, Repr

/-- The case of R334: the first whose condition holds. -/
def cycleCase (drain : Bool) (r : StageResults) : CycleCase :=
  match r.execute.redirect with
  | some target => .flush target
  | none =>
    if r.decode.loadUse then .loadUse
    else if r.decode.ecall then .syscallDecoded
    else if drain then .draining
    else .normal

/-- PCF', FD' and DE' of R334. -/
def nextFront (s : State) (r : StageResults) :
    CycleCase → FetchReg × Option FetchDecode × Option DecodeExecute
  | .flush target => ({ pc := target, drain := false }, none, none)
  | .loadUse => (s.pcf, s.fd, none)
  | .syscallDecoded => ({ pc := s.pcf.pc, drain := true }, none, r.decode.out)
  | .draining => ({ pc := s.pcf.pc, drain := !r.dispatched }, none, r.decode.out)
  | .normal => ({ pc := r.fetch.next, drain := false }, r.fetch.out, r.decode.out)

/-- R335: the next copies become the committed ones, all at once, unless the run has ended. -/
def commit (r : StageResults) (s : State) : State :=
  if s.status = .running then
    let front := nextFront s r (cycleCase s.pcf.drain r)
    { s with pcf := front.1, fd := front.2.1, de := front.2.2, em := r.execute.out, mw := r.memory }
  else s

/-! ## Ticks and counters (R340, R341) -/

/-- `LAT[m]` (R37); 1 for a mnemonic that is not listed (R8, entry 16). -/
def latency (cfg : Config) (op : Mnemonic) : Nat :=
  match cfg.lat.find? (fun p => p.1 = op) with
  | some p => p.2
  | none => 1

/-- `ticks <- max(1, mem_time, LAT[DE.op])` (R340), from DE as it was during the cycle. -/
def cycleTicks (s : State) : Nat :=
  max 1 (max s.memTime (match s.de with | some de => latency s.cfg de.op | none => 0))

/-- The counters after a cycle (R341). -/
def account (s : State) (r : StageResults) (ticks : Nat) : Counters :=
  let c := { s.counters with cycles := s.counters.cycles + 1, ticks := s.counters.ticks + ticks }
  match cycleCase s.pcf.drain r with
  | .flush _ => { c with controlHazard := c.controlHazard + 1 }
  | .loadUse => { c with loadUse := c.loadUse + 1, fetchStall := c.fetchStall + 1 }
  | .syscallDecoded => { c with fetchStall := c.fetchStall + 1 }
  | .draining => { c with fetchStall := c.fetchStall + 1 }
  | .normal => { c with dataHazard := c.dataHazard + r.decode.forwards }

/-! ## One cycle (R301) -/

/-- The five stages in the order F, D, E, M, W (R301, R302): Decode's word is decoded in its place, its operands
are selected once Execute and Memory have answered, from the register file Writeback has not yet written. The
first fatal condition ends the cycle (R390). -/
def runStages (s : State) : Reply State StageResults :=
  (fetchStage s).bind fun f s =>
  (decodeWord s).bind fun w s =>
  (executeStage s).bind fun e s =>
  (memoryStage s).bind fun m s =>
  let d := decodeStage s w e.out m
  (writebackStage s).bind fun b s =>
  .ok { fetch := f, decode := d, execute := e, memory := m, dispatched := b } s

/-- One clock cycle (R301). A fatal condition leaves the pipeline registers and the cycle counters as they were
and the changes of the stages before it made (R380). -/
def cycle (s : State) : State :=
  match runStages { s with memTime := 0 } with
  | .ok r s => commit r { s with counters := account s r (cycleTicks s) }
  | .fatal e s => raiseFatal e s

end Sys2Proof.Machine
end

