-- ==== Sys2Proof/Machine/Run.lean ====
section
/-! DEFINITION. One instruction of level ISA: fetch, decode, execute (R430). -/

namespace Sys2Proof.Machine

/-- The decoded word runs; a word that matches no row is fatal (R151, R155). -/
def runWord (raw : Raw) (s : State) : Host.Outcome State Fault Refusal :=
  match decode raw with
  | .ok i => exec i s
  | .error _ => .next (raiseFatal (.unknownInstruction raw s.pc) s)

/-- R430: fetch the word at `pc` through `MemRead`, decode it, apply the rule of its mnemonic. A fetch of bytes that
one of the three preceding instructions stored to is refused (R82, R431, entry 5). -/
def stepIsa (s : State) : Host.Outcome State Fault Refusal :=
  if s.staleFetch then .refused (.staleFetch s.pc)
  else settle (fetch32 s.pc { s with memTime := 0 }) runWord

end Sys2Proof.Machine
end

