-- ==== Sys2Proof/Machine/Step.lean ====
section
/-! DEFINITION. One step of the machine, at the level its configuration names (R12, entry 1). -/

namespace Sys2Proof.Machine

/-- While the run status is `running`, a step is one instruction at level ISA or one clock cycle at level CYCLE
(R12, R301). A machine that is halted or fatal makes no further step (R41, R380, R396). -/
def step (s : State) : Host.Outcome State Fault Refusal :=
  match s.status with
  | .halted status => .fault (.halted status)
  | .fatal reason => .fault (.fatal reason)
  | .running =>
    match s.cfg.level with
    | .isa => stepIsa s
    | .cycle => .next (cycle s)

/-- `s` with the four bytes of the word `w` where the instruction at `pc` is fetched, so that the next step runs
exactly it: the machine runs, at level ISA, and no store is so recent that the fetch would be refused (entry 3). -/
def State.withFetchWord (s : State) (nbits w : Nat) : State :=
  { s.placeAtPc (leBytes 4 (w % 2 ^ nbits)) with
    cfg := { s.cfg with level := .isa }
    status := .running
    recentStores := [] }

end Sys2Proof.Machine
end

