-- ==== Sys2Proof/Machine/Boot.lean ====
section
/-! DEFINITION. Before the first cycle (R410): the configuration directives (R36, R37, R92, R387, R388), the
placement of the program image (R413), and reset for any configuration and any boot arguments (R411 to R422). -/

namespace Sys2Proof.Machine

/-! ## The program image (R413) -/

/-- A segment descriptor: a virtual address, the file's bytes and the in-memory byte count (R413). -/
structure Segment where
  va : Word
  bytes : List Byte
  memCount : Nat
  deriving DecidableEq, Repr

/-- The cells of a segment's file bytes: `MEM[Translate(va + k)] <- bytes[k]`; none where an address is unmapped,
which is a loader error (R413). -/
def fileCells (cfg : Config) : Word → List Byte → Option (List MemCell)
  | _, [] => some []
  | va, b :: bs =>
    (translate cfg va).bind fun pa => (fileCells cfg (va + 1) bs).map fun cells => (pa, b) :: cells

/-- The `n` addresses from `va` up are all mapped: R413 requires it of "every touched virtual page". -/
def mappedFrom (cfg : Config) : Word → Nat → Bool
  | _, 0 => true
  | va, n + 1 => (translate cfg va).isSome && mappedFrom cfg (va + 1) n

/-- The cells of one segment. Its bytes from `length(bytes)` to `memCount - 1` "stay 0" (R413): no cell is written for
them, so that where they fall on bytes an earlier segment placed those bytes stay. DESIGN CHOICE (entry 21). -/
def segmentCells (cfg : Config) (g : Segment) : Option (List MemCell) :=
  if mappedFrom cfg g.va g.memCount then fileCells cfg g.va g.bytes else none

/-- `IMAGE`, the bytes at physical addresses that the segments place, in order (R413). Of segments that overlap, which
R413 does not speak of, the later one's file bytes count. DESIGN CHOICE (entry 21). -/
def imageOf (cfg : Config) : List Segment → Option (List MemCell)
  | [] => some []
  | g :: gs =>
    (segmentCells cfg g).bind fun a => (imageOf cfg gs).map fun b => a ++ b

/-- Place the image in the zero-initialized memory, directly and not through the caches (R413). An address at or
beyond MEM_SIZE names no byte of MEM (R32), and the byte is dropped. DESIGN CHOICE (entry 3). -/
def placeImage (memSize : Nat) : List MemCell → List Host.Cell → List Host.Cell
  | [], cells => cells
  | (pa, b) :: image, cells =>
    placeImage memSize image (if pa < memSize then Sparse.set FlatMemory.background cells pa b else cells)

/-! ## Reset (R411 to R417, R422) -/

/-- The register file after reset: `x[0] = 0`, `x[i] = INIT_REGS[i]` (R411). -/
def initialRegs (initRegs : Vector Word 32) : Vector Word 32 := initRegs.set 0 0

/-- The machine right after reset for a configuration and boot arguments (R417). -/
def State.resetWith (cfg : Config) (boot : BootParams) : State :=
  { State.reset with
    cfg := cfg
    x := initialRegs boot.initRegs
    pc := boot.entry
    pcf := { pc := boot.entry, drain := false }
    mem := { FlatMemory.zero with cells := placeImage cfg.memSize boot.image [] } }

/-! ## The configuration interface (R36, R37) -/

/-- Which store a latency directive names (R37). -/
inductive StoreName where
  | l1 | l2 | llc | mem
  deriving DecidableEq, Repr

/-- A configuration directive (R36, R37). -/
inductive Directive where
  /-- `L1_Config`, `L2_Config`, `LLC_Config` -/
  | cache (level : CacheLevel) (cc : CacheConfig)
  /-- `L1_Latency`, `L2_Latency`, `LLC_Latency`, `Mem_Latency` -/
  | latency (store : StoreName) (lat : Latency)
  /-- `<mnemonic> <latencyCycles>` -/
  | opLatency (op : Mnemonic) (ticks : Nat)
  deriving DecidableEq, Repr

/-- Set one cache's record. -/
def setCacheConfig (cfg : Config) (cc : CacheConfig) : CacheLevel → Config
  | .l1 => { cfg with l1 := cc }
  | .l2 => { cfg with l2 := cc }
  | .llc => { cfg with llc := cc }

/-- Set one store's latencies. -/
def setStoreLatency (cfg : Config) (lat : Latency) : StoreName → Config
  | .l1 => { cfg with l1Lat := lat }
  | .l2 => { cfg with l2Lat := lat }
  | .llc => { cfg with llcLat := lat }
  | .mem => { cfg with memLat := lat }

/-- Apply the directives in order. An illegal cache record is fatal (R92, R387), and so is a second record for one
cache (R36, R388; entry 15). Of several latency directives for one store, or for one mnemonic, the last counts: R37
says "set once" and not what a repeat does. DESIGN CHOICE (entry 20). `configured` lists the caches that have their
record. -/
def configure (cfg : Config) (configured : List CacheLevel) : List Directive → Except FatalReason Config
  | [] => .ok cfg
  | .cache level cc :: ds =>
    if level ∈ configured then .error (.reconfigure level)
    else if cc.legal then configure (setCacheConfig cfg cc level) (level :: configured) ds
    else .error (.badCacheConfig level cc)
  | .latency store lat :: ds => configure (setStoreLatency cfg lat store) configured ds
  | .opLatency op ticks :: ds => configure { cfg with lat := (op, ticks) :: cfg.lat } configured ds

/-- The first cache of the chain whose record is illegal (R92, R387). -/
def illegalCache (cfg : Config) : Option (CacheLevel × CacheConfig) :=
  if !cfg.l1.legal then some (.l1, cfg.l1)
  else if !cfg.l2.legal then some (.l2, cfg.l2)
  else if !cfg.llc.legal then some (.llc, cfg.llc)
  else none

/-- Configuration and then reset (R410). A configuration that is refused leaves a machine that never starts: its
run status is fatal from the beginning (R387, R388). Of the legal values of R8 only those of the caches are checked,
as R387 says; R8 does not say what another parameter outside its legal values does, and the model refuses none
(`Config.legal` is checked nowhere). DESIGN CHOICE (entry 18). -/
def powerOn (cfg : Config) (directives : List Directive) (boot : BootParams) : State :=
  match configure cfg [] directives with
  | .error reason => raiseFatal reason (State.resetWith cfg boot)
  | .ok cfg =>
    match illegalCache cfg with
    | some (level, cc) => raiseFatal (.badCacheConfig level cc) (State.resetWith cfg boot)
    | none => State.resetWith cfg boot

end Sys2Proof.Machine
end

