-- ==== Sys2Proof/Safety.lean ====
section
/-! DEFINITION. The terms claims are made in: safe runs (R380), and the invariants of the machine: the memory's
canonical form, the caches (R121, R73), the predictor (R364, R366) and the pipeline registers (R31, R336, R342). -/

namespace Sys2Proof.Machine

/-! ## Runs -/

/-- `t` is reached from `s` by steps that answer a next state. -/
inductive Reaches : State → State → Prop where
  | refl (s : State) : Reaches s s
  | step {s t u : State} (h : Reaches s t) (next : Machine.step t = .next u) : Reaches s u

/-- No fatal condition has stopped the machine (R380: what a proof about a program must show). -/
def State.notFatal (s : State) : Prop := ∀ reason, s.status ≠ .fatal reason

/-- A run from `s` never meets a fatal condition. -/
def SafeRun (s : State) : Prop := ∀ t, Reaches s t → t.notFatal

/-! ## Blocks of memory -/

/-- The aligned 64-byte block that holds `pa` lies in the flat memory, so that a cache can fetch it (R95, R106). -/
def blockInMemory (memSize pa : Nat) : Prop := (pa / 64 + 1) * 64 ≤ memSize

/-- An access of `n` bytes at `pa` that meets no fatal condition: it stays in one block (R74) and the block lies in
the flat memory (R68). -/
structure PlainAccess (memSize pa n : Nat) : Prop where
  inBlock : blockOffset pa + n ≤ 64
  inMemory : blockInMemory memSize pa

/-- `Translate` maps `va` to `pa`, where `n` bytes can be accessed. -/
structure Mapped (s : State) (va : Word) (n pa : Nat) : Prop where
  translated : translate s.cfg va = some pa
  plain : PlainAccess s.cfg.memSize pa n

/-- Some cache of the chain fetches the block on a write miss (R107). -/
def allocatesOnWrite (cfg : Config) : Bool := cfg.l1.writeAllocate || cfg.l2.writeAllocate || cfg.llc.writeAllocate

/-- `Translate` maps `va` to `pa`, where `n` bytes can be stored: in one block (R74), which lies in the flat memory or,
where every cache forwards a write miss (R108), of which the `n` bytes do (R95). -/
structure Storable (s : State) (va : Word) (n pa : Nat) : Prop where
  translated : translate s.cfg va = some pa
  inBlock : blockOffset pa + n ≤ 64
  inMemory : blockInMemory s.cfg.memSize pa ∨ allocatesOnWrite s.cfg = false ∧ pa + n ≤ s.cfg.memSize

/-- What a read of `n` bytes at `va` raises, in the order of the checks: an unmapped address (R67), a block left (R74),
the fetch of a block that does not lie in the flat memory (R95, R106). -/
inductive ReadFails (s : State) (va : Word) (n : Nat) : FatalReason → Prop where
  | unmapped (none : translate s.cfg va = none) : ReadFails s va n (.translationMiss va)
  | crossing (pa : Nat) (translated : translate s.cfg va = some pa) (crosses : 64 < pa % 64 + n) :
      ReadFails s va n (.blockCrossing pa n)
  | outside (pa : Nat) (translated : translate s.cfg va = some pa) (inBlock : pa % 64 + n ≤ 64)
      (outside : ¬ blockInMemory s.cfg.memSize pa) : ReadFails s va n (.memoryRange (pa - pa % 64) 64)

/-- What a write of `n` bytes at `va` raises: as a read where some cache fetches the block (R107); where every cache
forwards it (R108), the bytes themselves are what must lie in the flat memory (R95). -/
inductive WriteFails (s : State) (va : Word) (n : Nat) : FatalReason → Prop where
  | unmapped (none : translate s.cfg va = none) : WriteFails s va n (.translationMiss va)
  | crossing (pa : Nat) (translated : translate s.cfg va = some pa) (crosses : 64 < pa % 64 + n) :
      WriteFails s va n (.blockCrossing pa n)
  | blockOutside (pa : Nat) (translated : translate s.cfg va = some pa) (inBlock : pa % 64 + n ≤ 64)
      (allocates : allocatesOnWrite s.cfg = true) (outside : ¬ blockInMemory s.cfg.memSize pa) :
      WriteFails s va n (.memoryRange (pa - pa % 64) 64)
  | bytesOutside (pa : Nat) (translated : translate s.cfg va = some pa) (inBlock : pa % 64 + n ≤ 64)
      (forwards : allocatesOnWrite s.cfg = false) (outside : s.cfg.memSize < pa + n) :
      WriteFails s va n (.memoryRange pa n)

/-! ## The caches -/

/-- What R121 asks of a cache after every request, and what coherence (R73) rests on. `lowerView` is the byte the
lower store shows. -/
structure CacheInv (cc : CacheConfig) (memSize recencyMax : Nat) (lowerView : Nat → Byte) (c : Cache) : Prop where
  /-- the canonical form of the entry list -/
  sorted : Sparse.sorted c.entries = true
  /-- there are SIZE / 64 entries (R33) -/
  indexBound : ∀ p ∈ c.entries, p.1 < entryCount cc
  /-- an entry holds 64 bytes (R33) -/
  dataLength : ∀ i, (c.entry i).data.length = 64
  /-- recency is 0 to RECENCY_MAX (R33) -/
  recencyBound : ∀ i, (c.entry i).recency ≤ recencyMax
  /-- at most one entry of the whole cache has recency 0 after the first `Touch`, which a first fill is (R121); where
  RECENCY_MAX is 0, which R8 does not allow, every recency is 0 -/
  newest : 0 < recencyMax → c.entries ≠ [] → ∀ i j, (c.entry i).recency = 0 → (c.entry j).recency = 0 → i = j
  /-- `dirty = 1` implies `valid = 1` (R121) -/
  dirtyValid : ∀ i, (c.entry i).dirty = true → (c.entry i).valid = true
  /-- under `WT = 1` no entry is ever dirty (R121) -/
  writeThroughClean : cc.writeThrough = true → ∀ i, (c.entry i).dirty = false
  /-- a set never holds two valid entries with the same tag (R121) -/
  unique : ∀ i j, (c.entry i).valid = true → (c.entry j).valid = true → owningSet cc i = owningSet cc j →
    (c.entry i).tag = (c.entry j).tag → i = j
  /-- the block of a valid entry lies in the flat memory (it was fetched from there) -/
  inMemory : ∀ i, (c.entry i).valid = true → entryBase cc i (c.entry i).tag + 64 ≤ memSize
  /-- a valid clean entry holds what the lower store shows (R106, R107, R110) -/
  cleanAgrees : ∀ i, (c.entry i).valid = true → (c.entry i).dirty = false →
    ∀ k, k < 64 → (c.entry i).data.getD k 0 = lowerView (entryBase cc i (c.entry i).tag + k)

/-- The invariant of the whole hierarchy. -/
structure ChainInv (cfg : Config) (ch : Chain) : Prop where
  l1 : CacheInv cfg.l1 cfg.memSize cfg.recencyMax (l2View cfg ch.2) ch.1
  l2 : CacheInv cfg.l2 cfg.memSize cfg.recencyMax (llcView cfg ch.2.2) ch.2.1
  llc : CacheInv cfg.llc cfg.memSize cfg.recencyMax ch.2.2.2.byte ch.2.2.1
  mem : ch.2.2.2.wf = true

/-- The three caches' configurations are legal (R92). -/
structure LegalCaches (cfg : Config) : Prop where
  l1 : cfg.l1.legal = true
  l2 : cfg.l2.legal = true
  llc : cfg.llc.legal = true

/-- The invariant of the storage hierarchy of a state. -/
structure HierarchyInv (s : State) : Prop where
  legal : LegalCaches s.cfg
  chain : ChainInv s.cfg s.chain

/-! ## The requests of a cycle (R79, R340) -/

/-- L1 serves the requests one after another: the largest time it returns, 0 where there is no request (R340), and the
hierarchy after the last. -/
inductive Served (cfg : Config) : List Request → Chain → Nat → Chain → Prop where
  | done (ch : Chain) : Served cfg [] ch 0 ch
  | request {q : Request} {qs : List Request} {ch ch' ch'' : Chain} {a : Answer} {time : Nat}
      (first : l1Request cfg q ch = .ok a ch') (rest : Served cfg qs ch' time ch'') :
      Served cfg (q :: qs) ch (max a.time time) ch''

/-- Fetch's request: the word at PCF.pc, none while draining or where the address is unmapped (R305, R67). -/
def fetchRequests (s : State) : List Request :=
  if s.pcf.drain then [] else (translate s.cfg s.pcf.pc).toList.map (Request.read · 4)

/-- The Memory stage's request: a load's or store's bytes at EM.alu, none for another instruction, for a bubble or
where the address is unmapped (R326, R67). -/
def memoryRequests (s : State) : List Request :=
  match s.em with
  | none => []
  | some em =>
    match memAccess em.op with
    | .load k => (translate s.cfg em.alu).toList.map (Request.read · k.size)
    | .store n => (translate s.cfg em.alu).toList.map (Request.write · (leBytes n em.v2.toNat))
    | .none => []

/-- Writeback dispatches system call 91, which reads memory (R294, R331). -/
def dispatchesString (s : State) : Prop :=
  (∃ w, s.mw = some w ∧ w.op = .ecall) ∧ s.reg s.cfg.sysNumReg = 91

/-! ## The predictor -/

/-- The predictor's tables are in canonical form and no history has more than HIST_BITS bits (R34, R366). -/
structure PredictorInv (cfg : Config) (p : Predictor) : Prop where
  ctr : Sparse.wf cfg.predInit p.ctr = true
  actr : Sparse.wf cfg.predInit p.actr = true
  hist : Sparse.wf 0 p.hist = true
  histBound : ∀ b, p.histAt b < 2 ^ cfg.histBits

/-! ## The pipeline -/

/-- `DE` holds what Decode makes of its own word (R31, R152, R310). -/
def DecodeExecute.fromWord (de : DecodeExecute) : Prop :=
  ∃ i, decode de.raw = .ok i ∧ de.op = i.mnemonic ∧ de.fmt = classFormat (opClass i.mnemonic) ∧
    de.imm = (operandsOf i).imm ∧ de.rdAlu = rdAluOf i ∧ de.rdMem = rdMemOf i

/-- `EM` holds what Decode makes of its own word (R31). -/
def ExecuteMemory.fromWord (em : ExecuteMemory) : Prop :=
  ∃ i, decode em.raw = .ok i ∧ em.op = i.mnemonic ∧ em.fmt = classFormat (opClass i.mnemonic) ∧
    em.imm = (operandsOf i).imm ∧ em.rdAlu = rdAluOf i ∧ em.rdMem = rdMemOf i

/-- `MW` holds what Decode makes of its own word (R31). -/
def MemoryWriteback.fromWord (mw : MemoryWriteback) : Prop :=
  ∃ i, decode mw.raw = .ok i ∧ mw.op = i.mnemonic ∧ mw.fmt = classFormat (opClass i.mnemonic) ∧
    mw.rdAlu = rdAluOf i ∧ mw.rdMem = rdMemOf i

/-- "Immutable once decoded" (R31): what every register says of its instruction is what its word says. -/
structure DecodedInv (s : State) : Prop where
  de : ∀ d, s.de = some d → d.fromWord
  em : ∀ e, s.em = some e → e.fromWord
  mw : ∀ w, s.mw = some w → w.fromWord

/-- While draining, exactly one ECALL is in DE, EM or MW, with only bubbles behind it (R336 c); the number is how
many drain cycles it has behind it. -/
inductive DrainPosition (s : State) : Nat → Prop where
  | inExecute (d : DecodeExecute) (de : s.de = some d) (op : d.op = .ecall) (em : ∀ e, s.em = some e → e.op ≠ .ecall)
      (mw : ∀ w, s.mw = some w → w.op ≠ .ecall) : DrainPosition s 0
  | inMemory (e : ExecuteMemory) (de : s.de = none) (em : s.em = some e) (op : e.op = .ecall)
      (mw : ∀ w, s.mw = some w → w.op ≠ .ecall) : DrainPosition s 1
  | inWriteback (w : MemoryWriteback) (de : s.de = none) (em : s.em = none) (mw : s.mw = some w)
      (op : w.op = .ecall) : DrainPosition s 2

/-- The shape of the pipeline between two cycles (R334, R336): draining behind exactly one ECALL with FD a bubble, or
not draining with no ECALL past Decode and no bubble between Execute and Decode. -/
inductive PipelineShape (s : State) : Prop where
  | draining (k : Nat) (drain : s.pcf.drain = true) (fd : s.fd = none) (position : DrainPosition s k)
  | flowing (drain : s.pcf.drain = false) (full : s.de ≠ none → s.fd ≠ none)
      (de : ∀ d, s.de = some d → d.op ≠ .ecall) (em : ∀ e, s.em = some e → e.op ≠ .ecall)
      (mw : ∀ w, s.mw = some w → w.op ≠ .ecall)

/-- The state once the instruction of Writeback, those of Memory and Execute after it, have written their registers,
the oldest first; a load in Execute has no value yet. -/
def pendingWrites (s : State) (e : Option ExecuteMemory) (m : Option MemoryWriteback) : State :=
  let write : Option MemoryWriteback → State → State := fun w s =>
    match w with
    | some w => (s.setReg w.rdAlu w.alu).setReg w.rdMem w.mval
    | none => s
  let s := write m (write s.mw s)
  match e with
  | some e => s.setReg e.rdAlu e.alu
  | none => s

/-- 1 for an instruction, 0 for a bubble. -/
def occupied {α : Type} (r : Option α) : Nat := if r.isSome then 1 else 0

/-- The instructions in FD, DE, EM and MW. -/
def State.inFlight (s : State) : Nat := occupied s.fd + occupied s.de + occupied s.em + occupied s.mw

/-- The cycles in which the ECALL in flight has held Fetch: the one of its decode and those since. -/
def State.drained (s : State) : Nat :=
  if s.pcf.drain then
    if s.de.isSome then 1 else if s.em.isSome then 2 else 3
  else 0

/-- What the cycles so far were spent on (R342): one for each instruction retired or in flight, one for each
load-use stall, two for each flush, five for each system call, and those of the call in flight. -/
def State.cyclesAccounted (s : State) : Nat :=
  s.counters.retired + s.counters.loadUse + 2 * s.counters.controlHazard + 5 * s.counters.syscall + s.inFlight +
    s.drained

/-- The accounting of R342 at every cycle boundary of a run. -/
structure CycleAccount (s : State) : Prop where
  shape : PipelineShape s
  cycles : s.counters.cycles = s.cyclesAccounted

/-! ## The whole machine -/

/-- What holds of every state between two steps, at either level. -/
structure State.Inv (s : State) : Prop where
  /-- the slot of the hard-wired register (R21) -/
  zero : s.x[0] = 0
  hierarchy : HierarchyInv s
  predictor : PredictorInv s.cfg s.pred
  /-- the model's own window of the last three instructions (entry 5) -/
  window : s.recentStores.length ≤ 3

/-! ## What an instruction changes, at level ISA -/

/-- The bytes a program sees from `pa` up (R73). -/
def State.viewBytes (s : State) (pa n : Nat) : List Byte := (List.range n).map fun k => s.viewByte (pa + k)

/-- What every instruction but ECALL leaves alone, whatever it does to memory: every register but `rd`, the
configuration, the pipeline registers, the predictor, the run status, the host's side, and every counter but that of
retired instructions. That level ISA moves no cycle counter and no predictor is an inference (log entry 12). -/
structure Frame (s t : State) (rd : Reg) : Prop where
  regs : ∀ r, r ≠ rd → t.reg r = s.reg r
  zero : t.reg 0 = 0
  cfg : t.cfg = s.cfg
  pcf : t.pcf = s.pcf
  fd : t.fd = s.fd
  de : t.de = s.de
  em : t.em = s.em
  mw : t.mw = s.mw
  pred : t.pred = s.pred
  status : t.status = s.status
  trace : t.trace = s.trace
  input : t.input = s.input
  inputsRead : t.inputsRead = s.inputsRead
  counters : t.counters = { s.counters with retired := s.counters.retired + 1 }

/-- The four stores, their contents and statistics, and every byte a program sees, are as before. -/
structure StoresUntouched (s t : State) : Prop where
  l1 : t.l1 = s.l1
  l2 : t.l2 = s.l2
  llc : t.llc = s.llc
  mem : t.mem = s.mem
  memTime : t.memTime = s.memTime
  view : ∀ pa, t.viewByte pa = s.viewByte pa

/-- An instruction that accesses no memory changes `rd`, the program counter, the count of retired instructions and
the window of recent stores, and nothing else. The window is the model's own (log entry 5); `Frame` rests on log entry
12. -/
structure RegisterFrame (s t : State) (rd : Reg) : Prop where
  frame : Frame s t rd
  stores : StoresUntouched s t
  recent : t.recentStores = (none :: s.recentStores).take 3

/-- The word `w` is the instruction `i`, and in every state `i` completes: `x[rd]` becomes `value` (nothing is
written when `rd` is 0), the next instruction is at `pc + 4`, and nothing else changes (R170). -/
def Computes (w : Raw) (i : Instr) (rd : Reg) (value : State → Word) : Prop :=
  decode w = .ok i ∧ ∀ s, ∃ t, exec i s = .next t ∧ (rd ≠ 0 → t.reg rd = value s) ∧ t.pc = s.pc + 4 ∧
    RegisterFrame s t rd

/-- As `Computes`, in the states that meet a condition. -/
def ComputesIf (w : Raw) (i : Instr) (rd : Reg) (condition : State → Prop) (value : State → Word) : Prop :=
  decode w = .ok i ∧ ∀ s, condition s → ∃ t, exec i s = .next t ∧ (rd ≠ 0 → t.reg rd = value s) ∧
    t.pc = s.pc + 4 ∧ RegisterFrame s t rd

/-- The word `w` is the instruction `i`, and in every state `i` completes: it goes to `pc + offset` when the condition
holds, to `pc + 4` when not, and changes nothing else. -/
def Branches (w : Raw) (i : Instr) (offset : Word) (taken : State → Bool) : Prop :=
  decode w = .ok i ∧ ∀ s, ∃ t, exec i s = .next t ∧ t.pc = (if taken s then s.pc + offset else s.pc + 4) ∧
    RegisterFrame s t 0

/-- The word `w` is the load `i`, and where its `n` bytes can be accessed it completes: `x[rd]` becomes `extend` of
the little-endian value of the bytes the program sees there, and no byte the program sees changes. That the bytes are
those of View is an inference of the spec (R73, R121); the window of recent stores is the model's (log entry 5). -/
def Loads (w : Raw) (i : Instr) (rd rs1 : Reg) (imm : BitVec 12) (n : Nat) (extend : Nat → Word) : Prop :=
  decode w = .ok i ∧ ∀ s pa, HierarchyInv s → Mapped s (s.effectiveAddress rs1 imm) n pa →
    ∃ t, exec i s = .next t ∧ (rd ≠ 0 → t.reg rd = extend (ofLeBytes (s.viewBytes pa n))) ∧ t.pc = s.pc + 4 ∧
      Frame s t rd ∧ (∀ a, t.viewByte a = s.viewByte a) ∧ HierarchyInv t ∧
      t.recentStores = (none :: s.recentStores).take 3

/-- The word `w` is the store `i`, and where its `n` bytes can be stored it completes: exactly those bytes of what
the program sees become the low bytes of `x[rs2]`, lowest first, and no register changes. That the bytes are those of
View is an inference of the spec (R73, R121); the store joins the model's window of recent stores (log entry 5). -/
def Stores (w : Raw) (i : Instr) (rs1 rs2 : Reg) (imm : BitVec 12) (n : Nat) : Prop :=
  decode w = .ok i ∧ ∀ s pa, HierarchyInv s → Storable s (s.effectiveAddress rs1 imm) n pa →
    ∃ t, exec i s = .next t ∧
      (∀ a, t.viewByte a =
        if pa ≤ a ∧ a < pa + n then (s.reg rs2).extractLsb' (8 * (a - pa)) 8 else s.viewByte a) ∧
      t.pc = s.pc + 4 ∧ Frame s t 0 ∧ HierarchyInv t ∧
      t.recentStores = (some (pa, n) :: s.recentStores).take 3

/-- What a fatal condition at level ISA leaves as it was (R380): everything but the run status, the four stores with
their statistics, and `memTime`; in particular every register, the program counter and every byte a program sees. That
the step answers a next state with the status fatal, and what it keeps, is log entry 7; the window of recent stores is
the model's own (log entry 5). -/
structure FatalFrame (s t : State) (reason : FatalReason) : Prop where
  status : t.status = .fatal reason
  x : t.x = s.x
  pc : t.pc = s.pc
  cfg : t.cfg = s.cfg
  pcf : t.pcf = s.pcf
  fd : t.fd = s.fd
  de : t.de = s.de
  em : t.em = s.em
  mw : t.mw = s.mw
  pred : t.pred = s.pred
  counters : t.counters = s.counters
  trace : t.trace = s.trace
  input : t.input = s.input
  inputsRead : t.inputsRead = s.inputsRead
  recent : t.recentStores = s.recentStores
  view : ∀ pa, t.viewByte pa = s.viewByte pa

/-- In the states that meet a condition, `i` ends the run with this fatal condition and writes no register. -/
def FatalWhen (i : Instr) (condition : State → Prop) (reason : FatalReason) : Prop :=
  ∀ s, condition s → ∃ t, exec i s = .next t ∧ FatalFrame s t reason

/-- What fetching an instruction may change at level ISA: caches, their statistics and `memTime`. -/
structure FetchFrame (s t : State) : Prop where
  x : t.x = s.x
  pc : t.pc = s.pc
  cfg : t.cfg = s.cfg
  pcf : t.pcf = s.pcf
  fd : t.fd = s.fd
  de : t.de = s.de
  em : t.em = s.em
  mw : t.mw = s.mw
  pred : t.pred = s.pred
  counters : t.counters = s.counters
  status : t.status = s.status
  trace : t.trace = s.trace
  input : t.input = s.input
  inputsRead : t.inputsRead = s.inputsRead
  recentStores : t.recentStores = s.recentStores
  view : ∀ pa, t.viewByte pa = s.viewByte pa
  hierarchy : HierarchyInv t

/-- What a system call that runs leaves alone: the configuration, the pipeline registers, the predictor, every byte
a program sees, and every counter but that of system calls; and where it goes on (R290, R393). The window of recent
stores is the model's own (log entry 5); that level ISA moves no cycle counter and no predictor is log entry 12. -/
structure SyscallFrame (s t : State) : Prop where
  pc : t.pc = s.pc + 4
  status : t.status = s.status
  cfg : t.cfg = s.cfg
  pcf : t.pcf = s.pcf
  fd : t.fd = s.fd
  de : t.de = s.de
  em : t.em = s.em
  mw : t.mw = s.mw
  pred : t.pred = s.pred
  counters : t.counters = { s.counters with syscall := s.counters.syscall + 1 }
  view : ∀ pa, t.viewByte pa = s.viewByte pa
  recent : t.recentStores = (none :: s.recentStores).take 3

end Sys2Proof.Machine
end

