-- ==== Sys2Proof/Certificates/Slice0/Obligations.lean ====
section
/-! DEFINITION. The statements for the provers. Each docstring names the rule of spec/ that the statement formalises.
A word of an instruction is written out from its fields, most significant first (R142 to R147). -/

open Sys2Proof Sys2Proof.Machine

/-! ## Encoding (30_encoding.md) -/

/-- A few of the encoding vectors of 95_test_vectors.md: LUI, JAL, BNE, LD, SD, SRAI, ADD, ADDIW, DIV, ECALL, and the
words of EBREAK and of an SLLIW with bit 25 set, which are unknown (R148, R150, R155). -/
def Obligations.DecodeVectors : Prop :=
  decode 0x800002b7 = .ok (.lui 5 0x80000) ∧ decode 0xfe9ff06f = .ok (.jal 0 (-24)) ∧
  decode 0xfe029ce3 = .ok (.bne 5 0 (-8)) ∧ decode 0x80013083 = .ok (.ld 1 2 (-2048)) ∧
  decode 0x80113023 = .ok (.sd 2 1 (-2048)) ∧ decode 0x43f15093 = .ok (.srai 1 2 63) ∧
  decode 0x00550533 = .ok (.add 10 10 5) ∧ decode 0xfff1009b = .ok (.addiw 1 2 (-1)) ∧
  decode 0x023140b3 = .ok (.div 1 2 3) ∧ decode 0x00000073 = .ok .ecall ∧
  decode 0x00100073 = .error (.unknownInstruction 0x00100073) ∧
  decode 0x0200101b = .error (.unknownInstruction 0x0200101b)

/-- Decoding what the encoder writes for a well-formed instruction gives it back, for all 63 instructions and every
operand (R148, R150, R151). -/
def Obligations.DecodeEncode : Prop := ∀ i : Instr, i.wf = true → decode (encode i) = .ok i

/-- A word that decodes is the one word of its instruction, which is well formed: no bit of a word is dropped. -/
def Obligations.EncodeDecode : Prop := ∀ (w : Raw) (i : Instr), decode w = .ok i → i.wf = true ∧ encode i = w

/-- R150, R151: "no two rows can match the same word"; a word that matches a row is that row's instruction. -/
def Obligations.OneRowPerWord : Prop :=
  (∀ (w : Raw) (a b : Row), a ∈ opcodeTable → b ∈ opcodeTable → a.accepts w = true → b.accepts w = true →
    a.op = b.op) ∧
  (∀ (w : Raw) (a : Row), a ∈ opcodeTable → a.accepts w = true →
    decode w = .ok (a.build w) ∧ (a.build w).mnemonic = a.op)

/-- R149: the twelve major opcodes; "every other value of raw[6:0] is an unknown opcode". -/
def Obligations.UnknownOpcode : Prop :=
  ∀ w : Raw, w.extractLsb' 0 7 ∉ [0b0110111#7, 0b0010111#7, 0b1101111#7, 0b1100111#7, 0b1100011#7, 0b0000011#7,
      0b0100011#7, 0b0010011#7, 0b0110011#7, 0b0011011#7, 0b0111011#7, 0b1110011#7] →
    decode w = .error (.unknownInstruction w)

/-- R155, R298: with the SYSTEM opcode only the word 0x00000073 is an instruction. -/
def Obligations.OnlyEcallInSystem : Prop :=
  ∀ w : Raw, w.extractLsb' 0 7 = 0b1110011#7 →
    decode w = if w = 0x00000073 then .ok .ecall else .error (.unknownInstruction w)

/-! ## Reset and configuration (70_reset_and_hazards.md) -/

/-- R411, R412: `x[0] = 0`, the other registers are INIT_REGS; both program counters are ENTRY, whatever it is, and
nothing is draining. For every configuration and every boot argument. -/
def Obligations.ResetRegisters : Prop :=
  ∀ (cfg : Config) (boot : BootParams), (State.resetWith cfg boot).reg 0 = 0 ∧
    (∀ r : Reg, r ≠ 0 → (State.resetWith cfg boot).reg r = boot.initRegs[r.toNat]'r.isLt) ∧
    (State.resetWith cfg boot).pc = boot.entry ∧
    (State.resetWith cfg boot).pcf = { pc := boot.entry, drain := false }

/-- R413: a byte of MEM is the last one the image places there, or 0; and the view is MEM at the first cycle (R73, an
inference of the spec). That a byte the image places at or beyond MEM_SIZE is dropped, so that the address reads 0, is
the model's choice (log entry 3, DESIGN CHOICE); so is that of several bytes placed at one address the last counts
(log entry 21). -/
def Obligations.ResetMemory : Prop :=
  ∀ (cfg : Config) (boot : BootParams) (pa : Nat),
    ((State.resetWith cfg boot).mem.byte pa =
      if pa < cfg.memSize then ((boot.image.reverse.find? (fun p => p.1 == pa)).map (·.2)).getD 0 else 0) ∧
    (State.resetWith cfg boot).viewByte pa = (State.resetWith cfg boot).mem.byte pa

/-- R414, R415, R416, R422: all counters 0, bubbles, `running`, every cache entry invalid and clean with tag 0, recency
0 and 64 zero bytes, every predictor counter PRED_INIT, every history 0; and `State.reset` is reset with the default
configuration and boot arguments (the defaults of R8; ENTRY = 0x1000 is the model's choice, log entry 2). -/
def Obligations.ResetEverythingElse : Prop :=
  (∀ (cfg : Config) (boot : BootParams) (i b h : Nat),
    let s := State.resetWith cfg boot
    s.counters = ⟨0, 0, 0, 0, 0, 0, 0, 0, 0, 0⟩ ∧ s.l1.stats = ⟨0, 0, 0, 0, 0⟩ ∧ s.l2.stats = ⟨0, 0, 0, 0, 0⟩ ∧
      s.llc.stats = ⟨0, 0, 0, 0, 0⟩ ∧ s.mem.stats = ⟨0, 0, 0, 0, 0⟩ ∧
      s.fd = none ∧ s.de = none ∧ s.em = none ∧ s.mw = none ∧ s.status = .running ∧
      s.l1.entry i = ⟨false, false, 0, 0, List.replicate 64 0⟩ ∧ s.l2.entry i = s.l1.entry i ∧
      s.llc.entry i = s.l1.entry i ∧
      s.pred.ctrAt cfg b = cfg.predInit ∧ s.pred.actrAt cfg b h = cfg.predInit ∧ s.pred.histAt b = 0) ∧
  State.reset = State.resetWith Config.default BootParams.default

/-- Reset leaves a state that meets the invariants, for every configuration with legal caches. -/
def Obligations.ResetInvariants : Prop :=
  ∀ (cfg : Config) (boot : BootParams), LegalCaches cfg →
    (State.resetWith cfg boot).Inv ∧ CycleAccount (State.resetWith cfg boot) ∧ DecodedInv (State.resetWith cfg boot)

/-- R387, R92: a cache record whose ASSOC or SIZE is 0, whose SIZE is not a multiple of ASSOC * 64, whose set count
does not divide its entry count or is no power of two stops the machine before it starts: in a directive after accepted
ones, the first for its cache, and in the configuration that the directives are applied to. That nothing else is
refused where all directives are accepted, whatever the other parameters, is the model's choice (log entry 18); so is
what a second record for one cache does (log entry 15). -/
def Obligations.IllegalCacheConfiguration : Prop :=
  let illegal : CacheConfig → Prop := fun cc =>
    cc.assoc = 0 ∨ cc.size = 0 ∨ cc.size % (cc.assoc * 64) ≠ 0 ∨
      (cc.size / 64) % (cc.size / (cc.assoc * 64)) ≠ 0 ∨ ∀ k, cc.size / (cc.assoc * 64) ≠ 2 ^ k
  let record : Config → CacheLevel → CacheConfig := fun cfg level =>
    match level with
    | .l1 => cfg.l1
    | .l2 => cfg.l2
    | .llc => cfg.llc
  (∀ (cfg accepted : Config) (before after : List Directive) (level : CacheLevel) (cc : CacheConfig) (boot : BootParams),
    configure cfg [] before = .ok accepted → (∀ other, .cache level other ∉ before) → illegal cc →
    let s := powerOn cfg (before ++ .cache level cc :: after) boot
    s.status = .fatal (.badCacheConfig level cc) ∧ ∀ t, step s ≠ .next t) ∧
  ∀ (cfg accepted : Config) (ds : List Directive) (boot : BootParams), configure cfg [] ds = .ok accepted →
    let s := powerOn cfg ds boot
    ((∃ level, illegal (record accepted level)) → ∃ level, illegal (record accepted level) ∧
      s.status = .fatal (.badCacheConfig level (record accepted level)) ∧ ∀ t, step s ≠ .next t) ∧
    ((∀ level, ¬ illegal (record accepted level)) → s = State.resetWith accepted boot)

/-! ## Steps -/

/-- R430: at level ISA a step that fetches a word which decodes runs the decoded instruction, in the state the fetch
leaves. -/
def Obligations.StepRunsFetchedInstruction : Prop :=
  ∀ (s u : State) (raw : Raw) (i : Instr), s.status = .running → s.cfg.level = .isa → s.staleFetch = false →
    fetch32 s.pc { s with memTime := 0 } = .ok raw u → decode raw = .ok i → step s = exec i u

/-- R12, R72; that a fetch sees View is R73, an inference of the spec: where the four bytes the program sees at
`Translate(pc)` decode to an instruction, a step at level ISA is that instruction, run in a state that differs only in
caches and their statistics. -/
def Obligations.StepRunsVisibleInstruction : Prop :=
  ∀ (s : State) (pa : Nat) (i : Instr), s.status = .running → s.cfg.level = .isa → s.staleFetch = false →
    HierarchyInv s → Mapped s s.pc 4 pa → decodeBytes (s.viewBytes pa 4) = .ok i →
    ∃ u, FetchFrame s u ∧ step s = exec i u

/-- R155, R383: where they match no row, the step ends the run with that word and its address. That they are the bytes
of View is R73, an inference of the spec; the next state with status fatal, and what it keeps, is log entry 7. -/
def Obligations.UnknownInstructionIsFatal : Prop :=
  ∀ (s : State) (pa : Nat), s.status = .running → s.cfg.level = .isa → s.staleFetch = false →
    HierarchyInv s → Mapped s s.pc 4 pa →
    decode (rawOfBytes (s.viewBytes pa 4)) = .error (.unknownInstruction (rawOfBytes (s.viewBytes pa 4))) →
    ∃ t, step s = .next t ∧ FatalFrame s t (.unknownInstruction (rawOfBytes (s.viewBytes pa 4)) s.pc)

/-- R382: what Fetch raises, in this order: an unmapped address, then a word that crosses a block, then a block that
lies outside the flat memory. At level ISA. The next state with status fatal, and what it keeps, is log entry 7; that
View stays is R73, an inference of the spec. -/
def Obligations.FetchFatal : Prop :=
  ∀ s : State, s.status = .running → s.cfg.level = .isa → s.staleFetch = false → HierarchyInv s →
    (translate s.cfg s.pc = none → ∃ t, step s = .next t ∧ FatalFrame s t (.translationMiss s.pc)) ∧
    (∀ pa, translate s.cfg s.pc = some pa → 60 < pa % 64 →
      ∃ t, step s = .next t ∧ FatalFrame s t (.blockCrossing pa 4)) ∧
    (∀ pa, translate s.cfg s.pc = some pa → pa % 64 ≤ 60 → ¬ blockInMemory s.cfg.memSize pa →
      ∃ t, step s = .next t ∧ FatalFrame s t (.memoryRange (pa - pa % 64) 64))

/-- R301, R41, R380, R396: a running machine at level CYCLE makes one cycle; a machine that is halted or fatal makes no
further step, at either level. -/
def Obligations.StepOfEachStatus : Prop :=
  ∀ s : State, (s.status = .running → s.cfg.level = .cycle → step s = .next (cycle s)) ∧
    (∀ v, s.status = .halted v → step s = .fault (.halted v)) ∧
    ∀ r, s.status = .fatal r → step s = .fault (.fatal r)

/-- Level ISA refuses a fetch of a byte that one of the three instructions before it stored to, and of nothing else.
R82 and R431 ask for it, as an inference of the spec; how the window is kept is the model's choice (log entry 5). -/
def Obligations.StaleFetchRefused : Prop :=
  ∀ (s : State) (pa : Nat), s.status = .running → s.cfg.level = .isa → translate s.cfg s.pc = some pa →
    pa % 64 ≤ 60 →
    (step s = .refused (.staleFetch s.pc) ↔
      ∃ a n b, some (a, n) ∈ s.recentStores ∧ a ≤ b ∧ b < a + n ∧ pa ≤ b ∧ b < pa + 4)

/-! ## Integer computational instructions (40_integer_computational.md) -/

/-- R171, R172: LUI and AUIPC, at level ISA. The frame (`RegisterFrame`) rests on log entries 5 and 12. -/
def Obligations.UpperImmediate : Prop :=
  ∀ (rd : Reg) (imm20 : BitVec 20),
    Computes (imm20 ++ rd ++ 0b0110111#7) (.lui rd imm20) rd
      (fun _ => (imm20 ++ 0#12 : BitVec 32).signExtend 64) ∧
    Computes (imm20 ++ rd ++ 0b0010111#7) (.auipc rd imm20) rd
      (fun s => s.pc + (imm20 ++ 0#12 : BitVec 32).signExtend 64)

/-- R173 to R178: the register-immediate instructions with a 12-bit immediate, at level ISA.
The frame (`RegisterFrame`) rests on log entries 5 and 12. -/
def Obligations.RegisterImmediate : Prop :=
  ∀ (rd rs1 : Reg) (imm : BitVec 12),
    Computes (imm ++ rs1 ++ 0b000#3 ++ rd ++ 0b0010011#7) (.addi rd rs1 imm) rd
      (fun s => s.reg rs1 + imm.signExtend 64) ∧
    Computes (imm ++ rs1 ++ 0b010#3 ++ rd ++ 0b0010011#7) (.slti rd rs1 imm) rd
      (fun s => if (s.reg rs1).toInt < imm.toInt then 1 else 0) ∧
    Computes (imm ++ rs1 ++ 0b011#3 ++ rd ++ 0b0010011#7) (.sltiu rd rs1 imm) rd
      (fun s => if (s.reg rs1).toNat < (imm.signExtend 64).toNat then 1 else 0) ∧
    Computes (imm ++ rs1 ++ 0b100#3 ++ rd ++ 0b0010011#7) (.xori rd rs1 imm) rd
      (fun s => s.reg rs1 ^^^ imm.signExtend 64) ∧
    Computes (imm ++ rs1 ++ 0b110#3 ++ rd ++ 0b0010011#7) (.ori rd rs1 imm) rd
      (fun s => s.reg rs1 ||| imm.signExtend 64) ∧
    Computes (imm ++ rs1 ++ 0b111#3 ++ rd ++ 0b0010011#7) (.andi rd rs1 imm) rd
      (fun s => s.reg rs1 &&& imm.signExtend 64)

/-- R179 to R181: the shifts by a 6-bit immediate, at level ISA. The frame (`RegisterFrame`) rests on log entries 5 and
12. -/
def Obligations.ShiftImmediate : Prop :=
  ∀ (rd rs1 : Reg) (shamt : BitVec 6),
    Computes (0b000000#6 ++ shamt ++ rs1 ++ 0b001#3 ++ rd ++ 0b0010011#7) (.slli rd rs1 shamt) rd
      (fun s => s.reg rs1 <<< shamt.toNat) ∧
    Computes (0b000000#6 ++ shamt ++ rs1 ++ 0b101#3 ++ rd ++ 0b0010011#7) (.srli rd rs1 shamt) rd
      (fun s => s.reg rs1 >>> shamt.toNat) ∧
    Computes (0b010000#6 ++ shamt ++ rs1 ++ 0b101#3 ++ rd ++ 0b0010011#7) (.srai rd rs1 shamt) rd
      (fun s => BitVec.ofInt 64 ((s.reg rs1).toInt / 2 ^ shamt.toNat))

/-- R182 to R191: the 64-bit register-register instructions, at level ISA.
The frame (`RegisterFrame`) rests on log entries 5 and 12. -/
def Obligations.RegisterRegister : Prop :=
  ∀ rd rs1 rs2 : Reg,
    Computes (0b0000000#7 ++ rs2 ++ rs1 ++ 0b000#3 ++ rd ++ 0b0110011#7) (.add rd rs1 rs2) rd
      (fun s => s.reg rs1 + s.reg rs2) ∧
    Computes (0b0100000#7 ++ rs2 ++ rs1 ++ 0b000#3 ++ rd ++ 0b0110011#7) (.sub rd rs1 rs2) rd
      (fun s => s.reg rs1 - s.reg rs2) ∧
    Computes (0b0000000#7 ++ rs2 ++ rs1 ++ 0b001#3 ++ rd ++ 0b0110011#7) (.sll rd rs1 rs2) rd
      (fun s => s.reg rs1 <<< ((s.reg rs2).toNat % 64)) ∧
    Computes (0b0000000#7 ++ rs2 ++ rs1 ++ 0b010#3 ++ rd ++ 0b0110011#7) (.slt rd rs1 rs2) rd
      (fun s => if (s.reg rs1).toInt < (s.reg rs2).toInt then 1 else 0) ∧
    Computes (0b0000000#7 ++ rs2 ++ rs1 ++ 0b011#3 ++ rd ++ 0b0110011#7) (.sltu rd rs1 rs2) rd
      (fun s => if (s.reg rs1).toNat < (s.reg rs2).toNat then 1 else 0) ∧
    Computes (0b0000000#7 ++ rs2 ++ rs1 ++ 0b100#3 ++ rd ++ 0b0110011#7) (.xor rd rs1 rs2) rd
      (fun s => s.reg rs1 ^^^ s.reg rs2) ∧
    Computes (0b0000000#7 ++ rs2 ++ rs1 ++ 0b101#3 ++ rd ++ 0b0110011#7) (.srl rd rs1 rs2) rd
      (fun s => s.reg rs1 >>> ((s.reg rs2).toNat % 64)) ∧
    Computes (0b0100000#7 ++ rs2 ++ rs1 ++ 0b101#3 ++ rd ++ 0b0110011#7) (.sra rd rs1 rs2) rd
      (fun s => BitVec.ofInt 64 ((s.reg rs1).toInt / 2 ^ ((s.reg rs2).toNat % 64))) ∧
    Computes (0b0000000#7 ++ rs2 ++ rs1 ++ 0b110#3 ++ rd ++ 0b0110011#7) (.or rd rs1 rs2) rd
      (fun s => s.reg rs1 ||| s.reg rs2) ∧
    Computes (0b0000000#7 ++ rs2 ++ rs1 ++ 0b111#3 ++ rd ++ 0b0110011#7) (.and rd rs1 rs2) rd
      (fun s => s.reg rs1 &&& s.reg rs2)

/-- R192 to R195: the word forms with an immediate, at level ISA. The frame (`RegisterFrame`) rests on log entries 5
and 12. -/
def Obligations.WordImmediate : Prop :=
  (∀ (rd rs1 : Reg) (imm : BitVec 12),
    Computes (imm ++ rs1 ++ 0b000#3 ++ rd ++ 0b0011011#7) (.addiw rd rs1 imm) rd
      (fun s => ((s.reg rs1 + imm.signExtend 64).setWidth 32).signExtend 64)) ∧
  ∀ (rd rs1 shamt : BitVec 5),
    Computes (0b0000000#7 ++ shamt ++ rs1 ++ 0b001#3 ++ rd ++ 0b0011011#7) (.slliw rd rs1 shamt) rd
      (fun s => ((s.reg rs1).setWidth 32 <<< shamt.toNat).signExtend 64) ∧
    Computes (0b0000000#7 ++ shamt ++ rs1 ++ 0b101#3 ++ rd ++ 0b0011011#7) (.srliw rd rs1 shamt) rd
      (fun s => ((s.reg rs1).setWidth 32 >>> shamt.toNat).signExtend 64) ∧
    Computes (0b0100000#7 ++ shamt ++ rs1 ++ 0b101#3 ++ rd ++ 0b0011011#7) (.sraiw rd rs1 shamt) rd
      (fun s => BitVec.ofInt 64 (((s.reg rs1).setWidth 32).toInt / 2 ^ shamt.toNat))

/-- R196 to R200: the word forms with two registers, at level ISA. The frame (`RegisterFrame`) rests on log entries 5
and 12. -/
def Obligations.WordRegister : Prop :=
  ∀ rd rs1 rs2 : Reg,
    Computes (0b0000000#7 ++ rs2 ++ rs1 ++ 0b000#3 ++ rd ++ 0b0111011#7) (.addw rd rs1 rs2) rd
      (fun s => ((s.reg rs1 + s.reg rs2).setWidth 32).signExtend 64) ∧
    Computes (0b0100000#7 ++ rs2 ++ rs1 ++ 0b000#3 ++ rd ++ 0b0111011#7) (.subw rd rs1 rs2) rd
      (fun s => ((s.reg rs1 - s.reg rs2).setWidth 32).signExtend 64) ∧
    Computes (0b0000000#7 ++ rs2 ++ rs1 ++ 0b001#3 ++ rd ++ 0b0111011#7) (.sllw rd rs1 rs2) rd
      (fun s => ((s.reg rs1).setWidth 32 <<< ((s.reg rs2).toNat % 32)).signExtend 64) ∧
    Computes (0b0000000#7 ++ rs2 ++ rs1 ++ 0b101#3 ++ rd ++ 0b0111011#7) (.srlw rd rs1 rs2) rd
      (fun s => ((s.reg rs1).setWidth 32 >>> ((s.reg rs2).toNat % 32)).signExtend 64) ∧
    Computes (0b0100000#7 ++ rs2 ++ rs1 ++ 0b101#3 ++ rd ++ 0b0111011#7) (.sraw rd rs1 rs2) rd
      (fun s => BitVec.ofInt 64 (((s.reg rs1).setWidth 32).toInt / 2 ^ ((s.reg rs2).toNat % 32)))

/-! ## Multiply, divide, remainder (43_muldiv.md) -/

/-- R271 to R274, R279: the multiplications; a high half is the exact product divided by 2^64, rounded down. At
level ISA; the frame (`RegisterFrame`) rests on log entries 5 and 12. -/
def Obligations.Multiply : Prop :=
  ∀ rd rs1 rs2 : Reg,
    Computes (0b0000001#7 ++ rs2 ++ rs1 ++ 0b000#3 ++ rd ++ 0b0110011#7) (.mul rd rs1 rs2) rd
      (fun s => BitVec.ofInt 64 ((s.reg rs1).toInt * (s.reg rs2).toInt)) ∧
    Computes (0b0000001#7 ++ rs2 ++ rs1 ++ 0b001#3 ++ rd ++ 0b0110011#7) (.mulh rd rs1 rs2) rd
      (fun s => BitVec.ofInt 64 ((s.reg rs1).toInt * (s.reg rs2).toInt / 2 ^ 64)) ∧
    Computes (0b0000001#7 ++ rs2 ++ rs1 ++ 0b010#3 ++ rd ++ 0b0110011#7) (.mulhsu rd rs1 rs2) rd
      (fun s => BitVec.ofInt 64 ((s.reg rs1).toInt * (s.reg rs2).toNat / 2 ^ 64)) ∧
    Computes (0b0000001#7 ++ rs2 ++ rs1 ++ 0b011#3 ++ rd ++ 0b0110011#7) (.mulhu rd rs1 rs2) rd
      (fun s => BitVec.ofNat 64 ((s.reg rs1).toNat * (s.reg rs2).toNat / 2 ^ 64)) ∧
    Computes (0b0000001#7 ++ rs2 ++ rs1 ++ 0b000#3 ++ rd ++ 0b0111011#7) (.mulw rd rs1 rs2) rd
      (fun s => ((s.reg rs1 * s.reg rs2).setWidth 32).signExtend 64)

/-- R275 to R278: division and remainder where R284 marks no case, rounding toward zero, under either DIV_POLICY.
At level ISA; the frame (`RegisterFrame`) rests on log entries 5 and 12. -/
def Obligations.Divide : Prop :=
  ∀ rd rs1 rs2 : Reg,
    ComputesIf (0b0000001#7 ++ rs2 ++ rs1 ++ 0b100#3 ++ rd ++ 0b0110011#7) (.div rd rs1 rs2) rd
      (fun s => s.reg rs2 ≠ 0 ∧ ¬ ((s.reg rs1).toInt = -2 ^ 63 ∧ (s.reg rs2).toInt = -1))
      (fun s => BitVec.ofInt 64 ((s.reg rs1).toInt.tdiv (s.reg rs2).toInt)) ∧
    ComputesIf (0b0000001#7 ++ rs2 ++ rs1 ++ 0b101#3 ++ rd ++ 0b0110011#7) (.divu rd rs1 rs2) rd
      (fun s => s.reg rs2 ≠ 0)
      (fun s => BitVec.ofNat 64 ((s.reg rs1).toNat / (s.reg rs2).toNat)) ∧
    ComputesIf (0b0000001#7 ++ rs2 ++ rs1 ++ 0b110#3 ++ rd ++ 0b0110011#7) (.rem rd rs1 rs2) rd
      (fun s => s.reg rs2 ≠ 0 ∧ ¬ ((s.reg rs1).toInt = -2 ^ 63 ∧ (s.reg rs2).toInt = -1))
      (fun s => BitVec.ofInt 64 ((s.reg rs1).toInt.tmod (s.reg rs2).toInt)) ∧
    ComputesIf (0b0000001#7 ++ rs2 ++ rs1 ++ 0b111#3 ++ rd ++ 0b0110011#7) (.remu rd rs1 rs2) rd
      (fun s => s.reg rs2 ≠ 0)
      (fun s => BitVec.ofNat 64 ((s.reg rs1).toNat % (s.reg rs2).toNat))

/-- R280 to R283: the word forms where R284 marks no case, at level ISA. The frame (`RegisterFrame`) rests on log
entries 5 and 12. -/
def Obligations.DivideWord : Prop :=
  ∀ rd rs1 rs2 : Reg,
    ComputesIf (0b0000001#7 ++ rs2 ++ rs1 ++ 0b100#3 ++ rd ++ 0b0111011#7) (.divw rd rs1 rs2) rd
      (fun s => (s.reg rs2).setWidth 32 ≠ 0#32 ∧
        ¬ (((s.reg rs1).setWidth 32).toInt = -2 ^ 31 ∧ ((s.reg rs2).setWidth 32).toInt = -1))
      (fun s => (BitVec.ofInt 32
        (((s.reg rs1).setWidth 32).toInt.tdiv ((s.reg rs2).setWidth 32).toInt)).signExtend 64) ∧
    ComputesIf (0b0000001#7 ++ rs2 ++ rs1 ++ 0b101#3 ++ rd ++ 0b0111011#7) (.divuw rd rs1 rs2) rd
      (fun s => (s.reg rs2).setWidth 32 ≠ 0#32)
      (fun s => (BitVec.ofNat 32
        (((s.reg rs1).setWidth 32).toNat / ((s.reg rs2).setWidth 32).toNat)).signExtend 64) ∧
    ComputesIf (0b0000001#7 ++ rs2 ++ rs1 ++ 0b110#3 ++ rd ++ 0b0111011#7) (.remw rd rs1 rs2) rd
      (fun s => (s.reg rs2).setWidth 32 ≠ 0#32 ∧
        ¬ (((s.reg rs1).setWidth 32).toInt = -2 ^ 31 ∧ ((s.reg rs2).setWidth 32).toInt = -1))
      (fun s => (BitVec.ofInt 32
        (((s.reg rs1).setWidth 32).toInt.tmod ((s.reg rs2).setWidth 32).toInt)).signExtend 64) ∧
    ComputesIf (0b0000001#7 ++ rs2 ++ rs1 ++ 0b111#3 ++ rd ++ 0b0111011#7) (.remuw rd rs1 rs2) rd
      (fun s => (s.reg rs2).setWidth 32 ≠ 0#32)
      (fun s => (BitVec.ofNat 32
        (((s.reg rs1).setWidth 32).toNat % ((s.reg rs2).setWidth 32).toNat)).signExtend 64)

/-- R284: division by zero and signed overflow: the table under DIV_POLICY = riscv, `Fatal(divide)` under fatal.
At level ISA; the frame (`RegisterFrame`) rests on log entries 5 and 12, what a fatal step answers on log entry 7. -/
def Obligations.DivisionCorners : Prop :=
  ∀ rd rs1 rs2 : Reg,
    let zero : State → Prop := fun s => s.reg rs2 = 0
    let overflow : State → Prop := fun s => s.reg rs1 = 0x8000000000000000 ∧ s.reg rs2 = 0xFFFFFFFFFFFFFFFF
    let zeroW : State → Prop := fun s => (s.reg rs2).setWidth 32 = 0#32
    let overflowW : State → Prop := fun s =>
      (s.reg rs1).setWidth 32 = 0x80000000#32 ∧ (s.reg rs2).setWidth 32 = 0xFFFFFFFF#32
    let low : State → Word := fun s => ((s.reg rs1).setWidth 32).signExtend 64
    (∀ s, s.cfg.divPolicy = .riscv →
      (∀ i v, (i, v) ∈ [(Instr.div rd rs1 rs2, (0xFFFFFFFFFFFFFFFF : Word)), (.divu rd rs1 rs2, 0xFFFFFFFFFFFFFFFF),
          (.rem rd rs1 rs2, s.reg rs1), (.remu rd rs1 rs2, s.reg rs1)] → zero s →
        ∃ t, exec i s = .next t ∧ (rd ≠ 0 → t.reg rd = v) ∧ t.pc = s.pc + 4 ∧ RegisterFrame s t rd) ∧
      (∀ i v, (i, v) ∈ [(Instr.div rd rs1 rs2, s.reg rs1), (.rem rd rs1 rs2, 0)] → overflow s →
        ∃ t, exec i s = .next t ∧ (rd ≠ 0 → t.reg rd = v) ∧ t.pc = s.pc + 4 ∧ RegisterFrame s t rd) ∧
      (∀ i v, (i, v) ∈ [(Instr.divw rd rs1 rs2, (0xFFFFFFFFFFFFFFFF : Word)), (.divuw rd rs1 rs2, 0xFFFFFFFFFFFFFFFF),
          (.remw rd rs1 rs2, low s), (.remuw rd rs1 rs2, low s)] → zeroW s →
        ∃ t, exec i s = .next t ∧ (rd ≠ 0 → t.reg rd = v) ∧ t.pc = s.pc + 4 ∧ RegisterFrame s t rd) ∧
      (∀ i v, (i, v) ∈ [(Instr.divw rd rs1 rs2, low s), (.remw rd rs1 rs2, 0)] → overflowW s →
        ∃ t, exec i s = .next t ∧ (rd ≠ 0 → t.reg rd = v) ∧ t.pc = s.pc + 4 ∧ RegisterFrame s t rd)) ∧
    FatalWhen (.div rd rs1 rs2) (fun s => s.cfg.divPolicy = .fatal ∧ (zero s ∨ overflow s)) .divide ∧
    FatalWhen (.rem rd rs1 rs2) (fun s => s.cfg.divPolicy = .fatal ∧ (zero s ∨ overflow s)) .divide ∧
    FatalWhen (.divu rd rs1 rs2) (fun s => s.cfg.divPolicy = .fatal ∧ zero s) .divide ∧
    FatalWhen (.remu rd rs1 rs2) (fun s => s.cfg.divPolicy = .fatal ∧ zero s) .divide ∧
    FatalWhen (.divw rd rs1 rs2) (fun s => s.cfg.divPolicy = .fatal ∧ (zeroW s ∨ overflowW s)) .divide ∧
    FatalWhen (.remw rd rs1 rs2) (fun s => s.cfg.divPolicy = .fatal ∧ (zeroW s ∨ overflowW s)) .divide ∧
    FatalWhen (.divuw rd rs1 rs2) (fun s => s.cfg.divPolicy = .fatal ∧ zeroW s) .divide ∧
    FatalWhen (.remuw rd rs1 rs2) (fun s => s.cfg.divPolicy = .fatal ∧ zeroW s) .divide

/-! ## Control transfer (41_control_transfer.md) -/

/-- R231, R232 at level ISA: JAL and JALR link `pc + 4` and jump; a JALR's target comes from the old `x[rs1]`, also
when `rd = rs1`, with bit 0 cleared; no target is checked (R239). The frame (`RegisterFrame`) rests on log entries 5
and 12. -/
def Obligations.Jumps : Prop :=
  (∀ (rd : Reg) (b20 : BitVec 1) (b10 : BitVec 10) (b11 : BitVec 1) (b19 : BitVec 8),
    decode (b20 ++ b10 ++ b11 ++ b19 ++ rd ++ 0b1101111#7) = .ok (.jal rd (b20 ++ b19 ++ b11 ++ b10 ++ 0#1))) ∧
  (∀ (rd : Reg) (imm : BitVec 21) (s : State), ∃ t, exec (.jal rd imm) s = .next t ∧
    (rd ≠ 0 → t.reg rd = s.pc + 4) ∧ t.pc = s.pc + imm.signExtend 64 ∧ RegisterFrame s t rd) ∧
  (∀ (rd rs1 : Reg) (imm : BitVec 12),
    decode (imm ++ rs1 ++ 0b000#3 ++ rd ++ 0b1100111#7) = .ok (.jalr rd rs1 imm) ∧
    ∀ s : State, ∃ t, exec (.jalr rd rs1 imm) s = .next t ∧ (rd ≠ 0 → t.reg rd = s.pc + 4) ∧
      t.pc.getLsbD 0 = false ∧ (∀ k, 0 < k → t.pc.getLsbD k = (s.reg rs1 + imm.signExtend 64).getLsbD k) ∧
      RegisterFrame s t rd)

/-- R233 to R238: the conditional branches, at level ISA. That a branch leaves the predictor and the counts of branches
as they were is log entry 12 (DEDUCED, level ISA only: at level CYCLE Execute updates them, R322); the window of recent
stores in the frame is log entry 5. -/
def Obligations.ConditionalBranches : Prop :=
  ∀ (rs1 rs2 : Reg) (b12 : BitVec 1) (b10 : BitVec 6) (b4 : BitVec 4) (b11 : BitVec 1),
    let imm : BitVec 13 := b12 ++ b11 ++ b10 ++ b4 ++ 0#1
    Branches (b12 ++ b10 ++ rs2 ++ rs1 ++ 0b000#3 ++ b4 ++ b11 ++ 0b1100011#7) (.beq rs1 rs2 imm)
      (imm.signExtend 64) (fun s => decide (s.reg rs1 = s.reg rs2)) ∧
    Branches (b12 ++ b10 ++ rs2 ++ rs1 ++ 0b001#3 ++ b4 ++ b11 ++ 0b1100011#7) (.bne rs1 rs2 imm)
      (imm.signExtend 64) (fun s => decide (s.reg rs1 ≠ s.reg rs2)) ∧
    Branches (b12 ++ b10 ++ rs2 ++ rs1 ++ 0b100#3 ++ b4 ++ b11 ++ 0b1100011#7) (.blt rs1 rs2 imm)
      (imm.signExtend 64) (fun s => decide ((s.reg rs1).toInt < (s.reg rs2).toInt)) ∧
    Branches (b12 ++ b10 ++ rs2 ++ rs1 ++ 0b101#3 ++ b4 ++ b11 ++ 0b1100011#7) (.bge rs1 rs2 imm)
      (imm.signExtend 64) (fun s => decide ((s.reg rs2).toInt ≤ (s.reg rs1).toInt)) ∧
    Branches (b12 ++ b10 ++ rs2 ++ rs1 ++ 0b110#3 ++ b4 ++ b11 ++ 0b1100011#7) (.bltu rs1 rs2 imm)
      (imm.signExtend 64) (fun s => decide ((s.reg rs1).toNat < (s.reg rs2).toNat)) ∧
    Branches (b12 ++ b10 ++ rs2 ++ rs1 ++ 0b111#3 ++ b4 ++ b11 ++ 0b1100011#7) (.bgeu rs1 rs2 imm)
      (imm.signExtend 64) (fun s => decide ((s.reg rs2).toNat ≤ (s.reg rs1).toNat))

/-! ## Loads and stores (42_load_store.md) -/

/-- R251 to R257: the loads, at level ISA, at any alignment inside a block (R75). That a load gives the bytes of View,
leaves View as it was and keeps `HierarchyInv` is R73 and R121, inferences that the spec marks as its own; the window
of recent stores is log entry 5, the rest of the frame log entry 12. -/
def Obligations.LoadInstructions : Prop :=
  ∀ (rd rs1 : Reg) (imm : BitVec 12),
    Loads (imm ++ rs1 ++ 0b000#3 ++ rd ++ 0b0000011#7) (.lb rd rs1 imm) rd rs1 imm 1
      (fun v => (BitVec.ofNat 8 v).signExtend 64) ∧
    Loads (imm ++ rs1 ++ 0b001#3 ++ rd ++ 0b0000011#7) (.lh rd rs1 imm) rd rs1 imm 2
      (fun v => (BitVec.ofNat 16 v).signExtend 64) ∧
    Loads (imm ++ rs1 ++ 0b010#3 ++ rd ++ 0b0000011#7) (.lw rd rs1 imm) rd rs1 imm 4
      (fun v => (BitVec.ofNat 32 v).signExtend 64) ∧
    Loads (imm ++ rs1 ++ 0b011#3 ++ rd ++ 0b0000011#7) (.ld rd rs1 imm) rd rs1 imm 8 (fun v => BitVec.ofNat 64 v) ∧
    Loads (imm ++ rs1 ++ 0b100#3 ++ rd ++ 0b0000011#7) (.lbu rd rs1 imm) rd rs1 imm 1 (fun v => BitVec.ofNat 64 v) ∧
    Loads (imm ++ rs1 ++ 0b101#3 ++ rd ++ 0b0000011#7) (.lhu rd rs1 imm) rd rs1 imm 2 (fun v => BitVec.ofNat 64 v) ∧
    Loads (imm ++ rs1 ++ 0b110#3 ++ rd ++ 0b0000011#7) (.lwu rd rs1 imm) rd rs1 imm 4 (fun v => BitVec.ofNat 64 v)

/-- R258 to R261: the stores, at level ISA, at any alignment inside a block (R75), wherever the bytes can be stored.
That exactly those bytes of View change and `HierarchyInv` is kept is R73 and R121, inferences that the spec marks as
its own; that the store joins the window of recent stores is log entry 5, the rest of the frame log entry 12. -/
def Obligations.StoreInstructions : Prop :=
  ∀ (rs1 rs2 : Reg) (hi : BitVec 7) (lo : BitVec 5),
    Stores (hi ++ rs2 ++ rs1 ++ 0b000#3 ++ lo ++ 0b0100011#7) (.sb rs1 rs2 (hi ++ lo)) rs1 rs2 (hi ++ lo) 1 ∧
    Stores (hi ++ rs2 ++ rs1 ++ 0b001#3 ++ lo ++ 0b0100011#7) (.sh rs1 rs2 (hi ++ lo)) rs1 rs2 (hi ++ lo) 2 ∧
    Stores (hi ++ rs2 ++ rs1 ++ 0b010#3 ++ lo ++ 0b0100011#7) (.sw rs1 rs2 (hi ++ lo)) rs1 rs2 (hi ++ lo) 4 ∧
    Stores (hi ++ rs2 ++ rs1 ++ 0b011#3 ++ lo ++ 0b0100011#7) (.sd rs1 rs2 (hi ++ lo)) rs1 rs2 (hi ++ lo) 8

/-- R250, R384: the fatal conditions of a load or store, in their order: unmapped, crossing a block, outside the flat
memory (of the block where it is fetched, which a load always and a store under write-allocate of some cache asks for;
else of the store's own bytes). The registers stay, and every byte of View, by R73, an inference of the spec; the next
state with status fatal, and what it keeps, is log entry 7. -/
def Obligations.LoadStoreFatal : Prop :=
  ∀ (rd rs1 rs2 : Reg) (imm : BitVec 12) (s : State) (reason : FatalReason), HierarchyInv s →
    s.effectiveAddress rs1 imm = s.reg rs1 + imm.signExtend 64 ∧
    (∀ i n, (i, n) ∈ [(Instr.lb rd rs1 imm, 1), (.lbu rd rs1 imm, 1), (.lh rd rs1 imm, 2), (.lhu rd rs1 imm, 2),
        (.lw rd rs1 imm, 4), (.lwu rd rs1 imm, 4), (.ld rd rs1 imm, 8)] →
      ReadFails s (s.effectiveAddress rs1 imm) n reason → ∃ t, exec i s = .next t ∧ FatalFrame s t reason) ∧
    ∀ i n, (i, n) ∈ [(Instr.sb rs1 rs2 imm, 1), (.sh rs1 rs2 imm, 2), (.sw rs1 rs2 imm, 4), (.sd rs1 rs2 imm, 8)] →
      WriteFails s (s.effectiveAddress rs1 imm) n reason → ∃ t, exec i s = .next t ∧ FatalFrame s t reason

/-- R64, R70, R71: a read of any width sees exactly the bytes an earlier write of any width left; with the example of
R65, which the spec marks as derived. That the caches keep what was written is R73, an inference of the spec. -/
def Obligations.MixedWidthAccess : Prop :=
  ∀ (s : State) (va : Word) (n pa : Nat) (v : Word), HierarchyInv s → n ∈ [1, 2, 4, 8] → Mapped s va n pa →
    ∃ t, memWrite va n v s = .ok () t ∧
      (∀ k m, m ∈ [1, 2, 4, 8] → k + m ≤ n → translate s.cfg (va + BitVec.ofNat 64 k) = some (pa + k) →
        ∃ u, memRead (va + BitVec.ofNat 64 k) m t = .ok (BitVec.ofNat 64 (v.toNat / 2 ^ (8 * k) % 2 ^ (8 * m))) u) ∧
      (n = 8 → v = 0x1122334455667788 → translate s.cfg (va + 6) = some (pa + 6) →
        ∃ u, memRead (va + 6) 2 t = .ok 0x1122 u)

/-- After SW, LW gives the sign extension and LWU the zero extension of the low word of x[rs2], whatever it is, through
the caches (R73, an inference of the spec); with the values of R264 (a), which the spec marks as derived. -/
def Obligations.LoadAfterStore : Prop :=
  ∀ (rs1 rs2 rd : Reg) (imm : BitVec 12) (s : State) (pa : Nat), HierarchyInv s →
    Mapped s (s.effectiveAddress rs1 imm) 4 pa → rd ≠ 0 →
    let low := (s.reg rs2).extractLsb' 0 32
    ∃ t, exec (.sw rs1 rs2 imm) s = .next t ∧
      (∃ u, exec (.lw rd rs1 imm) t = .next u ∧ u.reg rd = low.signExtend 64 ∧
        (s.reg rs2 = 0xFFFFFFFF80000000 → u.reg rd = 0xFFFFFFFF80000000)) ∧
      ∃ u, exec (.lwu rd rs1 imm) t = .next u ∧ u.reg rd = low.zeroExtend 64 ∧
        (s.reg rs2 = 0xFFFFFFFF80000000 → u.reg rd = 0x0000000080000000)

/-- R264 (d), which rests on R73, an inference of the spec: two machines with any caches, configured in any legal way,
that show the same bytes load the same value. -/
def Obligations.CacheNeverChangesALoad : Prop :=
  ∀ (k : LoadKind) (rd : Reg) (va : Word) (s t : State) (pa : Nat), HierarchyInv s → HierarchyInv t →
    k ∈ [⟨1, true⟩, ⟨2, true⟩, ⟨4, true⟩, ⟨8, true⟩, ⟨1, false⟩, ⟨2, false⟩, ⟨4, false⟩] →
    Mapped s va k.size pa → Mapped t va k.size pa → (∀ a, s.viewByte a = t.viewByte a) → rd ≠ 0 →
    ∃ s' t', loadWith k rd va s = .next s' ∧ loadWith k rd va t = .next t' ∧ s'.reg rd = t'.reg rd ∧
      ∀ a, s'.viewByte a = t'.viewByte a

/-! ## System calls (44_system.md) -/

/-- R291, R292, R293: calls 88, 89 and 90 hand the full argument to the host and change nothing else; execution goes
on at `pc + 4` (R393). At level ISA; `SyscallFrame` rests on log entries 5 and 12. -/
def Obligations.SleepAndPrintCalls : Prop :=
  ∀ (s : State) (e : Word → HostEvent) (n : Word),
    (n, e) ∈ [((88 : Word), HostEvent.sleep), (89, .printInt), (90, .printChar)] → s.status = .running →
    s.reg s.cfg.sysNumReg = n →
    ∃ t, exec .ecall s = .next t ∧ t.trace = s.trace ++ [e (s.reg s.cfg.sysArgReg)] ∧ t.x = s.x ∧
      t.input = s.input ∧ t.inputsRead = s.inputsRead ∧ SyscallFrame s t ∧ StoresUntouched s t

/-- R294: call 91 reads bytes until a zero byte or until STR_CAP of them are read, and hands the host those before the
zero, with `truncated` set when the cap stopped the read. Only the bytes it reads need be mapped. At level ISA; that
they are the bytes of View is R73, an inference of the spec; `SyscallFrame` rests on log entries 5 and 12. -/
def Obligations.PrintStringCall : Prop :=
  ∀ (s : State) (pa : Nat → Nat), s.status = .running → s.reg s.cfg.sysNumReg = 91 → HierarchyInv s →
    (∀ k, k < s.cfg.strCap → (∀ j, j < k → s.viewByte (pa j) ≠ 0) →
      Mapped s (s.reg s.cfg.sysArgReg + BitVec.ofNat 64 k) 1 (pa k)) →
    let bytes := (List.range s.cfg.strCap).map fun k => s.viewByte (pa k)
    ∃ t, exec .ecall s = .next t ∧
      t.trace = s.trace ++ [.printString (bytes.takeWhile (· != 0)) (bytes.all (· != 0))] ∧ t.x = s.x ∧
      t.input = s.input ∧ t.inputsRead = s.inputsRead ∧ SyscallFrame s t ∧ HierarchyInv t

/-- R295: call 92 writes the integer the host supplies, whatever it is, to `x[SYS_RET_REG]`; the argument is ignored.
That the listed inputs come first and the free value `Config.readInt` after them is the model's (log entry 4); that the
read joins the trace as `readInt` is log entry 11 (DEDUCED from D16; the program P4 lists no such event);
`SyscallFrame` rests on log entries 5 and 12. -/
def Obligations.ReadIntegerCall : Prop :=
  ∀ s : State, s.status = .running → s.reg s.cfg.sysNumReg = 92 →
    ∃ t v, exec .ecall s = .next t ∧ (∀ w rest, s.input = w :: rest → v = w ∧ t.input = rest) ∧
      (s.input = [] → v = Config.readInt s.inputsRead ∧ t.input = []) ∧ t.inputsRead = s.inputsRead + 1 ∧
      (s.cfg.sysRetReg ≠ 0 → t.reg s.cfg.sysRetReg = v) ∧ (∀ r, r ≠ s.cfg.sysRetReg → t.reg r = s.reg r) ∧
      t.reg 0 = 0 ∧ t.trace = s.trace ++ [.readInt v] ∧ SyscallFrame s t ∧ StoresUntouched s t

/-- R296, R396: call 93 ends the run with the argument as exit status; nothing is written back from the caches
(R435), and no further step is made. At level ISA: that of the counters only that of system calls moves is log entry
12. -/
def Obligations.ExitCall : Prop :=
  ∀ s : State, s.reg s.cfg.sysNumReg = 93 →
    ∃ t, exec .ecall s = .next t ∧ t.status = .halted (s.reg s.cfg.sysArgReg) ∧
      t.trace = s.trace ++ [.exit (s.reg s.cfg.sysArgReg)] ∧ t.x = s.x ∧ StoresUntouched s t ∧
      t.counters = { s.counters with syscall := s.counters.syscall + 1 } ∧
      step t = .fault (.halted (s.reg s.cfg.sysArgReg))

/-- R297, R386: a number that is not 88 to 93 ends the run, and so does call 91 on an unmapped address. The next state
with status fatal, and what it keeps, is log entry 7. -/
def Obligations.FatalCalls : Prop :=
  ∀ s : State,
    (s.reg s.cfg.sysNumReg ∉ [88, 89, 90, 91, 92, 93] →
      ∃ t, exec .ecall s = .next t ∧ FatalFrame s t (.unknownSyscall (s.reg s.cfg.sysNumReg)) ∧ StoresUntouched s t) ∧
    (s.reg s.cfg.sysNumReg = 91 → 0 < s.cfg.strCap → translate s.cfg (s.reg s.cfg.sysArgReg) = none →
      ∃ t, exec .ecall s = .next t ∧ FatalFrame s t (.translationMiss (s.reg s.cfg.sysArgReg)) ∧ StoresUntouched s t)

/-! ## The storage hierarchy (20_memory.md, 21_cache_hierarchy.md) -/

/-- R66: the port keeps the low 6 bits and maps an aligned 64-byte block as a whole (for the identity where MEM_SIZE is
a multiple of 64); the default is the identity below MEM_SIZE. That a map is given as data is the model's (log entry
10), and that a physical address has no bound (log entry 19). -/
def Obligations.TranslationPort : Prop :=
  ∀ (cfg : Config) (va : Word),
    (∀ pa, translate cfg va = some pa → pa % 64 = va.toNat % 64) ∧
    ((cfg.translation = .identity → cfg.memSize % 64 = 0) → ∀ k, va.toNat % 64 + k < 64 →
      translate cfg (va + BitVec.ofNat 64 k) = (translate cfg va).map (fun pa => pa + k)) ∧
    (cfg.translation = .identity → translate cfg va = if va.toNat < cfg.memSize then some va.toNat else none)

/-- R93, R94, R95, R96: the flat memory copies bytes, always hits in HIT + BUS ticks, counts every request, and is
fatal beyond MEM_SIZE before any byte is copied. That a refused request changes no statistic of MEM is log entry 17
(DEDUCED: R95 says that it cannot be observed). -/
def Obligations.FlatMemoryRequest : Prop :=
  ∀ (memSize : Nat) (lat : Latency) (m : FlatMemory) (addr n : Nat) (buffer : List Byte),
    (memSize < addr + n → memRequest memSize lat (.read addr n) m = .fatal (.memoryRange addr n) m) ∧
    (memSize < addr + buffer.length →
      memRequest memSize lat (.write addr buffer) m = .fatal (.memoryRange addr buffer.length) m) ∧
    (addr + n ≤ memSize → ∃ m', memRequest memSize lat (.read addr n) m =
        .ok ⟨true, lat.hit + lat.bus, (List.range n).map fun k => m.byte (addr + k)⟩ m' ∧
      (∀ pa, m'.byte pa = m.byte pa) ∧
      m'.stats = { m.stats with access := m.stats.access + 1, time := m.stats.time + (lat.hit + lat.bus) }) ∧
    (addr + buffer.length ≤ memSize → ∃ m', memRequest memSize lat (.write addr buffer) m =
        .ok ⟨true, lat.hit + lat.bus, []⟩ m' ∧
      (∀ pa, m'.byte pa = if addr ≤ pa ∧ pa < addr + buffer.length then buffer.getD (pa - addr) 0 else m.byte pa) ∧
      m'.stats = { m.stats with access := m.stats.access + 1, time := m.stats.time + (lat.hit + lat.bus) })

/-- From the rules of the request (R97 to R115; that View behaves so, R73, and the invariants, R121, are inferences
that the spec marks as its own): a read request to L1 returns the bytes of `View` and leaves it unchanged, a write
request makes it equal to the written bytes there and leaves it unchanged elsewhere, for every legal configuration of
the three caches; a request can be fatal only where the block lies outside the flat memory, and then `View` stays; the
invariants of the caches are kept in every case. -/
def Obligations.CoherentView : Prop :=
  ∀ (cfg : Config) (ch : Chain) (addr : Nat), LegalCaches cfg → ChainInv cfg ch →
    (∀ n, addr % 64 + n ≤ 64 →
      (∃ a ch', l1Request cfg (.read addr n) ch = .ok a ch' ∧
        a.bytes = (List.range n).map (fun k => chainView cfg ch (addr + k)) ∧
        (∀ pa, chainView cfg ch' pa = chainView cfg ch pa) ∧ ChainInv cfg ch') ∨
      (¬ blockInMemory cfg.memSize addr ∧ ∃ r ch', l1Request cfg (.read addr n) ch = .fatal r ch' ∧
        (∀ pa, chainView cfg ch' pa = chainView cfg ch pa) ∧ ChainInv cfg ch')) ∧
    (∀ buffer, addr % 64 + buffer.length ≤ 64 →
      (∃ a ch', l1Request cfg (.write addr buffer) ch = .ok a ch' ∧
        (∀ pa, chainView cfg ch' pa =
          if addr ≤ pa ∧ pa < addr + buffer.length then buffer.getD (pa - addr) 0 else chainView cfg ch pa) ∧
        ChainInv cfg ch') ∨
      (¬ blockInMemory cfg.memSize addr ∧ ∃ r ch', l1Request cfg (.write addr buffer) ch = .fatal r ch' ∧
        (∀ pa, chainView cfg ch' pa = chainView cfg ch pa) ∧ ChainInv cfg ch')) ∧
    ∀ m pa, chainView cfg (Cache.empty, Cache.empty, Cache.empty, m) pa = m.byte pa

/-- R101 to R104, R108, R113, R114, R125, over any lower store: a hit makes its entry the most recently used, ages
every other entry of the whole cache, valid or not, and returns BUS + HIT; a write hit is propagated at once and leaves
the entry clean under write-through, stays here and makes it dirty under write-back; a write miss with no-allocate is
forwarded and touches no entry. R106, R107, R112: a miss that installs its block makes room in the set (what that does,
`Replacement` says), asks the lower store for the block, on a write then sends it the bytes and asks for the block
again, in this order; the entry ends valid, clean and most recently used, holding the block, and every other entry is
one access older. That the never-filled entries share one recency is representation only (log entry 6). -/
def Obligations.CacheHitAndForward : Prop :=
  ∀ (σ : Type) (lower : Request → σ → Reply σ Answer) (p : CacheParams) (c : Cache) (l : σ) (addr n : Nat)
    (buffer : List Byte),
    let aged : Nat → Entry := fun j => { c.entry j with recency := min ((c.entry j).recency + 1) p.recencyMax }
    let written : Entry → Bool → Entry := fun e d =>
      { e with data := spliceBytes e.data (addr % 64) buffer, dirty := d, recency := 0 }
    let counted : Nat → Nat → Stats := fun miss time =>
      { c.stats with access := c.stats.access + 1, miss := c.stats.miss + miss, time := c.stats.time + time }
    (∀ i, c.lookup p.cfg addr = some i →
      (addr % 64 + n ≤ 64 → ∃ c', cacheRequest lower p (.read addr n) (c, l) =
          .ok ⟨true, p.lat.bus + p.lat.hit, sliceBytes (c.entry i).data (addr % 64) n⟩ (c', l) ∧
        c'.entry i = { c.entry i with recency := 0 } ∧ (∀ j, j ≠ i → c'.entry j = aged j) ∧
        c'.stats = counted 0 (p.lat.bus + p.lat.hit)) ∧
      (addr % 64 + buffer.length ≤ 64 → p.cfg.writeThrough = false →
        ∃ c', cacheRequest lower p (.write addr buffer) (c, l) = .ok ⟨true, p.lat.bus + p.lat.hit, []⟩ (c', l) ∧
          c'.entry i = written (c.entry i) true ∧ (∀ j, j ≠ i → c'.entry j = aged j) ∧
          c'.stats = counted 0 (p.lat.bus + p.lat.hit)) ∧
      (addr % 64 + buffer.length ≤ 64 → p.cfg.writeThrough = true → ∀ a l', lower (.write addr buffer) l = .ok a l' →
        ∃ c', cacheRequest lower p (.write addr buffer) (c, l) =
            .ok ⟨true, p.lat.bus + p.lat.hit + a.time, []⟩ (c', l') ∧
          c'.entry i = written (c.entry i) false ∧ (∀ j, j ≠ i → c'.entry j = aged j) ∧
          c'.stats = counted 0 (p.lat.bus + p.lat.hit + a.time))) ∧
    (c.lookup p.cfg addr = none → p.cfg.writeAllocate = false → addr % 64 + buffer.length ≤ 64 →
      ∀ a l', lower (.write addr buffer) l = .ok a l' →
      ∃ c', cacheRequest lower p (.write addr buffer) (c, l) =
          .ok ⟨false, p.lat.bus + p.lat.hit + a.time + p.lat.bus, []⟩ (c', l') ∧
        (∀ j, c'.entry j = c.entry j) ∧ c'.stats = counted 1 (p.lat.bus + p.lat.hit + a.time + p.lat.bus)) ∧
    (c.lookup p.cfg addr = none → ∀ i room l₀ a₁ l₁,
      makeRoom lower p (addr / 64 % setCount p.cfg) (c, l) = .ok i (room, l₀) →
      lower (.read (addr - addr % 64) 64) l₀ = .ok a₁ l₁ →
      let filled : Cache → List Byte → Nat → Nat → Prop := fun c' block fetches time =>
        c'.entry i = ⟨true, false, addr / 64 / setCount p.cfg, 0, block⟩ ∧
        (∀ j, j ≠ i → c'.entry j =
          { room.entry j with recency := min ((room.entry j).recency + 1) p.recencyMax }) ∧
        c'.stats = { room.stats with
          access := c.stats.access + 1, miss := c.stats.miss + 1, fetch := c.stats.fetch + fetches
          time := c.stats.time + time }
      (addr % 64 + n ≤ 64 →
        let time := p.lat.bus + p.lat.hit + a₁.time + p.lat.bus
        ∃ c', cacheRequest lower p (.read addr n) (c, l) =
            .ok ⟨false, time, sliceBytes a₁.bytes (addr % 64) n⟩ (c', l₁) ∧ filled c' a₁.bytes 1 time) ∧
      (p.cfg.writeAllocate = true → addr % 64 + buffer.length ≤ 64 → ∀ a₂ l₂ a₃ l₃,
        lower (.write addr buffer) l₁ = .ok a₂ l₂ → lower (.read (addr - addr % 64) 64) l₂ = .ok a₃ l₃ →
        let time := p.lat.bus + p.lat.hit + a₁.time + a₂.time + a₃.time + p.lat.bus
        ∃ c', cacheRequest lower p (.write addr buffer) (c, l) = .ok ⟨false, time, []⟩ (c', l₃) ∧
          filled c' a₃.bytes 2 time))

/-- R114, R416: the first read of any block after reset misses in all three caches and returns the sum R114 gives, with
the latencies of R8 its example 129; the same read again hits and returns L1's hit time, 1. -/
def Obligations.ColdMissLatency : Prop :=
  ∀ (cfg : Config) (m : FlatMemory) (addr n : Nat), LegalCaches cfg → blockInMemory cfg.memSize addr →
    addr % 64 + n ≤ 64 →
    ∃ a ch, l1Request cfg (.read addr n) (Cache.empty, Cache.empty, Cache.empty, m) = .ok a ch ∧ a.hit = false ∧
      a.bytes = m.bytes addr n ∧
      a.time = cfg.l1Lat.bus + cfg.l1Lat.hit +
        (cfg.l2Lat.bus + cfg.l2Lat.hit +
          (cfg.llcLat.bus + cfg.llcLat.hit + (cfg.memLat.hit + cfg.memLat.bus) + cfg.llcLat.bus) + cfg.l2Lat.bus) +
        cfg.l1Lat.bus ∧
      (∃ b ch', l1Request cfg (.read addr n) ch = .ok b ch' ∧ b.hit = true ∧ b.bytes = a.bytes ∧
        b.time = cfg.l1Lat.bus + cfg.l1Lat.hit ∧
        (cfg.l1Lat = ⟨1, 0⟩ → cfg.l2Lat = ⟨8, 0⟩ → cfg.llcLat = ⟨20, 0⟩ → cfg.memLat = ⟨100, 0⟩ →
          a.time = 129 ∧ b.time = 1))

/-- R105, R109, R110, R115: a free entry of the set, the lowest, is used without a request to the lower store; else the
victim is the entry of the set with the largest recency, the lowest on a tie; if it is dirty its block goes to the
lower store, and no time of that is handed on; it ends invalid and clean, and one eviction is counted. -/
def Obligations.Replacement : Prop :=
  ∀ (σ : Type) (lower : Request → σ → Reply σ Answer) (p : CacheParams) (c : Cache) (l : σ) (q : Nat),
    0 < p.cfg.assoc →
    let inSet : Nat → Prop := fun i => q * p.cfg.assoc ≤ i ∧ i < (q + 1) * p.cfg.assoc
    (∀ i, inSet i → (c.entry i).valid = false → (∀ j, inSet j → j < i → (c.entry j).valid = true) →
      makeRoom lower p q (c, l) = .ok i (c, l)) ∧
    ((∀ i, inSet i → (c.entry i).valid = true) → ∃ v, inSet v ∧
      (∀ i, inSet i → (c.entry i).recency ≤ (c.entry v).recency) ∧
      (∀ i, inSet i → i < v → (c.entry i).recency < (c.entry v).recency) ∧
      (∀ a l', (if (c.entry v).dirty then lower (.write (entryBase p.cfg v (c.entry v).tag) (c.entry v).data) l
          else .ok a l) = .ok a l' →
        ∃ c', makeRoom lower p q (c, l) = .ok v (c', l') ∧
          c'.entry v = { c.entry v with valid := false, dirty := false } ∧
          (∀ j, j ≠ v → c'.entry j = c.entry j) ∧
          c'.stats = { c.stats with replace := c.stats.replace + 1 }))

/-! ## The branch predictor (51_branch_predictor.md) -/

/-- R362 to R366: prediction; the counter moves by one toward the outcome and saturates at 0 and 3; an update changes
the selected counter, and for the adaptive scheme the history of the bucket, and nothing else. -/
def Obligations.PredictorUpdate : Prop :=
  (∀ (c : BitVec 2) (taken : Bool),
    (nextCounter c taken).toNat = (if taken then min (c.toNat + 1) 3 else c.toNat - 1) ∧
      (predictsTaken c = true ↔ c = 2 ∨ c = 3)) ∧
  ∀ (cfg : Config) (p : Predictor) (a : Word) (taken : Bool), PredictorInv cfg p →
    let b := a.toNat / 4 % cfg.predBuckets
    let p' := p.update cfg a taken
    PredictorInv cfg p' ∧
    (cfg.predScheme = .alwaysTaken → predict cfg p a = true ∧ p' = p) ∧
    (cfg.predScheme = .alwaysNotTaken → predict cfg p a = false ∧ p' = p) ∧
    (cfg.predScheme = .bimodal → predict cfg p a = decide (2 ≤ (p.ctrAt cfg b).toNat) ∧
      (∀ j, p'.ctrAt cfg j = if j = b then nextCounter (p.ctrAt cfg b) taken else p.ctrAt cfg j) ∧
      p'.actr = p.actr ∧ p'.hist = p.hist) ∧
    (cfg.predScheme = .adaptive →
      let c := p.actrAt cfg b (p.histAt b)
      predict cfg p a = decide (2 ≤ c.toNat) ∧
      (∀ j h, h < 2 ^ cfg.histBits → p'.actrAt cfg j h =
        if j = b ∧ h = p.histAt b then nextCounter c taken else p.actrAt cfg j h) ∧
      (∀ j, p'.histAt j =
        if j = b then (2 * p.histAt b + (if predict cfg p a = taken then 0 else 1)) % 2 ^ cfg.histBits
        else p.histAt j) ∧
      p'.ctr = p.ctr)

/-! ## The pipeline, level CYCLE (50_pipeline.md) -/

/-- R314, R434: an operand that is not waiting for a load has the value the register would hold once the instructions
in Writeback, Memory and Execute had written theirs, the oldest first; it waits exactly when the load in Execute writes
it; it is forwarded, once, exactly when it does not wait and one of the three writes it. An instruction writes at most
one register (R330). The normal case of R334, with R305 to R307 and R310: where nothing flushes, stalls or drains,
Fetch goes on at a JAL's target, at a branch's predicted one, or at the next word; FD holds the fetched word with its
prediction, DE the decoded instruction with its operands, EM what Execute makes of DE (`ExecuteAgreesWithIsa` says
what that is), and of the counters of R341's cases only the forwarded operands are counted. That the word is read from View is R73, an inference of the spec. -/
def Obligations.OperandForwarding : Prop :=
  (∀ (s : State) (e : Option ExecuteMemory) (m : Option MemoryWriteback) (r : Reg),
    (∀ w, s.mw = some w → w.rdAlu = 0 ∨ w.rdMem = 0) → (∀ w, m = some w → w.rdAlu = 0 ∨ w.rdMem = 0) →
    (∀ w, e = some w → w.rdAlu = 0 ∨ w.rdMem = 0) →
    ((operand s e m r).isLoadUse = true ↔ r ≠ 0 ∧ ∃ w, e = some w ∧ w.rdMem = r) ∧
    ((operand s e m r).isLoadUse = false → (operand s e m r).value = (pendingWrites s e m).reg r) ∧
    (operand s e m r).forwards ≤ 1 ∧
    ((operand s e m r).forwards = 1 ↔ r ≠ 0 ∧ (operand s e m r).isLoadUse = false ∧
      ((∃ w, e = some w ∧ w.rdAlu = r) ∨ (∃ w, m = some w ∧ (w.rdAlu = r ∨ w.rdMem = r)) ∨
        ∃ w, s.mw = some w ∧ (w.rdAlu = r ∨ w.rdMem = r)))) ∧
  ∀ (s : State) (pa : Nat), (cycle s).status = .running → s.pcf.drain = false →
    (∀ d, s.de = some d → executeRedirect d = none) →
    (∀ fd i, s.fd = some fd → decode fd.raw = .ok i → i ≠ .ecall ∧ ∀ d, s.de = some d →
      d.rdMem = 0 ∨ d.rdMem ≠ (operandsOf i).rs1 ∧ d.rdMem ≠ (operandsOf i).rs2) →
    HierarchyInv s → Mapped s s.pcf.pc 4 pa →
    let t := cycle s
    let raw := rawOfBytes (s.viewBytes pa 4)
    let isBranch : Prop := raw.extractLsb' 0 7 = 0b1100011#7
    let immJ : BitVec 21 :=
      raw.extractLsb' 31 1 ++ raw.extractLsb' 12 8 ++ raw.extractLsb' 20 1 ++ raw.extractLsb' 21 10 ++ 0#1
    let immB : BitVec 13 :=
      raw.extractLsb' 31 1 ++ raw.extractLsb' 7 1 ++ raw.extractLsb' 25 6 ++ raw.extractLsb' 8 4 ++ 0#1
    let predTaken : Bool := decide isBranch && predict s.cfg s.pred s.pcf.pc
    t.pcf.drain = false ∧
    t.pcf.pc = (if raw.extractLsb' 0 7 = 0b1101111#7 then s.pcf.pc + immJ.signExtend 64
      else if predTaken then s.pcf.pc + immB.signExtend 64 else s.pcf.pc + 4) ∧
    t.fd = some { pc := s.pcf.pc, raw := raw, predTaken := predTaken } ∧
    t.em = s.de.map executeOut ∧
    t.counters.loadUse = s.counters.loadUse ∧ t.counters.controlHazard = s.counters.controlHazard ∧
    t.counters.fetchStall = s.counters.fetchStall ∧
    (s.fd = none → t.de = none ∧ t.counters.dataHazard = s.counters.dataHazard) ∧
    ∀ fd i, s.fd = some fd → decode fd.raw = .ok i →
      t.de = some
        { pc := fd.pc, raw := fd.raw, op := i.mnemonic, fmt := classFormat (opClass i.mnemonic),
          imm := (operandsOf i).imm, rs1 := (operandsOf i).rs1, rs2 := (operandsOf i).rs2,
          v1 := (operand s t.em t.mw (operandsOf i).rs1).value, v2 := (operand s t.em t.mw (operandsOf i).rs2).value,
          rdAlu := rdAluOf i, rdMem := rdMemOf i, predTaken := fd.predTaken } ∧
      t.counters.dataHazard = s.counters.dataHazard + (operand s t.em t.mw (operandsOf i).rs1).forwards +
        (operand s t.em t.mw (operandsOf i).rs2).forwards

/-- R315: the load-use stall, as the whole of its cycle: Fetch and Decode are held, a bubble enters Execute, the load
moves on; the next cycle gives the waiting instruction the loaded value and does not stall again. -/
def Obligations.LoadUseStall : Prop :=
  ∀ (s : State) (fd : FetchDecode) (i : Instr) (d : DecodeExecute),
    s.fd = some fd → decode fd.raw = .ok i → s.de = some d → opClass d.op = .load → d.rdAlu = 0 → d.rdMem ≠ 0 →
    (operandsOf i).rs1 = d.rdMem ∨ (operandsOf i).rs2 = d.rdMem → (cycle s).status = .running →
    let t := cycle s
    t.pcf = s.pcf ∧ t.fd = s.fd ∧ t.de = none ∧ t.em = some (executeOut d) ∧
    t.counters.loadUse = s.counters.loadUse + 1 ∧ t.counters.fetchStall = s.counters.fetchStall + 1 ∧
    t.counters.controlHazard = s.counters.controlHazard ∧ t.counters.dataHazard = s.counters.dataHazard ∧
    ((cycle t).status = .running → ∃ d' w, (cycle t).de = some d' ∧ d'.raw = fd.raw ∧ (cycle t).mw = some w ∧
      w.rdMem = d.rdMem ∧ ((operandsOf i).rs1 = d.rdMem → d'.v1 = w.mval) ∧
      ((operandsOf i).rs2 = d.rdMem → d'.v2 = w.mval) ∧ (cycle t).counters.loadUse = t.counters.loadUse)

/-- R323, R324: a JALR, and a branch whose outcome differs from its prediction, redirect Fetch, bubble Decode's and
Execute's inputs and count one control hazard and no data hazard or stall (R341); the two squashed slots pass Execute as
bubbles; nothing else flushes. -/
def Obligations.ControlHazardFlush : Prop :=
  ∀ (s : State) (d : DecodeExecute), s.de = some d → (cycle s).status = .running →
    let taken := branchTaken d.op d.v1 d.v2
    let flushed : Word → Prop := fun target =>
      (cycle s).pcf = { pc := target, drain := false } ∧ (cycle s).fd = none ∧ (cycle s).de = none ∧
      (cycle s).em = some (executeOut d) ∧ (cycle s).counters.controlHazard = s.counters.controlHazard + 1 ∧
      (cycle s).counters.dataHazard = s.counters.dataHazard ∧ (cycle s).counters.loadUse = s.counters.loadUse ∧
      (cycle s).counters.fetchStall = s.counters.fetchStall ∧
      ((cycle (cycle s)).status = .running → (cycle (cycle s)).em = none ∧ (cycle (cycle s)).de = none)
    (d.op = .jalr → flushed ((d.v1 + d.imm) &&& ~~~1#64)) ∧
    (opClass d.op = .branch → taken ≠ d.predTaken → flushed (if taken then d.pc + d.imm else d.pc + 4)) ∧
    (d.op ≠ .jalr → (opClass d.op = .branch → taken = d.predTaken) →
      (cycle s).counters.controlHazard = s.counters.controlHazard)

/-- R322: a conditional branch in Execute is counted and updates the predictor once, under its own address; no other
instruction does. -/
def Obligations.BranchResolution : Prop :=
  ∀ s : State, (cycle s).status = .running →
    (∀ d, s.de = some d → opClass d.op = .branch →
      (cycle s).pred = s.pred.update s.cfg d.pc (branchTaken d.op d.v1 d.v2) ∧
      (cycle s).counters.branchTotal = s.counters.branchTotal + 1 ∧
      (cycle s).counters.branchOk =
        s.counters.branchOk + (if branchTaken d.op d.v1 d.v2 = d.predTaken then 1 else 0)) ∧
    ((∀ d, s.de = some d → opClass d.op ≠ .branch) → (cycle s).pred = s.pred ∧
      (cycle s).counters.branchTotal = s.counters.branchTotal ∧ (cycle s).counters.branchOk = s.counters.branchOk)

/-- R316, R331, R334: an ECALL in Decode that no flush removes stops Fetch and goes on alone; its dispatch in Writeback
lets Fetch go on at the held address. The instruction in Execute moves on in either case, and of the counters of R341's
cases only the fetch stall is counted. -/
def Obligations.SystemCallDrain : Prop :=
  ∀ s : State, (cycle s).status = .running → (∀ d, s.de = some d → executeRedirect d = none) →
    let stalled : Prop := (cycle s).em = s.de.map executeOut ∧
      (cycle s).counters.fetchStall = s.counters.fetchStall + 1 ∧
      (cycle s).counters.dataHazard = s.counters.dataHazard ∧ (cycle s).counters.loadUse = s.counters.loadUse ∧
      (cycle s).counters.controlHazard = s.counters.controlHazard
    (∀ fd, s.fd = some fd → decode fd.raw = .ok .ecall →
      (cycle s).pcf = { pc := s.pcf.pc, drain := true } ∧ (cycle s).fd = none ∧
      (∃ d, (cycle s).de = some d ∧ d.op = .ecall ∧ d.pc = fd.pc) ∧ stalled) ∧
    (s.fd = none → s.pcf.drain = true →
      (cycle s).pcf = { pc := s.pcf.pc, drain := !(s.mw.any fun w => w.op == .ecall) } ∧ (cycle s).fd = none ∧
      (cycle s).de = none ∧ (s.em = none → s.mw = none → (cycle s).l1 = s.l1) ∧ stalled)

/-- R330, R331: the register file is written in Writeback and nowhere else: by an instruction that is not an ECALL, its
destination; by system call 92, `x[SYS_RET_REG]`; and which of the two counters counts it. R291 to R296: an ECALL in
Writeback hands the host the event of its call, and nothing else does; call 92 writes the host's integer, call 93 halts.
Which integer is log entry 4, that its read is an event log entry 11; that call 91 reads View is R73, an inference of
the spec, as is `PipelineShape` (R336 c), by which nothing else accesses memory in that cycle. -/
def Obligations.RegisterWritesOnlyInWriteback : Prop :=
  ∀ s : State, (∀ r, (cycle s).status ≠ .fatal r) →
    let t := cycle s
    let number := s.reg s.cfg.sysNumReg
    let arg := s.reg s.cfg.sysArgReg
    let noInput : Prop := t.input = s.input ∧ t.inputsRead = s.inputsRead
    (s.mw = none → t.x = s.x ∧ t.counters.retired = s.counters.retired ∧
      t.counters.syscall = s.counters.syscall) ∧
    (∀ w, s.mw = some w → w.op ≠ .ecall → t.x = ((s.setReg w.rdAlu w.alu).setReg w.rdMem w.mval).x ∧
      t.counters.retired = s.counters.retired + 1 ∧ t.counters.syscall = s.counters.syscall) ∧
    ((∀ w, s.mw = some w → w.op ≠ .ecall) → t.trace = s.trace ∧ noInput ∧ t.status = s.status) ∧
    ∀ w, s.mw = some w → w.op = .ecall →
      t.counters.retired = s.counters.retired ∧ t.counters.syscall = s.counters.syscall + 1 ∧
      (∀ r, r ≠ s.cfg.sysRetReg ∨ number ≠ 92 → t.reg r = s.reg r) ∧
      (number ≠ 92 → noInput) ∧ (number ≠ 93 → t.status = s.status) ∧
      (∀ e, (number, e) ∈ [((88 : Word), HostEvent.sleep), (89, .printInt), (90, .printChar)] →
        t.trace = s.trace ++ [e arg]) ∧
      (number = 91 → PipelineShape s → HierarchyInv s → ∀ pa : Nat → Nat,
        (∀ k, k < s.cfg.strCap → (∀ j, j < k → s.viewByte (pa j) ≠ 0) →
          translate s.cfg (arg + BitVec.ofNat 64 k) = some (pa k)) →
        let bytes := (List.range s.cfg.strCap).map fun k => s.viewByte (pa k)
        t.trace = s.trace ++ [.printString (bytes.takeWhile (· != 0)) (bytes.all (· != 0))]) ∧
      (number = 92 → ∃ v, (∀ x rest, s.input = x :: rest → v = x ∧ t.input = rest) ∧
        (s.input = [] → v = Config.readInt s.inputsRead ∧ t.input = []) ∧ t.inputsRead = s.inputsRead + 1 ∧
        (s.cfg.sysRetReg ≠ 0 → t.reg s.cfg.sysRetReg = v) ∧ t.trace = s.trace ++ [.readInt v]) ∧
      (number = 93 → t.status = .halted arg ∧ t.trace = s.trace ++ [.exit arg])

/-- R340, R341: the cycle and its ticks are counted, also in the cycle of an exit call. R70, R79, R340: mem_time is the
largest time L1 returns in the cycle, to Fetch's request and then the Memory stage's (0 where neither makes one), or to
the byte reads of system call 91, which R336 c leaves alone in its cycle (`PipelineShape`); and no other request is made
of the caches. That a mnemonic's latency is the first one listed for it, and 1 where none is, is the model's form of the
table (log entry 16, DESIGN CHOICE); that call 91 reads View is R73, an inference of the spec. -/
def Obligations.CycleTicks : Prop :=
  ∀ s : State, (∀ r, (cycle s).status ≠ .fatal r) →
    (cycle s).counters.cycles = s.counters.cycles + 1 ∧
    (∀ d, s.de = some d → (cycle s).counters.ticks =
      s.counters.ticks + max 1 (max (cycle s).memTime
        (((s.cfg.lat.find? fun p => p.1 = d.op).map (·.2)).getD 1))) ∧
    (s.de = none → (cycle s).counters.ticks = s.counters.ticks + max 1 (cycle s).memTime) ∧
    (¬ dispatchesString s →
      Served s.cfg (fetchRequests s ++ memoryRequests s) s.chain (cycle s).memTime (cycle s).chain) ∧
    (dispatchesString s → PipelineShape s → HierarchyInv s → ∀ (n : Nat) (pa : Nat → Nat), n ≤ s.cfg.strCap →
      (∀ k, k < n → translate s.cfg (s.reg s.cfg.sysArgReg + BitVec.ofNat 64 k) = some (pa k)) →
      (∀ k, k + 1 < n → s.viewByte (pa k) ≠ 0) → (n = s.cfg.strCap ∨ 0 < n ∧ s.viewByte (pa (n - 1)) = 0) →
      Served s.cfg ((List.range n).map fun k => .read (pa k) 1) s.chain (cycle s).memTime (cycle s).chain)

/-- R380, R390: a cycle that meets a fatal condition commits nothing, writes no register, hands nothing to the host and
is not counted; and the first stage in the order Fetch (R382), Decode (R383), Execute (R385), Memory (R384), Writeback
(R386) that meets one is the one reported. An ECALL in Writeback has only bubbles behind it (R336 c), which
`PipelineShape` says. That a read sees View is R73, an inference of the spec. -/
def Obligations.FatalCycle : Prop :=
  (∀ (s : State) (r : FatalReason), s.status = .running → (cycle s).status = .fatal r →
    (cycle s).pcf = s.pcf ∧ (cycle s).fd = s.fd ∧ (cycle s).de = s.de ∧ (cycle s).em = s.em ∧ (cycle s).mw = s.mw ∧
    (cycle s).x = s.x ∧ (cycle s).trace = s.trace ∧ (cycle s).counters.cycles = s.counters.cycles ∧
    (cycle s).counters.ticks = s.counters.ticks ∧ (cycle s).counters.retired = s.counters.retired) ∧
  ∀ (s : State) (r : FatalReason), HierarchyInv s →
    let fetchClear : Prop := s.pcf.drain = false → ∃ pa, Mapped s s.pcf.pc 4 pa
    let decodeClear : Prop := ∀ fd, s.fd = some fd → ∃ i, decode fd.raw = .ok i
    let executeClear : Prop := s.cfg.divPolicy = .fatal → ∀ d, s.de = some d → divMarked d.op d.v1 d.v2 = false
    (s.pcf.drain = false → ReadFails s s.pcf.pc 4 r → (cycle s).status = .fatal r) ∧
    (∀ fd e, fetchClear → s.fd = some fd → decode fd.raw = .error e →
      (cycle s).status = .fatal (.unknownInstruction fd.raw fd.pc)) ∧
    (∀ d, fetchClear → decodeClear → s.de = some d → s.cfg.divPolicy = .fatal → divMarked d.op d.v1 d.v2 = true →
      (cycle s).status = .fatal .divide) ∧
    (∀ em n, fetchClear → decodeClear → executeClear → s.em = some em →
      ((em.op, n) ∈ [(Mnemonic.lb, 1), (.lbu, 1), (.lh, 2), (.lhu, 2), (.lw, 4), (.lwu, 4), (.ld, 8)] →
        ReadFails s em.alu n r → (cycle s).status = .fatal r) ∧
      ((em.op, n) ∈ [(Mnemonic.sb, 1), (.sh, 2), (.sw, 4), (.sd, 8)] → WriteFails s em.alu n r →
        (cycle s).status = .fatal r)) ∧
    ∀ w, s.mw = some w → w.op = .ecall → PipelineShape s →
      (s.reg s.cfg.sysNumReg ∉ [88, 89, 90, 91, 92, 93] →
        (cycle s).status = .fatal (.unknownSyscall (s.reg s.cfg.sysNumReg))) ∧
      (s.reg s.cfg.sysNumReg = 91 → ∀ (k : Nat) (pa : Nat → Nat), k < s.cfg.strCap →
        (∀ j, j < k → Mapped s (s.reg s.cfg.sysArgReg + BitVec.ofNat 64 j) 1 (pa j) ∧ s.viewByte (pa j) ≠ 0) →
        ReadFails s (s.reg s.cfg.sysArgReg + BitVec.ofNat 64 k) 1 r → (cycle s).status = .fatal r)

/-- R320, R12: what Execute computes is what the instruction's own rule computes at level ISA: the result, the
effective address, and the address of the next instruction (`RegisterFrame` rests on log entries 5 and 12). R320, R31,
R334: in a cycle that goes on, EM gets the fields of the instruction in DE as they are, that ALU value of its operands
and the target of its jump or branch (what R320 calls unused is left open); a bubble stays one. R326:
Memory accesses View at the address Execute computed: a load puts the extension of the bytes there into MW, a store
makes exactly those bytes the low bytes of its data, any other instruction and a bubble leave View alone. That the
accesses are to View is R73, an inference of the spec. -/
def Obligations.ExecuteAgreesWithIsa : Prop :=
  (∀ (i : Instr) (s : State),
    let o := operandsOf i
    let a := s.reg o.rs1
    let b := s.reg o.rs2
    (opClass i.mnemonic ∈ [.load, .store] → aluValue i.mnemonic s.pc a b o.imm = a + o.imm) ∧
    (opClass i.mnemonic ∉ [.load, .store, .system] →
      (s.cfg.divPolicy = .fatal → divMarked i.mnemonic a b = false) →
      ∃ t, exec i s = .next t ∧ (o.rd ≠ 0 → t.reg o.rd = aluValue i.mnemonic s.pc a b o.imm) ∧
        RegisterFrame s t o.rd ∧
        t.pc = match opClass i.mnemonic with
          | .jump => s.pc + o.imm
          | .jumpReg => jalrTarget a o.imm
          | .branch => if branchTaken i.mnemonic a b then s.pc + o.imm else s.pc + 4
          | .upper | .load | .store | .regImm | .regReg | .system => s.pc + 4)) ∧
  (∀ s : State, (cycle s).status = .running →
    (s.de = none → (cycle s).em = none) ∧
    ∀ d, s.de = some d → ∃ e, (cycle s).em = some e ∧ e.pc = d.pc ∧ e.raw = d.raw ∧ e.op = d.op ∧ e.fmt = d.fmt ∧
      e.imm = d.imm ∧ e.v2 = d.v2 ∧ e.rdAlu = d.rdAlu ∧ e.rdMem = d.rdMem ∧
      (opClass d.op ∉ [.branch, .system] → e.alu = aluValue d.op d.pc d.v1 d.v2 d.imm) ∧
      (opClass d.op ∈ [.jump, .branch] → e.btarget = d.pc + d.imm) ∧
      (opClass d.op = .jumpReg → e.btarget = (d.v1 + d.imm) &&& ~~~1#64)) ∧
  ∀ s : State, HierarchyInv s → (cycle s).status = .running →
    (s.em = none → (cycle s).mw = none ∧ ∀ a, (cycle s).viewByte a = s.viewByte a) ∧
    ∀ em, s.em = some em →
      (∃ w, (cycle s).mw = some w ∧ w.pc = em.pc ∧ w.raw = em.raw ∧ w.op = em.op ∧ w.fmt = em.fmt ∧ w.alu = em.alu ∧
        w.rdAlu = em.rdAlu ∧ w.rdMem = em.rdMem ∧
        ∀ n pa extend, (em.op, n, extend) ∈ ([(.lb, 1, fun v => (BitVec.ofNat 8 v).signExtend 64),
            (.lh, 2, fun v => (BitVec.ofNat 16 v).signExtend 64), (.lw, 4, fun v => (BitVec.ofNat 32 v).signExtend 64),
            (.ld, 8, BitVec.ofNat 64), (.lbu, 1, BitVec.ofNat 64), (.lhu, 2, BitVec.ofNat 64),
            (.lwu, 4, BitVec.ofNat 64)] : List (Mnemonic × Nat × (Nat → Word))) →
          translate s.cfg em.alu = some pa → w.mval = extend (ofLeBytes (s.viewBytes pa n))) ∧
      (∀ n pa, (em.op, n) ∈ [(Mnemonic.sb, 1), (.sh, 2), (.sw, 4), (.sd, 8)] → translate s.cfg em.alu = some pa →
        ∀ a, (cycle s).viewByte a =
          if pa ≤ a ∧ a < pa + n then em.v2.extractLsb' (8 * (a - pa)) 8 else s.viewByte a) ∧
      (opClass em.op ≠ .store → ∀ a, (cycle s).viewByte a = s.viewByte a)

/-- The cycle counts of R342, which the spec marks as derived from R315, R316, R323 and R334: the accounting is kept by
every cycle of a running machine, and when the exit call halts it, at the end of a run from reset too, `n_cycles = N +
L + 2 C + 5 S`. -/
def Obligations.CycleAccounting : Prop :=
  let total : State → Prop := fun t => t.counters.cycles =
    t.counters.retired + t.counters.loadUse + 2 * t.counters.controlHazard + 5 * t.counters.syscall
  (∀ s, CycleAccount s → (cycle s).status = .running → CycleAccount (cycle s)) ∧
  (∀ s v, CycleAccount s → s.status = .running → (cycle s).status = .halted v → total (cycle s)) ∧
  ∀ cfg boot t v, cfg.level = .cycle → Reaches (State.resetWith cfg boot) t → t.status = .halted v → total t

/-! ## Invariants of every step -/

/-- R21, R364, R366, and R121, which the spec marks as derived; the window of recent stores is the model's own (log
entry 5): at either level every step that answers a next state keeps the hard-wired register, the
canonical forms, the invariants of the caches and the predictor, and the window of recent stores. -/
def Obligations.InvariantKept : Prop := ∀ s t : State, s.Inv → step s = .next t → t.Inv

/-- R31: every step keeps "immutable once decoded": what a pipeline register says of its instruction is what Decode
makes of its word. -/
def Obligations.DecodedKept : Prop := ∀ s t : State, DecodedInv s → step s = .next t → DecodedInv t

/-- R410: "Configuration is constant from reset on": no step changes it. -/
def Obligations.ConfigurationConstant : Prop := ∀ s t : State, step s = .next t → t.cfg = s.cfg
end

