-- ==== Sys2Proof/Laws/Sparse.lean ====
section
/-! SUPPORT. Sparse tables: reading after an insertion, an erasure or a canonical write, and the canonical form kept. -/

namespace Sys2Proof.Machine

variable {α : Type}

theorem Sparse.find?_insert (l : List (Nat × α)) (k : Nat) (v : α) (j : Nat) :
    Sparse.find? (Sparse.insert l k v) j = if j = k then some v else Sparse.find? l j := by
  induction l with
  | nil => simp [Sparse.insert, Sparse.find?]
  | cons p l ih =>
    obtain ⟨a, w⟩ := p
    simp only [Sparse.insert]
    split
    · simp [Sparse.find?]
    · split
      · rename_i hk; subst hk
        by_cases h : j = k <;> simp [Sparse.find?, h]
      · by_cases h : j = a
        · subst h
          have : j ≠ k := fun h => by simp_all
          simp [Sparse.find?, this]
        · simp [Sparse.find?, h, ih]

theorem Sparse.find?_erase (l : List (Nat × α)) (k j : Nat) :
    Sparse.find? (Sparse.erase l k) j = if j = k then none else Sparse.find? l j := by
  induction l with
  | nil => simp [Sparse.erase, Sparse.find?]
  | cons p l ih =>
    obtain ⟨a, w⟩ := p
    by_cases h : a = k
    · have e : Sparse.erase ((a, w) :: l) k = Sparse.erase l k := by simp [Sparse.erase, h]
      rw [e, ih]
      by_cases hj : j = k
      · simp [hj]
      · have : j ≠ a := by omega
        simp [Sparse.find?, this, hj]
    · have e : Sparse.erase ((a, w) :: l) k = (a, w) :: Sparse.erase l k := by simp [Sparse.erase, h]
      rw [e]
      simp only [Sparse.find?, ih]
      by_cases hj : j = a
      · have : j ≠ k := by omega
        simp [hj, h]
      · simp [hj]

theorem Sparse.get_set [DecidableEq α] (d : α) (l : List (Nat × α)) (k : Nat) (v : α) (j : Nat) :
    Sparse.get d (Sparse.set d l k v) j = if j = k then v else Sparse.get d l j := by
  unfold Sparse.get Sparse.set
  split
  · rw [Sparse.find?_erase]; split <;> simp_all
  · rw [Sparse.find?_insert]; split <;> simp_all

theorem Sparse.find?_map (l : List (Nat × α)) (f : Nat → α → α) (j : Nat) :
    Sparse.find? (l.map fun p => (p.1, f p.1 p.2)) j = (Sparse.find? l j).map (f j) := by
  induction l with
  | nil => rfl
  | cons p l ih =>
    obtain ⟨a, w⟩ := p
    by_cases h : j = a
    · subst h; simp [Sparse.find?]
    · simp [Sparse.find?, h, ih]

theorem Sparse.sorted_map (l : List (Nat × α)) (f : Nat → α → α) :
    Sparse.sorted (l.map fun p => (p.1, f p.1 p.2)) = Sparse.sorted l := by
  induction l with
  | nil => rfl
  | cons p l ih => obtain ⟨a, w⟩ := p; simp [Sparse.sorted, ih, List.all_map, Function.comp_def]

theorem Sparse.mem_of_find? {l : List (Nat × α)} {k : Nat} {v : α} (h : Sparse.find? l k = some v) : (k, v) ∈ l := by
  induction l with
  | nil => cases h
  | cons p l ih =>
    obtain ⟨a, w⟩ := p
    simp only [Sparse.find?] at h
    split at h
    · rename_i hk; injection h with h; subst hk; subst h; exact List.mem_cons_self ..
    · exact List.mem_cons_of_mem _ (ih h)

theorem Sparse.mem_insert {l : List (Nat × α)} {k : Nat} {v : α} {p : Nat × α}
    (h : p ∈ Sparse.insert l k v) : p = (k, v) ∨ p ∈ l := by
  induction l with
  | nil => simpa [Sparse.insert] using h
  | cons q l ih =>
    obtain ⟨a, w⟩ := q
    simp only [Sparse.insert] at h
    split at h
    · simpa using h
    · split at h
      · rcases List.mem_cons.1 h with h | h
        · exact .inl h
        · exact .inr (List.mem_cons_of_mem _ h)
      · rcases List.mem_cons.1 h with h | h
        · exact .inr (by simp [h])
        · rcases ih h with h | h
          · exact .inl h
          · exact .inr (List.mem_cons_of_mem _ h)

theorem Sparse.sorted_insert (l : List (Nat × α)) (k : Nat) (v : α) (h : Sparse.sorted l = true) :
    Sparse.sorted (Sparse.insert l k v) = true := by
  induction l with
  | nil => simp [Sparse.insert, Sparse.sorted]
  | cons p l ih =>
    obtain ⟨a, w⟩ := p
    simp only [Sparse.sorted, Bool.and_eq_true, List.all_eq_true, decide_eq_true_eq] at h
    simp only [Sparse.insert]
    split
    · rename_i hk
      simp only [Sparse.sorted, Bool.and_eq_true, List.all_eq_true, decide_eq_true_eq, List.mem_cons]
      exact ⟨fun x hx => by rcases hx with rfl | hx; exacts [hk, Nat.lt_trans hk (h.1 x hx)], h.1, h.2⟩
    · split
      · subst_vars; simpa [Sparse.sorted] using h
      · simp only [Sparse.sorted, Bool.and_eq_true, List.all_eq_true, decide_eq_true_eq]
        refine ⟨fun x hx => ?_, ih h.2⟩
        rcases Sparse.mem_insert hx with rfl | hx
        · simp only; omega
        · exact h.1 x hx

theorem Sparse.sorted_erase (l : List (Nat × α)) (k : Nat) (h : Sparse.sorted l = true) :
    Sparse.sorted (Sparse.erase l k) = true := by
  induction l with
  | nil => rfl
  | cons p l ih =>
    obtain ⟨a, w⟩ := p
    simp only [Sparse.sorted, Bool.and_eq_true, List.all_eq_true, decide_eq_true_eq] at h
    unfold Sparse.erase at ih ⊢
    simp only [List.filter_cons]
    split
    · simp only [Sparse.sorted, Bool.and_eq_true, List.all_eq_true, decide_eq_true_eq]
      exact ⟨fun x hx => h.1 x (List.mem_filter.1 hx).1, ih h.2⟩
    · exact ih h.2

/-- A canonical write keeps the canonical form. -/
theorem Sparse.wf_set [DecidableEq α] (d : α) (l : List (Nat × α)) (k : Nat) (v : α) (h : Sparse.wf d l = true) :
    Sparse.wf d (Sparse.set d l k v) = true := by
  simp only [Sparse.wf, Bool.and_eq_true, List.all_eq_true, bne_iff_ne] at h ⊢
  unfold Sparse.set
  split
  · exact ⟨Sparse.sorted_erase l k h.1, fun x hx => h.2 x (List.mem_filter.1 hx).1⟩
  · rename_i hv
    refine ⟨Sparse.sorted_insert l k v h.1, fun x hx => ?_⟩
    rcases Sparse.mem_insert hx with rfl | hx
    exacts [hv, h.2 x hx]

end Sys2Proof.Machine
end

