-- ==== Sys2Proof/Laws/Memory.lean ====
section
/-! SUPPORT. Little-endian bytes, replies, and the flat memory: what a read after a write gives, the canonical form
kept by every operation, and all that a request can answer. -/

namespace Sys2Proof

theorem length_leBytes (n v : Nat) : (leBytes n v).length = n := by
  induction n generalizing v with
  | zero => rfl
  | succ n ih => simp [leBytes, ih]

/-- Reading back the low bytes of a value gives the value modulo 2^(8n) (R70, R71). -/
theorem ofLeBytes_leBytes (n v : Nat) : ofLeBytes (leBytes n v) = v % 256 ^ n := by
  induction n generalizing v with
  | zero => simp [leBytes, ofLeBytes, Nat.mod_one]
  | succ n ih =>
    simp only [leBytes, ofLeBytes, ih, BitVec.toNat_ofNat]
    have h : 256 ^ (n + 1) = 256 * 256 ^ n := by rw [Nat.pow_succ, Nat.mul_comm]
    rw [h, Nat.mod_mul]

/-- The bytes of the value of a list of bytes are that list (R70, R71). -/
theorem leBytes_ofLeBytes (bs : List Byte) : leBytes bs.length (ofLeBytes bs) = bs := by
  induction bs with
  | nil => rfl
  | cons b bs ih =>
    have h1 : BitVec.ofNat 8 (b.toNat + 256 * ofLeBytes bs) = b := by
      apply BitVec.eq_of_toNat_eq; simp only [BitVec.toNat_ofNat]; have := b.isLt; omega
    have h2 : (b.toNat + 256 * ofLeBytes bs) / 256 = ofLeBytes bs := by have := b.isLt; omega
    simp only [List.length_cons, leBytes, ofLeBytes, h1, h2, ih]

theorem ofLeBytes_lt (bs : List Byte) : ofLeBytes bs < 256 ^ bs.length := by
  induction bs with
  | nil => simp [ofLeBytes]
  | cons b bs ih =>
    have := b.isLt
    simp only [ofLeBytes, List.length_cons, Nat.pow_succ]; omega

/-- The byte at place `k` of a value (R71: `v[8k+7 : 8k]`). -/
theorem getD_leBytes (n v k : Nat) (h : k < n) : (leBytes n v).getD k 0 = BitVec.ofNat 8 (v / 256 ^ k) := by
  induction n generalizing v k with
  | zero => omega
  | succ n ih =>
    cases k with
    | zero => simp [leBytes]
    | succ k =>
      rw [leBytes, List.getD_cons_succ, ih _ _ (by omega), Nat.pow_succ, Nat.mul_comm, Nat.div_div_eq_div_mul]

end Sys2Proof

namespace Sys2Proof.Machine

variable {σ τ α β : Type}

@[simp] theorem Reply.bind_ok (a : α) (s : σ) (k : α → σ → Reply σ β) : (Reply.ok a s).bind k = k a s := rfl
@[simp] theorem Reply.bind_fatal (r : FatalReason) (s : σ) (k : α → σ → Reply σ β) :
    (Reply.fatal r s : Reply σ α).bind k = .fatal r s := rfl
@[simp] theorem Reply.embed_ok (f : σ → τ) (a : α) (s : σ) : (Reply.ok a s).embed f = .ok a (f s) := rfl
@[simp] theorem Reply.embed_fatal (f : σ → τ) (r : FatalReason) (s : σ) :
    (Reply.fatal r s : Reply σ α).embed f = .fatal r (f s) := rfl
@[simp] theorem Reply.map_ok (f : α → β) (a : α) (s : σ) : (Reply.ok a s).map f = .ok (f a) s := rfl
@[simp] theorem Reply.map_fatal (f : α → β) (r : FatalReason) (s : σ) :
    (Reply.fatal r s : Reply σ α).map f = .fatal r s := rfl

/-- A sequence answers where both parts answer. -/
theorem Reply.bind_eq_ok {r : Reply σ α} {k : α → σ → Reply σ β} {b : β} {t : σ} (h : r.bind k = .ok b t) :
    ∃ a s, r = .ok a s ∧ k a s = .ok b t := by
  cases r with
  | ok a s => exact ⟨a, s, rfl, h⟩
  | fatal e s => cases h

/-- A sequence is fatal where its first part is, or where its second part is after the first. -/
theorem Reply.bind_eq_fatal {r : Reply σ α} {k : α → σ → Reply σ β} {e : FatalReason} {t : σ}
    (h : r.bind k = .fatal e t) : r = .fatal e t ∨ ∃ a s, r = .ok a s ∧ k a s = .fatal e t := by
  cases r with
  | ok a s => exact .inr ⟨a, s, rfl, h⟩
  | fatal e' s => cases h; exact .inl rfl

/-- Writing a run of bytes changes exactly those bytes (R93). -/
theorem get_writeCells (bs : List Byte) (cells : List Host.Cell) (addr pa : Nat) :
    Sparse.get FlatMemory.background (writeCells cells addr bs) pa =
      if addr ≤ pa ∧ pa < addr + bs.length then bs.getD (pa - addr) 0
      else Sparse.get FlatMemory.background cells pa := by
  induction bs generalizing cells addr with
  | nil => simp [writeCells]
  | cons b bs ih =>
    rw [writeCells, ih, Sparse.get_set]
    simp only [List.length_cons]
    by_cases h0 : pa = addr
    · subst h0; simp
    · by_cases h1 : addr ≤ pa ∧ pa < addr + (bs.length + 1)
      · have h2 : addr + 1 ≤ pa ∧ pa < addr + 1 + bs.length := by omega
        have h3 : pa - addr = (pa - (addr + 1)) + 1 := by omega
        rw [if_pos h1, if_pos h2, h3, List.getD_cons_succ]
      · have h2 : ¬ (addr + 1 ≤ pa ∧ pa < addr + 1 + bs.length) := by omega
        rw [if_neg h1, if_neg h2, if_neg h0]

theorem wf_writeCells (bs : List Byte) (cells : List Host.Cell) (addr : Nat)
    (h : Sparse.wf FlatMemory.background cells = true) :
    Sparse.wf FlatMemory.background (writeCells cells addr bs) = true := by
  induction bs generalizing cells addr with
  | nil => exact h
  | cons b bs ih => exact ih _ _ (Sparse.wf_set _ _ _ _ h)

theorem FlatMemory.byte_writeBytes (m : FlatMemory) (addr : Nat) (bs : List Byte) (pa : Nat) :
    (m.writeBytes addr bs).byte pa =
      if addr ≤ pa ∧ pa < addr + bs.length then bs.getD (pa - addr) 0 else m.byte pa :=
  get_writeCells bs m.cells addr pa

/-- Every operation on the flat memory keeps its canonical form. -/
theorem FlatMemory.wf_writeBytes (m : FlatMemory) (addr : Nat) (bs : List Byte) (h : m.wf = true) :
    (m.writeBytes addr bs).wf = true := wf_writeCells bs m.cells addr h

@[simp] theorem FlatMemory.byte_count (lat : Latency) (m : FlatMemory) (pa : Nat) :
    (m.count lat).byte pa = m.byte pa := rfl

@[simp] theorem FlatMemory.wf_count (lat : Latency) (m : FlatMemory) : (m.count lat).wf = m.wf := rfl

/-- The memory right after reset is in canonical form. -/
theorem reset_mem_wf : State.reset.mem.wf = true := by decide

/-- What a request to the flat memory answers (R93 to R96), all of it. -/
theorem memRequest_cases (memSize : Nat) (lat : Latency) (q : Request) (m : FlatMemory) :
    (memSize < q.addr + q.size ∧ memRequest memSize lat q m = .fatal (.memoryRange q.addr q.size) m) ∨
    (q.addr + q.size ≤ memSize ∧ q.isRead = true ∧
      memRequest memSize lat q m = .ok ⟨true, lat.hit + lat.bus, m.bytes q.addr q.size⟩ (m.count lat)) ∨
    (q.addr + q.size ≤ memSize ∧ q.isRead = false ∧
      memRequest memSize lat q m = .ok ⟨true, lat.hit + lat.bus, []⟩ ((m.writeBytes q.addr q.buffer).count lat)) := by
  unfold memRequest
  by_cases h : memSize < q.addr + q.size
  · exact .inl ⟨h, by simp [h]⟩
  · cases hq : q.isRead with
    | true => exact .inr (.inl ⟨by omega, rfl, by simp [h]⟩)
    | false => exact .inr (.inr ⟨by omega, rfl, by simp [h]⟩)

end Sys2Proof.Machine
end

