-- ==== Sys2Proof/Laws/Cache.lean ====
section
/-! SUPPORT. The cache controller over any coherent lower store is coherent (the basis of R73): all that
`cacheRequest` can answer, said once, for the view and the invariant. -/

namespace Sys2Proof.Machine

/-! ## Geometry (R92, R98) -/

theorem legal_geometry {cc : CacheConfig} (h : cc.legal = true) :
    0 < cc.assoc ∧ 0 < setCount cc ∧ entryCount cc = setCount cc * cc.assoc := by
  simp only [CacheConfig.legal, Bool.and_eq_true, decide_eq_true_eq, beq_iff_eq] at h
  obtain ⟨⟨⟨⟨ha, hs⟩, hm⟩, -⟩, -⟩ := h
  obtain ⟨k, hk⟩ := Nat.dvd_of_mod_eq_zero hm
  have hp : 0 < cc.assoc * 64 := by omega
  have h1 : setCount cc = k := by unfold setCount; rw [hk, Nat.mul_div_cancel_left k hp]
  have h2 : entryCount cc = k * cc.assoc := by
    have : cc.size = k * cc.assoc * 64 := by rw [hk]; ring
    unfold entryCount; omega
  refine ⟨ha, ?_, by rw [h1, h2]⟩
  rw [h1]; rcases Nat.eq_zero_or_pos k with h0 | h0
  · subst h0; omega
  · exact h0

/-- The number of the block an entry holds. -/
def entryBlock (cc : CacheConfig) (i tag : Nat) : Nat := tag * setCount cc + owningSet cc i

theorem entryBase_eq (cc : CacheConfig) (i tag : Nat) : entryBase cc i tag = entryBlock cc i tag * 64 := rfl

theorem entryBlock_tagOf {cc : CacheConfig} {i addr : Nat} (h : owningSet cc i = setIndex cc addr) :
    entryBlock cc i (tagOf cc addr) = addr / 64 := by
  unfold entryBlock tagOf; rw [h]; unfold setIndex
  rw [Nat.mul_comm]; exact Nat.div_add_mod _ _

theorem owningSet_lt {cc : CacheConfig} (hl : cc.legal = true) {i : Nat} (h : i < entryCount cc) :
    owningSet cc i < setCount cc := by
  obtain ⟨_, _, h3⟩ := legal_geometry hl
  unfold owningSet
  exact Nat.div_lt_of_lt_mul (by rw [Nat.mul_comm]; omega)

theorem entryBlock_inj {cc : CacheConfig} (hl : cc.legal = true) {i j t u : Nat} (hi : i < entryCount cc)
    (hj : j < entryCount cc) (h : entryBlock cc i t = entryBlock cc j u) : owningSet cc i = owningSet cc j ∧ t = u := by
  have h1 := owningSet_lt hl hi
  have h2 := owningSet_lt hl hj
  unfold entryBlock at h
  have hm := congrArg (· % setCount cc) h
  have hd := congrArg (· / setCount cc) h
  simp only [Nat.mul_add_mod_self_right, Nat.mod_eq_of_lt h1, Nat.mod_eq_of_lt h2] at hm
  refine ⟨hm, ?_⟩
  have e : ∀ a b, b < setCount cc → (a * setCount cc + b) / setCount cc = a := fun a b hb => by
    rw [Nat.mul_comm, Nat.mul_add_div (by omega), Nat.div_eq_of_lt hb, Nat.add_zero]
  simpa only [e _ _ h1, e _ _ h2] using hd

theorem entryBlock_set {cc : CacheConfig} (hl : cc.legal = true) {i t addr : Nat} (hi : i < entryCount cc)
    (h : entryBlock cc i t = addr / 64) : owningSet cc i = setIndex cc addr ∧ t = tagOf cc addr := by
  have h1 := owningSet_lt hl hi
  unfold entryBlock at h
  unfold setIndex tagOf
  rw [← h]
  refine ⟨by rw [Nat.mul_add_mod_self_right, Nat.mod_eq_of_lt h1], ?_⟩
  rw [Nat.mul_comm, Nat.mul_add_div (by omega), Nat.div_eq_of_lt h1, Nat.add_zero]

theorem mem_ways {cc : CacheConfig} (ha : 0 < cc.assoc) (q i : Nat) :
    i ∈ ways cc q ↔ owningSet cc i = q := by
  unfold ways owningSet
  simp only [List.mem_map, List.mem_range]
  constructor
  · rintro ⟨w, hw, rfl⟩
    rw [Nat.mul_comm, Nat.mul_add_div ha, Nat.div_eq_of_lt hw, Nat.add_zero]
  · intro h
    refine ⟨i % cc.assoc, Nat.mod_lt _ ha, ?_⟩
    rw [← h, Nat.mul_comm]; exact Nat.div_add_mod _ _

theorem ways_lt {cc : CacheConfig} (hl : cc.legal = true) {q i : Nat} (hq : q < setCount cc)
    (h : owningSet cc i = q) : i < entryCount cc := by
  obtain ⟨h1, _, h3⟩ := legal_geometry hl
  unfold owningSet at h
  rw [h3, ← Nat.div_lt_iff_lt_mul h1]; omega

/-! ## The array of entries after an update (R33, R101) -/

@[simp] theorem Cache.entry_set (c : Cache) (i : Nat) (e : Entry) (j : Nat) :
    (c.set i e).entry j = if j = i then e else c.entry j := by
  unfold Cache.entry Cache.set
  simp only [Sparse.find?_insert]
  by_cases h : j = i <;> simp [h]

@[simp] theorem Cache.entry_age (rm : Nat) (c : Cache) (j : Nat) :
    (c.age rm).entry j = { c.entry j with recency := older rm (c.entry j).recency } := by
  unfold Cache.entry Cache.age
  simp only [Sparse.find?_map c.entries (fun _ e => { e with recency := older rm e.recency })]
  cases Sparse.find? c.entries j <;> rfl

theorem Cache.entry_touch (rm : Nat) (c : Cache) (i j : Nat) :
    (c.touch rm i).entry j =
      { c.entry j with recency := if j = i then 0 else older rm (c.entry j).recency } := by
  unfold Cache.touch
  by_cases h : j = i <;> simp [h]

theorem Cache.entry_modify (c : Cache) (i j : Nat) (f : Entry → Entry) :
    (c.modify i f).entry j = if j = i then f (c.entry j) else c.entry j := by
  unfold Cache.modify
  by_cases h : j = i <;> simp [h]

theorem Cache.entry_install (rm : Nat) (c : Cache) (i tag : Nat) (data : List Byte) (j : Nat) :
    (c.install rm i tag data).entry j =
      if j = i then freshEntry tag data else { c.entry j with recency := older rm (c.entry j).recency } := by
  unfold Cache.install
  rw [Cache.entry_touch]
  by_cases h : j = i <;> simp [h, freshEntry]

/-- The cache after a write hit in entry `i`: it is touched, its bytes spliced and its dirty bit set to `d` (R103,
R104). -/
def Cache.wrote (rm : Nat) (c : Cache) (i offset : Nat) (buffer : List Byte) (d : Bool) : Cache :=
  ((c.touch rm i).modify i fun e => { e with data := spliceBytes e.data offset buffer }).modify i
    fun e => { e with dirty := d }

theorem Cache.entry_wrote (rm : Nat) (c : Cache) (i offset : Nat) (buffer : List Byte) (d : Bool) (j : Nat) :
    (c.wrote rm i offset buffer d).entry j =
      if j = i then { c.entry j with recency := 0, data := spliceBytes (c.entry j).data offset buffer, dirty := d }
      else { c.entry j with recency := older rm (c.entry j).recency } := by
  unfold Cache.wrote
  rw [Cache.entry_modify, Cache.entry_modify, Cache.entry_touch]
  by_cases h : j = i <;> simp [h]

@[simp] theorem Cache.entry_countAccess (c : Cache) (j : Nat) : c.countAccess.entry j = c.entry j := rfl
@[simp] theorem Cache.entry_countMiss (c : Cache) (j : Nat) : c.countMiss.entry j = c.entry j := rfl
@[simp] theorem Cache.entry_countReplace (c : Cache) (j : Nat) : c.countReplace.entry j = c.entry j := rfl
@[simp] theorem Cache.entry_countFetch (c : Cache) (j : Nat) : c.countFetch.entry j = c.entry j := rfl
@[simp] theorem Cache.entry_countTime (c : Cache) (t j : Nat) : (c.countTime t).entry j = c.entry j := rfl

theorem older_le (rm r : Nat) : older rm r ≤ rm := Nat.min_le_right _ _

theorem older_pos {rm : Nat} (h : 0 < rm) (r : Nat) : older rm r ≠ 0 := by unfold older; omega

/-- After a `Touch` only the touched entry has recency 0 (R121). -/
theorem Cache.newest_touch {rm : Nat} (h : 0 < rm) (c : Cache) {i j : Nat} (hj : ((c.touch rm i).entry j).recency = 0) :
    j = i := by
  rw [Cache.entry_touch] at hj
  by_contra hne
  exact older_pos h _ (by simpa [hne] using hj)

/-- An entry that is valid was filled. -/
theorem Cache.listed_of_valid {c : Cache} {i : Nat} (h : (c.entry i).valid = true) : ∃ e, (i, e) ∈ c.entries := by
  unfold Cache.entry at h
  cases hf : Sparse.find? c.entries i with
  | none => simp [hf, Entry.blank] at h
  | some e => exact ⟨e, Sparse.mem_of_find? hf⟩

/-- The list of entries is in canonical form and within the array (R33). -/
structure Cache.Listed (n : Nat) (c : Cache) : Prop where
  sorted : Sparse.sorted c.entries = true
  bound : ∀ p ∈ c.entries, p.1 < n

theorem Cache.Listed.set {n : Nat} {c : Cache} (h : c.Listed n) {i : Nat} (hi : i < n) (e : Entry) :
    (c.set i e).Listed n where
  sorted := Sparse.sorted_insert _ _ _ h.sorted
  bound p hp := by
    rcases Sparse.mem_insert hp with rfl | hp
    exacts [hi, h.bound p hp]

theorem Cache.Listed.age {n : Nat} {c : Cache} (h : c.Listed n) (rm : Nat) : (c.age rm).Listed n where
  sorted := (Sparse.sorted_map c.entries fun _ e => { e with recency := older rm e.recency }).trans h.sorted
  bound p hp := by
    obtain ⟨q, hq, rfl⟩ := List.mem_map.1 hp
    exact h.bound q hq

theorem Cache.Listed.touch {n : Nat} {c : Cache} (h : c.Listed n) (rm : Nat) {i : Nat} (hi : i < n) :
    (c.touch rm i).Listed n := (h.age rm).set hi _

theorem Cache.Listed.install {n : Nat} {c : Cache} (h : c.Listed n) (rm : Nat) {i : Nat} (hi : i < n) (tag : Nat)
    (data : List Byte) : (c.install rm i tag data).Listed n := (h.set hi _).touch rm hi

theorem Cache.Listed.wrote {n : Nat} {c : Cache} (h : c.Listed n) (rm : Nat) {i : Nat} (hi : i < n) (offset : Nat)
    (buffer : List Byte) (d : Bool) : (c.wrote rm i offset buffer d).Listed n := ((h.touch rm hi).set hi _).set hi _

theorem CacheInv.listed {cc : CacheConfig} {memSize rm : Nat} {lv : Nat → Byte} {c : Cache}
    (h : CacheInv cc memSize rm lv c) : c.Listed (entryCount cc) := ⟨h.sorted, h.indexBound⟩

theorem CacheInv.valid_lt {cc : CacheConfig} {memSize rm : Nat} {lv : Nat → Byte} {c : Cache}
    (h : CacheInv cc memSize rm lv c) {i : Nat} (hv : (c.entry i).valid = true) : i < entryCount cc := by
  obtain ⟨e, he⟩ := Cache.listed_of_valid hv
  exact h.indexBound _ he

/-! ## Lookup (R100) -/

/-- Entry `i` is valid and holds block number `b`. -/
def Cache.has (cc : CacheConfig) (c : Cache) (i b : Nat) : Prop :=
  (c.entry i).valid = true ∧ entryBlock cc i (c.entry i).tag = b

section
variable {cc : CacheConfig} {memSize rm : Nat} {lv : Nat → Byte} {c : Cache}

theorem CacheInv.has_unique (hl : cc.legal = true) (h : CacheInv cc memSize rm lv c) {i j b : Nat}
    (hi : c.has cc i b) (hj : c.has cc j b) : i = j := by
  obtain ⟨k1, k2⟩ := entryBlock_inj hl (h.valid_lt hi.1) (h.valid_lt hj.1) (hi.2.trans hj.2.symm)
  exact h.unique i j hi.1 hj.1 k1 k2

/-- A lookup that finds an entry finds one that holds the block. -/
theorem Cache.lookup_some (hl : cc.legal = true) {addr i : Nat} (h : c.lookup cc addr = some i) :
    c.has cc i (addr / 64) ∧ owningSet cc i = setIndex cc addr := by
  obtain ⟨ha, _, _⟩ := legal_geometry hl
  have hm := (mem_ways ha _ _).1 (List.mem_of_find?_eq_some h)
  have hh := List.find?_some h
  simp only [Cache.holds, Bool.and_eq_true, beq_iff_eq] at hh
  exact ⟨⟨hh.1, by rw [hh.2]; exact entryBlock_tagOf hm⟩, hm⟩

/-- A lookup that finds nothing shows that no valid entry holds the block. -/
theorem CacheInv.lookup_none (hl : cc.legal = true) (h : CacheInv cc memSize rm lv c) {addr : Nat}
    (hn : c.lookup cc addr = none) (i : Nat) : ¬ c.has cc i (addr / 64) := by
  rintro ⟨h1, h2⟩
  obtain ⟨ha, _, _⟩ := legal_geometry hl
  obtain ⟨g1, g2⟩ := entryBlock_set hl (h.valid_lt h1) h2
  have := List.find?_eq_none.1 hn i ((mem_ways ha _ _).2 g1)
  simp [Cache.holds, h1, g2] at this

/-- The entry that holds the block is the one a lookup finds (R100, R121). -/
theorem CacheInv.lookup_of_has (hl : cc.legal = true) (h : CacheInv cc memSize rm lv c) {addr i : Nat}
    (hi : c.has cc i (addr / 64)) : c.lookup cc addr = some i := by
  cases hn : c.lookup cc addr with
  | none => exact absurd hi (h.lookup_none hl hn i)
  | some j => rw [h.has_unique hl (Cache.lookup_some hl hn).1 hi]

theorem CacheInv.lookup_of_not_has (hl : cc.legal = true) {addr : Nat}
    (hi : ∀ i, ¬ c.has cc i (addr / 64)) : c.lookup cc addr = none := by
  cases hn : c.lookup cc addr with
  | none => rfl
  | some j => exact absurd (Cache.lookup_some hl hn).1 (hi j)

end

section
variable {σ : Type} {cc : CacheConfig} {memSize rm : Nat} {view : σ → Nat → Byte} {c : Cache} {l : σ}

/-- The view of a byte whose block an entry holds (R73). -/
theorem cacheView_has (hl : cc.legal = true) (h : CacheInv cc memSize rm (view l) c) {i pa : Nat}
    (hi : c.has cc i (pa / 64)) : cacheView cc view (c, l) pa = (c.entry i).data.getD (pa % 64) 0 := by
  unfold cacheView
  rw [h.lookup_of_has hl hi]
  simp [blockOffset]

/-- The view of a byte whose block no entry holds (R73). -/
theorem cacheView_not_has (hl : cc.legal = true) {pa : Nat} (h : ∀ i, ¬ c.has cc i (pa / 64)) :
    cacheView cc view (c, l) pa = view l pa := by
  unfold cacheView
  rw [CacheInv.lookup_of_not_has hl h]

end

end Sys2Proof.Machine
end

