-- ==== Sys2Proof/Laws/Coherence.lean ====
section
/-! SUPPORT. A cache over a coherent lower store is a coherent store: reads return the view and leave it alone,
writes change exactly the written bytes of it, and a fatal condition changes nothing of it and is met exactly where
`cacheRefused` says. -/

namespace Sys2Proof.Machine

/-! ## Bytes of a block -/

theorem length_spliceBytes (data buffer : List Byte) (offset : Nat) (h : offset + buffer.length ≤ data.length) :
    (spliceBytes data offset buffer).length = data.length := by
  simp [spliceBytes]; omega

theorem getD_spliceBytes (data buffer : List Byte) (offset k : Nat) (h : offset + buffer.length ≤ data.length) :
    (spliceBytes data offset buffer).getD k 0 =
      if offset ≤ k ∧ k < offset + buffer.length then buffer.getD (k - offset) 0 else data.getD k 0 := by
  have ho : (data.take offset).length = offset := by simp; omega
  simp only [spliceBytes, List.getD_eq_getElem?_getD, List.append_assoc]
  by_cases h1 : k < offset
  · rw [List.getElem?_append_left (by omega), List.getElem?_take_of_lt h1, if_neg (by omega)]
  · rw [List.getElem?_append_right (by omega), ho]
    by_cases h2 : k < offset + buffer.length
    · rw [List.getElem?_append_left (by omega), if_pos (by omega)]
    · rw [List.getElem?_append_right (by omega), List.getElem?_drop, if_neg (by omega)]
      congr 2; omega

theorem sliceBytes_eq (data : List Byte) (offset n : Nat) (h : offset + n ≤ data.length) :
    sliceBytes data offset n = (List.range n).map fun k => data.getD (offset + k) 0 := by
  apply List.ext_getElem
  · simp [sliceBytes]; omega
  · intro k h1 h2
    simp only [List.length_map, List.length_range] at h2
    simp only [sliceBytes, List.getElem_take, List.getElem_drop, List.getElem_map, List.getElem_range,
      List.getD_eq_getElem?_getD]
    rw [List.getElem?_eq_getElem (by omega)]; rfl

/-! ## Coherent stores -/

/-- The bytes a view shows from `addr` up. -/
def viewBytes {σ : Type} (view : σ → Nat → Byte) (s : σ) (addr n : Nat) : List Byte :=
  (List.range n).map fun k => view s (addr + k)

/-- The view after the bytes of `buffer` are written from `addr` up. -/
def writtenView (old : Nat → Byte) (addr : Nat) (buffer : List Byte) (pa : Nat) : Byte :=
  if addr ≤ pa ∧ pa < addr + buffer.length then buffer.getD (pa - addr) 0 else old pa

theorem writtenView_outside {old : Nat → Byte} {addr pa : Nat} {buffer : List Byte}
    (h : pa < addr ∨ addr + buffer.length ≤ pa) : writtenView old addr buffer pa = old pa := by
  unfold writtenView; rw [if_neg (by omega)]

theorem writtenView_inside {old : Nat → Byte} {addr pa : Nat} {buffer : List Byte}
    (h : addr ≤ pa) (h' : pa < addr + buffer.length) :
    writtenView old addr buffer pa = buffer.getD (pa - addr) 0 := by
  unfold writtenView; rw [if_pos ⟨h, h'⟩]

/-- A reply that answers: the bytes returned, the invariant and the view after it. -/
def Answers {σ : Type} (view : σ → Nat → Byte) (inv : σ → Prop) (r : Reply σ Answer) (bytes : Answer → Prop)
    (after : Nat → Byte) : Prop := ∃ a t, r = .ok a t ∧ bytes a ∧ inv t ∧ view t = after

/-- All that a reply can be: where nothing is refused it answers; where something is, it is fatal for that reason and
changes nothing of the view. -/
def Meets {σ : Type} (refused : Option FatalReason) (view : σ → Nat → Byte) (inv : σ → Prop) (r : Reply σ Answer)
    (bytes : Answer → Prop) (after before : Nat → Byte) : Prop :=
  (refused = none ∧ Answers view inv r bytes after) ∨
  ∃ e t, refused = some e ∧ r = .fatal e t ∧ inv t ∧ view t = before

/-- What a store owes its requester (R73), for a view of its state, an invariant of it, and what it refuses. -/
structure Coherent {σ : Type} (memSize : Nat) (refused : Request → Option FatalReason)
    (request : Request → σ → Reply σ Answer) (view : σ → Nat → Byte) (inv : σ → Prop) : Prop where
  read : ∀ {s addr n}, inv s → addr % 64 + n ≤ 64 →
    Meets (refused (.read addr n)) view inv (request (.read addr n) s) (fun a => a.bytes = viewBytes view s addr n)
      (view s) (view s)
  write : ∀ {s addr buffer}, inv s → addr % 64 + buffer.length ≤ 64 →
    Meets (refused (.write addr buffer)) view inv (request (.write addr buffer) s) (fun _ => True)
      (writtenView (view s) addr buffer) (view s)
  inMemory : ∀ {q}, blockInMemory memSize q.addr → q.addr % 64 + q.size ≤ 64 → refused q = none
  block : ∀ {b}, b % 64 = 0 → ¬ blockInMemory memSize b → refused (.read b 64) = some (.memoryRange b 64)

/-- What the flat memory refuses (R95). -/
def memRefused (memSize : Nat) (q : Request) : Option FatalReason :=
  if memSize < q.addr + q.size then some (.memoryRange q.addr q.size) else none

/-- What a cache refuses where it fetches the block: a block that does not lie in the flat memory (R106). -/
def blockRefused (memSize addr : Nat) : Option FatalReason :=
  if (addr / 64 + 1) * 64 ≤ memSize then none else some (.memoryRange (blockBase addr) 64)

/-- What a cache over a store refuses: where it fetches the block, the block that does not lie in the flat memory; where
it forwards a write, what the lower store refuses (R106 to R108). -/
def cacheRefused (cc : CacheConfig) (memSize : Nat) (lower : Request → Option FatalReason) (q : Request) :
    Option FatalReason :=
  if q.isRead || cc.writeAllocate then blockRefused memSize q.addr else lower q

/-- The flat memory is coherent (R93, R95). -/
theorem memRequest_coherent (memSize : Nat) (lat : Latency) :
    Coherent memSize (memRefused memSize) (memRequest memSize lat) FlatMemory.byte (fun m => m.wf = true) where
  read {m addr n} hm hb := by
    unfold memRefused
    rcases memRequest_cases memSize lat (.read addr n) m with ⟨h1, h2⟩ | ⟨h1, _, h2⟩ | ⟨_, h1, _⟩
    · exact .inr ⟨_, _, if_pos h1, h2, hm, rfl⟩
    · exact .inl ⟨if_neg (by omega), _, _, h2, rfl, hm, rfl⟩
    · cases h1
  write {m addr buffer} hm hb := by
    unfold memRefused
    rcases memRequest_cases memSize lat (.write addr buffer) m with ⟨h1, h2⟩ | ⟨_, h1, _⟩ | ⟨h1, _, h2⟩
    · exact .inr ⟨_, _, if_pos h1, h2, hm, rfl⟩
    · cases h1
    · exact .inl ⟨if_neg (by omega), _, _, h2, trivial, FlatMemory.wf_writeBytes _ _ _ hm,
        funext fun pa => FlatMemory.byte_writeBytes _ _ _ _⟩
  inMemory {q} h ho := by
    unfold blockInMemory at h
    exact if_neg (by omega)
  block {b} hb h := by
    unfold blockInMemory at h
    exact if_pos (show memSize < b + 64 by omega)

/-! ## Updates that keep a cache's invariant -/

section
variable {cc : CacheConfig} {memSize rm : Nat} {lv lv' : Nat → Byte} {c c' : Cache}

/-- An update that adds no valid entry and changes no valid entry's tag. -/
theorem CacheInv.update (h : CacheInv cc memSize rm lv c) (listed : c'.Listed (entryCount cc))
    (newest : 0 < rm → c'.entries ≠ [] → ∀ i j, (c'.entry i).recency = 0 → (c'.entry j).recency = 0 → i = j)
    (H : ∀ i, ((c'.entry i).valid = true → (c.entry i).valid = true ∧ (c'.entry i).tag = (c.entry i).tag) ∧
      (c'.entry i).data.length = 64 ∧ (c'.entry i).recency ≤ rm ∧
      ((c'.entry i).dirty = true → (c'.entry i).valid = true) ∧
      (cc.writeThrough = true → (c'.entry i).dirty = false) ∧
      ((c'.entry i).valid = true → (c'.entry i).dirty = false →
        ∀ k, k < 64 → (c'.entry i).data.getD k 0 = lv' (entryBase cc i (c'.entry i).tag + k))) :
    CacheInv cc memSize rm lv' c' where
  sorted := listed.sorted
  indexBound := listed.bound
  dataLength i := (H i).2.1
  recencyBound i := (H i).2.2.1
  newest := newest
  dirtyValid i := (H i).2.2.2.1
  writeThroughClean hw i := (H i).2.2.2.2.1 hw
  unique i j hv gv hs ht := by
    obtain ⟨h1, h2⟩ := (H i).1 hv
    obtain ⟨g1, g2⟩ := (H j).1 gv
    exact h.unique i j h1 g1 hs (by rw [← h2, ← g2, ht])
  inMemory i hv := by
    obtain ⟨h1, h2⟩ := (H i).1 hv
    rw [h2]; exact h.inMemory i h1
  cleanAgrees i hv hd := (H i).2.2.2.2.2 hv hd

/-- Installing a block that no valid entry holds (R106). -/
theorem CacheInv.install (hl : cc.legal = true) (h : CacheInv cc memSize rm lv c) {i addr : Nat} {data : List Byte}
    (set : owningSet cc i = setIndex cc addr)
    (absent : ∀ j, ¬ c.has cc j (addr / 64)) (len : data.length = 64) (mem : addr / 64 * 64 + 64 ≤ memSize)
    (agree : ∀ k, k < 64 → data.getD k 0 = lv (addr / 64 * 64 + k)) :
    CacheInv cc memSize rm lv (c.install rm i (tagOf cc addr) data) := by
  have hb : entryBlock cc i (tagOf cc addr) = addr / 64 := entryBlock_tagOf set
  have hset : setIndex cc addr < setCount cc := Nat.mod_lt _ (legal_geometry hl).2.1
  have hi : i < entryCount cc := ways_lt hl hset set
  have new : (c.install rm i (tagOf cc addr) data).entry i = freshEntry (tagOf cc addr) data := by
    rw [Cache.entry_install, if_pos rfl]
  have old : ∀ j, j ≠ i → (c.install rm i (tagOf cc addr) data).entry j =
      { c.entry j with recency := older rm (c.entry j).recency } := fun j hj => by
    rw [Cache.entry_install, if_neg hj]
  have clash : ∀ j, (c.entry j).valid = true → owningSet cc j = owningSet cc i →
      (c.entry j).tag = tagOf cc addr → False := by
    intro j hv hs ht
    exact absent j ⟨hv, by rw [ht]; exact entryBlock_tagOf (hs.trans set)⟩
  have listed := h.listed.install rm hi (tagOf cc addr) data
  refine ⟨listed.sorted, listed.bound, ?_, ?_, ?_, ?_, ?_, ?_, ?_, ?_⟩
  · intro j
    by_cases hj : j = i
    · subst hj; rw [new]; exact len
    · rw [old j hj]; exact h.dataLength j
  · intro j
    by_cases hj : j = i
    · subst hj; rw [new]; exact Nat.zero_le _
    · rw [old j hj]; exact older_le _ _
  · intro hr _ j k hj hk
    rw [Cache.newest_touch hr _ hj, Cache.newest_touch hr _ hk]
  · intro j
    by_cases hj : j = i
    · subst hj; rw [new]; intro hd; cases hd
    · rw [old j hj]; exact h.dirtyValid j
  · intro hw j
    by_cases hj : j = i
    · subst hj; rw [new]; rfl
    · rw [old j hj]; exact h.writeThroughClean hw j
  · intro j k hv gv hs ht
    by_cases hj : j = i <;> by_cases hk : k = i
    · rw [hj, hk]
    · subst hj
      rw [new] at ht; rw [old k hk] at gv ht
      exact (clash k gv hs.symm ht.symm).elim
    · subst hk
      rw [new] at ht; rw [old j hj] at hv ht
      exact (clash j hv hs ht).elim
    · rw [old j hj] at hv ht; rw [old k hk] at gv ht
      exact h.unique j k hv gv hs ht
  · intro j hv
    by_cases hj : j = i
    · subst hj; rw [new, entryBase_eq]; simp only [freshEntry]; rw [hb]; exact mem
    · rw [old j hj] at hv ⊢; exact h.inMemory j hv
  · intro j hv hd
    by_cases hj : j = i
    · subst hj; rw [new]; intro k hk; rw [entryBase_eq]; simp only [freshEntry]; rw [hb]; exact agree k hk
    · rw [old j hj] at hv hd ⊢; exact h.cleanAgrees j hv hd

end

/-! ## The view after an update -/

section
variable {σ : Type} {cc : CacheConfig} {memSize rm : Nat} {view : σ → Nat → Byte} {c c' : Cache} {l l' : σ}

/-- The state of a cache over its lower store: the cache's invariant and the lower store's. -/
def StackInv (cc : CacheConfig) (memSize rm : Nat) (view : σ → Nat → Byte) (inv : σ → Prop) (st : Cache × σ) : Prop :=
  CacheInv cc memSize rm (view st.2) st.1 ∧ inv st.2

/-- Two caches that hold the same blocks with the same data show the same, over lower stores that do. -/
theorem cacheView_congr (hl : cc.legal = true) (h : CacheInv cc memSize rm (view l) c)
    (h' : CacheInv cc memSize rm (view l') c')
    (same : ∀ i, (c'.entry i).valid = (c.entry i).valid ∧ (c'.entry i).tag = (c.entry i).tag ∧
      (c'.entry i).data = (c.entry i).data)
    (lower : view l' = view l) : cacheView cc view (c', l') = cacheView cc view (c, l) := by
  have has : ∀ i b, c'.has cc i b ↔ c.has cc i b := fun i b => by
    unfold Cache.has; rw [(same i).1, (same i).2.1]
  funext pa
  by_cases hp : ∃ i, c.has cc i (pa / 64)
  · obtain ⟨i, hi⟩ := hp
    rw [cacheView_has hl h hi, cacheView_has hl h' ((has i _).2 hi), (same i).2.2]
  · have hp' : ∀ i, ¬ c.has cc i (pa / 64) := fun i hi => hp ⟨i, hi⟩
    rw [cacheView_not_has hl hp', cacheView_not_has hl (fun i hi => hp' i ((has i _).1 hi)), lower]

/-- Ageing and touching keep the invariant. -/
theorem CacheInv.touch {lv : Nat → Byte} (h : CacheInv cc memSize rm lv c) {i : Nat} (hi : i < entryCount cc) :
    CacheInv cc memSize rm lv (c.touch rm i) := by
  refine h.update (h.listed.touch rm hi)
    (fun hr _ j k hj hk => by rw [Cache.newest_touch hr _ hj, Cache.newest_touch hr _ hk]) fun j => ?_
  rw [Cache.entry_touch]
  refine ⟨fun hv => ⟨hv, rfl⟩, h.dataLength j, ?_, h.dirtyValid j, fun hw => h.writeThroughClean hw j,
    h.cleanAgrees j⟩
  dsimp only; split
  · exact Nat.zero_le _
  · exact older_le _ _

theorem CacheInv.congr_entries {lv : Nat → Byte} (h : CacheInv cc memSize rm lv c) (he : c'.entries = c.entries)
    (hu : c'.untouched = c.untouched) : CacheInv cc memSize rm lv c' := by
  obtain ⟨e, u, s⟩ := c; obtain ⟨e', u', s'⟩ := c'; subst he; subst hu
  exact ⟨h.1, h.2, h.3, h.4, h.5, h.6, h.7, h.8, h.9, h.10⟩

/-! ## The cache after a write hit (R103, R104) -/

variable {i addr : Nat} {buffer : List Byte} {d : Bool}

theorem CacheInv.wrote (hl : cc.legal = true) (h : CacheInv cc memSize rm (view l) c) (hi : c.has cc i (addr / 64))
    (ho : addr % 64 + buffer.length ≤ 64) (hd : cc.writeThrough = true → d = false)
    (lower : view l' = if d then view l else writtenView (view l) addr buffer)
    (hc : d = false → (c.entry i).dirty = false) :
    CacheInv cc memSize rm (view l') (c.wrote rm i (addr % 64) buffer d) := by
  have hlen := h.dataLength i
  have hlt := h.valid_lt hi.1
  refine h.update (h.listed.wrote rm hlt _ _ _) (fun hr _ j k hj hk => ?_) fun j => ?_
  · have only : ∀ j, ((c.wrote rm i (addr % 64) buffer d).entry j).recency = 0 → j = i := by
      intro j hj
      rw [Cache.entry_wrote] at hj
      by_contra hne
      exact older_pos hr _ (by simpa [hne] using hj)
    rw [only j hj, only k hk]
  · rw [Cache.entry_wrote]
    by_cases hji : j = i
    · subst hji
      rw [if_pos rfl]
      refine ⟨fun hv => ⟨hv, rfl⟩, ?_, Nat.zero_le _, fun _ => hi.1, hd, fun _ hdd k hk => ?_⟩
      · dsimp only; rw [length_spliceBytes _ _ _ (by omega)]; exact hlen
      · dsimp only at hdd ⊢
        subst hdd
        rw [getD_spliceBytes _ _ _ _ (by omega), entryBase_eq, hi.2, lower]
        simp only [Bool.false_eq_true, if_false, writtenView]
        have hmod := Nat.div_add_mod addr 64
        by_cases hr : addr % 64 ≤ k ∧ k < addr % 64 + buffer.length
        · rw [if_pos hr, if_pos (by omega)]; congr 1; omega
        · rw [if_neg hr, if_neg (by omega), ← hi.2, ← entryBase_eq]
          exact h.cleanAgrees j hi.1 (hc rfl) k hk
    · rw [if_neg hji]
      refine ⟨fun hv => ⟨hv, rfl⟩, h.dataLength j, older_le _ _, h.dirtyValid j,
        fun hw => h.writeThroughClean hw j, fun gv gd k hk => ?_⟩
      dsimp only at gv gd ⊢
      rw [h.cleanAgrees j gv gd k hk, lower]
      have hne : entryBlock cc j (c.entry j).tag ≠ addr / 64 := fun hx => hji (h.has_unique hl ⟨gv, hx⟩ hi)
      cases d with
      | true => rfl
      | false =>
        simp only [Bool.false_eq_true, if_false, writtenView, entryBase_eq]
        rw [if_neg]; omega

theorem cacheView_wrote (hl : cc.legal = true) (h : CacheInv cc memSize rm (view l) c) (hi : c.has cc i (addr / 64))
    (ho : addr % 64 + buffer.length ≤ 64) (h' : CacheInv cc memSize rm (view l') (c.wrote rm i (addr % 64) buffer d))
    (lower : view l' = if d then view l else writtenView (view l) addr buffer) :
    cacheView cc view (c.wrote rm i (addr % 64) buffer d, l') = writtenView (cacheView cc view (c, l)) addr buffer := by
  have hlen := h.dataLength i
  have hmod := Nat.div_add_mod addr 64
  have has : ∀ j b, (c.wrote rm i (addr % 64) buffer d).has cc j b ↔ c.has cc j b := fun j b => by
    unfold Cache.has; rw [Cache.entry_wrote]; by_cases hj : j = i <;> simp [hj]
  funext pa
  simp only [writtenView]
  by_cases hp : pa / 64 = addr / 64
  · rw [← hp] at hi
    rw [cacheView_has hl h hi, cacheView_has hl h' ((has i _).2 hi), Cache.entry_wrote, if_pos rfl]
    dsimp only
    rw [getD_spliceBytes _ _ _ _ (by omega)]
    by_cases hr : addr ≤ pa ∧ pa < addr + buffer.length
    · rw [if_pos hr, if_pos (by omega)]; congr 1; omega
    · rw [if_neg hr, if_neg (by omega)]
  · rw [if_neg (by omega)]
    by_cases hx : ∃ j, c.has cc j (pa / 64)
    · obtain ⟨j, hj⟩ := hx
      have hji : j ≠ i := by rintro rfl; exact hp (hj.2.symm.trans hi.2)
      rw [cacheView_has hl h hj, cacheView_has hl h' ((has j _).2 hj), Cache.entry_wrote, if_neg hji]
    · have hx' : ∀ j, ¬ c.has cc j (pa / 64) := fun j hj => hx ⟨j, hj⟩
      rw [cacheView_not_has hl hx', cacheView_not_has hl (fun j hj => hx' j ((has j _).1 hj)), lower]
      cases d with
      | true => rfl
      | false => simp only [Bool.false_eq_true, if_false, writtenView]; rw [if_neg (by omega)]

end

end Sys2Proof.Machine
end

