-- ==== Sys2Proof/Laws/Encoding.lean ====
section
/-! SUPPORT. What is left of an encoded word under the masks of the opcode table (R150): its opcode, funct3 and funct7
(or funct6), whatever the operands are. -/

namespace Sys2Proof

/-- Masking with all ones keeps a 7-bit field. -/
theorem and_seven (x : BitVec 7) : x &&& 127#7 = x := BitVec.and_allOnes

/-- Masking with all ones keeps a 6-bit field. -/
theorem and_six (x : BitVec 6) : x &&& 63#6 = x := BitVec.and_allOnes

/-- Masking with all ones keeps a 3-bit field. -/
theorem and_three (x : BitVec 3) : x &&& 7#3 = x := BitVec.and_allOnes

theorem encodeU_opcode (imm : BitVec 20) (rd : Reg) (opcode : BitVec 7) :
    encodeU imm rd opcode &&& 0x0000007f =
      0#20 ++ 0#5 ++ opcode := by
  have m : (0x0000007f : Raw) = 0#20 ++ 0#5 ++ 127#7 := by decide
  rw [m]
  show HAnd.hAnd (α := BitVec (20 + 5 + 7)) (imm ++ rd ++ opcode) (0#20 ++ 0#5 ++ 127#7) = _
  simp only [BitVec.and_append, BitVec.and_zero, and_seven]

theorem encodeJ_opcode (imm : BitVec 21) (rd : Reg) (opcode : BitVec 7) :
    encodeJ imm rd opcode &&& 0x0000007f =
      0#1 ++ 0#10 ++ 0#1 ++ 0#8 ++ 0#5 ++ opcode := by
  have m : (0x0000007f : Raw) = 0#1 ++ 0#10 ++ 0#1 ++ 0#8 ++ 0#5 ++ 127#7 := by decide
  rw [m]
  show HAnd.hAnd (α := BitVec (1 + 10 + 1 + 8 + 5 + 7)) (imm.extractLsb' 20 1 ++ imm.extractLsb' 1 10 ++ imm.extractLsb' 11 1 ++ imm.extractLsb' 12 8 ++ rd ++ opcode) (0#1 ++ 0#10 ++ 0#1 ++ 0#8 ++ 0#5 ++ 127#7) = _
  simp only [BitVec.and_append, BitVec.and_zero, and_seven]

theorem encodeI_funct3 (imm : BitVec 12) (rs1 : Reg) (funct3 : BitVec 3) (rd : Reg) (opcode : BitVec 7) :
    encodeI imm rs1 funct3 rd opcode &&& 0x0000707f =
      0#12 ++ 0#5 ++ funct3 ++ 0#5 ++ opcode := by
  have m : (0x0000707f : Raw) = 0#12 ++ 0#5 ++ 7#3 ++ 0#5 ++ 127#7 := by decide
  rw [m]
  show HAnd.hAnd (α := BitVec (12 + 5 + 3 + 5 + 7)) (imm ++ rs1 ++ funct3 ++ rd ++ opcode) (0#12 ++ 0#5 ++ 7#3 ++ 0#5 ++ 127#7) = _
  simp only [BitVec.and_append, BitVec.and_zero, and_seven, and_three]

theorem encodeS_funct3 (imm : BitVec 12) (rs2 rs1 : Reg) (funct3 : BitVec 3) (opcode : BitVec 7) :
    encodeS imm rs2 rs1 funct3 opcode &&& 0x0000707f =
      0#7 ++ 0#5 ++ 0#5 ++ funct3 ++ 0#5 ++ opcode := by
  have m : (0x0000707f : Raw) = 0#7 ++ 0#5 ++ 0#5 ++ 7#3 ++ 0#5 ++ 127#7 := by decide
  rw [m]
  show HAnd.hAnd (α := BitVec (7 + 5 + 5 + 3 + 5 + 7)) (imm.extractLsb' 5 7 ++ rs2 ++ rs1 ++ funct3 ++ imm.extractLsb' 0 5 ++ opcode) (0#7 ++ 0#5 ++ 0#5 ++ 7#3 ++ 0#5 ++ 127#7) = _
  simp only [BitVec.and_append, BitVec.and_zero, and_seven, and_three]

theorem encodeB_funct3 (imm : BitVec 13) (rs2 rs1 : Reg) (funct3 : BitVec 3) (opcode : BitVec 7) :
    encodeB imm rs2 rs1 funct3 opcode &&& 0x0000707f =
      0#1 ++ 0#6 ++ 0#5 ++ 0#5 ++ funct3 ++ 0#4 ++ 0#1 ++ opcode := by
  have m : (0x0000707f : Raw) = 0#1 ++ 0#6 ++ 0#5 ++ 0#5 ++ 7#3 ++ 0#4 ++ 0#1 ++ 127#7 := by decide
  rw [m]
  show HAnd.hAnd (α := BitVec (1 + 6 + 5 + 5 + 3 + 4 + 1 + 7)) (imm.extractLsb' 12 1 ++ imm.extractLsb' 5 6 ++ rs2 ++ rs1 ++ funct3 ++ imm.extractLsb' 1 4 ++ imm.extractLsb' 11 1 ++ opcode) (0#1 ++ 0#6 ++ 0#5 ++ 0#5 ++ 7#3 ++ 0#4 ++ 0#1 ++ 127#7) = _
  simp only [BitVec.and_append, BitVec.and_zero, and_seven, and_three]

theorem encodeR_funct7 (funct7 : BitVec 7) (rs2 rs1 : Reg) (funct3 : BitVec 3) (rd : Reg) (opcode : BitVec 7) :
    encodeR funct7 rs2 rs1 funct3 rd opcode &&& 0xfe00707f =
      funct7 ++ 0#5 ++ 0#5 ++ funct3 ++ 0#5 ++ opcode := by
  have m : (0xfe00707f : Raw) = 127#7 ++ 0#5 ++ 0#5 ++ 7#3 ++ 0#5 ++ 127#7 := by decide
  rw [m]
  show HAnd.hAnd (α := BitVec (7 + 5 + 5 + 3 + 5 + 7)) (funct7 ++ rs2 ++ rs1 ++ funct3 ++ rd ++ opcode) (127#7 ++ 0#5 ++ 0#5 ++ 7#3 ++ 0#5 ++ 127#7) = _
  simp only [BitVec.and_append, BitVec.and_zero, and_seven, and_three]

/-- A shift amount of 6 bits under a funct6 (R143). -/
theorem encodeI_funct6 (funct6 : BitVec 6) (shamt : BitVec 6) (rs1 : Reg) (funct3 : BitVec 3) (rd : Reg) (opcode : BitVec 7) :
    encodeI (funct6 ++ shamt) rs1 funct3 rd opcode &&& 0xfc00707f =
      (funct6 ++ 0#6 : BitVec (6 + 6)) ++ 0#5 ++ funct3 ++ 0#5 ++ opcode := by
  have m : (0xfc00707f : Raw) = (63#6 ++ 0#6 : BitVec (6 + 6)) ++ 0#5 ++ 7#3 ++ 0#5 ++ 127#7 := by decide
  rw [m]
  show HAnd.hAnd (α := BitVec (6 + 6 + 5 + 3 + 5 + 7)) ((funct6 ++ shamt) ++ rs1 ++ funct3 ++ rd ++ opcode)
    ((63#6 ++ 0#6 : BitVec (6 + 6)) ++ 0#5 ++ 7#3 ++ 0#5 ++ 127#7) = _
  simp only [BitVec.and_append, BitVec.and_zero, and_seven, and_three, and_six]

/-- A shift amount of 5 bits under a funct7 (R143). -/
theorem encodeI_funct7 (funct7 : BitVec 7) (shamt : BitVec 5) (rs1 : Reg) (funct3 : BitVec 3) (rd : Reg) (opcode : BitVec 7) :
    encodeI (funct7 ++ shamt) rs1 funct3 rd opcode &&& 0xfe00707f =
      (funct7 ++ 0#5 : BitVec (7 + 5)) ++ 0#5 ++ funct3 ++ 0#5 ++ opcode := by
  have m : (0xfe00707f : Raw) = (127#7 ++ 0#5 : BitVec (7 + 5)) ++ 0#5 ++ 7#3 ++ 0#5 ++ 127#7 := by decide
  rw [m]
  show HAnd.hAnd (α := BitVec (7 + 5 + 5 + 3 + 5 + 7)) ((funct7 ++ shamt) ++ rs1 ++ funct3 ++ rd ++ opcode)
    ((127#7 ++ 0#5 : BitVec (7 + 5)) ++ 0#5 ++ 7#3 ++ 0#5 ++ 127#7) = _
  simp only [BitVec.and_append, BitVec.and_zero, and_seven, and_three]

end Sys2Proof
end

