-- ==== Sys2Proof/Laws/State.lean ====
section
/-! SUPPORT. One lemma per field of State per update, so that no later proof unfolds a record update. -/

namespace Sys2Proof.Machine

/-! ## raiseFatal -/

@[simp] theorem raiseFatal_cfg (s : State) (r : FatalReason) : (raiseFatal r s).cfg = s.cfg := rfl
@[simp] theorem raiseFatal_x (s : State) (r : FatalReason) : (raiseFatal r s).x = s.x := rfl
@[simp] theorem raiseFatal_pc (s : State) (r : FatalReason) : (raiseFatal r s).pc = s.pc := rfl
@[simp] theorem raiseFatal_pcf (s : State) (r : FatalReason) : (raiseFatal r s).pcf = s.pcf := rfl
@[simp] theorem raiseFatal_fd (s : State) (r : FatalReason) : (raiseFatal r s).fd = s.fd := rfl
@[simp] theorem raiseFatal_de (s : State) (r : FatalReason) : (raiseFatal r s).de = s.de := rfl
@[simp] theorem raiseFatal_em (s : State) (r : FatalReason) : (raiseFatal r s).em = s.em := rfl
@[simp] theorem raiseFatal_mw (s : State) (r : FatalReason) : (raiseFatal r s).mw = s.mw := rfl
@[simp] theorem raiseFatal_l1 (s : State) (r : FatalReason) : (raiseFatal r s).l1 = s.l1 := rfl
@[simp] theorem raiseFatal_l2 (s : State) (r : FatalReason) : (raiseFatal r s).l2 = s.l2 := rfl
@[simp] theorem raiseFatal_llc (s : State) (r : FatalReason) : (raiseFatal r s).llc = s.llc := rfl
@[simp] theorem raiseFatal_mem (s : State) (r : FatalReason) : (raiseFatal r s).mem = s.mem := rfl
@[simp] theorem raiseFatal_pred (s : State) (r : FatalReason) : (raiseFatal r s).pred = s.pred := rfl
@[simp] theorem raiseFatal_counters (s : State) (r : FatalReason) : (raiseFatal r s).counters = s.counters := rfl
@[simp] theorem raiseFatal_memTime (s : State) (r : FatalReason) : (raiseFatal r s).memTime = s.memTime := rfl
@[simp] theorem raiseFatal_status (s : State) (r : FatalReason) : (raiseFatal r s).status = .fatal r := rfl
@[simp] theorem raiseFatal_trace (s : State) (r : FatalReason) : (raiseFatal r s).trace = s.trace := rfl
@[simp] theorem raiseFatal_input (s : State) (r : FatalReason) : (raiseFatal r s).input = s.input := rfl
@[simp] theorem raiseFatal_inputsRead (s : State) (r : FatalReason) : (raiseFatal r s).inputsRead = s.inputsRead := rfl
@[simp] theorem raiseFatal_recentStores (s : State) (r : FatalReason) : (raiseFatal r s).recentStores = s.recentStores := rfl

/-! ## emit -/

@[simp] theorem emit_cfg (s : State) (e : HostEvent) : (emit e s).cfg = s.cfg := rfl
@[simp] theorem emit_x (s : State) (e : HostEvent) : (emit e s).x = s.x := rfl
@[simp] theorem emit_pc (s : State) (e : HostEvent) : (emit e s).pc = s.pc := rfl
@[simp] theorem emit_pcf (s : State) (e : HostEvent) : (emit e s).pcf = s.pcf := rfl
@[simp] theorem emit_fd (s : State) (e : HostEvent) : (emit e s).fd = s.fd := rfl
@[simp] theorem emit_de (s : State) (e : HostEvent) : (emit e s).de = s.de := rfl
@[simp] theorem emit_em (s : State) (e : HostEvent) : (emit e s).em = s.em := rfl
@[simp] theorem emit_mw (s : State) (e : HostEvent) : (emit e s).mw = s.mw := rfl
@[simp] theorem emit_l1 (s : State) (e : HostEvent) : (emit e s).l1 = s.l1 := rfl
@[simp] theorem emit_l2 (s : State) (e : HostEvent) : (emit e s).l2 = s.l2 := rfl
@[simp] theorem emit_llc (s : State) (e : HostEvent) : (emit e s).llc = s.llc := rfl
@[simp] theorem emit_mem (s : State) (e : HostEvent) : (emit e s).mem = s.mem := rfl
@[simp] theorem emit_pred (s : State) (e : HostEvent) : (emit e s).pred = s.pred := rfl
@[simp] theorem emit_counters (s : State) (e : HostEvent) : (emit e s).counters = s.counters := rfl
@[simp] theorem emit_memTime (s : State) (e : HostEvent) : (emit e s).memTime = s.memTime := rfl
@[simp] theorem emit_status (s : State) (e : HostEvent) : (emit e s).status = s.status := rfl
@[simp] theorem emit_trace (s : State) (e : HostEvent) : (emit e s).trace = s.trace ++ [e] := rfl
@[simp] theorem emit_input (s : State) (e : HostEvent) : (emit e s).input = s.input := rfl
@[simp] theorem emit_inputsRead (s : State) (e : HostEvent) : (emit e s).inputsRead = s.inputsRead := rfl
@[simp] theorem emit_recentStores (s : State) (e : HostEvent) : (emit e s).recentStores = s.recentStores := rfl

/-! ## halt -/

@[simp] theorem halt_cfg (s : State) (v : Word) : (halt v s).cfg = s.cfg := rfl
@[simp] theorem halt_x (s : State) (v : Word) : (halt v s).x = s.x := rfl
@[simp] theorem halt_pc (s : State) (v : Word) : (halt v s).pc = s.pc := rfl
@[simp] theorem halt_pcf (s : State) (v : Word) : (halt v s).pcf = s.pcf := rfl
@[simp] theorem halt_fd (s : State) (v : Word) : (halt v s).fd = s.fd := rfl
@[simp] theorem halt_de (s : State) (v : Word) : (halt v s).de = s.de := rfl
@[simp] theorem halt_em (s : State) (v : Word) : (halt v s).em = s.em := rfl
@[simp] theorem halt_mw (s : State) (v : Word) : (halt v s).mw = s.mw := rfl
@[simp] theorem halt_l1 (s : State) (v : Word) : (halt v s).l1 = s.l1 := rfl
@[simp] theorem halt_l2 (s : State) (v : Word) : (halt v s).l2 = s.l2 := rfl
@[simp] theorem halt_llc (s : State) (v : Word) : (halt v s).llc = s.llc := rfl
@[simp] theorem halt_mem (s : State) (v : Word) : (halt v s).mem = s.mem := rfl
@[simp] theorem halt_pred (s : State) (v : Word) : (halt v s).pred = s.pred := rfl
@[simp] theorem halt_counters (s : State) (v : Word) : (halt v s).counters = s.counters := rfl
@[simp] theorem halt_memTime (s : State) (v : Word) : (halt v s).memTime = s.memTime := rfl
@[simp] theorem halt_status (s : State) (v : Word) : (halt v s).status = .halted v := rfl
@[simp] theorem halt_trace (s : State) (v : Word) : (halt v s).trace = s.trace := rfl
@[simp] theorem halt_input (s : State) (v : Word) : (halt v s).input = s.input := rfl
@[simp] theorem halt_inputsRead (s : State) (v : Word) : (halt v s).inputsRead = s.inputsRead := rfl
@[simp] theorem halt_recentStores (s : State) (v : Word) : (halt v s).recentStores = s.recentStores := rfl

/-! ## State.dropInput -/

@[simp] theorem State.dropInput_cfg (s : State) : s.dropInput.cfg = s.cfg := rfl
@[simp] theorem State.dropInput_x (s : State) : s.dropInput.x = s.x := rfl
@[simp] theorem State.dropInput_pc (s : State) : s.dropInput.pc = s.pc := rfl
@[simp] theorem State.dropInput_pcf (s : State) : s.dropInput.pcf = s.pcf := rfl
@[simp] theorem State.dropInput_fd (s : State) : s.dropInput.fd = s.fd := rfl
@[simp] theorem State.dropInput_de (s : State) : s.dropInput.de = s.de := rfl
@[simp] theorem State.dropInput_em (s : State) : s.dropInput.em = s.em := rfl
@[simp] theorem State.dropInput_mw (s : State) : s.dropInput.mw = s.mw := rfl
@[simp] theorem State.dropInput_l1 (s : State) : s.dropInput.l1 = s.l1 := rfl
@[simp] theorem State.dropInput_l2 (s : State) : s.dropInput.l2 = s.l2 := rfl
@[simp] theorem State.dropInput_llc (s : State) : s.dropInput.llc = s.llc := rfl
@[simp] theorem State.dropInput_mem (s : State) : s.dropInput.mem = s.mem := rfl
@[simp] theorem State.dropInput_pred (s : State) : s.dropInput.pred = s.pred := rfl
@[simp] theorem State.dropInput_counters (s : State) : s.dropInput.counters = s.counters := rfl
@[simp] theorem State.dropInput_memTime (s : State) : s.dropInput.memTime = s.memTime := rfl
@[simp] theorem State.dropInput_status (s : State) : s.dropInput.status = s.status := rfl
@[simp] theorem State.dropInput_trace (s : State) : s.dropInput.trace = s.trace := rfl
@[simp] theorem State.dropInput_input (s : State) : s.dropInput.input = s.input.tail := rfl
@[simp] theorem State.dropInput_inputsRead (s : State) : s.dropInput.inputsRead = s.inputsRead + 1 := rfl
@[simp] theorem State.dropInput_recentStores (s : State) : s.dropInput.recentStores = s.recentStores := rfl

/-! ## State.countSyscall -/

@[simp] theorem State.countSyscall_cfg (s : State) : s.countSyscall.cfg = s.cfg := rfl
@[simp] theorem State.countSyscall_x (s : State) : s.countSyscall.x = s.x := rfl
@[simp] theorem State.countSyscall_pc (s : State) : s.countSyscall.pc = s.pc := rfl
@[simp] theorem State.countSyscall_pcf (s : State) : s.countSyscall.pcf = s.pcf := rfl
@[simp] theorem State.countSyscall_fd (s : State) : s.countSyscall.fd = s.fd := rfl
@[simp] theorem State.countSyscall_de (s : State) : s.countSyscall.de = s.de := rfl
@[simp] theorem State.countSyscall_em (s : State) : s.countSyscall.em = s.em := rfl
@[simp] theorem State.countSyscall_mw (s : State) : s.countSyscall.mw = s.mw := rfl
@[simp] theorem State.countSyscall_l1 (s : State) : s.countSyscall.l1 = s.l1 := rfl
@[simp] theorem State.countSyscall_l2 (s : State) : s.countSyscall.l2 = s.l2 := rfl
@[simp] theorem State.countSyscall_llc (s : State) : s.countSyscall.llc = s.llc := rfl
@[simp] theorem State.countSyscall_mem (s : State) : s.countSyscall.mem = s.mem := rfl
@[simp] theorem State.countSyscall_pred (s : State) : s.countSyscall.pred = s.pred := rfl
@[simp] theorem State.countSyscall_counters (s : State) : s.countSyscall.counters = { s.counters with syscall := s.counters.syscall + 1 } := rfl
@[simp] theorem State.countSyscall_memTime (s : State) : s.countSyscall.memTime = s.memTime := rfl
@[simp] theorem State.countSyscall_status (s : State) : s.countSyscall.status = s.status := rfl
@[simp] theorem State.countSyscall_trace (s : State) : s.countSyscall.trace = s.trace := rfl
@[simp] theorem State.countSyscall_input (s : State) : s.countSyscall.input = s.input := rfl
@[simp] theorem State.countSyscall_inputsRead (s : State) : s.countSyscall.inputsRead = s.inputsRead := rfl
@[simp] theorem State.countSyscall_recentStores (s : State) : s.countSyscall.recentStores = s.recentStores := rfl

/-! ## State.countRetired -/

@[simp] theorem State.countRetired_cfg (s : State) : s.countRetired.cfg = s.cfg := rfl
@[simp] theorem State.countRetired_x (s : State) : s.countRetired.x = s.x := rfl
@[simp] theorem State.countRetired_pc (s : State) : s.countRetired.pc = s.pc := rfl
@[simp] theorem State.countRetired_pcf (s : State) : s.countRetired.pcf = s.pcf := rfl
@[simp] theorem State.countRetired_fd (s : State) : s.countRetired.fd = s.fd := rfl
@[simp] theorem State.countRetired_de (s : State) : s.countRetired.de = s.de := rfl
@[simp] theorem State.countRetired_em (s : State) : s.countRetired.em = s.em := rfl
@[simp] theorem State.countRetired_mw (s : State) : s.countRetired.mw = s.mw := rfl
@[simp] theorem State.countRetired_l1 (s : State) : s.countRetired.l1 = s.l1 := rfl
@[simp] theorem State.countRetired_l2 (s : State) : s.countRetired.l2 = s.l2 := rfl
@[simp] theorem State.countRetired_llc (s : State) : s.countRetired.llc = s.llc := rfl
@[simp] theorem State.countRetired_mem (s : State) : s.countRetired.mem = s.mem := rfl
@[simp] theorem State.countRetired_pred (s : State) : s.countRetired.pred = s.pred := rfl
@[simp] theorem State.countRetired_counters (s : State) : s.countRetired.counters = { s.counters with retired := s.counters.retired + 1 } := rfl
@[simp] theorem State.countRetired_memTime (s : State) : s.countRetired.memTime = s.memTime := rfl
@[simp] theorem State.countRetired_status (s : State) : s.countRetired.status = s.status := rfl
@[simp] theorem State.countRetired_trace (s : State) : s.countRetired.trace = s.trace := rfl
@[simp] theorem State.countRetired_input (s : State) : s.countRetired.input = s.input := rfl
@[simp] theorem State.countRetired_inputsRead (s : State) : s.countRetired.inputsRead = s.inputsRead := rfl
@[simp] theorem State.countRetired_recentStores (s : State) : s.countRetired.recentStores = s.recentStores := rfl

/-! ## State.pushStore -/

@[simp] theorem State.pushStore_cfg (s : State) (st : Option (Nat × Nat)) : (s.pushStore st).cfg = s.cfg := rfl
@[simp] theorem State.pushStore_x (s : State) (st : Option (Nat × Nat)) : (s.pushStore st).x = s.x := rfl
@[simp] theorem State.pushStore_pc (s : State) (st : Option (Nat × Nat)) : (s.pushStore st).pc = s.pc := rfl
@[simp] theorem State.pushStore_pcf (s : State) (st : Option (Nat × Nat)) : (s.pushStore st).pcf = s.pcf := rfl
@[simp] theorem State.pushStore_fd (s : State) (st : Option (Nat × Nat)) : (s.pushStore st).fd = s.fd := rfl
@[simp] theorem State.pushStore_de (s : State) (st : Option (Nat × Nat)) : (s.pushStore st).de = s.de := rfl
@[simp] theorem State.pushStore_em (s : State) (st : Option (Nat × Nat)) : (s.pushStore st).em = s.em := rfl
@[simp] theorem State.pushStore_mw (s : State) (st : Option (Nat × Nat)) : (s.pushStore st).mw = s.mw := rfl
@[simp] theorem State.pushStore_l1 (s : State) (st : Option (Nat × Nat)) : (s.pushStore st).l1 = s.l1 := rfl
@[simp] theorem State.pushStore_l2 (s : State) (st : Option (Nat × Nat)) : (s.pushStore st).l2 = s.l2 := rfl
@[simp] theorem State.pushStore_llc (s : State) (st : Option (Nat × Nat)) : (s.pushStore st).llc = s.llc := rfl
@[simp] theorem State.pushStore_mem (s : State) (st : Option (Nat × Nat)) : (s.pushStore st).mem = s.mem := rfl
@[simp] theorem State.pushStore_pred (s : State) (st : Option (Nat × Nat)) : (s.pushStore st).pred = s.pred := rfl
@[simp] theorem State.pushStore_counters (s : State) (st : Option (Nat × Nat)) : (s.pushStore st).counters = s.counters := rfl
@[simp] theorem State.pushStore_memTime (s : State) (st : Option (Nat × Nat)) : (s.pushStore st).memTime = s.memTime := rfl
@[simp] theorem State.pushStore_status (s : State) (st : Option (Nat × Nat)) : (s.pushStore st).status = s.status := rfl
@[simp] theorem State.pushStore_trace (s : State) (st : Option (Nat × Nat)) : (s.pushStore st).trace = s.trace := rfl
@[simp] theorem State.pushStore_input (s : State) (st : Option (Nat × Nat)) : (s.pushStore st).input = s.input := rfl
@[simp] theorem State.pushStore_inputsRead (s : State) (st : Option (Nat × Nat)) : (s.pushStore st).inputsRead = s.inputsRead := rfl
@[simp] theorem State.pushStore_recentStores (s : State) (st : Option (Nat × Nat)) : (s.pushStore st).recentStores = (st :: s.recentStores).take 3 := rfl

/-! ## State.complete -/

@[simp] theorem State.complete_cfg (s : State) (t : Word) (st : Option (Nat × Nat)) : (s.complete t st).cfg = s.cfg := rfl
@[simp] theorem State.complete_x (s : State) (t : Word) (st : Option (Nat × Nat)) : (s.complete t st).x = s.x := rfl
@[simp] theorem State.complete_pc (s : State) (t : Word) (st : Option (Nat × Nat)) : (s.complete t st).pc = t := rfl
@[simp] theorem State.complete_pcf (s : State) (t : Word) (st : Option (Nat × Nat)) : (s.complete t st).pcf = s.pcf := rfl
@[simp] theorem State.complete_fd (s : State) (t : Word) (st : Option (Nat × Nat)) : (s.complete t st).fd = s.fd := rfl
@[simp] theorem State.complete_de (s : State) (t : Word) (st : Option (Nat × Nat)) : (s.complete t st).de = s.de := rfl
@[simp] theorem State.complete_em (s : State) (t : Word) (st : Option (Nat × Nat)) : (s.complete t st).em = s.em := rfl
@[simp] theorem State.complete_mw (s : State) (t : Word) (st : Option (Nat × Nat)) : (s.complete t st).mw = s.mw := rfl
@[simp] theorem State.complete_l1 (s : State) (t : Word) (st : Option (Nat × Nat)) : (s.complete t st).l1 = s.l1 := rfl
@[simp] theorem State.complete_l2 (s : State) (t : Word) (st : Option (Nat × Nat)) : (s.complete t st).l2 = s.l2 := rfl
@[simp] theorem State.complete_llc (s : State) (t : Word) (st : Option (Nat × Nat)) : (s.complete t st).llc = s.llc := rfl
@[simp] theorem State.complete_mem (s : State) (t : Word) (st : Option (Nat × Nat)) : (s.complete t st).mem = s.mem := rfl
@[simp] theorem State.complete_pred (s : State) (t : Word) (st : Option (Nat × Nat)) : (s.complete t st).pred = s.pred := rfl
@[simp] theorem State.complete_counters (s : State) (t : Word) (st : Option (Nat × Nat)) : (s.complete t st).counters = { s.counters with retired := s.counters.retired + 1 } := rfl
@[simp] theorem State.complete_memTime (s : State) (t : Word) (st : Option (Nat × Nat)) : (s.complete t st).memTime = s.memTime := rfl
@[simp] theorem State.complete_status (s : State) (t : Word) (st : Option (Nat × Nat)) : (s.complete t st).status = s.status := rfl
@[simp] theorem State.complete_trace (s : State) (t : Word) (st : Option (Nat × Nat)) : (s.complete t st).trace = s.trace := rfl
@[simp] theorem State.complete_input (s : State) (t : Word) (st : Option (Nat × Nat)) : (s.complete t st).input = s.input := rfl
@[simp] theorem State.complete_inputsRead (s : State) (t : Word) (st : Option (Nat × Nat)) : (s.complete t st).inputsRead = s.inputsRead := rfl
@[simp] theorem State.complete_recentStores (s : State) (t : Word) (st : Option (Nat × Nat)) : (s.complete t st).recentStores = (st :: s.recentStores).take 3 := rfl

/-! ## State.withChain -/

@[simp] theorem State.withChain_cfg (s : State) (ch : Chain) : (s.withChain ch).cfg = s.cfg := rfl
@[simp] theorem State.withChain_x (s : State) (ch : Chain) : (s.withChain ch).x = s.x := rfl
@[simp] theorem State.withChain_pc (s : State) (ch : Chain) : (s.withChain ch).pc = s.pc := rfl
@[simp] theorem State.withChain_pcf (s : State) (ch : Chain) : (s.withChain ch).pcf = s.pcf := rfl
@[simp] theorem State.withChain_fd (s : State) (ch : Chain) : (s.withChain ch).fd = s.fd := rfl
@[simp] theorem State.withChain_de (s : State) (ch : Chain) : (s.withChain ch).de = s.de := rfl
@[simp] theorem State.withChain_em (s : State) (ch : Chain) : (s.withChain ch).em = s.em := rfl
@[simp] theorem State.withChain_mw (s : State) (ch : Chain) : (s.withChain ch).mw = s.mw := rfl
@[simp] theorem State.withChain_l1 (s : State) (ch : Chain) : (s.withChain ch).l1 = ch.1 := rfl
@[simp] theorem State.withChain_l2 (s : State) (ch : Chain) : (s.withChain ch).l2 = ch.2.1 := rfl
@[simp] theorem State.withChain_llc (s : State) (ch : Chain) : (s.withChain ch).llc = ch.2.2.1 := rfl
@[simp] theorem State.withChain_mem (s : State) (ch : Chain) : (s.withChain ch).mem = ch.2.2.2 := rfl
@[simp] theorem State.withChain_pred (s : State) (ch : Chain) : (s.withChain ch).pred = s.pred := rfl
@[simp] theorem State.withChain_counters (s : State) (ch : Chain) : (s.withChain ch).counters = s.counters := rfl
@[simp] theorem State.withChain_memTime (s : State) (ch : Chain) : (s.withChain ch).memTime = s.memTime := rfl
@[simp] theorem State.withChain_status (s : State) (ch : Chain) : (s.withChain ch).status = s.status := rfl
@[simp] theorem State.withChain_trace (s : State) (ch : Chain) : (s.withChain ch).trace = s.trace := rfl
@[simp] theorem State.withChain_input (s : State) (ch : Chain) : (s.withChain ch).input = s.input := rfl
@[simp] theorem State.withChain_inputsRead (s : State) (ch : Chain) : (s.withChain ch).inputsRead = s.inputsRead := rfl
@[simp] theorem State.withChain_recentStores (s : State) (ch : Chain) : (s.withChain ch).recentStores = s.recentStores := rfl

/-! ## State.setReg -/

@[simp] theorem State.setReg_cfg (s : State) (r : Reg) (v : Word) : (s.setReg r v).cfg = s.cfg := by
  unfold State.setReg; split <;> rfl
@[simp] theorem State.setReg_pc (s : State) (r : Reg) (v : Word) : (s.setReg r v).pc = s.pc := by
  unfold State.setReg; split <;> rfl
@[simp] theorem State.setReg_pcf (s : State) (r : Reg) (v : Word) : (s.setReg r v).pcf = s.pcf := by
  unfold State.setReg; split <;> rfl
@[simp] theorem State.setReg_fd (s : State) (r : Reg) (v : Word) : (s.setReg r v).fd = s.fd := by
  unfold State.setReg; split <;> rfl
@[simp] theorem State.setReg_de (s : State) (r : Reg) (v : Word) : (s.setReg r v).de = s.de := by
  unfold State.setReg; split <;> rfl
@[simp] theorem State.setReg_em (s : State) (r : Reg) (v : Word) : (s.setReg r v).em = s.em := by
  unfold State.setReg; split <;> rfl
@[simp] theorem State.setReg_mw (s : State) (r : Reg) (v : Word) : (s.setReg r v).mw = s.mw := by
  unfold State.setReg; split <;> rfl
@[simp] theorem State.setReg_l1 (s : State) (r : Reg) (v : Word) : (s.setReg r v).l1 = s.l1 := by
  unfold State.setReg; split <;> rfl
@[simp] theorem State.setReg_l2 (s : State) (r : Reg) (v : Word) : (s.setReg r v).l2 = s.l2 := by
  unfold State.setReg; split <;> rfl
@[simp] theorem State.setReg_llc (s : State) (r : Reg) (v : Word) : (s.setReg r v).llc = s.llc := by
  unfold State.setReg; split <;> rfl
@[simp] theorem State.setReg_mem (s : State) (r : Reg) (v : Word) : (s.setReg r v).mem = s.mem := by
  unfold State.setReg; split <;> rfl
@[simp] theorem State.setReg_pred (s : State) (r : Reg) (v : Word) : (s.setReg r v).pred = s.pred := by
  unfold State.setReg; split <;> rfl
@[simp] theorem State.setReg_counters (s : State) (r : Reg) (v : Word) : (s.setReg r v).counters = s.counters := by
  unfold State.setReg; split <;> rfl
@[simp] theorem State.setReg_memTime (s : State) (r : Reg) (v : Word) : (s.setReg r v).memTime = s.memTime := by
  unfold State.setReg; split <;> rfl
@[simp] theorem State.setReg_status (s : State) (r : Reg) (v : Word) : (s.setReg r v).status = s.status := by
  unfold State.setReg; split <;> rfl
@[simp] theorem State.setReg_trace (s : State) (r : Reg) (v : Word) : (s.setReg r v).trace = s.trace := by
  unfold State.setReg; split <;> rfl
@[simp] theorem State.setReg_input (s : State) (r : Reg) (v : Word) : (s.setReg r v).input = s.input := by
  unfold State.setReg; split <;> rfl
@[simp] theorem State.setReg_inputsRead (s : State) (r : Reg) (v : Word) : (s.setReg r v).inputsRead = s.inputsRead := by
  unfold State.setReg; split <;> rfl
@[simp] theorem State.setReg_recentStores (s : State) (r : Reg) (v : Word) : (s.setReg r v).recentStores = s.recentStores := by
  unfold State.setReg; split <;> rfl

/-! ## trapReturn -/

@[simp] theorem trapReturn_cfg (s : State) : (trapReturn s).cfg = s.cfg := by
  unfold trapReturn; split <;> rfl
@[simp] theorem trapReturn_x (s : State) : (trapReturn s).x = s.x := by
  unfold trapReturn; split <;> rfl
@[simp] theorem trapReturn_pcf (s : State) : (trapReturn s).pcf = s.pcf := by
  unfold trapReturn; split <;> rfl
@[simp] theorem trapReturn_fd (s : State) : (trapReturn s).fd = s.fd := by
  unfold trapReturn; split <;> rfl
@[simp] theorem trapReturn_de (s : State) : (trapReturn s).de = s.de := by
  unfold trapReturn; split <;> rfl
@[simp] theorem trapReturn_em (s : State) : (trapReturn s).em = s.em := by
  unfold trapReturn; split <;> rfl
@[simp] theorem trapReturn_mw (s : State) : (trapReturn s).mw = s.mw := by
  unfold trapReturn; split <;> rfl
@[simp] theorem trapReturn_l1 (s : State) : (trapReturn s).l1 = s.l1 := by
  unfold trapReturn; split <;> rfl
@[simp] theorem trapReturn_l2 (s : State) : (trapReturn s).l2 = s.l2 := by
  unfold trapReturn; split <;> rfl
@[simp] theorem trapReturn_llc (s : State) : (trapReturn s).llc = s.llc := by
  unfold trapReturn; split <;> rfl
@[simp] theorem trapReturn_mem (s : State) : (trapReturn s).mem = s.mem := by
  unfold trapReturn; split <;> rfl
@[simp] theorem trapReturn_pred (s : State) : (trapReturn s).pred = s.pred := by
  unfold trapReturn; split <;> rfl
@[simp] theorem trapReturn_counters (s : State) : (trapReturn s).counters = s.counters := by
  unfold trapReturn; split <;> rfl
@[simp] theorem trapReturn_memTime (s : State) : (trapReturn s).memTime = s.memTime := by
  unfold trapReturn; split <;> rfl
@[simp] theorem trapReturn_status (s : State) : (trapReturn s).status = s.status := by
  unfold trapReturn; split <;> rfl
@[simp] theorem trapReturn_trace (s : State) : (trapReturn s).trace = s.trace := by
  unfold trapReturn; split <;> rfl
@[simp] theorem trapReturn_input (s : State) : (trapReturn s).input = s.input := by
  unfold trapReturn; split <;> rfl
@[simp] theorem trapReturn_inputsRead (s : State) : (trapReturn s).inputsRead = s.inputsRead := by
  unfold trapReturn; split <;> rfl
@[simp] theorem trapReturn_recentStores (s : State) : (trapReturn s).recentStores = s.recentStores := by
  unfold trapReturn; split <;> rfl

/-! ## State.pokeByte -/

@[simp] theorem State.pokeByte_cfg (s : State) (pa : Nat) (b : Byte) : (s.pokeByte pa b).cfg = s.cfg := rfl
@[simp] theorem State.pokeByte_x (s : State) (pa : Nat) (b : Byte) : (s.pokeByte pa b).x = s.x := rfl
@[simp] theorem State.pokeByte_pc (s : State) (pa : Nat) (b : Byte) : (s.pokeByte pa b).pc = s.pc := rfl
@[simp] theorem State.pokeByte_pcf (s : State) (pa : Nat) (b : Byte) : (s.pokeByte pa b).pcf = s.pcf := rfl
@[simp] theorem State.pokeByte_fd (s : State) (pa : Nat) (b : Byte) : (s.pokeByte pa b).fd = s.fd := rfl
@[simp] theorem State.pokeByte_de (s : State) (pa : Nat) (b : Byte) : (s.pokeByte pa b).de = s.de := rfl
@[simp] theorem State.pokeByte_em (s : State) (pa : Nat) (b : Byte) : (s.pokeByte pa b).em = s.em := rfl
@[simp] theorem State.pokeByte_mw (s : State) (pa : Nat) (b : Byte) : (s.pokeByte pa b).mw = s.mw := rfl
@[simp] theorem State.pokeByte_l1 (s : State) (pa : Nat) (b : Byte) : (s.pokeByte pa b).l1 = s.l1.poke s.cfg.l1 pa b := rfl
@[simp] theorem State.pokeByte_l2 (s : State) (pa : Nat) (b : Byte) : (s.pokeByte pa b).l2 = s.l2.poke s.cfg.l2 pa b := rfl
@[simp] theorem State.pokeByte_llc (s : State) (pa : Nat) (b : Byte) : (s.pokeByte pa b).llc = s.llc.poke s.cfg.llc pa b := rfl
@[simp] theorem State.pokeByte_mem (s : State) (pa : Nat) (b : Byte) : (s.pokeByte pa b).mem =
    if pa < s.cfg.memSize then s.mem.writeBytes pa [b] else s.mem := rfl
@[simp] theorem State.pokeByte_pred (s : State) (pa : Nat) (b : Byte) : (s.pokeByte pa b).pred = s.pred := rfl
@[simp] theorem State.pokeByte_counters (s : State) (pa : Nat) (b : Byte) : (s.pokeByte pa b).counters = s.counters := rfl
@[simp] theorem State.pokeByte_memTime (s : State) (pa : Nat) (b : Byte) : (s.pokeByte pa b).memTime = s.memTime := rfl
@[simp] theorem State.pokeByte_status (s : State) (pa : Nat) (b : Byte) : (s.pokeByte pa b).status = s.status := rfl
@[simp] theorem State.pokeByte_trace (s : State) (pa : Nat) (b : Byte) : (s.pokeByte pa b).trace = s.trace := rfl
@[simp] theorem State.pokeByte_input (s : State) (pa : Nat) (b : Byte) : (s.pokeByte pa b).input = s.input := rfl
@[simp] theorem State.pokeByte_inputsRead (s : State) (pa : Nat) (b : Byte) : (s.pokeByte pa b).inputsRead = s.inputsRead := rfl
@[simp] theorem State.pokeByte_recentStores (s : State) (pa : Nat) (b : Byte) : (s.pokeByte pa b).recentStores = s.recentStores := rfl

end Sys2Proof.Machine
end

