-- ==== Sys2Proof/Laws/Ops.lean ====
section
/-! SUPPORT. What each shared operation can do, said once: registers, memory accesses, system calls, and the step. -/

namespace Sys2Proof.Machine

/-! ## Registers (R20, R21) -/

@[simp] theorem State.reg_zero (s : State) : s.reg 0 = 0 := rfl

/-- A register read after a register write; `x0` takes no write. -/
theorem State.reg_setReg (s : State) (r q : Reg) (v : Word) :
    (s.setReg r v).reg q = if q = r ∧ r ≠ 0 then v else s.reg q := by
  unfold State.setReg State.reg
  by_cases hr : r = 0
  · rw [if_pos hr, if_neg (fun e : q = r ∧ r ≠ 0 => e.2 hr)]
  · rw [if_neg hr]
    by_cases hq : q = 0
    · rw [if_pos hq, if_pos hq, if_neg (fun e : q = r ∧ r ≠ 0 => hr (e.1 ▸ hq))]
    · rw [if_neg hq, if_neg hq]
      by_cases h : q = r
      · subst h; rw [if_pos ⟨rfl, hr⟩]; simp
      · have : r.toNat ≠ q.toNat := fun e => h (BitVec.eq_of_toNat_eq e.symm)
        rw [if_neg (fun e => h e.1)]; simp [this]

theorem State.reg_setReg_same (s : State) {r : Reg} (v : Word) (h : r ≠ 0) : (s.setReg r v).reg r = v := by
  rw [State.reg_setReg, if_pos ⟨rfl, h⟩]

theorem State.reg_setReg_other (s : State) {r q : Reg} (v : Word) (h : q ≠ r) : (s.setReg r v).reg q = s.reg q := by
  rw [State.reg_setReg, if_neg (fun e => h e.1)]

@[simp] theorem State.setReg_zero (s : State) (v : Word) : s.setReg 0 v = s := rfl

/-- Slot 0 is never written (R21). -/
theorem State.setReg_slot0 (s : State) (r : Reg) (v : Word) : (s.setReg r v).x[0] = s.x[0] := by
  unfold State.setReg
  split
  · rfl
  · rename_i h
    have : r.toNat ≠ 0 := fun e => h (BitVec.eq_of_toNat_eq e)
    simp [this]

/-- The registers are a function of the file alone. -/
theorem State.reg_congr {s t : State} (h : t.x = s.x) (r : Reg) : t.reg r = s.reg r := by
  unfold State.reg; rw [h]

/-! ## Replies -/

/-- The state a reply leaves meets `P`, whether it answers or is fatal. -/
def Reply.Leaves {σ α : Type} (P : σ → Prop) : Reply σ α → Prop
  | .ok _ s => P s
  | .fatal _ s => P s

theorem Reply.Leaves.bind {σ α β : Type} {P : σ → Prop} {r : Reply σ α} {k : α → σ → Reply σ β}
    (h : r.Leaves P) (hk : ∀ a s, r = .ok a s → P s → (k a s).Leaves P) : (r.bind k).Leaves P := by
  cases r with
  | ok a s => exact hk a s rfl h
  | fatal e s => exact h

theorem Reply.Leaves.map {σ α β : Type} {P : σ → Prop} {r : Reply σ α} (f : α → β)
    (h : r.Leaves P) : (r.map f).Leaves P := by
  cases r <;> exact h

theorem Reply.Leaves.mono {σ α : Type} {P Q : σ → Prop} {r : Reply σ α} (h : r.Leaves P) (hpq : ∀ s, P s → Q s) :
    r.Leaves Q := by
  cases r <;> exact hpq _ h

theorem Reply.Leaves.of_ok {σ α : Type} {P : σ → Prop} {r : Reply σ α} {a : α} {s : σ} (h : r.Leaves P)
    (hr : r = .ok a s) : P s := by
  subst hr; exact h

theorem Reply.Leaves.of_fatal {σ α : Type} {P : σ → Prop} {r : Reply σ α} {e : FatalReason} {s : σ} (h : r.Leaves P)
    (hr : r = .fatal e s) : P s := by
  subst hr; exact h

/-! ## Accesses change the four stores and `memTime`, nothing else -/

/-- `t` is `s` but for the four stores and `memTime`. -/
def OnlyHierarchy (s t : State) : Prop := ∃ ch m, t = { s.withChain ch with memTime := m }

theorem OnlyHierarchy.refl (s : State) : OnlyHierarchy s s := ⟨s.chain, s.memTime, rfl⟩

theorem OnlyHierarchy.trans {s t u : State} (h : OnlyHierarchy s t) (h' : OnlyHierarchy t u) : OnlyHierarchy s u := by
  obtain ⟨ch, m, rfl⟩ := h
  obtain ⟨ch', m', rfl⟩ := h'
  exact ⟨ch', m', rfl⟩

section
variable {s t : State} (h : OnlyHierarchy s t)
include h

theorem OnlyHierarchy.cfg : t.cfg = s.cfg := by obtain ⟨_, _, rfl⟩ := h; rfl
theorem OnlyHierarchy.x : t.x = s.x := by obtain ⟨_, _, rfl⟩ := h; rfl
theorem OnlyHierarchy.reg (r : Reg) : t.reg r = s.reg r := by obtain ⟨_, _, rfl⟩ := h; rfl
theorem OnlyHierarchy.pc : t.pc = s.pc := by obtain ⟨_, _, rfl⟩ := h; rfl
theorem OnlyHierarchy.pcf : t.pcf = s.pcf := by obtain ⟨_, _, rfl⟩ := h; rfl
theorem OnlyHierarchy.fd : t.fd = s.fd := by obtain ⟨_, _, rfl⟩ := h; rfl
theorem OnlyHierarchy.de : t.de = s.de := by obtain ⟨_, _, rfl⟩ := h; rfl
theorem OnlyHierarchy.em : t.em = s.em := by obtain ⟨_, _, rfl⟩ := h; rfl
theorem OnlyHierarchy.mw : t.mw = s.mw := by obtain ⟨_, _, rfl⟩ := h; rfl
theorem OnlyHierarchy.pred : t.pred = s.pred := by obtain ⟨_, _, rfl⟩ := h; rfl
theorem OnlyHierarchy.counters : t.counters = s.counters := by obtain ⟨_, _, rfl⟩ := h; rfl
theorem OnlyHierarchy.status : t.status = s.status := by obtain ⟨_, _, rfl⟩ := h; rfl
theorem OnlyHierarchy.trace : t.trace = s.trace := by obtain ⟨_, _, rfl⟩ := h; rfl
theorem OnlyHierarchy.input : t.input = s.input := by obtain ⟨_, _, rfl⟩ := h; rfl
theorem OnlyHierarchy.inputsRead : t.inputsRead = s.inputsRead := by obtain ⟨_, _, rfl⟩ := h; rfl
theorem OnlyHierarchy.recentStores : t.recentStores = s.recentStores := by obtain ⟨_, _, rfl⟩ := h; rfl

end

theorem l1Access_leaves (q : Request) (s : State) : (l1Access q s).Leaves (OnlyHierarchy s) := by
  unfold l1Access
  split
  · exact ⟨_, _, rfl⟩
  · exact ⟨_, s.memTime, rfl⟩

theorem accessAt_leaves (va : Word) (n : Nat) (q : Nat → Request) (s : State) :
    (accessAt va n q s).Leaves (OnlyHierarchy s) := by
  unfold accessAt
  split
  · exact OnlyHierarchy.refl s
  · split
    · exact OnlyHierarchy.refl s
    · exact l1Access_leaves _ s

theorem memRead_leaves (va : Word) (n : Nat) (s : State) : (memRead va n s).Leaves (OnlyHierarchy s) :=
  (accessAt_leaves _ _ _ _).map _

theorem memWrite_leaves (va : Word) (n : Nat) (v : Word) (s : State) : (memWrite va n v s).Leaves (OnlyHierarchy s) :=
  (accessAt_leaves _ _ _ _).map _

theorem fetch32_leaves (va : Word) (s : State) : (fetch32 va s).Leaves (OnlyHierarchy s) :=
  (accessAt_leaves _ _ _ _).map _

theorem readString_leaves (cap : Nat) (va : Word) (s : State) : (readString cap va s).Leaves (OnlyHierarchy s) := by
  induction cap generalizing va s with
  | zero => exact OnlyHierarchy.refl s
  | succ cap ih =>
    refine (memRead_leaves va 1 s).bind fun v u _ hu => ?_
    split
    · exact hu
    · exact ((ih (va + 1) u).mono fun w hw => hu.trans hw).map _

/-- An unmapped address is fatal before anything else (R67). -/
theorem accessAt_unmapped {va : Word} {s : State} (h : translate s.cfg va = none) (n : Nat) (q : Nat → Request) :
    accessAt va n q s = .fatal (.translationMiss va) s := by
  unfold accessAt; rw [h]

/-- An access that would leave its block is fatal before it reaches the caches (R74). -/
theorem accessAt_crossing {va : Word} {s : State} {pa n : Nat} (h : translate s.cfg va = some pa)
    (hc : 64 < pa % 64 + n) (q : Nat → Request) : accessAt va n q s = .fatal (.blockCrossing pa n) s := by
  unfold accessAt blockOffset; rw [h]; simp only; rw [if_pos hc]

/-- Any other access is one request to L1 (R69). -/
theorem accessAt_inBlock {va : Word} {s : State} {pa n : Nat} (h : translate s.cfg va = some pa)
    (hc : pa % 64 + n ≤ 64) (q : Nat → Request) : accessAt va n q s = l1Access (q pa) s := by
  unfold accessAt blockOffset; rw [h]; simp only; rw [if_neg (by omega)]

/-! ## The view (R73) depends on the configuration and the stores alone -/

theorem State.viewByte_congr {s t : State} (hc : t.cfg = s.cfg) (hs : t.chain = s.chain) (pa : Nat) :
    t.viewByte pa = s.viewByte pa := by
  unfold State.viewByte; rw [hc, hs]

/-! ## System calls (R290 to R297) -/

/-- What `dispatchSyscall` can do: the six calls, an unknown number, or a string that cannot be read. -/
theorem dispatchSyscall_cases (s : State) :
    (∃ e, dispatchSyscall s = .ok () (emit (e (s.reg s.cfg.sysArgReg)) s) ∧
      (s.reg s.cfg.sysNumReg, e) ∈ [((88 : Word), HostEvent.sleep), (89, .printInt), (90, .printChar)]) ∨
    (s.reg s.cfg.sysNumReg = 91 ∧ ∃ r u, readString s.cfg.strCap (s.reg s.cfg.sysArgReg) s = .ok r u ∧
      dispatchSyscall s = .ok () (emit (.printString r.1 r.2) u)) ∨
    (s.reg s.cfg.sysNumReg = 91 ∧ ∃ e u, readString s.cfg.strCap (s.reg s.cfg.sysArgReg) s = .fatal e u ∧
      dispatchSyscall s = .fatal e u) ∨
    (s.reg s.cfg.sysNumReg = 92 ∧ dispatchSyscall s =
      .ok () ((emit (.readInt s.nextInput) s.dropInput).setReg s.cfg.sysRetReg s.nextInput)) ∨
    (s.reg s.cfg.sysNumReg = 93 ∧ dispatchSyscall s =
      .ok () (halt (s.reg s.cfg.sysArgReg) (emit (.exit (s.reg s.cfg.sysArgReg)) s))) ∨
    (s.reg s.cfg.sysNumReg ∉ [(88 : Word), 89, 90, 91, 92, 93] ∧
      dispatchSyscall s = .fatal (.unknownSyscall (s.reg s.cfg.sysNumReg)) s) := by
  unfold dispatchSyscall
  generalize s.reg s.cfg.sysNumReg = num
  simp only
  split
  · exact .inl ⟨HostEvent.sleep, rfl, by simp_all⟩
  split
  · exact .inl ⟨HostEvent.printInt, rfl, by simp_all⟩
  split
  · exact .inl ⟨HostEvent.printChar, rfl, by simp_all⟩
  split
  · rename_i h
    cases hr : readString s.cfg.strCap (s.reg s.cfg.sysArgReg) s with
    | ok r u => exact .inr (.inl ⟨h, r, u, rfl, rfl⟩)
    | fatal e u => exact .inr (.inr (.inl ⟨h, e, u, rfl, rfl⟩))
  split
  · rename_i h; exact .inr (.inr (.inr (.inl ⟨h, rfl⟩)))
  split
  · rename_i h; exact .inr (.inr (.inr (.inr (.inl ⟨h, rfl⟩))))
  · exact .inr (.inr (.inr (.inr (.inr ⟨by simp_all, rfl⟩))))

/-! ## Completion at level ISA -/

theorem settle_ok {α : Type} (a : α) (s : State) (k : α → State → Host.Outcome State Fault Refusal) :
    settle (.ok a s) k = k a s := rfl

theorem settle_fatal {α : Type} (e : FatalReason) (s : State) (k : α → State → Host.Outcome State Fault Refusal) :
    settle (.fatal e s) k = .next (raiseFatal e s) := rfl

/-! ## The step -/

/-- What a step that answers a next state has done. -/
theorem step_next {s t : State} (h : step s = .next t) :
    s.status = .running ∧
    ((s.cfg.level = .isa ∧ s.staleFetch = false ∧
        ((∃ raw u i, fetch32 s.pc { s with memTime := 0 } = .ok raw u ∧ decode raw = .ok i ∧ exec i u = .next t) ∨
         (∃ raw u e, fetch32 s.pc { s with memTime := 0 } = .ok raw u ∧ decode raw = .error e ∧
            t = raiseFatal (.unknownInstruction raw u.pc) u) ∨
         (∃ e u, fetch32 s.pc { s with memTime := 0 } = .fatal e u ∧ t = raiseFatal e u))) ∨
     (s.cfg.level = .cycle ∧ t = cycle s)) := by
  unfold step at h
  split at h
  · cases h
  · cases h
  · rename_i hs
    refine ⟨hs, ?_⟩
    split at h
    · rename_i hl
      left
      unfold stepIsa at h
      split at h
      · cases h
      · rename_i hf
        refine ⟨hl, by simpa using hf, ?_⟩
        cases hr : fetch32 s.pc { s with memTime := 0 } with
        | ok raw u =>
          rw [hr] at h
          simp only [settle, runWord] at h
          split at h
          · rename_i i hd; exact .inl ⟨raw, u, i, rfl, hd, h⟩
          · rename_i e hd; exact .inr (.inl ⟨raw, u, e, rfl, hd, by injection h with h; exact h.symm⟩)
        | fatal e u =>
          rw [hr] at h
          exact .inr (.inr ⟨e, u, rfl, by injection h with h; exact h.symm⟩)
    · rename_i hl
      right
      exact ⟨hl, by injection h with h; exact h.symm⟩

end Sys2Proof.Machine
end

