-- ==== Sys2Proof/Laws/Pipeline.lean ====
section
/-! SUPPORT. What each stage of a cycle can do, and what a whole cycle can do, said once (R301 to R341). -/

namespace Sys2Proof.Machine

/-! ## Resolving a branch changes the predictor and two counters (R322) -/

@[simp] theorem resolveBranch_cfg (d : DecodeExecute) (s : State) : (resolveBranch d s).cfg = s.cfg := by
  unfold resolveBranch; split <;> rfl
@[simp] theorem resolveBranch_x (d : DecodeExecute) (s : State) : (resolveBranch d s).x = s.x := by
  unfold resolveBranch; split <;> rfl
@[simp] theorem resolveBranch_pc (d : DecodeExecute) (s : State) : (resolveBranch d s).pc = s.pc := by
  unfold resolveBranch; split <;> rfl
@[simp] theorem resolveBranch_pcf (d : DecodeExecute) (s : State) : (resolveBranch d s).pcf = s.pcf := by
  unfold resolveBranch; split <;> rfl
@[simp] theorem resolveBranch_fd (d : DecodeExecute) (s : State) : (resolveBranch d s).fd = s.fd := by
  unfold resolveBranch; split <;> rfl
@[simp] theorem resolveBranch_de (d : DecodeExecute) (s : State) : (resolveBranch d s).de = s.de := by
  unfold resolveBranch; split <;> rfl
@[simp] theorem resolveBranch_em (d : DecodeExecute) (s : State) : (resolveBranch d s).em = s.em := by
  unfold resolveBranch; split <;> rfl
@[simp] theorem resolveBranch_mw (d : DecodeExecute) (s : State) : (resolveBranch d s).mw = s.mw := by
  unfold resolveBranch; split <;> rfl
@[simp] theorem resolveBranch_chain (d : DecodeExecute) (s : State) : (resolveBranch d s).chain = s.chain := by
  unfold resolveBranch; split <;> rfl
@[simp] theorem resolveBranch_memTime (d : DecodeExecute) (s : State) : (resolveBranch d s).memTime = s.memTime := by
  unfold resolveBranch; split <;> rfl
@[simp] theorem resolveBranch_status (d : DecodeExecute) (s : State) : (resolveBranch d s).status = s.status := by
  unfold resolveBranch; split <;> rfl
@[simp] theorem resolveBranch_trace (d : DecodeExecute) (s : State) : (resolveBranch d s).trace = s.trace := by
  unfold resolveBranch; split <;> rfl
@[simp] theorem resolveBranch_input (d : DecodeExecute) (s : State) : (resolveBranch d s).input = s.input := by
  unfold resolveBranch; split <;> rfl
@[simp] theorem resolveBranch_inputsRead (d : DecodeExecute) (s : State) :
    (resolveBranch d s).inputsRead = s.inputsRead := by
  unfold resolveBranch; split <;> rfl
@[simp] theorem resolveBranch_recentStores (d : DecodeExecute) (s : State) :
    (resolveBranch d s).recentStores = s.recentStores := by
  unfold resolveBranch; split <;> rfl

theorem resolveBranch_branch {d : DecodeExecute} (h : opClass d.op = .branch) (s : State) :
    resolveBranch d s =
      { s with
        pred := s.pred.update s.cfg d.pc (branchTaken d.op d.v1 d.v2)
        counters := { s.counters with
          branchTotal := s.counters.branchTotal + 1
          branchOk := s.counters.branchOk + (if branchTaken d.op d.v1 d.v2 = d.predTaken then 1 else 0) } } := by
  unfold resolveBranch; rw [h]

theorem resolveBranch_other {d : DecodeExecute} (h : opClass d.op ≠ .branch) (s : State) : resolveBranch d s = s := by
  unfold resolveBranch; split
  · contradiction
  all_goals rfl

/-! ## The stages -/

theorem fetchStage_leaves (s : State) : (fetchStage s).Leaves (OnlyHierarchy s) := by
  unfold fetchStage
  split
  · exact OnlyHierarchy.refl s
  · exact (fetch32_leaves _ s).map _

/-- What Fetch answers (R305 to R307). -/
theorem fetchStage_ok {s u : State} {f : FetchResult} (h : fetchStage s = .ok f u) :
    (s.pcf.drain = true ∧ u = s ∧ f = { out := none, next := s.pcf.pc }) ∨
    (s.pcf.drain = false ∧ ∃ raw, fetch32 s.pcf.pc s = .ok raw u ∧
      f = { out := some { pc := s.pcf.pc, raw := raw, predTaken := (fetchNext s raw).2 }
            next := (fetchNext s raw).1 }) := by
  unfold fetchStage at h
  split at h
  · rename_i hd; injection h with h1 h2; exact .inl ⟨hd, h2.symm, h1.symm⟩
  · rename_i hd
    cases hr : fetch32 s.pcf.pc s with
    | ok raw v => rw [hr] at h; injection h with h1 h2; subst h2; exact .inr ⟨by simpa using hd, raw, rfl, h1.symm⟩
    | fatal e v => rw [hr] at h; cases h

/-- What Decode's word is (R310). -/
theorem decodeWord_ok {s u : State} {w : Option (FetchDecode × Instr)} (h : decodeWord s = .ok w u) :
    u = s ∧ ((s.fd = none ∧ w = none) ∨ ∃ fd i, s.fd = some fd ∧ decode fd.raw = .ok i ∧ w = some (fd, i)) := by
  unfold decodeWord at h
  split at h
  · rename_i hf; injection h with h1 h2; exact ⟨h2.symm, .inl ⟨hf, h1.symm⟩⟩
  · rename_i fd hf
    split at h
    · rename_i i hd; injection h with h1 h2; exact ⟨h2.symm, .inr ⟨fd, i, hf, hd, h1.symm⟩⟩
    · cases h

theorem decodeWord_fatal {s u : State} {e : FatalReason} (h : decodeWord s = .fatal e u) :
    u = s ∧ ∃ fd x, s.fd = some fd ∧ decode fd.raw = .error x ∧ e = .unknownInstruction fd.raw fd.pc := by
  unfold decodeWord at h
  split at h
  · cases h
  · rename_i fd hf
    split at h
    · cases h
    · rename_i x hd; injection h with h1 h2; exact ⟨h2.symm, fd, x, hf, hd, h1.symm⟩

/-- What Execute answers (R320 to R323). -/
theorem executeStage_ok {s u : State} {e : ExecuteResult} (h : executeStage s = .ok e u) :
    (s.de = none ∧ u = s ∧ e = { out := none, redirect := none }) ∨
    (∃ d, s.de = some d ∧ u = resolveBranch d s ∧
      e = { out := some (executeOut d), redirect := executeRedirect d }) := by
  unfold executeStage at h
  split at h
  · rename_i hd; injection h with h1 h2; exact .inl ⟨hd, h2.symm, h1.symm⟩
  · rename_i d hd
    split at h
    · cases h
    · injection h with h1 h2; exact .inr ⟨d, hd, h2.symm, h1.symm⟩

theorem executeStage_fatal {s u : State} {e : FatalReason} (h : executeStage s = .fatal e u) :
    u = s ∧ e = .divide := by
  unfold executeStage at h
  split at h
  · cases h
  · split at h
    · injection h with h1 h2; exact ⟨h2.symm, h1.symm⟩
    · cases h

theorem memoryStage_leaves (s : State) : (memoryStage s).Leaves (OnlyHierarchy s) := by
  unfold memoryStage
  split
  · exact OnlyHierarchy.refl s
  · split
    · exact (memRead_leaves _ _ s).map _
    · exact (memWrite_leaves _ _ _ s).map _
    · exact OnlyHierarchy.refl s

/-- What Memory answers (R326). -/
theorem memoryStage_ok {s u : State} {m : Option MemoryWriteback} (h : memoryStage s = .ok m u) :
    (s.em = none ∧ m = none ∧ u = s) ∨ ∃ em v, s.em = some em ∧ m = some (memoryOut em v) := by
  unfold memoryStage at h
  split at h
  · rename_i he; injection h with h1 h2; exact .inl ⟨he, h1.symm, h2.symm⟩
  · rename_i em he
    right
    split at h
    · rename_i k _
      cases hr : memRead em.alu k.size s with
      | ok v t => rw [hr] at h; injection h with h1 h2; exact ⟨em, _, he, h1.symm⟩
      | fatal e t => rw [hr] at h; cases h
    · rename_i n _
      cases hr : memWrite em.alu n em.v2 s with
      | ok v t => rw [hr] at h; injection h with h1 h2; exact ⟨em, 0, he, h1.symm⟩
      | fatal e t => rw [hr] at h; cases h
    · injection h with h1 h2; exact ⟨em, 0, he, h1.symm⟩

/-- An instruction that accesses no memory passes the Memory stage and leaves the state as it is. -/
theorem memoryStage_idle {s : State} (h : s.em = none) : memoryStage s = .ok none s := by
  unfold memoryStage; rw [h]

/-- What Writeback answers (R330, R331). -/
theorem writebackStage_ok {s u : State} {b : Bool} (h : writebackStage s = .ok b u) :
    (s.mw = none ∧ b = false ∧ u = s) ∨
    (∃ w, s.mw = some w ∧ w.op ≠ .ecall ∧ b = false ∧
      u = ((s.setReg w.rdAlu w.alu).setReg w.rdMem w.mval).countRetired) ∨
    (∃ w v, s.mw = some w ∧ w.op = .ecall ∧ b = true ∧ dispatchSyscall s = .ok () v ∧ u = v.countSyscall) := by
  unfold writebackStage at h
  split at h
  · rename_i hw; injection h with h1 h2; exact .inl ⟨hw, h1.symm, h2.symm⟩
  · rename_i w hw
    split at h
    · rename_i ho
      cases hd : dispatchSyscall s with
      | ok a v =>
        rw [hd] at h; injection h with h1 h2
        exact .inr (.inr ⟨w, v, hw, ho, h1.symm, rfl, h2.symm⟩)
      | fatal e v => rw [hd] at h; cases h
    · rename_i ho
      injection h with h1 h2
      exact .inr (.inl ⟨w, hw, ho, h1.symm, h2.symm⟩)

theorem writebackStage_fatal {s u : State} {e : FatalReason} (h : writebackStage s = .fatal e u) :
    ∃ w, s.mw = some w ∧ w.op = .ecall ∧ dispatchSyscall s = .fatal e u := by
  unfold writebackStage at h
  split at h
  · cases h
  · rename_i w hw
    split at h
    · rename_i ho
      cases hd : dispatchSyscall s with
      | ok a v => rw [hd] at h; cases h
      | fatal e' v =>
        rw [hd] at h; injection h with h1 h2; subst h1; subst h2
        exact ⟨w, hw, ho, rfl⟩
    · cases h

/-- What a dispatched system call leaves alone. -/
structure DispatchFrame (s t : State) : Prop where
  cfg : t.cfg = s.cfg
  pc : t.pc = s.pc
  pcf : t.pcf = s.pcf
  fd : t.fd = s.fd
  de : t.de = s.de
  em : t.em = s.em
  mw : t.mw = s.mw
  pred : t.pred = s.pred
  counters : t.counters = s.counters
  recentStores : t.recentStores = s.recentStores
  slot0 : t.x[0] = s.x[0]

theorem dispatchSyscall_frame (s : State) : (dispatchSyscall s).Leaves (DispatchFrame s) := by
  have of : ∀ u, OnlyHierarchy s u → DispatchFrame s u := fun u h =>
    ⟨h.cfg, h.pc, h.pcf, h.fd, h.de, h.em, h.mw, h.pred, h.counters, h.recentStores, by rw [h.x]⟩
  rcases dispatchSyscall_cases s with ⟨e, h, _⟩ | ⟨_, r, u, hr, h⟩ | ⟨_, e, u, hr, h⟩ | ⟨_, h⟩ | ⟨_, h⟩ | ⟨_, h⟩
  · rw [h]; exact ⟨rfl, rfl, rfl, rfl, rfl, rfl, rfl, rfl, rfl, rfl, rfl⟩
  · rw [h]
    obtain ⟨h1, h2, h3, h4, h5, h6, h7, h8, h9, h10, h11⟩ := of u ((readString_leaves _ _ s).of_ok hr)
    exact ⟨h1, h2, h3, h4, h5, h6, h7, h8, h9, h10, h11⟩
  · rw [h]; exact of u ((readString_leaves _ _ s).of_fatal hr)
  · rw [h]
    refine ⟨?_, ?_, ?_, ?_, ?_, ?_, ?_, ?_, ?_, ?_, State.setReg_slot0 _ _ _⟩ <;> simp
  · rw [h]; exact ⟨rfl, rfl, rfl, rfl, rfl, rfl, rfl, rfl, rfl, rfl, rfl⟩
  · rw [h]; exact of s (OnlyHierarchy.refl s)

/-! ## A whole cycle -/

/-- The five stages of a cycle that meets no fatal condition, each with the state it leaves to the next. -/
theorem runStages_ok {s t : State} {r : StageResults} (h : runStages s = .ok r t) :
    ∃ u₁ w u₃ u₄, fetchStage s = .ok r.fetch u₁ ∧ decodeWord u₁ = .ok w u₁ ∧ executeStage u₁ = .ok r.execute u₃ ∧
      memoryStage u₃ = .ok r.memory u₄ ∧ r.decode = decodeStage u₄ w r.execute.out r.memory ∧
      writebackStage u₄ = .ok r.dispatched t := by
  unfold runStages at h
  obtain ⟨f, u₁, h1, h⟩ := Reply.bind_eq_ok h
  obtain ⟨w, u₂, h2, h⟩ := Reply.bind_eq_ok h
  obtain ⟨e, u₃, h3, h⟩ := Reply.bind_eq_ok h
  obtain ⟨m, u₄, h4, h⟩ := Reply.bind_eq_ok h
  obtain ⟨b, u₅, h5, h⟩ := Reply.bind_eq_ok h
  injection h with hr ht
  subst hr; subst ht
  obtain rfl := (decodeWord_ok h2).1
  exact ⟨u₂, w, u₃, u₄, h1, h2, h3, h4, rfl, h5⟩

/-- The operands of Decode depend on the register file and MW alone. -/
theorem decodeStage_congr {s t : State} (hx : t.x = s.x) (hw : t.mw = s.mw) (w : Option (FetchDecode × Instr))
    (e : Option ExecuteMemory) (m : Option MemoryWriteback) : decodeStage t w e m = decodeStage s w e m := by
  have : ∀ r, operand t e m r = operand s e m r := by
    intro r; unfold operand; rw [hw, State.reg_congr hx]
  unfold decodeStage
  simp only [this]

/-- Everything a cycle without a fatal condition has computed, in terms of the state before it (R302), and what the
state `t` before the commit has kept of it. -/
structure CycleRun (s : State) (r : StageResults) (t : State) : Prop where
  fetch : (s.pcf.drain = true ∧ r.fetch = { out := none, next := s.pcf.pc }) ∨
    (s.pcf.drain = false ∧ ∃ raw, r.fetch =
      { out := some { pc := s.pcf.pc, raw := raw, predTaken := (fetchNext s raw).2 }
        next := (fetchNext s raw).1 })
  decode : (s.fd = none ∧ r.decode = { out := none, loadUse := false, ecall := false, forwards := 0 }) ∨
    ∃ fd i, s.fd = some fd ∧ decode fd.raw = .ok i ∧
      r.decode = decodeStage s (some (fd, i)) r.execute.out r.memory
  execute : (s.de = none ∧ r.execute = { out := none, redirect := none }) ∨
    ∃ d, s.de = some d ∧ r.execute = { out := some (executeOut d), redirect := executeRedirect d }
  memory : (s.em = none ∧ r.memory = none) ∨ ∃ em v, s.em = some em ∧ r.memory = some (memoryOut em v)
  dispatched : r.dispatched = s.mw.any fun w => w.op == .ecall
  cfg : t.cfg = s.cfg
  pc : t.pc = s.pc
  pcf : t.pcf = s.pcf
  fd : t.fd = s.fd
  de : t.de = s.de
  em : t.em = s.em
  mw : t.mw = s.mw
  recentStores : t.recentStores = s.recentStores
  slot0 : t.x[0] = s.x[0]
  retired : t.counters.retired = s.counters.retired + (if s.mw.any fun w => w.op != .ecall then 1 else 0)
  syscall : t.counters.syscall = s.counters.syscall + (if s.mw.any fun w => w.op == .ecall then 1 else 0)
  cycles : t.counters.cycles = s.counters.cycles
  ticks : t.counters.ticks = s.counters.ticks
  dataHazard : t.counters.dataHazard = s.counters.dataHazard
  loadUse : t.counters.loadUse = s.counters.loadUse
  controlHazard : t.counters.controlHazard = s.counters.controlHazard
  fetchStall : t.counters.fetchStall = s.counters.fetchStall
  branch : (s.de = none ∧ t.pred = s.pred ∧ t.counters.branchTotal = s.counters.branchTotal ∧
      t.counters.branchOk = s.counters.branchOk) ∨
    ∃ d, s.de = some d ∧ t.pred = (resolveBranch d s).pred ∧
      t.counters.branchTotal = (resolveBranch d s).counters.branchTotal ∧
      t.counters.branchOk = (resolveBranch d s).counters.branchOk

theorem resolveBranch_counters (d : DecodeExecute) (s : State) :
    (resolveBranch d s).counters = { s.counters with
      branchTotal := (resolveBranch d s).counters.branchTotal
      branchOk := (resolveBranch d s).counters.branchOk } := by
  unfold resolveBranch; split <;> rfl

theorem resolveBranch_congr (d : DecodeExecute) {s t : State} (hp : t.pred = s.pred) (hc : t.cfg = s.cfg)
    (hk : t.counters = s.counters) :
    (resolveBranch d t).pred = (resolveBranch d s).pred ∧
      (resolveBranch d t).counters = (resolveBranch d s).counters := by
  unfold resolveBranch; split <;> simp [hp, hc, hk]

/-- What a cycle's stages do. -/
theorem runStages_run {s t : State} {r : StageResults} (h : runStages s = .ok r t) : CycleRun s r t := by
  obtain ⟨u₁, w, u₃, u₄, h1, h2, h3, h4, h5, h6⟩ := runStages_ok h
  have f1 : OnlyHierarchy s u₁ := (fetchStage_leaves s).of_ok h1
  have f4 : OnlyHierarchy u₃ u₄ := (memoryStage_leaves u₃).of_ok h4
  -- Execute
  have f3 : ∃ u₃', u₃ = u₃' ∧ u₃.cfg = s.cfg ∧ u₃.x = s.x ∧ u₃.pc = s.pc ∧ u₃.pcf = s.pcf ∧ u₃.fd = s.fd ∧
      u₃.de = s.de ∧ u₃.em = s.em ∧ u₃.mw = s.mw ∧ u₃.recentStores = s.recentStores ∧
      u₃.counters = { s.counters with branchTotal := u₃.counters.branchTotal, branchOk := u₃.counters.branchOk } ∧
      ((s.de = none ∧ r.execute = { out := none, redirect := none } ∧ u₃.pred = s.pred ∧
          u₃.counters.branchTotal = s.counters.branchTotal ∧ u₃.counters.branchOk = s.counters.branchOk) ∨
        ∃ d, s.de = some d ∧ r.execute = { out := some (executeOut d), redirect := executeRedirect d } ∧
          u₃.pred = (resolveBranch d s).pred ∧
          u₃.counters.branchTotal = (resolveBranch d s).counters.branchTotal ∧
          u₃.counters.branchOk = (resolveBranch d s).counters.branchOk) := by
    refine ⟨u₃, rfl, ?_⟩
    rcases executeStage_ok h3 with ⟨g1, rfl, g3⟩ | ⟨d, g1, rfl, g3⟩
    · refine ⟨f1.cfg, f1.x, f1.pc, f1.pcf, f1.fd, f1.de, f1.em, f1.mw, f1.recentStores, by rw [f1.counters], .inl ?_⟩
      exact ⟨f1.de ▸ g1, g3, f1.pred, by rw [f1.counters], by rw [f1.counters]⟩
    · have hc := resolveBranch_congr d f1.pred f1.cfg f1.counters
      refine ⟨by simp [f1.cfg], by simp [f1.x], by simp [f1.pc], by simp [f1.pcf], by simp [f1.fd], by simp [f1.de],
        by simp [f1.em], by simp [f1.mw], by simp [f1.recentStores], ?_, .inr ⟨d, f1.de ▸ g1, g3, hc.1, ?_, ?_⟩⟩
      · conv_lhs => rw [resolveBranch_counters]
        rw [f1.counters]
      · rw [hc.2]
      · rw [hc.2]
  obtain ⟨_, _, c3, x3, pc3, pcf3, fd3, de3, em3, mw3, rs3, k3, ex⟩ := f3
  -- Writeback
  have f6 : DispatchFrame u₄ t ∨ ∃ v : State, DispatchFrame u₄ v ∧ (t = v.countSyscall ∨ t = v.countRetired) := by
    rcases writebackStage_ok h6 with ⟨_, _, rfl⟩ | ⟨w, _, _, _, rfl⟩ | ⟨w, v, _, _, _, hd, rfl⟩
    · exact .inl ⟨rfl, rfl, rfl, rfl, rfl, rfl, rfl, rfl, rfl, rfl, rfl⟩
    · refine .inr ⟨_, ?_, .inr rfl⟩
      refine ⟨?_, ?_, ?_, ?_, ?_, ?_, ?_, ?_, ?_, ?_, ?_⟩
      all_goals first | exact (State.setReg_slot0 _ _ _).trans (State.setReg_slot0 _ _ _) | simp
    · exact .inr ⟨v, (dispatchSyscall_frame u₄).of_ok hd, .inl rfl⟩
  have g6 : t.cfg = u₄.cfg ∧ t.pc = u₄.pc ∧ t.pcf = u₄.pcf ∧ t.fd = u₄.fd ∧ t.de = u₄.de ∧ t.em = u₄.em ∧
      t.mw = u₄.mw ∧ t.recentStores = u₄.recentStores ∧ t.x[0] = u₄.x[0] ∧ t.pred = u₄.pred := by
    rcases f6 with g | ⟨v, g, rfl | rfl⟩ <;>
      exact ⟨g.cfg, g.pc, g.pcf, g.fd, g.de, g.em, g.mw, g.recentStores, g.slot0, g.pred⟩
  obtain ⟨c6, pc6, pcf6, fd6, de6, em6, mw6, rs6, z6, pr6⟩ := g6
  have k6 : t.counters = { u₄.counters with
      retired := u₄.counters.retired + (if s.mw.any fun w => w.op != .ecall then 1 else 0)
      syscall := u₄.counters.syscall + (if s.mw.any fun w => w.op == .ecall then 1 else 0) } ∧
      r.dispatched = s.mw.any fun w => w.op == .ecall := by
    have hm : u₄.mw = s.mw := by rw [f4.mw, mw3]
    rcases writebackStage_ok h6 with ⟨g, g', rfl⟩ | ⟨w, g, go, g', rfl⟩ | ⟨w, v, g, go, g', hd, rfl⟩
    · rw [hm] at g; rw [g, g']; exact ⟨rfl, rfl⟩
    · rw [hm] at g; rw [g, g']; simp [go]
    · have := ((dispatchSyscall_frame u₄).of_ok hd).counters
      rw [hm] at g; rw [g, g']; simp [go, this]
  have k4 : u₄.counters = { s.counters with
      branchTotal := u₃.counters.branchTotal, branchOk := u₃.counters.branchOk } := by rw [f4.counters]; exact k3
  refine
    { fetch := ?_, decode := ?_, execute := ?_, memory := ?_, dispatched := k6.2, cfg := by rw [c6, f4.cfg, c3]
      pc := by rw [pc6, f4.pc, pc3], pcf := by rw [pcf6, f4.pcf, pcf3], fd := by rw [fd6, f4.fd, fd3]
      de := by rw [de6, f4.de, de3], em := by rw [em6, f4.em, em3], mw := by rw [mw6, f4.mw, mw3]
      recentStores := by rw [rs6, f4.recentStores, rs3], slot0 := by rw [z6, f4.x, x3]
      retired := by rw [k6.1, k4], syscall := by rw [k6.1, k4], cycles := by rw [k6.1, k4], ticks := by rw [k6.1, k4]
      dataHazard := by rw [k6.1, k4], loadUse := by rw [k6.1, k4], controlHazard := by rw [k6.1, k4]
      fetchStall := by rw [k6.1, k4], branch := ?_ }
  · rcases fetchStage_ok h1 with ⟨g1, _, g3⟩ | ⟨g1, raw, _, g3⟩
    · exact .inl ⟨g1, g3⟩
    · exact .inr ⟨g1, raw, g3⟩
  · rcases (decodeWord_ok h2).2 with ⟨g1, rfl⟩ | ⟨fd, i, g1, g2, rfl⟩
    · exact .inl ⟨f1.fd ▸ g1, h5⟩
    · refine .inr ⟨fd, i, f1.fd ▸ g1, g2, ?_⟩
      rw [h5]; exact decodeStage_congr (by rw [f4.x, x3]) (by rw [f4.mw, mw3]) _ _ _
  · rcases ex with ⟨g1, g2, _⟩ | ⟨d, g1, g2, _⟩
    · exact .inl ⟨g1, g2⟩
    · exact .inr ⟨d, g1, g2⟩
  · rcases memoryStage_ok h4 with ⟨g1, g2, _⟩ | ⟨em, v, g1, g2⟩
    · exact .inl ⟨em3 ▸ g1, g2⟩
    · exact .inr ⟨em, v, em3 ▸ g1, g2⟩
  · have : t.counters.branchTotal = u₃.counters.branchTotal ∧ t.counters.branchOk = u₃.counters.branchOk := by
      rw [k6.1, k4]; exact ⟨rfl, rfl⟩
    have hp : t.pred = u₃.pred := by rw [pr6, f4.pred]
    rw [this.1, this.2, hp]
    rcases ex with ⟨g1, _, g3, g4, g5⟩ | ⟨d, g1, _, g3, g4, g5⟩
    · exact .inl ⟨g1, g3, g4, g5⟩
    · exact .inr ⟨d, g1, g3, g4, g5⟩

/-- What a cycle can do: it ends in a fatal condition (R380), or its five stages run and their results are committed
and counted (R335, R341). -/
theorem cycle_cases (s : State) :
    (∃ e t, runStages { s with memTime := 0 } = .fatal e t ∧ cycle s = raiseFatal e t) ∨
    (∃ r t, runStages { s with memTime := 0 } = .ok r t ∧ CycleRun { s with memTime := 0 } r t ∧
      cycle s = commit r { t with counters := account t r (cycleTicks t) }) := by
  unfold cycle
  cases h : runStages { s with memTime := 0 } with
  | ok r t => exact .inr ⟨r, t, rfl, runStages_run h, rfl⟩
  | fatal e t => exact .inl ⟨e, t, rfl, rfl⟩

/-- What a fatal cycle has kept (R380). -/
structure FatalRun (s t : State) : Prop where
  cfg : t.cfg = s.cfg
  x : t.x = s.x
  pc : t.pc = s.pc
  pcf : t.pcf = s.pcf
  fd : t.fd = s.fd
  de : t.de = s.de
  em : t.em = s.em
  mw : t.mw = s.mw
  trace : t.trace = s.trace
  recentStores : t.recentStores = s.recentStores
  counters : t.counters = { s.counters with
    branchTotal := t.counters.branchTotal, branchOk := t.counters.branchOk }
  pred : t.pred = s.pred ∨ ∃ d, s.de = some d ∧ t.pred = (resolveBranch d s).pred

theorem runStages_fatal {s t : State} {e : FatalReason} (h : runStages s = .fatal e t) : FatalRun s t := by
  have of : ∀ u, OnlyHierarchy s u → FatalRun s u := fun u h =>
    ⟨h.cfg, h.x, h.pc, h.pcf, h.fd, h.de, h.em, h.mw, h.trace, h.recentStores, by rw [h.counters], .inl h.pred⟩
  unfold runStages at h
  rcases Reply.bind_eq_fatal h with h1 | ⟨f, u₁, h1, k1⟩
  · exact of t ((fetchStage_leaves s).of_fatal h1)
  have f1 : OnlyHierarchy s u₁ := (fetchStage_leaves s).of_ok h1
  rcases Reply.bind_eq_fatal k1 with h2 | ⟨w, u₂, h2, k2⟩
  · obtain ⟨rfl, _⟩ := decodeWord_fatal h2; exact of t f1
  obtain rfl := (decodeWord_ok h2).1
  rcases Reply.bind_eq_fatal k2 with h3 | ⟨x, u₃, h3, k3⟩
  · obtain ⟨rfl, _⟩ := executeStage_fatal h3; exact of t f1
  have f3 : FatalRun s u₃ := by
    rcases executeStage_ok h3 with ⟨_, rfl, _⟩ | ⟨d, g1, rfl, _⟩
    · exact of _ f1
    · have hc := resolveBranch_congr d f1.pred f1.cfg f1.counters
      refine ⟨by simp [f1.cfg], by simp [f1.x], by simp [f1.pc], by simp [f1.pcf], by simp [f1.fd], by simp [f1.de],
        by simp [f1.em], by simp [f1.mw], by simp [f1.trace], by simp [f1.recentStores], ?_,
        .inr ⟨d, f1.de ▸ g1, hc.1⟩⟩
      conv_lhs => rw [resolveBranch_counters]
      rw [f1.counters]
  have next : ∀ v, OnlyHierarchy u₃ v → FatalRun s v := fun v h =>
    ⟨by rw [h.cfg, f3.cfg], by rw [h.x, f3.x], by rw [h.pc, f3.pc], by rw [h.pcf, f3.pcf], by rw [h.fd, f3.fd],
      by rw [h.de, f3.de], by rw [h.em, f3.em], by rw [h.mw, f3.mw], by rw [h.trace, f3.trace],
      by rw [h.recentStores, f3.recentStores], by rw [h.counters]; exact f3.counters, by rw [h.pred]; exact f3.pred⟩
  rcases Reply.bind_eq_fatal k3 with h4 | ⟨m, u₄, h4, k4⟩
  · exact next t ((memoryStage_leaves u₃).of_fatal h4)
  have f4 : OnlyHierarchy u₃ u₄ := (memoryStage_leaves u₃).of_ok h4
  rcases Reply.bind_eq_fatal k4 with h5 | ⟨b, u₅, _, k5⟩
  · obtain ⟨w, _, _, hd⟩ := writebackStage_fatal h5
    rcases dispatchSyscall_cases u₄ with ⟨e', g, _⟩ | ⟨_, r, u, _, g⟩ | ⟨_, e', u, hr, g⟩ | ⟨_, g⟩ | ⟨_, g⟩ | ⟨_, g⟩
    all_goals rw [g] at hd
    · cases hd
    · cases hd
    · injection hd with _ hd; subst hd; exact next _ (f4.trans ((readString_leaves _ _ u₄).of_fatal hr))
    · cases hd
    · cases hd
    · injection hd with _ hd; subst hd; exact next _ f4
  · cases k5

/-! ## The commit (R334, R335) -/

/-- The state after a cycle that leaves the machine running. -/
theorem commit_running {r : StageResults} {t : State} (h : (commit r t).status = .running) :
    t.status = .running ∧ commit r t =
      { t with
        pcf := (nextFront t r (cycleCase t.pcf.drain r)).1
        fd := (nextFront t r (cycleCase t.pcf.drain r)).2.1
        de := (nextFront t r (cycleCase t.pcf.drain r)).2.2
        em := r.execute.out
        mw := r.memory } := by
  unfold commit at h ⊢
  split at h
  · rename_i hs; exact ⟨hs, by rw [if_pos hs]⟩
  · contradiction

@[simp] theorem commit_status (r : StageResults) (t : State) : (commit r t).status = t.status := by
  unfold commit; split <;> rfl
@[simp] theorem commit_counters (r : StageResults) (t : State) : (commit r t).counters = t.counters := by
  unfold commit; split <;> rfl
@[simp] theorem commit_x (r : StageResults) (t : State) : (commit r t).x = t.x := by
  unfold commit; split <;> rfl
@[simp] theorem commit_cfg (r : StageResults) (t : State) : (commit r t).cfg = t.cfg := by
  unfold commit; split <;> rfl
@[simp] theorem commit_pred (r : StageResults) (t : State) : (commit r t).pred = t.pred := by
  unfold commit; split <;> rfl
@[simp] theorem commit_chain (r : StageResults) (t : State) : (commit r t).chain = t.chain := by
  unfold commit; split <;> rfl
@[simp] theorem commit_memTime (r : StageResults) (t : State) : (commit r t).memTime = t.memTime := by
  unfold commit; split <;> rfl
@[simp] theorem commit_recentStores (r : StageResults) (t : State) : (commit r t).recentStores = t.recentStores := by
  unfold commit; split <;> rfl

/-- A cycle after which the machine still runs: its next pipeline registers are those of the case of R334. -/
theorem cycle_running {s : State} (h : (cycle s).status = .running) :
    ∃ r t, CycleRun { s with memTime := 0 } r t ∧ t.status = .running ∧
      cycle s = { t with
        pcf := (nextFront s r (cycleCase s.pcf.drain r)).1
        fd := (nextFront s r (cycleCase s.pcf.drain r)).2.1
        de := (nextFront s r (cycleCase s.pcf.drain r)).2.2
        em := r.execute.out
        mw := r.memory
        counters := account t r (cycleTicks t) } := by
  rcases cycle_cases s with ⟨e, t, _, g⟩ | ⟨r, t, _, k, g⟩
  · rw [g] at h; cases h
  · rw [g] at h
    obtain ⟨h1, h2⟩ := commit_running h
    refine ⟨r, t, k, h1, ?_⟩
    rw [g, h2]
    have e1 : t.pcf = s.pcf := k.pcf
    have e2 : t.fd = s.fd := k.fd
    have : ∀ c, nextFront { t with counters := account t r (cycleTicks t) } r c = nextFront s r c := by
      intro c; cases c <;> simp [nextFront, e1, e2]
    simp only [this]; rw [e1]

/-! ## The counters of a cycle (R341) -/

/-- The case of R334 is a flush exactly when Execute redirects. -/
theorem cycleCase_flush (drain : Bool) (r : StageResults) :
    (∃ x, cycleCase drain r = .flush x) ↔ r.execute.redirect.isSome = true := by
  unfold cycleCase; split
  · rename_i x hx; simp [hx]
  · rename_i hx; simp [hx]; intro x; split <;> [simp; split <;> [simp; split <;> simp]]

section
variable {s t : State} {r : StageResults} (k : CycleRun { s with memTime := 0 } r t) (n : Nat)
include k

theorem account_cycles : (account t r n).cycles = s.counters.cycles + 1 := by
  have := k.cycles
  unfold account; simp only; split <;> simp [this]

theorem account_ticks : (account t r n).ticks = s.counters.ticks + n := by
  have := k.ticks
  unfold account; simp only; split <;> simp [this]

theorem account_retired : (account t r n).retired =
    s.counters.retired + (if s.mw.any fun w => w.op != .ecall then 1 else 0) := by
  unfold account; simp only; split <;> exact k.retired

theorem account_syscall : (account t r n).syscall =
    s.counters.syscall + (if s.mw.any fun w => w.op == .ecall then 1 else 0) := by
  unfold account; simp only; split <;> exact k.syscall

theorem account_loadUse : (account t r n).loadUse =
    s.counters.loadUse + (if cycleCase s.pcf.drain r = .loadUse then 1 else 0) := by
  have := k.loadUse
  have e : t.pcf = s.pcf := k.pcf
  unfold account; simp only [e]; split <;> simp_all

theorem account_controlHazard : (account t r n).controlHazard =
    s.counters.controlHazard + (if r.execute.redirect.isSome then 1 else 0) := by
  have := k.controlHazard
  have e : t.pcf = s.pcf := k.pcf
  have hc := cycleCase_flush s.pcf.drain r
  unfold account; simp only [e]
  split
  · rename_i x hx; rw [if_pos (hc.1 ⟨x, hx⟩)]; simp [this]
  all_goals
    rename_i hx
    rw [if_neg (fun h => by obtain ⟨y, hy⟩ := hc.2 h; rw [hy] at hx; cases hx)]; simpa using this

theorem account_fetchStall : (account t r n).fetchStall =
    s.counters.fetchStall + (match cycleCase s.pcf.drain r with
      | .loadUse | .syscallDecoded | .draining => 1
      | .flush _ | .normal => 0) := by
  have := k.fetchStall
  have e : t.pcf = s.pcf := k.pcf
  unfold account; simp only [e]; split <;> simp_all

theorem account_dataHazard : (account t r n).dataHazard =
    s.counters.dataHazard + (if cycleCase s.pcf.drain r = .normal then r.decode.forwards else 0) := by
  have := k.dataHazard
  have e : t.pcf = s.pcf := k.pcf
  unfold account; simp only [e]; split <;> simp_all

end

theorem account_branch (t : State) (r : StageResults) (n : Nat) :
    (account t r n).branchTotal = t.counters.branchTotal ∧ (account t r n).branchOk = t.counters.branchOk := by
  unfold account; simp only; split <;> exact ⟨rfl, rfl⟩

end Sys2Proof.Machine
end

