-- ==== Sys2Proof/Laws/Exec.lean ====
section
/-! SUPPORT. What an instruction can do at level ISA, said once for each of the shapes a meaning has and then for all
of them: it answers a next state, and leaves the configuration, the pipeline and the predictor alone. -/

namespace Sys2Proof.Machine

/-- What every instruction leaves alone, whatever it does. -/
structure ExecFrame (s t : State) : Prop where
  cfg : t.cfg = s.cfg
  pcf : t.pcf = s.pcf
  fd : t.fd = s.fd
  de : t.de = s.de
  em : t.em = s.em
  mw : t.mw = s.mw
  pred : t.pred = s.pred
  slot0 : t.x[0] = s.x[0]
  window : s.recentStores.length ≤ 3 → t.recentStores.length ≤ 3

theorem ExecFrame.refl (s : State) : ExecFrame s s := ⟨rfl, rfl, rfl, rfl, rfl, rfl, rfl, rfl, fun h => h⟩

theorem ExecFrame.trans {s t u : State} (h : ExecFrame s t) (g : ExecFrame t u) : ExecFrame s u :=
  ⟨g.cfg.trans h.cfg, g.pcf.trans h.pcf, g.fd.trans h.fd, g.de.trans h.de, g.em.trans h.em, g.mw.trans h.mw,
    g.pred.trans h.pred, g.slot0.trans h.slot0, fun x => g.window (h.window x)⟩

theorem OnlyHierarchy.execFrame {s t : State} (h : OnlyHierarchy s t) : ExecFrame s t :=
  ⟨h.cfg, h.pcf, h.fd, h.de, h.em, h.mw, h.pred, by rw [h.x], fun x => by rw [h.recentStores]; exact x⟩

theorem raiseFatal_execFrame (r : FatalReason) (s : State) : ExecFrame s (raiseFatal r s) :=
  ⟨rfl, rfl, rfl, rfl, rfl, rfl, rfl, rfl, fun x => x⟩

theorem setReg_execFrame (s : State) (r : Reg) (v : Word) : ExecFrame s (s.setReg r v) :=
  ⟨by simp, by simp, by simp, by simp, by simp, by simp, by simp, State.setReg_slot0 s r v, fun x => by simpa using x⟩

theorem complete_execFrame (s : State) (target : Word) (stored : Option (Nat × Nat)) :
    ExecFrame s (s.complete target stored) :=
  ⟨rfl, rfl, rfl, rfl, rfl, rfl, rfl, rfl, fun _ => List.length_take_le _ _⟩

theorem trapReturn_execFrame (s : State) : ExecFrame s (trapReturn s) :=
  ⟨by simp, by simp, by simp, by simp, by simp, by simp, by simp, by simp, fun x => by simpa using x⟩

/-- An outcome that answers a next state meeting `P`. -/
def Next (P : State → Prop) (o : Host.Outcome State Fault Refusal) : Prop := ∃ t, o = .next t ∧ P t

theorem settle_next {α : Type} {P : State → Prop} {r : Reply State α}
    {k : α → State → Host.Outcome State Fault Refusal} (hf : ∀ e u, r = .fatal e u → P (raiseFatal e u))
    (hk : ∀ a u, r = .ok a u → Next P (k a u)) : Next P (settle r k) := by
  cases r with
  | ok a u => exact hk a u rfl
  | fatal e u => exact ⟨_, rfl, hf e u rfl⟩

theorem writeResult_next (rd : Reg) (r : Word) (s : State) : Next (ExecFrame s) (writeResult rd r s) :=
  ⟨_, rfl, (setReg_execFrame s rd r).trans (complete_execFrame _ _ _)⟩

theorem jumpLink_next (rd : Reg) (target : Word) (s : State) : Next (ExecFrame s) (jumpLink rd target s) :=
  ⟨_, rfl, (setReg_execFrame s rd _).trans (complete_execFrame _ _ _)⟩

theorem branchIf_next (taken : Bool) (imm : BitVec 13) (s : State) : Next (ExecFrame s) (branchIf taken imm s) :=
  ⟨_, rfl, complete_execFrame _ _ _⟩

theorem divideResult_next (marked : Bool) (rd : Reg) (r : Word) (s : State) :
    Next (ExecFrame s) (divideResult marked rd r s) := by
  unfold divideResult
  split
  · exact ⟨_, rfl, raiseFatal_execFrame _ _⟩
  · exact writeResult_next rd r s

theorem loadWith_next (k : LoadKind) (rd : Reg) (ea : Word) (s : State) :
    Next (ExecFrame s) (loadWith k rd ea s) :=
  settle_next (fun e u h => ((memRead_leaves ea k.size s).of_fatal h).execFrame.trans (raiseFatal_execFrame e u))
    fun _ u h => ⟨_, rfl, (((memRead_leaves ea k.size s).of_ok h).execFrame.trans (setReg_execFrame u _ _)).trans
      (complete_execFrame _ _ _)⟩

theorem storeWith_next (n : Nat) (ea v : Word) (s : State) : Next (ExecFrame s) (storeWith n ea v s) :=
  settle_next (fun e u h => ((memWrite_leaves ea n v s).of_fatal h).execFrame.trans (raiseFatal_execFrame e u))
    fun _ _ h => ⟨_, rfl, ((memWrite_leaves ea n v s).of_ok h).execFrame.trans (complete_execFrame _ _ _)⟩

theorem execEcall_next (s : State) : Next (ExecFrame s) (execEcall s) := by
  have of : ∀ u, DispatchFrame s u → ExecFrame s u := fun u h =>
    ⟨h.cfg, h.pcf, h.fd, h.de, h.em, h.mw, h.pred, h.slot0, fun x => by rw [h.recentStores]; exact x⟩
  refine settle_next (fun e u h => (of u ((dispatchSyscall_frame s).of_fatal h)).trans (raiseFatal_execFrame e u))
    fun _ u h => ⟨_, rfl, (of u ((dispatchSyscall_frame s).of_ok h)).trans ?_⟩
  have : ExecFrame u (u.countSyscall.pushStore none) :=
    ⟨rfl, rfl, rfl, rfl, rfl, rfl, rfl, rfl, fun _ => List.length_take_le _ _⟩
  exact this.trans (trapReturn_execFrame _)

/-- Every instruction answers a next state, in every state, and keeps the frame. -/
theorem exec_next (i : Instr) (s : State) : Next (ExecFrame s) (exec i s) := by
  cases i <;> first
    | exact writeResult_next _ _ s
    | exact divideResult_next _ _ _ s
    | exact branchIf_next _ _ s
    | exact jumpLink_next _ _ s
    | exact loadWith_next _ _ _ s
    | exact storeWith_next _ _ _ s
    | exact execEcall_next s

end Sys2Proof.Machine
end

