-- ==== Sys2Proof/Laws/Hierarchy.lean ====
section
/-! SUPPORT. The parts of `HandleRequest` (R102 to R111) and the whole of it (R112) keep a coherent store coherent. -/

namespace Sys2Proof.Machine

variable {σ : Type} {lower : Request → σ → Reply σ Answer} {p : CacheParams} {memSize : Nat}
  {view : σ → Nat → Byte} {inv : σ → Prop} {ref : Request → Option FatalReason}

/-- The view and the invariant do not see the statistics. -/
theorem stack_entries {c c' : Cache} (l : σ) (he : c'.entries = c.entries) (hu : c'.untouched = c.untouched) :
    (StackInv p.cfg memSize p.recencyMax view inv (c, l) → StackInv p.cfg memSize p.recencyMax view inv (c', l)) ∧
    cacheView p.cfg view (c', l) = cacheView p.cfg view (c, l) := by
  obtain ⟨e, u, s⟩ := c; obtain ⟨e', u', s'⟩ := c'; subst he; subst hu
  exact ⟨fun h => ⟨h.1.congr_entries rfl rfl, h.2⟩, rfl⟩

theorem respond_answers {hit : Bool} {time : Nat} {bs : List Byte} {st : Cache × σ} {bytes : Answer → Prop}
    {after : Nat → Byte} (hb : bytes ⟨hit, time, bs⟩) (hi : StackInv p.cfg memSize p.recencyMax view inv st)
    (hv : cacheView p.cfg view st = after) :
    Answers (cacheView p.cfg view) (StackInv p.cfg memSize p.recencyMax view inv) (respond hit time bs st) bytes after :=
  ⟨_, _, rfl, hb, (stack_entries st.2 (c := st.1) (c' := st.1.countTime time) rfl rfl).1 hi,
    ((stack_entries (p := p) (memSize := memSize) (inv := inv) st.2 (c := st.1) (c' := st.1.countTime time) rfl rfl).2).trans hv⟩

/-! ## Making room (R105, R109 to R111) -/

theorem victim_mem (cc : CacheConfig) (ha : 0 < cc.assoc) (c : Cache) (q : Nat) :
    owningSet cc (c.victim cc q) = q := by
  have h0 : q * cc.assoc ∈ ways cc q := (mem_ways ha _ _).2 (by simp [owningSet, Nat.mul_div_cancel q ha])
  have : ∀ (l : List Nat) (b : Nat), (∀ i ∈ l, i ∈ ways cc q) → b ∈ ways cc q →
      l.foldl (fun best i => if (c.entry best).recency < (c.entry i).recency then i else best) b ∈ ways cc q := by
    intro l
    induction l with
    | nil => intro b _ hb; exact hb
    | cons i l ih =>
      intro b hl hb
      refine ih _ (fun j hj => hl j (List.mem_cons_of_mem _ hj)) ?_
      dsimp only
      split
      · exact hl i (List.mem_cons_self ..)
      · exact hb
  exact (mem_ways ha _ _).1 (this _ _ (fun _ h => h) h0)

/-- Invalidating an entry whose block the lower store shows: the view stays. -/
theorem invalidate_spec (hl : p.cfg.legal = true) {c : Cache} {l : σ} {v : Nat}
    {lv : Nat → Byte} (h : CacheInv p.cfg memSize p.recencyMax lv c) (hv : (c.entry v).valid = true)
    (lower_eq : view l =
      if (c.entry v).dirty then writtenView lv (entryBase p.cfg v (c.entry v).tag) (c.entry v).data else lv) :
    CacheInv p.cfg memSize p.recencyMax (view l) (c.modify v fun e => { e with valid := false, dirty := false }) ∧
    cacheView p.cfg view (c.modify v fun e => { e with valid := false, dirty := false }, l) =
      cacheView p.cfg (fun (_ : Unit) => lv) (c, ()) ∧
    ∀ j b, (c.modify v fun e => { e with valid := false, dirty := false }).has p.cfg j b →
      c.has p.cfg j b ∧ j ≠ v := by
  have hlen := h.dataLength v
  set c' := c.modify v fun e => { e with valid := false, dirty := false } with hc'
  have key : ∀ j, c'.entry j = if j = v then { c.entry j with valid := false, dirty := false } else c.entry j :=
    fun j => Cache.entry_modify c v j _
  have held : c.has p.cfg v (entryBlock p.cfg v (c.entry v).tag) := ⟨hv, rfl⟩
  have other : ∀ j, (c.entry j).valid = true → j ≠ v →
      entryBlock p.cfg j (c.entry j).tag ≠ entryBlock p.cfg v (c.entry v).tag := fun j h1 hj hx =>
    hj (h.has_unique hl ⟨h1, hx⟩ held)
  have hhas : ∀ j b, c'.has p.cfg j b → c.has p.cfg j b ∧ j ≠ v := by
    rintro j b ⟨h2, h3⟩
    rw [key] at h2 h3
    by_cases hj : j = v
    · rw [if_pos hj] at h2; cases h2
    · rw [if_neg hj] at h2 h3; exact ⟨⟨h2, h3⟩, hj⟩
  have same : ∀ j, (c'.entry j).recency = (c.entry j).recency := fun j => by rw [key]; split <;> rfl
  have filled : c.entries ≠ [] := by
    obtain ⟨e, he⟩ := Cache.listed_of_valid hv
    exact List.ne_nil_of_mem he
  have hinv : CacheInv p.cfg memSize p.recencyMax (view l) c' := by
    refine h.update (h.listed.set (h.valid_lt hv) _)
      (fun hr _ j k hj hk => h.newest hr filled j k ((same j).symm.trans hj) ((same k).symm.trans hk)) fun j => ?_
    rw [key]
    by_cases hjv : j = v
    · rw [if_pos hjv]
      exact ⟨(fun hx => by cases hx), h.dataLength j, h.recencyBound j, (fun hx => by cases hx), fun _ => rfl,
        (fun hx => by cases hx)⟩
    · rw [if_neg hjv]
      refine ⟨fun gv => ⟨gv, rfl⟩, h.dataLength j, h.recencyBound j, h.dirtyValid j,
        fun hw => h.writeThroughClean hw j, fun gv gd k hk => ?_⟩
      rw [h.cleanAgrees j gv gd k hk, lower_eq]
      have := other j gv hjv
      split
      · exact (writtenView_outside (by simp only [entryBase_eq]; omega)).symm
      · rfl
  refine ⟨hinv, ?_, hhas⟩
  funext pa
  by_cases hp : entryBlock p.cfg v (c.entry v).tag = pa / 64
  · have habs : ∀ j, ¬ c'.has p.cfg j (pa / 64) := by
      intro j hj
      obtain ⟨g1, g2⟩ := hhas j _ hj
      exact g2 (h.has_unique hl g1 ⟨hv, hp⟩)
    have hmod := Nat.div_add_mod pa 64
    rw [cacheView_not_has hl habs, cacheView_has (view := fun _ => lv) hl h ⟨hv, hp⟩, lower_eq]
    split
    · rw [writtenView_inside (by rw [entryBase_eq]; omega) (by rw [entryBase_eq]; omega), entryBase_eq]
      congr 1; omega
    · rename_i hd
      rw [h.cleanAgrees v hv (by simpa using hd) _ (Nat.mod_lt _ (by omega)), entryBase_eq, hp]; congr 1; omega
  · by_cases hx : ∃ j, c.has p.cfg j (pa / 64)
    · obtain ⟨j, hj⟩ := hx
      have hjv : j ≠ v := by rintro rfl; exact hp hj.2
      have hj' : c'.has p.cfg j (pa / 64) := by unfold Cache.has; rw [key, if_neg hjv]; exact hj
      rw [cacheView_has (view := fun _ => lv) hl h hj, cacheView_has hl hinv hj', key, if_neg hjv]
    · rw [cacheView_not_has hl (fun j hj => hx ⟨j, (hhas j _ hj).1⟩),
        cacheView_not_has (view := fun _ => lv) hl (fun j hj => hx ⟨j, hj⟩), lower_eq]
      split
      · exact writtenView_outside (by simp only [entryBase_eq]; omega)
      · rfl

/-- Making room in a set never fails, gives an entry of the set that holds nothing, and keeps the view. -/
theorem makeRoom_spec (hl : p.cfg.legal = true) (hlow : Coherent memSize ref lower view inv) {st : Cache × σ} {q : Nat}
    (hst : StackInv p.cfg memSize p.recencyMax view inv st) :
    ∃ i t, makeRoom lower p q st = .ok i t ∧ owningSet p.cfg i = q ∧
      StackInv p.cfg memSize p.recencyMax view inv t ∧ cacheView p.cfg view t = cacheView p.cfg view st ∧
      ∀ j b, t.1.has p.cfg j b → st.1.has p.cfg j b ∧ j ≠ i := by
  obtain ⟨c, l⟩ := st
  obtain ⟨hc, hinv⟩ := hst
  dsimp only at hc hinv
  have ha := (legal_geometry hl).1
  cases hf : c.freeEntry p.cfg q with
  | some i =>
    refine ⟨i, (c, l), by simp [makeRoom, hf], (mem_ways ha _ _).1 (List.mem_of_find?_eq_some hf), ⟨hc, hinv⟩, rfl,
      fun j b h => ⟨h, ?_⟩⟩
    rintro rfl
    have := List.find?_some hf
    simp [h.1] at this
  | none =>
    have hvs := victim_mem p.cfg ha c q
    have hvalid := List.find?_eq_none.1 hf _ ((mem_ways ha _ _).2 hvs)
    have hv : (c.entry (c.victim p.cfg q)).valid = true := by simpa using hvalid
    have hc2 : CacheInv p.cfg memSize p.recencyMax (view l) c.countReplace := hc.congr_entries rfl rfl
    generalize hvic : c.victim p.cfg q = v at *
    have hbase : entryBase p.cfg v (c.entry v).tag % 64 = 0 := by rw [entryBase_eq]; omega
    cases hd : (c.entry v).dirty with
    | false =>
      obtain ⟨k1, k2, k3⟩ := invalidate_spec (view := view) (l := l) hl hc2 hv (by simp [hd])
      exact ⟨v, (c.countReplace.modify v fun e => { e with valid := false, dirty := false }, l),
        by simp [makeRoom, hf, hvic, hd], hvs, ⟨k1, hinv⟩, k2, k3⟩
    | true =>
      have hlen := hc.dataLength v
      have hm := hc.inMemory v hv
      rcases hlow.write (s := l) (addr := entryBase p.cfg v (c.entry v).tag) (buffer := (c.entry v).data) hinv
        (by omega) with ⟨_, a, t, h1, _, h2, h3⟩ | ⟨r, _, h1, _⟩
      · obtain ⟨k1, k2, k3⟩ := invalidate_spec (view := view) (l := t) hl hc2 hv (by simpa [hd] using h3)
        exact ⟨v, (c.countReplace.modify v fun e => { e with valid := false, dirty := false }, t),
          by simp [makeRoom, hf, hvic, hd, askLower, h1], hvs, ⟨k1, h2⟩, k2, k3⟩
      · rw [hlow.inMemory (show blockInMemory memSize _ by simp only [Request.write, blockInMemory]; omega)
          (by simp only [Request.write]; omega)] at h1
        cases h1

/-! ## Hits (R102 to R104) -/

theorem mod_block {addr k n : Nat} (h : addr % 64 + n ≤ 64) (hk : k < n) :
    (addr + k) / 64 = addr / 64 ∧ (addr + k) % 64 = addr % 64 + k := by omega

theorem viewBytes_has (hl : p.cfg.legal = true) {c : Cache} {l : σ} {i addr n : Nat}
    (h : CacheInv p.cfg memSize p.recencyMax (view l) c) (hi : c.has p.cfg i (addr / 64)) (ho : addr % 64 + n ≤ 64) :
    sliceBytes (c.entry i).data (addr % 64) n = viewBytes (cacheView p.cfg view) (c, l) addr n := by
  rw [sliceBytes_eq _ _ _ (by rw [h.dataLength i]; exact ho)]
  refine List.map_congr_left fun k hk => ?_
  obtain ⟨h1, h2⟩ := mod_block ho (List.mem_range.1 hk)
  rw [cacheView_has hl h (by rw [h1]; exact hi), h2]

theorem touch_view (hl : p.cfg.legal = true) {c : Cache} {l : σ} {i : Nat}
    (h : CacheInv p.cfg memSize p.recencyMax (view l) c) (hi : i < entryCount p.cfg) :
    cacheView p.cfg view (c.touch p.recencyMax i, l) = cacheView p.cfg view (c, l) :=
  cacheView_congr hl h (h.touch hi) (fun j => by rw [Cache.entry_touch]; exact ⟨rfl, rfl, rfl⟩) rfl

/-- A read hit returns the view (R102). -/
theorem cacheHit_read (hl : p.cfg.legal = true) {st : Cache × σ} {i addr n : Nat}
    (hst : StackInv p.cfg memSize p.recencyMax view inv st) (hi : st.1.has p.cfg i (addr / 64))
    (ho : addr % 64 + n ≤ 64) :
    Answers (cacheView p.cfg view) (StackInv p.cfg memSize p.recencyMax view inv)
      (cacheHit lower p (.read addr n) i st) (fun a => a.bytes = viewBytes (cacheView p.cfg view) st addr n)
      (cacheView p.cfg view st) := by
  obtain ⟨c, l⟩ := st
  obtain ⟨hc, hinv⟩ := hst
  have hlt := hc.valid_lt hi.1
  simp only [cacheHit, Request.read, if_true]
  refine respond_answers ?_ (st := (c.touch p.recencyMax i, l)) ⟨hc.touch hlt, hinv⟩ (touch_view hl hc hlt)
  simp only [Cache.entry_touch, blockOffset]
  exact viewBytes_has hl hc hi ho

/-- A write hit writes the view (R103, R104). -/
theorem cacheHit_write (hl : p.cfg.legal = true) (hlow : Coherent memSize ref lower view inv) {st : Cache × σ}
    {i addr : Nat} {buffer : List Byte} (hst : StackInv p.cfg memSize p.recencyMax view inv st)
    (hi : st.1.has p.cfg i (addr / 64)) (ho : addr % 64 + buffer.length ≤ 64) :
    Answers (cacheView p.cfg view) (StackInv p.cfg memSize p.recencyMax view inv)
      (cacheHit lower p (.write addr buffer) i st) (fun _ => True)
      (writtenView (cacheView p.cfg view st) addr buffer) := by
  obtain ⟨c, l⟩ := st
  obtain ⟨hc, hinv⟩ := hst
  simp only at hc hinv hi
  have hm : blockInMemory memSize addr := by
    have := hc.inMemory i hi.1
    rw [entryBase_eq, hi.2] at this; unfold blockInMemory; omega
  simp only [cacheHit, Request.write, Bool.false_eq_true, if_false]
  cases hw : p.cfg.writeThrough with
  | true =>
    rcases hlow.write (s := l) hinv ho with ⟨_, a, t, h1, _, h2, h3⟩ | ⟨r, _, h1, _⟩
    · simp only [if_true, askLower]
      rw [show ({ addr := addr, size := buffer.length, isRead := false, buffer := buffer } : Request) =
        Request.write addr buffer from rfl, h1]
      simp only [Reply.embed_ok, Reply.bind_ok]
      have hlv : view t = if false then view l else writtenView (view l) addr buffer := by simpa using h3
      have hc' := hc.wrote hl hi ho (fun _ => rfl) hlv (fun _ => hc.writeThroughClean hw i)
      exact respond_answers trivial ⟨hc', h2⟩ (cacheView_wrote hl hc hi ho hc' hlv)
    · rw [hlow.inMemory (q := .write addr buffer) hm ho] at h1; cases h1
  | false =>
    simp only [Bool.false_eq_true, if_false]
    have hlv : view l = if true then view l else writtenView (view l) addr buffer := by simp
    have hc' := hc.wrote hl hi ho (fun h => by rw [hw] at h; cases h) hlv (fun h => by cases h)
    exact respond_answers trivial ⟨hc', hinv⟩ (cacheView_wrote hl hc hi ho hc' hlv)

/-! ## Misses (R106 to R108) -/

/-- A write below a cache that does not hold the block: the cache's invariant stays, the view is written. -/
theorem absent_write (hl : p.cfg.legal = true) {c : Cache} {l t : σ} {addr : Nat} {buffer : List Byte}
    (hc : CacheInv p.cfg memSize p.recencyMax (view l) c) (absent : ∀ j, ¬ c.has p.cfg j (addr / 64))
    (ho : addr % 64 + buffer.length ≤ 64) (hv : view t = writtenView (view l) addr buffer) :
    CacheInv p.cfg memSize p.recencyMax (view t) c ∧
    cacheView p.cfg view (c, t) = writtenView (cacheView p.cfg view (c, l)) addr buffer := by
  have out : ∀ {j k}, (c.entry j).valid = true → k < 64 →
      view t (entryBase p.cfg j (c.entry j).tag + k) = view l (entryBase p.cfg j (c.entry j).tag + k) := by
    intro j k h2 hk
    have : entryBlock p.cfg j (c.entry j).tag ≠ addr / 64 := fun hx => absent j ⟨h2, hx⟩
    rw [hv, writtenView_outside]
    rw [entryBase_eq]; omega
  have hc' : CacheInv p.cfg memSize p.recencyMax (view t) c := by
    refine hc.update hc.listed hc.newest fun j => ⟨fun hv => ⟨hv, rfl⟩, hc.dataLength j, hc.recencyBound j,
      hc.dirtyValid j, fun hw => hc.writeThroughClean hw j, fun gv gd k hk => ?_⟩
    rw [out gv hk]; exact hc.cleanAgrees j gv gd k hk
  refine ⟨hc', funext fun pa => ?_⟩
  by_cases hx : ∃ j, c.has p.cfg j (pa / 64)
  · obtain ⟨j, hj⟩ := hx
    have : pa / 64 ≠ addr / 64 := fun hx => absent j ⟨hj.1, hj.2.trans hx⟩
    rw [cacheView_has hl hc' hj, writtenView_outside (by omega), cacheView_has hl hc hj]
  · have hx' : ∀ j, ¬ c.has p.cfg j (pa / 64) := fun j hj => hx ⟨j, hj⟩
    rw [cacheView_not_has hl hx', hv]
    unfold writtenView
    rw [cacheView_not_has hl hx']

/-- A write miss under no-allocate writes the view through the lower store, or is refused by it (R108). -/
theorem cacheForward_write (hl : p.cfg.legal = true) (hlow : Coherent memSize ref lower view inv) {st : Cache × σ}
    {addr : Nat} {buffer : List Byte} (hst : StackInv p.cfg memSize p.recencyMax view inv st)
    (absent : ∀ j, ¬ st.1.has p.cfg j (addr / 64)) (ho : addr % 64 + buffer.length ≤ 64) :
    Meets (ref (.write addr buffer)) (cacheView p.cfg view) (StackInv p.cfg memSize p.recencyMax view inv)
      (cacheForward lower p (.write addr buffer) st) (fun _ => True)
      (writtenView (cacheView p.cfg view st) addr buffer) (cacheView p.cfg view st) := by
  obtain ⟨c, l⟩ := st
  obtain ⟨hc, hinv⟩ := hst
  simp only [cacheForward, askLower]
  rcases hlow.write (s := l) hinv ho with ⟨h0, a, t, h1, _, h2, h3⟩ | ⟨r, t, h0, h1, h2, h3⟩
  · obtain ⟨k1, k2⟩ := absent_write hl hc absent ho h3
    rw [h1]
    exact .inl ⟨h0, respond_answers trivial ⟨k1, h2⟩ k2⟩
  · rw [h1]
    have hc' : CacheInv p.cfg memSize p.recencyMax (view t) c := by rw [h3]; exact hc
    exact .inr ⟨r, (c, t), h0, rfl, ⟨hc', h2⟩, cacheView_congr hl hc hc' (fun _ => ⟨rfl, rfl, rfl⟩) h3⟩

/-- Installing the block the lower store shows keeps the view and returns its bytes (R106). -/
theorem install_spec (hl : p.cfg.legal = true) {c : Cache} {l : σ} {i addr : Nat} {data : List Byte}
    (hc : CacheInv p.cfg memSize p.recencyMax (view l) c) (set : owningSet p.cfg i = setIndex p.cfg addr)
    (free : ∀ b, ¬ c.has p.cfg i b) (absent : ∀ j, ¬ c.has p.cfg j (addr / 64))
    (mem : blockBase addr + 64 ≤ memSize) (hd : data = viewBytes view l (blockBase addr) 64) :
    CacheInv p.cfg memSize p.recencyMax (view l) (c.install p.recencyMax i (tagOf p.cfg addr) data) ∧
    cacheView p.cfg view (c.install p.recencyMax i (tagOf p.cfg addr) data, l) = cacheView p.cfg view (c, l) ∧
    ∀ n, addr % 64 + n ≤ 64 → sliceBytes data (addr % 64) n = viewBytes (cacheView p.cfg view) (c, l) addr n := by
  have hbase : blockBase addr = addr / 64 * 64 := by unfold blockBase blockOffset; omega
  have hlen : data.length = 64 := by rw [hd]; simp [viewBytes]
  have hget : ∀ k, k < 64 → data.getD k 0 = view l (addr / 64 * 64 + k) := by
    intro k hk
    rw [hd, viewBytes, hbase, List.getD_eq_getElem?_getD, List.getElem?_map, List.getElem?_range hk]; rfl
  have hc' := hc.install hl set absent hlen (by rw [← hbase]; exact mem) hget
  have hb : entryBlock p.cfg i (tagOf p.cfg addr) = addr / 64 := entryBlock_tagOf set
  have hnew : (c.install p.recencyMax i (tagOf p.cfg addr) data).entry i = freshEntry (tagOf p.cfg addr) data := by
    rw [Cache.entry_install, if_pos rfl]
  have hold : ∀ j, j ≠ i → (c.install p.recencyMax i (tagOf p.cfg addr) data).entry j =
      { c.entry j with recency := older p.recencyMax (c.entry j).recency } := fun j hj => by
    rw [Cache.entry_install, if_neg hj]
  have hview : cacheView p.cfg view (c.install p.recencyMax i (tagOf p.cfg addr) data, l) = cacheView p.cfg view (c, l) := by
    funext pa
    by_cases hp : pa / 64 = addr / 64
    · have held : (c.install p.recencyMax i (tagOf p.cfg addr) data).has p.cfg i (pa / 64) := by
        unfold Cache.has; rw [hnew]; exact ⟨rfl, hb.trans hp.symm⟩
      rw [cacheView_has hl hc' held, cacheView_not_has hl (by rw [hp]; exact absent), hnew]
      simp only [freshEntry]
      rw [hget _ (Nat.mod_lt _ (by omega))]; congr 1; omega
    · by_cases hx : ∃ j, c.has p.cfg j (pa / 64)
      · obtain ⟨j, hj⟩ := hx
        have hji : j ≠ i := by rintro rfl; exact free _ hj
        have hj' : (c.install p.recencyMax i (tagOf p.cfg addr) data).has p.cfg j (pa / 64) := by
          unfold Cache.has; rw [hold j hji]; exact hj
        rw [cacheView_has hl hc' hj', cacheView_has hl hc hj, hold j hji]
      · have hx' : ∀ j, ¬ (c.install p.recencyMax i (tagOf p.cfg addr) data).has p.cfg j (pa / 64) := by
          intro j hj
          by_cases hji : j = i
          · subst hji; unfold Cache.has at hj; rw [hnew] at hj; exact hp (hj.2.symm.trans hb)
          · unfold Cache.has at hj; rw [hold j hji] at hj; exact hx ⟨j, hj⟩
        rw [cacheView_not_has hl hx', cacheView_not_has hl (fun j hj => hx ⟨j, hj⟩)]
  refine ⟨hc', hview, fun n hn => ?_⟩
  rw [sliceBytes_eq _ _ _ (by omega)]
  refine List.map_congr_left fun k hk => ?_
  obtain ⟨h1, h2⟩ := mod_block hn (List.mem_range.1 hk)
  rw [cacheView_not_has hl (by rw [h1]; exact absent), hget _ (by have := List.mem_range.1 hk; omega)]
  congr 1; omega

theorem blockInMemory_base {addr : Nat} : blockInMemory memSize (blockBase addr) ↔ blockInMemory memSize addr := by
  unfold blockInMemory blockBase blockOffset
  constructor <;> intro h <;> omega

/-- The block read of a miss (R106, R107): it answers the block exactly where it lies in the flat memory. -/
theorem blockRead_meets (hlow : Coherent memSize ref lower view inv) {l : σ} (hinv : inv l) (addr : Nat) :
    (blockInMemory memSize addr ∧ blockRefused memSize addr = none ∧
      ∃ a t, lower (.read (blockBase addr) 64) l = .ok a t ∧ a.bytes = viewBytes view l (blockBase addr) 64 ∧ inv t ∧
        view t = view l) ∨
    (blockRefused memSize addr = some (.memoryRange (blockBase addr) 64) ∧
      ∃ t, lower (.read (blockBase addr) 64) l = .fatal (.memoryRange (blockBase addr) 64) t ∧ inv t ∧
        view t = view l) := by
  have hbase : blockBase addr % 64 = 0 := by unfold blockBase blockOffset; omega
  by_cases hm : blockInMemory memSize addr
  · have h0 : ref (.read (blockBase addr) 64) = none :=
      hlow.inMemory (q := .read (blockBase addr) 64) (blockInMemory_base.2 hm) (by simp only [Request.read]; omega)
    rcases hlow.read (s := l) (addr := blockBase addr) (n := 64) hinv (by omega) with ⟨_, h⟩ | ⟨r, t, h1, _⟩
    · exact .inl ⟨hm, if_pos hm, h⟩
    · rw [h0] at h1; cases h1
  · have h0 := hlow.block hbase (fun h => hm (blockInMemory_base.1 h))
    rcases hlow.read (s := l) (addr := blockBase addr) (n := 64) hinv (by omega) with ⟨h1, _⟩ | ⟨r, t, h1, h2⟩
    · rw [h0] at h1; cases h1
    · rw [h0] at h1; injection h1 with h1; subst h1
      exact .inr ⟨if_neg hm, t, h2⟩

/-- The state in which a miss fetches its block: room is made, and no entry holds the block. -/
theorem makeRoom_absent (hl : p.cfg.legal = true) (hlow : Coherent memSize ref lower view inv) {st : Cache × σ} {addr : Nat}
    (hst : StackInv p.cfg memSize p.recencyMax view inv st) (absent : ∀ j, ¬ st.1.has p.cfg j (addr / 64)) :
    ∃ i c l, makeRoom lower p (setIndex p.cfg addr) st = .ok i (c, l) ∧ owningSet p.cfg i = setIndex p.cfg addr ∧
      CacheInv p.cfg memSize p.recencyMax (view l) c ∧ inv l ∧ cacheView p.cfg view (c, l) = cacheView p.cfg view st ∧
      (∀ b, ¬ c.has p.cfg i b) ∧ ∀ j, ¬ c.has p.cfg j (addr / 64) := by
  obtain ⟨i, ⟨c, l⟩, h1, h2, h3, h4, h5⟩ := makeRoom_spec hl hlow (q := setIndex p.cfg addr) hst
  exact ⟨i, c, l, h1, h2, h3.1, h3.2, h4, fun b hb => (h5 i b hb).2 rfl, fun j hj => absent j (h5 j _ hj).1⟩

/-- A read miss returns the view (R106). -/
theorem cacheFill_read (hl : p.cfg.legal = true) (hlow : Coherent memSize ref lower view inv) {st : Cache × σ}
    {addr n : Nat} (hst : StackInv p.cfg memSize p.recencyMax view inv st)
    (absent : ∀ j, ¬ st.1.has p.cfg j (addr / 64)) (ho : addr % 64 + n ≤ 64) :
    Meets (blockRefused memSize addr) (cacheView p.cfg view) (StackInv p.cfg memSize p.recencyMax view inv)
      (cacheFill lower p (.read addr n) st) (fun a => a.bytes = viewBytes (cacheView p.cfg view) st addr n)
      (cacheView p.cfg view st) (cacheView p.cfg view st) := by
  obtain ⟨i, c, l, h1, h2, hc, hinv, h3, h4, h5⟩ := makeRoom_absent hl hlow hst absent
  have hvb : viewBytes (cacheView p.cfg view) st addr n = viewBytes (cacheView p.cfg view) (c, l) addr n := by
    unfold viewBytes; rw [h3]
  simp only [cacheFill, Request.read, askLower]
  rw [h1]
  simp only [Reply.bind_ok]
  rw [show ({ addr := blockBase addr, size := 64, isRead := true, buffer := [] } : Request) =
    Request.read (blockBase addr) 64 from rfl]
  rcases blockRead_meets hlow hinv addr with ⟨hm, h0, a, t, k1, k2, k3, k4⟩ | ⟨h0, t, k1, k3, k4⟩
  · rw [k1]
    simp only [Reply.embed_ok, Reply.bind_ok, if_true]
    have hct : CacheInv p.cfg memSize p.recencyMax (view t) c.countFetch := by rw [k4]; exact hc.congr_entries rfl rfl
    obtain ⟨g1, g2, g3⟩ := install_spec (data := a.bytes) hl hct h2 h4 h5
      (by unfold blockInMemory at hm; unfold blockBase blockOffset; omega) (by rw [k2]; unfold viewBytes; rw [k4])
    have hv : cacheView p.cfg view (c.countFetch, t) = cacheView p.cfg view (c, l) :=
      cacheView_congr hl hc hct (fun _ => ⟨rfl, rfl, rfl⟩) k4
    refine .inl ⟨h0, respond_answers ?_ ⟨g1, k3⟩ (g2.trans (hv.trans h3))⟩
    show sliceBytes a.bytes (addr % 64) n = _
    rw [g3 n ho, hvb]; unfold viewBytes; rw [hv]
  · rw [k1]
    have hct : CacheInv p.cfg memSize p.recencyMax (view t) c := by rw [k4]; exact hc
    exact .inr ⟨_, (c, t), h0, rfl, ⟨hct, k3⟩,
      (cacheView_congr hl hc hct (fun _ => ⟨rfl, rfl, rfl⟩) k4).trans h3⟩

/-- A write miss under write-allocate writes the view (R107). -/
theorem cacheFill_write (hl : p.cfg.legal = true) (hlow : Coherent memSize ref lower view inv) {st : Cache × σ}
    {addr : Nat} {buffer : List Byte} (hst : StackInv p.cfg memSize p.recencyMax view inv st)
    (absent : ∀ j, ¬ st.1.has p.cfg j (addr / 64)) (ho : addr % 64 + buffer.length ≤ 64) :
    Meets (blockRefused memSize addr) (cacheView p.cfg view) (StackInv p.cfg memSize p.recencyMax view inv)
      (cacheFill lower p (.write addr buffer) st) (fun _ => True)
      (writtenView (cacheView p.cfg view st) addr buffer) (cacheView p.cfg view st) := by
  obtain ⟨i, c, l, h1, h2, hc, hinv, h3, h4, h5⟩ := makeRoom_absent hl hlow hst absent
  simp only [cacheFill, Request.write, askLower]
  rw [h1]
  simp only [Reply.bind_ok]
  rcases blockRead_meets hlow hinv addr with ⟨hm, h0, a, t, k1, _, k3, k4⟩ | ⟨h0, t, k1, k3, k4⟩
  · rw [k1]
    simp only [Reply.embed_ok, Reply.bind_ok, Bool.false_eq_true, if_false]
    rw [show ({ addr := addr, size := buffer.length, isRead := false, buffer := buffer } : Request) =
      Request.write addr buffer from rfl]
    rcases hlow.write (s := t) k3 ho with ⟨_, a₂, u, w1, _, w2, w3⟩ | ⟨r, _, w1, _⟩
    · rw [w1]
      simp only [Reply.embed_ok, Reply.bind_ok]
      rcases blockRead_meets hlow w2 addr with ⟨_, _, a₃, v, r1, r2, r3, r4⟩ | ⟨h6, _⟩
      · rw [r1]
        simp only [Reply.embed_ok, Reply.bind_ok]
        have hwr : view v = writtenView (view l) addr buffer := by rw [r4, w3, k4]
        obtain ⟨e1, e2⟩ := absent_write hl hc h5 ho hwr
        have hct : CacheInv p.cfg memSize p.recencyMax (view v) c.countFetch.countFetch := e1.congr_entries rfl rfl
        obtain ⟨g1, g2, _⟩ := install_spec (data := a₃.bytes) hl hct h2 h4 h5
          (by unfold blockInMemory at hm; unfold blockBase blockOffset; omega) (by rw [r2]; unfold viewBytes; rw [r4])
        have hv : cacheView p.cfg view (c.countFetch.countFetch, v) = cacheView p.cfg view (c, v) :=
          cacheView_congr hl e1 hct (fun _ => ⟨rfl, rfl, rfl⟩) rfl
        exact .inl ⟨h0, respond_answers trivial ⟨g1, r3⟩ (g2.trans (hv.trans (by rw [e2, h3])))⟩
      · rw [h0] at h6; cases h6
    · rw [hlow.inMemory (q := .write addr buffer) hm ho] at w1; cases w1
  · rw [k1]
    have hct : CacheInv p.cfg memSize p.recencyMax (view t) c := by rw [k4]; exact hc
    exact .inr ⟨_, (c, t), h0, rfl, ⟨hct, k3⟩,
      (cacheView_congr hl hc hct (fun _ => ⟨rfl, rfl, rfl⟩) k4).trans h3⟩

/-! ## The whole request (R112) -/

theorem cacheRequest_hit {q : Request} {st : Cache × σ} {i : Nat} (ho : blockOffset q.addr + q.size ≤ 64)
    (h : st.1.lookup p.cfg q.addr = some i) :
    cacheRequest lower p q st = cacheHit lower p q i (st.1.countAccess, st.2) := by
  unfold cacheRequest
  rw [if_neg (by omega)]
  have : st.1.countAccess.lookup p.cfg q.addr = some i := h
  simp only [this]

theorem cacheRequest_miss {q : Request} {st : Cache × σ} (ho : blockOffset q.addr + q.size ≤ 64)
    (h : st.1.lookup p.cfg q.addr = none) :
    cacheRequest lower p q st =
      if !q.isRead && !p.cfg.writeAllocate then cacheForward lower p q (st.1.countAccess.countMiss, st.2)
      else cacheFill lower p q (st.1.countAccess.countMiss, st.2) := by
  unfold cacheRequest
  rw [if_neg (by omega)]
  have : st.1.countAccess.lookup p.cfg q.addr = none := h
  simp only [this]

/-- A hit is refused nothing: the block of a valid entry lies in the flat memory. -/
theorem cacheRefused_hit (hlow : Coherent memSize ref lower view inv) {st : Cache × σ}
    {q : Request} {i : Nat} (hst : StackInv p.cfg memSize p.recencyMax view inv st)
    (h : st.1.has p.cfg i (q.addr / 64)) (ho : q.addr % 64 + q.size ≤ 64) :
    cacheRefused p.cfg memSize ref q = none := by
  have hm := hst.1.inMemory i h.1
  rw [entryBase_eq, h.2] at hm
  unfold cacheRefused
  split
  · exact if_pos (by omega)
  · exact hlow.inMemory (by unfold blockInMemory; omega) ho

/-- A cache over a coherent store is a coherent store, and what it refuses (R73, R112). -/
theorem cacheRequest_coherent (hl : p.cfg.legal = true) (hlow : Coherent memSize ref lower view inv) :
    Coherent memSize (cacheRefused p.cfg memSize ref) (cacheRequest lower p) (cacheView p.cfg view)
      (StackInv p.cfg memSize p.recencyMax view inv) where
  read {st addr n} hst ho := by
    cases hq : st.1.lookup p.cfg addr with
    | some i =>
      rw [cacheRequest_hit (q := .read addr n) ho hq]
      exact .inl ⟨cacheRefused_hit (q := .read addr n) hlow hst (Cache.lookup_some hl hq).1 ho,
        cacheHit_read hl (st := (st.1.countAccess, st.2)) ⟨hst.1.congr_entries rfl rfl, hst.2⟩
          (Cache.lookup_some hl hq).1 ho⟩
    | none =>
      rw [cacheRequest_miss (q := .read addr n) ho hq]
      exact cacheFill_read hl hlow (st := (st.1.countAccess.countMiss, st.2)) ⟨hst.1.congr_entries rfl rfl, hst.2⟩
        (hst.1.lookup_none hl hq) ho
  write {st addr buffer} hst ho := by
    cases hq : st.1.lookup p.cfg addr with
    | some i =>
      rw [cacheRequest_hit (q := .write addr buffer) ho hq]
      exact .inl ⟨cacheRefused_hit (q := .write addr buffer) hlow hst (Cache.lookup_some hl hq).1 ho,
        cacheHit_write hl hlow (st := (st.1.countAccess, st.2)) ⟨hst.1.congr_entries rfl rfl, hst.2⟩
          (Cache.lookup_some hl hq).1 ho⟩
    | none =>
      rw [cacheRequest_miss (q := .write addr buffer) ho hq]
      have hs : StackInv p.cfg memSize p.recencyMax view inv (st.1.countAccess.countMiss, st.2) :=
        ⟨hst.1.congr_entries rfl rfl, hst.2⟩
      cases hw : p.cfg.writeAllocate with
      | false =>
        rw [show cacheRefused p.cfg memSize ref (.write addr buffer) = ref (.write addr buffer) by
          simp [cacheRefused, Request.write, hw]]
        exact cacheForward_write hl hlow hs (hst.1.lookup_none hl hq) ho
      | true =>
        rw [show cacheRefused p.cfg memSize ref (.write addr buffer) = blockRefused memSize addr by
          simp [cacheRefused, Request.write, hw]]
        exact cacheFill_write hl hlow hs (hst.1.lookup_none hl hq) ho
  inMemory {q} h ho := by
    unfold cacheRefused
    split
    · exact if_pos h
    · exact hlow.inMemory h ho
  block {b} hb h := by
    have : blockBase b = b := by unfold blockBase blockOffset; omega
    simp only [cacheRefused, blockRefused, Request.read, Bool.true_or, if_true, this]
    exact if_neg h

end Sys2Proof.Machine
end

