-- ==== Sys2Proof/Laws/PerInstr.lean ====
section
/-! SUPPORT. Statements made per instruction: the word of every instruction, whatever its operands, matches the row of the
opcode table that has its mnemonic (R150). -/

namespace Sys2Proof.Laws.EncodesItsRow

/-- The table has a row with this instruction's mnemonic, and its encoded word matches that row. -/
def Statement (i : Instr) : Prop :=
  ∃ r, opcodeTable.find? (fun r => decide (r.op = i.mnemonic)) = some r ∧ r.accepts (encode i) = true

theorem lui (rd : Reg) (imm20 : BitVec 20) : Statement (.lui rd imm20) :=
  ⟨_, rfl, beq_iff_eq.2 ((encodeU_opcode ..).trans (by decide))⟩
theorem auipc (rd : Reg) (imm20 : BitVec 20) : Statement (.auipc rd imm20) :=
  ⟨_, rfl, beq_iff_eq.2 ((encodeU_opcode ..).trans (by decide))⟩
theorem jal (rd : Reg) (imm : BitVec 21) : Statement (.jal rd imm) :=
  ⟨_, rfl, beq_iff_eq.2 ((encodeJ_opcode ..).trans (by decide))⟩
theorem jalr (rd rs1 : Reg) (imm : BitVec 12) : Statement (.jalr rd rs1 imm) :=
  ⟨_, rfl, beq_iff_eq.2 ((encodeI_funct3 ..).trans (by decide))⟩
theorem beq (rs1 rs2 : Reg) (imm : BitVec 13) : Statement (.beq rs1 rs2 imm) :=
  ⟨_, rfl, beq_iff_eq.2 ((encodeB_funct3 ..).trans (by decide))⟩
theorem bne (rs1 rs2 : Reg) (imm : BitVec 13) : Statement (.bne rs1 rs2 imm) :=
  ⟨_, rfl, beq_iff_eq.2 ((encodeB_funct3 ..).trans (by decide))⟩
theorem blt (rs1 rs2 : Reg) (imm : BitVec 13) : Statement (.blt rs1 rs2 imm) :=
  ⟨_, rfl, beq_iff_eq.2 ((encodeB_funct3 ..).trans (by decide))⟩
theorem bge (rs1 rs2 : Reg) (imm : BitVec 13) : Statement (.bge rs1 rs2 imm) :=
  ⟨_, rfl, beq_iff_eq.2 ((encodeB_funct3 ..).trans (by decide))⟩
theorem bltu (rs1 rs2 : Reg) (imm : BitVec 13) : Statement (.bltu rs1 rs2 imm) :=
  ⟨_, rfl, beq_iff_eq.2 ((encodeB_funct3 ..).trans (by decide))⟩
theorem bgeu (rs1 rs2 : Reg) (imm : BitVec 13) : Statement (.bgeu rs1 rs2 imm) :=
  ⟨_, rfl, beq_iff_eq.2 ((encodeB_funct3 ..).trans (by decide))⟩
theorem lb (rd rs1 : Reg) (imm : BitVec 12) : Statement (.lb rd rs1 imm) :=
  ⟨_, rfl, beq_iff_eq.2 ((encodeI_funct3 ..).trans (by decide))⟩
theorem lh (rd rs1 : Reg) (imm : BitVec 12) : Statement (.lh rd rs1 imm) :=
  ⟨_, rfl, beq_iff_eq.2 ((encodeI_funct3 ..).trans (by decide))⟩
theorem lw (rd rs1 : Reg) (imm : BitVec 12) : Statement (.lw rd rs1 imm) :=
  ⟨_, rfl, beq_iff_eq.2 ((encodeI_funct3 ..).trans (by decide))⟩
theorem ld (rd rs1 : Reg) (imm : BitVec 12) : Statement (.ld rd rs1 imm) :=
  ⟨_, rfl, beq_iff_eq.2 ((encodeI_funct3 ..).trans (by decide))⟩
theorem lbu (rd rs1 : Reg) (imm : BitVec 12) : Statement (.lbu rd rs1 imm) :=
  ⟨_, rfl, beq_iff_eq.2 ((encodeI_funct3 ..).trans (by decide))⟩
theorem lhu (rd rs1 : Reg) (imm : BitVec 12) : Statement (.lhu rd rs1 imm) :=
  ⟨_, rfl, beq_iff_eq.2 ((encodeI_funct3 ..).trans (by decide))⟩
theorem lwu (rd rs1 : Reg) (imm : BitVec 12) : Statement (.lwu rd rs1 imm) :=
  ⟨_, rfl, beq_iff_eq.2 ((encodeI_funct3 ..).trans (by decide))⟩
theorem sb (rs1 rs2 : Reg) (imm : BitVec 12) : Statement (.sb rs1 rs2 imm) :=
  ⟨_, rfl, beq_iff_eq.2 ((encodeS_funct3 ..).trans (by decide))⟩
theorem sh (rs1 rs2 : Reg) (imm : BitVec 12) : Statement (.sh rs1 rs2 imm) :=
  ⟨_, rfl, beq_iff_eq.2 ((encodeS_funct3 ..).trans (by decide))⟩
theorem sw (rs1 rs2 : Reg) (imm : BitVec 12) : Statement (.sw rs1 rs2 imm) :=
  ⟨_, rfl, beq_iff_eq.2 ((encodeS_funct3 ..).trans (by decide))⟩
theorem sd (rs1 rs2 : Reg) (imm : BitVec 12) : Statement (.sd rs1 rs2 imm) :=
  ⟨_, rfl, beq_iff_eq.2 ((encodeS_funct3 ..).trans (by decide))⟩
theorem addi (rd rs1 : Reg) (imm : BitVec 12) : Statement (.addi rd rs1 imm) :=
  ⟨_, rfl, beq_iff_eq.2 ((encodeI_funct3 ..).trans (by decide))⟩
theorem slti (rd rs1 : Reg) (imm : BitVec 12) : Statement (.slti rd rs1 imm) :=
  ⟨_, rfl, beq_iff_eq.2 ((encodeI_funct3 ..).trans (by decide))⟩
theorem sltiu (rd rs1 : Reg) (imm : BitVec 12) : Statement (.sltiu rd rs1 imm) :=
  ⟨_, rfl, beq_iff_eq.2 ((encodeI_funct3 ..).trans (by decide))⟩
theorem xori (rd rs1 : Reg) (imm : BitVec 12) : Statement (.xori rd rs1 imm) :=
  ⟨_, rfl, beq_iff_eq.2 ((encodeI_funct3 ..).trans (by decide))⟩
theorem ori (rd rs1 : Reg) (imm : BitVec 12) : Statement (.ori rd rs1 imm) :=
  ⟨_, rfl, beq_iff_eq.2 ((encodeI_funct3 ..).trans (by decide))⟩
theorem andi (rd rs1 : Reg) (imm : BitVec 12) : Statement (.andi rd rs1 imm) :=
  ⟨_, rfl, beq_iff_eq.2 ((encodeI_funct3 ..).trans (by decide))⟩
theorem slli (rd rs1 : Reg) (shamt : BitVec 6) : Statement (.slli rd rs1 shamt) :=
  ⟨_, rfl, beq_iff_eq.2 ((encodeI_funct6 ..).trans (by decide))⟩
theorem srli (rd rs1 : Reg) (shamt : BitVec 6) : Statement (.srli rd rs1 shamt) :=
  ⟨_, rfl, beq_iff_eq.2 ((encodeI_funct6 ..).trans (by decide))⟩
theorem srai (rd rs1 : Reg) (shamt : BitVec 6) : Statement (.srai rd rs1 shamt) :=
  ⟨_, rfl, beq_iff_eq.2 ((encodeI_funct6 ..).trans (by decide))⟩
theorem add (rd rs1 rs2 : Reg) : Statement (.add rd rs1 rs2) :=
  ⟨_, rfl, beq_iff_eq.2 ((encodeR_funct7 ..).trans (by decide))⟩
theorem sub (rd rs1 rs2 : Reg) : Statement (.sub rd rs1 rs2) :=
  ⟨_, rfl, beq_iff_eq.2 ((encodeR_funct7 ..).trans (by decide))⟩
theorem sll (rd rs1 rs2 : Reg) : Statement (.sll rd rs1 rs2) :=
  ⟨_, rfl, beq_iff_eq.2 ((encodeR_funct7 ..).trans (by decide))⟩
theorem slt (rd rs1 rs2 : Reg) : Statement (.slt rd rs1 rs2) :=
  ⟨_, rfl, beq_iff_eq.2 ((encodeR_funct7 ..).trans (by decide))⟩
theorem sltu (rd rs1 rs2 : Reg) : Statement (.sltu rd rs1 rs2) :=
  ⟨_, rfl, beq_iff_eq.2 ((encodeR_funct7 ..).trans (by decide))⟩
theorem xor (rd rs1 rs2 : Reg) : Statement (.xor rd rs1 rs2) :=
  ⟨_, rfl, beq_iff_eq.2 ((encodeR_funct7 ..).trans (by decide))⟩
theorem srl (rd rs1 rs2 : Reg) : Statement (.srl rd rs1 rs2) :=
  ⟨_, rfl, beq_iff_eq.2 ((encodeR_funct7 ..).trans (by decide))⟩
theorem sra (rd rs1 rs2 : Reg) : Statement (.sra rd rs1 rs2) :=
  ⟨_, rfl, beq_iff_eq.2 ((encodeR_funct7 ..).trans (by decide))⟩
theorem or (rd rs1 rs2 : Reg) : Statement (.or rd rs1 rs2) :=
  ⟨_, rfl, beq_iff_eq.2 ((encodeR_funct7 ..).trans (by decide))⟩
theorem and (rd rs1 rs2 : Reg) : Statement (.and rd rs1 rs2) :=
  ⟨_, rfl, beq_iff_eq.2 ((encodeR_funct7 ..).trans (by decide))⟩
theorem addiw (rd rs1 : Reg) (imm : BitVec 12) : Statement (.addiw rd rs1 imm) :=
  ⟨_, rfl, beq_iff_eq.2 ((encodeI_funct3 ..).trans (by decide))⟩
theorem slliw (rd rs1 : Reg) (shamt : BitVec 5) : Statement (.slliw rd rs1 shamt) :=
  ⟨_, rfl, beq_iff_eq.2 ((encodeI_funct7 ..).trans (by decide))⟩
theorem srliw (rd rs1 : Reg) (shamt : BitVec 5) : Statement (.srliw rd rs1 shamt) :=
  ⟨_, rfl, beq_iff_eq.2 ((encodeI_funct7 ..).trans (by decide))⟩
theorem sraiw (rd rs1 : Reg) (shamt : BitVec 5) : Statement (.sraiw rd rs1 shamt) :=
  ⟨_, rfl, beq_iff_eq.2 ((encodeI_funct7 ..).trans (by decide))⟩
theorem addw (rd rs1 rs2 : Reg) : Statement (.addw rd rs1 rs2) :=
  ⟨_, rfl, beq_iff_eq.2 ((encodeR_funct7 ..).trans (by decide))⟩
theorem subw (rd rs1 rs2 : Reg) : Statement (.subw rd rs1 rs2) :=
  ⟨_, rfl, beq_iff_eq.2 ((encodeR_funct7 ..).trans (by decide))⟩
theorem sllw (rd rs1 rs2 : Reg) : Statement (.sllw rd rs1 rs2) :=
  ⟨_, rfl, beq_iff_eq.2 ((encodeR_funct7 ..).trans (by decide))⟩
theorem srlw (rd rs1 rs2 : Reg) : Statement (.srlw rd rs1 rs2) :=
  ⟨_, rfl, beq_iff_eq.2 ((encodeR_funct7 ..).trans (by decide))⟩
theorem sraw (rd rs1 rs2 : Reg) : Statement (.sraw rd rs1 rs2) :=
  ⟨_, rfl, beq_iff_eq.2 ((encodeR_funct7 ..).trans (by decide))⟩
theorem mul (rd rs1 rs2 : Reg) : Statement (.mul rd rs1 rs2) :=
  ⟨_, rfl, beq_iff_eq.2 ((encodeR_funct7 ..).trans (by decide))⟩
theorem mulh (rd rs1 rs2 : Reg) : Statement (.mulh rd rs1 rs2) :=
  ⟨_, rfl, beq_iff_eq.2 ((encodeR_funct7 ..).trans (by decide))⟩
theorem mulhsu (rd rs1 rs2 : Reg) : Statement (.mulhsu rd rs1 rs2) :=
  ⟨_, rfl, beq_iff_eq.2 ((encodeR_funct7 ..).trans (by decide))⟩
theorem mulhu (rd rs1 rs2 : Reg) : Statement (.mulhu rd rs1 rs2) :=
  ⟨_, rfl, beq_iff_eq.2 ((encodeR_funct7 ..).trans (by decide))⟩
theorem div (rd rs1 rs2 : Reg) : Statement (.div rd rs1 rs2) :=
  ⟨_, rfl, beq_iff_eq.2 ((encodeR_funct7 ..).trans (by decide))⟩
theorem divu (rd rs1 rs2 : Reg) : Statement (.divu rd rs1 rs2) :=
  ⟨_, rfl, beq_iff_eq.2 ((encodeR_funct7 ..).trans (by decide))⟩
theorem rem (rd rs1 rs2 : Reg) : Statement (.rem rd rs1 rs2) :=
  ⟨_, rfl, beq_iff_eq.2 ((encodeR_funct7 ..).trans (by decide))⟩
theorem remu (rd rs1 rs2 : Reg) : Statement (.remu rd rs1 rs2) :=
  ⟨_, rfl, beq_iff_eq.2 ((encodeR_funct7 ..).trans (by decide))⟩
theorem mulw (rd rs1 rs2 : Reg) : Statement (.mulw rd rs1 rs2) :=
  ⟨_, rfl, beq_iff_eq.2 ((encodeR_funct7 ..).trans (by decide))⟩
theorem divw (rd rs1 rs2 : Reg) : Statement (.divw rd rs1 rs2) :=
  ⟨_, rfl, beq_iff_eq.2 ((encodeR_funct7 ..).trans (by decide))⟩
theorem divuw (rd rs1 rs2 : Reg) : Statement (.divuw rd rs1 rs2) :=
  ⟨_, rfl, beq_iff_eq.2 ((encodeR_funct7 ..).trans (by decide))⟩
theorem remw (rd rs1 rs2 : Reg) : Statement (.remw rd rs1 rs2) :=
  ⟨_, rfl, beq_iff_eq.2 ((encodeR_funct7 ..).trans (by decide))⟩
theorem remuw (rd rs1 rs2 : Reg) : Statement (.remuw rd rs1 rs2) :=
  ⟨_, rfl, beq_iff_eq.2 ((encodeR_funct7 ..).trans (by decide))⟩
theorem ecall : Statement .ecall := ⟨_, rfl, by decide⟩

end Sys2Proof.Laws.EncodesItsRow
end

