-- ==== Sys2Proof/Tests/Slice0.lean ====
section
/-! SUPPORT. Tests: ill-formed terms that the checks refuse; for every instruction a word of the spec's encoding vectors
(95_test_vectors.md section 2) that decodes to it, and a vector of its semantics (section 3) that it meets; and for every
statement with hypotheses a state that meets them. The expected values are the spec's own. -/

namespace Sys2Proof.Tests.Slice0

open Sys2Proof.Machine

/-! ## Ill-formed terms are refused (R148, R92, R387, R8) -/

theorem test_ill_formed_jal : (Instr.jal 1 3).wf = false := by decide
theorem test_ill_formed_beq : (Instr.beq 1 2 5).wf = false := by decide
theorem test_ill_formed_bne : (Instr.bne 1 2 (-1)).wf = false := by decide
theorem test_ill_formed_blt : (Instr.blt 1 2 7).wf = false := by decide
theorem test_ill_formed_bge : (Instr.bge 1 2 9).wf = false := by decide
theorem test_ill_formed_bltu : (Instr.bltu 1 2 11).wf = false := by decide
theorem test_ill_formed_bgeu : (Instr.bgeu 1 2 (-3)).wf = false := by decide
theorem test_cache_assoc_zero : (CacheConfig.mk 65536 0 false true).legal = false := by decide
theorem test_cache_size_zero : (CacheConfig.mk 0 4 false true).legal = false := by decide
theorem test_cache_size_multiple : (CacheConfig.mk 65600 4 false true).legal = false := by decide
theorem test_cache_power_of_two : (CacheConfig.mk 768 4 false true).legal = false := by decide
/-- W1 (R130): the source's own configuration example is legal and has 256 sets. -/
theorem test_cache_example : (CacheConfig.mk 65536 4 false true).legal = true ∧
    setCount (CacheConfig.mk 65536 4 false true) = 256 := by decide
theorem test_config_default : Config.default.legal = true := by decide
theorem test_config_mem_size : ({ Config.default with memSize := 0 } : Config).legal = false := by decide
theorem test_config_recency : ({ Config.default with recencyMax := 0 } : Config).legal = false := by decide
theorem test_config_buckets : ({ Config.default with predBuckets := 0 } : Config).legal = false := by decide
theorem test_config_history : ({ Config.default with histBits := 0 } : Config).legal = false := by decide
theorem test_config_latency : ({ Config.default with lat := [(.mul, 0)] } : Config).legal = false := by decide
theorem test_config_number : ({ Config.default with sysNumReg := 0 } : Config).legal = false := by decide
theorem test_config_argument : ({ Config.default with sysArgReg := 0 } : Config).legal = false := by decide
theorem test_config_result : ({ Config.default with sysRetReg := 0 } : Config).legal = false := by decide
theorem test_config_cap : ({ Config.default with strCap := 0 } : Config).legal = false := by decide

/-! ## Encoding vectors (95_test_vectors.md section 2): one word for every instruction -/

/-- E1: LUI x5, 0x80000. -/
theorem test_decode_lui : decode 0x800002b7 = .ok (.lui 5 0x80000) := by decide
/-- E5: AUIPC x1, 0xfffff. -/
theorem test_decode_auipc : decode 0xfffff097 = .ok (.auipc 1 0xfffff) := by decide
/-- E6: JAL x1, 12. -/
theorem test_decode_jal : decode 0x00c000ef = .ok (.jal 1 12) := by decide
/-- E12: JALR x1, -4(x5). -/
theorem test_decode_jalr : decode 0xffc280e7 = .ok (.jalr 1 5 (-4)) := by decide
/-- E14: BEQ x0, x0, 12. -/
theorem test_decode_beq : decode 0x00000663 = .ok (.beq 0 0 12) := by decide
/-- E15: BNE x5, x0, -8. -/
theorem test_decode_bne : decode 0xfe029ce3 = .ok (.bne 5 0 (-8)) := by decide
/-- E16: BLT x1, x2, 4094. -/
theorem test_decode_blt : decode 0x7e20cfe3 = .ok (.blt 1 2 4094) := by decide
/-- E17: BGE x1, x2, -4096. -/
theorem test_decode_bge : decode 0x8020d063 = .ok (.bge 1 2 (-4096)) := by decide
/-- E18: BLTU x10, x11, 2048. -/
theorem test_decode_bltu : decode 0x00b560e3 = .ok (.bltu 10 11 2048) := by decide
/-- E19: BGEU x10, x11, 16. -/
theorem test_decode_bgeu : decode 0x00b57863 = .ok (.bgeu 10 11 16) := by decide
/-- E20: LB x1, -1(x2). -/
theorem test_decode_lb : decode 0xfff10083 = .ok (.lb 1 2 (-1)) := by decide
/-- E21: LH x1, 2(x2). -/
theorem test_decode_lh : decode 0x00211083 = .ok (.lh 1 2 2) := by decide
/-- E22: LW x4, 0(x2). -/
theorem test_decode_lw : decode 0x00012203 = .ok (.lw 4 2 0) := by decide
/-- E24: LD x1, -2048(x2). -/
theorem test_decode_ld : decode 0x80013083 = .ok (.ld 1 2 (-2048)) := by decide
/-- E25: LBU x1, 7(x2). -/
theorem test_decode_lbu : decode 0x00714083 = .ok (.lbu 1 2 7) := by decide
/-- E26: LHU x7, 0(x2). -/
theorem test_decode_lhu : decode 0x00015383 = .ok (.lhu 7 2 0) := by decide
/-- E27: LWU x1, 4(x2). -/
theorem test_decode_lwu : decode 0x00416083 = .ok (.lwu 1 2 4) := by decide
/-- E28: SB x5, 1(x2). -/
theorem test_decode_sb : decode 0x005100a3 = .ok (.sb 2 5 1) := by decide
/-- E29: SH x3, -2(x2). -/
theorem test_decode_sh : decode 0xfe311f23 = .ok (.sh 2 3 (-2)) := by decide
/-- E30: SW x3, 2047(x2). -/
theorem test_decode_sw : decode 0x7e312fa3 = .ok (.sw 2 3 2047) := by decide
/-- E31: SD x3, 0(x2). -/
theorem test_decode_sd : decode 0x00313023 = .ok (.sd 2 3 0) := by decide
/-- E34: ADDI x5, x0, -1. -/
theorem test_decode_addi : decode 0xfff00293 = .ok (.addi 5 0 (-1)) := by decide
/-- E39: SLTI x1, x2, -5. -/
theorem test_decode_slti : decode 0xffb12093 = .ok (.slti 1 2 (-5)) := by decide
/-- E40: SLTIU x1, x2, 1. -/
theorem test_decode_sltiu : decode 0x00113093 = .ok (.sltiu 1 2 1) := by decide
/-- E41: XORI x1, x2, -1. -/
theorem test_decode_xori : decode 0xfff14093 = .ok (.xori 1 2 (-1)) := by decide
/-- E42: ORI x1, x2, 256. -/
theorem test_decode_ori : decode 0x10016093 = .ok (.ori 1 2 256) := by decide
/-- E43: ANDI x1, x2, 255. -/
theorem test_decode_andi : decode 0x0ff17093 = .ok (.andi 1 2 255) := by decide
/-- E44: SLLI x1, x2, 63. -/
theorem test_decode_slli : decode 0x03f11093 = .ok (.slli 1 2 63) := by decide
/-- E46: SRLI x1, x2, 32. -/
theorem test_decode_srli : decode 0x02015093 = .ok (.srli 1 2 32) := by decide
/-- E47: SRAI x1, x2, 63. -/
theorem test_decode_srai : decode 0x43f15093 = .ok (.srai 1 2 63) := by decide
/-- E49: ADD x10, x10, x5. -/
theorem test_decode_add : decode 0x00550533 = .ok (.add 10 10 5) := by decide
/-- E50: SUB x1, x2, x3. -/
theorem test_decode_sub : decode 0x403100b3 = .ok (.sub 1 2 3) := by decide
/-- E51: SLL x1, x2, x3. -/
theorem test_decode_sll : decode 0x003110b3 = .ok (.sll 1 2 3) := by decide
/-- E52: SLT x1, x2, x3. -/
theorem test_decode_slt : decode 0x003120b3 = .ok (.slt 1 2 3) := by decide
/-- E53: SLTU x1, x2, x3. -/
theorem test_decode_sltu : decode 0x003130b3 = .ok (.sltu 1 2 3) := by decide
/-- E54: XOR x1, x2, x3. -/
theorem test_decode_xor : decode 0x003140b3 = .ok (.xor 1 2 3) := by decide
/-- E55: SRL x1, x2, x3. -/
theorem test_decode_srl : decode 0x003150b3 = .ok (.srl 1 2 3) := by decide
/-- E56: SRA x1, x2, x3. -/
theorem test_decode_sra : decode 0x403150b3 = .ok (.sra 1 2 3) := by decide
/-- E57: OR x1, x2, x3. -/
theorem test_decode_or : decode 0x003160b3 = .ok (.or 1 2 3) := by decide
/-- E58: AND x31, x31, x31. -/
theorem test_decode_and : decode 0x01ffffb3 = .ok (.and 31 31 31) := by decide
/-- E60: ADDIW x1, x2, -1. -/
theorem test_decode_addiw : decode 0xfff1009b = .ok (.addiw 1 2 (-1)) := by decide
/-- E61: SLLIW x1, x2, 31. -/
theorem test_decode_slliw : decode 0x01f1109b = .ok (.slliw 1 2 31) := by decide
/-- E62: SRLIW x1, x2, 1. -/
theorem test_decode_srliw : decode 0x0011509b = .ok (.srliw 1 2 1) := by decide
/-- E63: SRAIW x1, x2, 31. -/
theorem test_decode_sraiw : decode 0x41f1509b = .ok (.sraiw 1 2 31) := by decide
/-- E64: ADDW x1, x2, x3. -/
theorem test_decode_addw : decode 0x003100bb = .ok (.addw 1 2 3) := by decide
/-- E65: SUBW x1, x2, x3. -/
theorem test_decode_subw : decode 0x403100bb = .ok (.subw 1 2 3) := by decide
/-- E66: SLLW x1, x2, x3. -/
theorem test_decode_sllw : decode 0x003110bb = .ok (.sllw 1 2 3) := by decide
/-- E67: SRLW x1, x2, x3. -/
theorem test_decode_srlw : decode 0x003150bb = .ok (.srlw 1 2 3) := by decide
/-- E68: SRAW x1, x2, x3. -/
theorem test_decode_sraw : decode 0x403150bb = .ok (.sraw 1 2 3) := by decide
/-- E69: MUL x1, x2, x3. -/
theorem test_decode_mul : decode 0x023100b3 = .ok (.mul 1 2 3) := by decide
/-- E70: MULH x1, x2, x3. -/
theorem test_decode_mulh : decode 0x023110b3 = .ok (.mulh 1 2 3) := by decide
/-- E71: MULHSU x1, x2, x3. -/
theorem test_decode_mulhsu : decode 0x023120b3 = .ok (.mulhsu 1 2 3) := by decide
/-- E72: MULHU x1, x2, x3. -/
theorem test_decode_mulhu : decode 0x023130b3 = .ok (.mulhu 1 2 3) := by decide
/-- E73: DIV x1, x2, x3. -/
theorem test_decode_div : decode 0x023140b3 = .ok (.div 1 2 3) := by decide
/-- E74: DIVU x1, x2, x3. -/
theorem test_decode_divu : decode 0x023150b3 = .ok (.divu 1 2 3) := by decide
/-- E75: REM x1, x2, x3. -/
theorem test_decode_rem : decode 0x023160b3 = .ok (.rem 1 2 3) := by decide
/-- E76: REMU x1, x2, x3. -/
theorem test_decode_remu : decode 0x023170b3 = .ok (.remu 1 2 3) := by decide
/-- E77: MULW x1, x2, x3. -/
theorem test_decode_mulw : decode 0x023100bb = .ok (.mulw 1 2 3) := by decide
/-- E78: DIVW x1, x2, x3. -/
theorem test_decode_divw : decode 0x023140bb = .ok (.divw 1 2 3) := by decide
/-- E79: DIVUW x1, x2, x3. -/
theorem test_decode_divuw : decode 0x023150bb = .ok (.divuw 1 2 3) := by decide
/-- E80: REMW x1, x2, x3. -/
theorem test_decode_remw : decode 0x023160bb = .ok (.remw 1 2 3) := by decide
/-- E81: REMUW x1, x2, x3. -/
theorem test_decode_remuw : decode 0x023170bb = .ok (.remuw 1 2 3) := by decide
/-- E82: ECALL. -/
theorem test_decode_ecall : decode 0x00000073 = .ok (.ecall) := by decide

/-- EBREAK, FENCE and a compressed pair are no instructions (R155). -/
theorem test_decode_unknown : decode 0x00100073 = .error (.unknownInstruction 0x00100073) ∧
    decode 0x0000000f = .error (.unknownInstruction 0x0000000f) ∧
    decode 0x00000000 = .error (.unknownInstruction 0x00000000) := by decide
/-- Five bytes are no instruction word (R140). -/
theorem test_decode_bytes : decodeBytes [1, 2, 3, 4, 5] = .error (.notOneWord 5) := by decide
/-- The host's numbering of bits: bit 0 is the least significant bit of the word. -/
theorem test_decode_table_word : decodeTableWord 32 0x00550533 = some (.add 10 10 5) := by decide

/-! ## Semantics vectors (95_test_vectors.md section 3): one for every instruction -/

/-- A small state: `pc`, `x1` and `x2`. -/
def start (pc a b : Word) : State := (({ State.reset with pc := pc }).setReg 1 a).setReg 2 b

/-- What a test looks at: `x3` and the next `pc`. -/
def seen (o : Host.Outcome State Fault Refusal) : Option (Word × Word) :=
  match o with
  | .next t => some (t.reg 3, t.pc)
  | .fault _ | .refused _ => none

/-- Sixteen bytes of memory, as the program sees them, after an instruction. -/
def shown (pa : Nat) (o : Host.Outcome State Fault Refusal) : Option (List Byte) :=
  match o with
  | .next t => some (t.viewBytes pa 16)
  | .fault _ | .refused _ => none

/-- The memory of the load and store vectors (section 3.6): sixteen bytes from 0x2000 up. -/
def withMemory (s : State) : State :=
  s.pokeBytes 0x2000 [0x80, 0xff, 0x7f, 0, 0xfe, 0xff, 0xff, 0xff, 1, 0x23, 0x45, 0x67, 0x89, 0xab, 0xcd, 0xef]

/-- UI1. -/
theorem test_lui : seen (exec (.lui 3 0x80000) (start 0x0000000000000000 0 0)) = some (0xffffffff80000000, 0x0000000000000000 + 4) := by decide
/-- UI5. -/
theorem test_auipc : seen (exec (.auipc 3 0x00001) (start 0x0000000000001000 0 0)) = some (0x0000000000002000, 0x0000000000001000 + 4) := by decide
/-- J1 (with rd = x3). -/
theorem test_jal : seen (exec (.jal 3 (12)) (start 0x0000000000001000 0 0)) = some (0x0000000000001000 + 4, 0x000000000000100c) := by decide
/-- J5 (with rd = x3). -/
theorem test_jalr : seen (exec (.jalr 3 1 (0)) (start 0x0000000000001010 0x0000000000001004 0)) = some (0x0000000000001010 + 4, 0x0000000000001004) := by decide
/-- B2. -/
theorem test_beq : seen (exec (.beq 1 2 (-16)) (start 0x1010 0x0000000000000005 0x0000000000000006)) =
    some (0, 0x0000000000001014) := by decide
/-- B4. -/
theorem test_bne : seen (exec (.bne 1 2 (-16)) (start 0x1010 0x0000000000000005 0x0000000000000005)) =
    some (0, 0x0000000000001014) := by decide
/-- B8. -/
theorem test_blt : seen (exec (.blt 1 2 (-16)) (start 0x1010 0x0000000000000005 0x0000000000000005)) =
    some (0, 0x0000000000001014) := by decide
/-- B12. -/
theorem test_bge : seen (exec (.bge 1 2 (-16)) (start 0x1010 0x7fffffffffffffff 0x8000000000000000)) =
    some (0, 0x0000000000001000) := by decide
/-- B14. -/
theorem test_bltu : seen (exec (.bltu 1 2 (-16)) (start 0x1010 0x0000000000000001 0xffffffffffffffff)) =
    some (0, 0x0000000000001000) := by decide
/-- B18. -/
theorem test_bgeu : seen (exec (.bgeu 1 2 (-16)) (start 0x1010 0x0000000000000000 0x0000000000000000)) =
    some (0, 0x0000000000001000) := by decide
/-- LD1. -/
theorem test_lb : seen (exec (.lb 3 1 (0)) (withMemory (start 0x1000 0x0000000000002000 0))) =
    some (0xffffffffffffff80, 0x1004) := by decide
/-- LD5. -/
theorem test_lh : seen (exec (.lh 3 1 (0)) (withMemory (start 0x1000 0x0000000000002000 0))) =
    some (0xffffffffffffff80, 0x1004) := by decide
/-- LD12. -/
theorem test_lw : seen (exec (.lw 3 1 (0)) (withMemory (start 0x1000 0x0000000000002003 0))) =
    some (0xfffffffffffffe00, 0x1004) := by decide
/-- LD13. -/
theorem test_ld : seen (exec (.ld 3 1 (0)) (withMemory (start 0x1000 0x0000000000002000 0))) =
    some (0xfffffffe007fff80, 0x1004) := by decide
/-- LD2. -/
theorem test_lbu : seen (exec (.lbu 3 1 (0)) (withMemory (start 0x1000 0x0000000000002000 0))) =
    some (0x0000000000000080, 0x1004) := by decide
/-- LD6. -/
theorem test_lhu : seen (exec (.lhu 3 1 (0)) (withMemory (start 0x1000 0x0000000000002000 0))) =
    some (0x000000000000ff80, 0x1004) := by decide
/-- LD11. -/
theorem test_lwu : seen (exec (.lwu 3 1 (4)) (withMemory (start 0x1000 0x0000000000002000 0))) =
    some (0x00000000fffffffe, 0x1004) := by decide
/-- ST1: the bytes of memory after it. -/
theorem test_sb : shown 0x2000 (exec (.sb 1 2 (0)) (withMemory (start 0x1000 0x0000000000002000 0x1122334455667788))) =
    some [0x88, 0xff, 0x7f, 0x00, 0xfe, 0xff, 0xff, 0xff, 0x01, 0x23, 0x45, 0x67, 0x89, 0xab, 0xcd, 0xef] := by decide
/-- ST2: the bytes of memory after it. -/
theorem test_sh : shown 0x2000 (exec (.sh 1 2 (2)) (withMemory (start 0x1000 0x0000000000002000 0x1122334455667788))) =
    some [0x80, 0xff, 0x88, 0x77, 0xfe, 0xff, 0xff, 0xff, 0x01, 0x23, 0x45, 0x67, 0x89, 0xab, 0xcd, 0xef] := by decide
/-- ST3: the bytes of memory after it. -/
theorem test_sw : shown 0x2000 (exec (.sw 1 2 (4)) (withMemory (start 0x1000 0x0000000000002000 0x1122334455667788))) =
    some [0x80, 0xff, 0x7f, 0x00, 0x88, 0x77, 0x66, 0x55, 0x01, 0x23, 0x45, 0x67, 0x89, 0xab, 0xcd, 0xef] := by decide
/-- ST4: the bytes of memory after it. -/
theorem test_sd : shown 0x2000 (exec (.sd 1 2 (8)) (withMemory (start 0x1000 0x0000000000002000 0x1122334455667788))) =
    some [0x80, 0xff, 0x7f, 0x00, 0xfe, 0xff, 0xff, 0xff, 0x88, 0x77, 0x66, 0x55, 0x44, 0x33, 0x22, 0x11] := by decide
/-- A3. -/
theorem test_addi : seen (exec (.addi 3 1 (1)) (start 0x1000 0xffffffffffffffff 0)) =
    some (0x0000000000000000, 0x1004) := by decide
/-- A6. -/
theorem test_slti : seen (exec (.slti 3 1 (0)) (start 0x1000 0xffffffffffffffff 0)) =
    some (0x0000000000000001, 0x1004) := by decide
/-- A13. -/
theorem test_sltiu : seen (exec (.sltiu 3 1 (-1)) (start 0x1000 0xffffffffffffffff 0)) =
    some (0x0000000000000000, 0x1004) := by decide
/-- A14. -/
theorem test_xori : seen (exec (.xori 3 1 (-1)) (start 0x1000 0x00ff00ff00ff00ff 0)) =
    some (0xff00ff00ff00ff00, 0x1004) := by decide
/-- A16. -/
theorem test_ori : seen (exec (.ori 3 1 (2047)) (start 0x1000 0x0000000000001000 0)) =
    some (0x00000000000017ff, 0x1004) := by decide
/-- A18. -/
theorem test_andi : seen (exec (.andi 3 1 (255)) (start 0x1000 0x123456789abcdef0 0)) =
    some (0x00000000000000f0, 0x1004) := by decide
/-- A22. -/
theorem test_slli : seen (exec (.slli 3 1 (32)) (start 0x1000 0xffffffffffffffff 0)) =
    some (0xffffffff00000000, 0x1004) := by decide
/-- A25. -/
theorem test_srli : seen (exec (.srli 3 1 (0)) (start 0x1000 0xffffffffffffffff 0)) =
    some (0xffffffffffffffff, 0x1004) := by decide
/-- A30. -/
theorem test_srai : seen (exec (.srai 3 1 (0)) (start 0x1000 0xffffffffffffffff 0)) =
    some (0xffffffffffffffff, 0x1004) := by decide
/-- A32. -/
theorem test_add : seen (exec (.add 3 1 2) (start 0x1000 0xffffffffffffffff 0xffffffffffffffff)) =
    some (0xfffffffffffffffe, 0x1004) := by decide
/-- A33. -/
theorem test_sub : seen (exec (.sub 3 1 2) (start 0x1000 0x0000000000000000 0x0000000000000001)) =
    some (0xffffffffffffffff, 0x1004) := by decide
/-- A38. -/
theorem test_sll : seen (exec (.sll 3 1 2) (start 0x1000 0x0000000000000001 0xffffffffffffffff)) =
    some (0x8000000000000000, 0x1004) := by decide
/-- A40. -/
theorem test_slt : seen (exec (.slt 3 1 2) (start 0x1000 0x0000000000000001 0xffffffffffffffff)) =
    some (0x0000000000000000, 0x1004) := by decide
/-- A43. -/
theorem test_sltu : seen (exec (.sltu 3 1 2) (start 0x1000 0x0000000000000000 0xffffffffffffffff)) =
    some (0x0000000000000001, 0x1004) := by decide
/-- A45. -/
theorem test_xor : seen (exec (.xor 3 1 2) (start 0x1000 0xaaaaaaaaaaaaaaaa 0x5555555555555555)) =
    some (0xffffffffffffffff, 0x1004) := by decide
/-- A47. -/
theorem test_srl : seen (exec (.srl 3 1 2) (start 0x1000 0x8000000000000000 0x0000000000000043)) =
    some (0x1000000000000000, 0x1004) := by decide
/-- A49. -/
theorem test_sra : seen (exec (.sra 3 1 2) (start 0x1000 0x8000000000000000 0x0000000000000043)) =
    some (0xf000000000000000, 0x1004) := by decide
/-- A52. -/
theorem test_or : seen (exec (.or 3 1 2) (start 0x1000 0x000000000000f0f0 0x0000000000000f0f)) =
    some (0x000000000000ffff, 0x1004) := by decide
/-- A53. -/
theorem test_and : seen (exec (.and 3 1 2) (start 0x1000 0x00000000ff00ff00 0x000000000ff00ff0)) =
    some (0x000000000f000f00, 0x1004) := by decide
/-- A54. -/
theorem test_addiw : seen (exec (.addiw 3 1 (1)) (start 0x1000 0x000000007fffffff 0)) =
    some (0xffffffff80000000, 0x1004) := by decide
/-- A59. -/
theorem test_slliw : seen (exec (.slliw 3 1 (0)) (start 0x1000 0xffffffff00000001 0)) =
    some (0x0000000000000001, 0x1004) := by decide
/-- A61. -/
theorem test_srliw : seen (exec (.srliw 3 1 (31)) (start 0x1000 0xffffffff80000000 0)) =
    some (0x0000000000000001, 0x1004) := by decide
/-- A65. -/
theorem test_sraiw : seen (exec (.sraiw 3 1 (4)) (start 0x1000 0xffffffff40000000 0)) =
    some (0x0000000004000000, 0x1004) := by decide
/-- A66. -/
theorem test_addw : seen (exec (.addw 3 1 2) (start 0x1000 0x000000007fffffff 0x0000000000000001)) =
    some (0xffffffff80000000, 0x1004) := by decide
/-- A69. -/
theorem test_subw : seen (exec (.subw 3 1 2) (start 0x1000 0x0000000000000000 0x0000000000000001)) =
    some (0xffffffffffffffff, 0x1004) := by decide
/-- A71. -/
theorem test_sllw : seen (exec (.sllw 3 1 2) (start 0x1000 0x0000000000000001 0x0000000000000020)) =
    some (0x0000000000000001, 0x1004) := by decide
/-- A75. -/
theorem test_srlw : seen (exec (.srlw 3 1 2) (start 0x1000 0xffffffff80000000 0x0000000000000020)) =
    some (0xffffffff80000000, 0x1004) := by decide
/-- A76. -/
theorem test_sraw : seen (exec (.sraw 3 1 2) (start 0x1000 0x0000000080000000 0x000000000000001f)) =
    some (0xffffffffffffffff, 0x1004) := by decide
/-- M1. -/
theorem test_mul : seen (exec (.mul 3 1 2) (start 0x1000 0xffffffffffffffff 0xffffffffffffffff)) =
    some (0x0000000000000001, 0x1004) := by decide
/-- M7. -/
theorem test_mulh : seen (exec (.mulh 3 1 2) (start 0x1000 0xffffffffffffffff 0x0000000000000001)) =
    some (0xffffffffffffffff, 0x1004) := by decide
/-- M11. -/
theorem test_mulhsu : seen (exec (.mulhsu 3 1 2) (start 0x1000 0x0000000000000001 0xffffffffffffffff)) =
    some (0x0000000000000000, 0x1004) := by decide
/-- M14. -/
theorem test_mulhu : seen (exec (.mulhu 3 1 2) (start 0x1000 0xffffffffffffffff 0xffffffffffffffff)) =
    some (0xfffffffffffffffe, 0x1004) := by decide
/-- M21. -/
theorem test_div : seen (exec (.div 3 1 2) (start 0x1000 0x8000000000000000 0xffffffffffffffff)) =
    some (0x8000000000000000, 0x1004) := by decide
/-- M26. -/
theorem test_divu : seen (exec (.divu 3 1 2) (start 0x1000 0x8000000000000000 0xffffffffffffffff)) =
    some (0x0000000000000000, 0x1004) := by decide
/-- M32. -/
theorem test_rem : seen (exec (.rem 3 1 2) (start 0x1000 0x8000000000000000 0xffffffffffffffff)) =
    some (0x0000000000000000, 0x1004) := by decide
/-- M33. -/
theorem test_remu : seen (exec (.remu 3 1 2) (start 0x1000 0xffffffffffffffff 0x0000000000000010)) =
    some (0x000000000000000f, 0x1004) := by decide
/-- M38. -/
theorem test_mulw : seen (exec (.mulw 3 1 2) (start 0x1000 0xffffffff00000003 0xffffffff00000005)) =
    some (0x000000000000000f, 0x1004) := by decide
/-- M43. -/
theorem test_divw : seen (exec (.divw 3 1 2) (start 0x1000 0xffffffff00000009 0x0000000100000003)) =
    some (0x0000000000000003, 0x1004) := by decide
/-- M45. -/
theorem test_divuw : seen (exec (.divuw 3 1 2) (start 0x1000 0x00000000ffffffff 0x0000000000000001)) =
    some (0xffffffffffffffff, 0x1004) := by decide
/-- M50. -/
theorem test_remw : seen (exec (.remw 3 1 2) (start 0x1000 0x0000000080000000 0xffffffffffffffff)) =
    some (0x0000000000000000, 0x1004) := by decide
/-- M52. -/
theorem test_remuw : seen (exec (.remuw 3 1 2) (start 0x1000 0x00000000ffffffff 0x0000000000000010)) =
    some (0x000000000000000f, 0x1004) := by decide

/-- Section 3.8, call 90: the argument reaches the host whole, no register changes, `pc` advances. -/
theorem test_ecall : (match exec .ecall ((start 0x1000 0 0).setReg 17 90 |>.setReg 10 0x41) with
    | .next t => some (t.trace, t.x[10], t.pc, t.counters.syscall)
    | .fault _ | .refused _ => none) = some ([.printChar 0x41], 0x41, 0x1004, 1) := by decide
/-- Section 3.8, call 93: the run halts with the argument as exit status. -/
theorem test_ecall_exit : (match exec .ecall ((start 0x1000 0 0).setReg 17 93 |>.setReg 10 7) with
    | .next t => some (t.status, t.trace)
    | .fault _ | .refused _ => none) = some (.halted 7, [.exit 7]) := by decide

/-! ## Witnesses: states and operands that meet the hypotheses of the statements -/

/-- A cache at reset meets its invariant. -/
theorem cacheInv_empty {cc : CacheConfig} {memSize rm : Nat} {view : Nat → Byte} {c : Cache} (h : c.entries = [])
    (hu : c.untouched = 0) : CacheInv cc memSize rm view c := by
  have blank : ∀ i, c.entry i = Entry.blank 0 := fun i => by simp [Cache.entry, h, hu, Sparse.find?]
  constructor <;> simp [blank, Entry.blank, h, Sparse.sorted]

/-- A state with legal, empty caches and a canonical memory meets the invariant of the hierarchy. -/
theorem hierarchy_of_empty {s : State} (legal : (s.cfg.l1.legal && s.cfg.l2.legal && s.cfg.llc.legal) = true)
    (h1 : s.l1.entries = [] ∧ s.l1.untouched = 0) (h2 : s.l2.entries = [] ∧ s.l2.untouched = 0)
    (h3 : s.llc.entries = [] ∧ s.llc.untouched = 0) (wf : s.mem.wf = true) : HierarchyInv s := by
  simp only [Bool.and_eq_true] at legal
  exact ⟨⟨legal.1.1, legal.1.2, legal.2⟩,
    ⟨cacheInv_empty h1.1 h1.2, cacheInv_empty h2.1 h2.2, cacheInv_empty h3.1 h3.2, wf⟩⟩

/-- The caches of R8 are legal. -/
theorem default_legal : (Config.default.l1.legal && Config.default.l2.legal && Config.default.llc.legal) = true := by
  decide

/-- The value of a reply. -/
def replied {σ α : Type} : Reply σ α → Option α
  | .ok a _ => some a
  | .fatal _ _ => none

theorem replied_some {σ α : Type} {r : Reply σ α} {a : α} (h : replied r = some a) : ∃ s, r = .ok a s := by
  cases r with
  | ok b s => injection h with h; exact ⟨s, by rw [h]⟩
  | fatal _ _ => cases h

/-- A step answers a next state. -/
def answers : Host.Outcome State Fault Refusal → Bool
  | .next _ => true
  | .fault _ | .refused _ => false

theorem answers_next {o : Host.Outcome State Fault Refusal} (h : answers o = true) : ∃ t, o = .next t := by
  cases o with
  | next t => exact ⟨t, rfl⟩
  | fault _ => cases h
  | refused _ => cases h

/-- Reset with `pc` moved and the word `w` placed where it is fetched. -/
def code (pc : Word) (w : Nat) : State := ({ State.reset with pc := pc }).withFetchWord 32 w

theorem witness_DecodeEncode : (Instr.jal 31 (-1048576)).wf = true ∧ (Instr.bgeu 31 0 4094).wf = true := by decide
theorem witness_EncodeDecode : decode 0xfff1009b = .ok (.addiw 1 2 (-1)) := by decide
theorem witness_OneRowPerWord :
    (∃ a ∈ opcodeTable, a.accepts 0x00550533 = true) ∧ ∃ a ∈ opcodeTable, a.accepts 0x00000073 = true := by decide
theorem witness_UnknownOpcode : (0x0000000f : Raw).extractLsb' 0 7 ∉ [0b0110111#7, 0b0010111#7, 0b1101111#7,
    0b1100111#7, 0b1100011#7, 0b0000011#7, 0b0100011#7, 0b0010011#7, 0b0110011#7, 0b0011011#7, 0b0111011#7,
    0b1110011#7] := by decide
theorem witness_OnlyEcallInSystem : (0x00000073 : Raw).extractLsb' 0 7 = 0b1110011#7 ∧
    (0x00100073 : Raw).extractLsb' 0 7 = 0b1110011#7 := by decide
theorem witness_ResetInvariants : LegalCaches Config.default ∧
    LegalCaches { Config.default with l1 := ⟨64, 1, true, false⟩ } :=
  ⟨⟨by decide, by decide, by decide⟩, ⟨by decide, by decide, by decide⟩⟩

/-- One record for each condition; accepted directives before a record, of another cache among them; a base
configuration with an illegal record, and a legal one. -/
theorem witness_IllegalCacheConfiguration :
    ((⟨64, 0, false, true⟩ : CacheConfig).assoc = 0 ∧ (⟨0, 1, false, true⟩ : CacheConfig).size = 0 ∧
      65 % (1 * 64) ≠ 0 ∧ 320 / 64 % (320 / (2 * 64)) ≠ 0 ∧ ∀ k, 768 / (4 * 64) ≠ 2 ^ k) ∧
    (let before := [.latency .l1 ⟨2, 1⟩, .cache .l2 ⟨64, 1, true, false⟩];
      configure Config.default [] before =
        .ok { Config.default with l1Lat := ⟨2, 1⟩, l2 := ⟨64, 1, true, false⟩ } ∧
      .cache .l1 ⟨64, 0, false, true⟩ ∉ before) ∧
    configure { Config.default with llc := ⟨65, 1, false, true⟩ } [] [] =
      .ok { Config.default with llc := ⟨65, 1, false, true⟩ } ∧ illegalCache Config.default = none := by
  refine ⟨⟨rfl, rfl, by decide, by decide, fun k h => ?_⟩, by decide, by decide, by decide⟩
  rcases k with _ | _ | k
  · exact absurd h (by decide)
  · exact absurd h (by decide)
  · have := Nat.one_le_two_pow (n := k); omega

/-- ADD at the first and at the last word of a block. -/
theorem witness_StepRunsFetchedInstruction :
    (∃ raw u, fetch32 (code 0x1000 0x00550533).pc { code 0x1000 0x00550533 with memTime := 0 } = .ok raw u ∧
      decode raw = .ok (.add 10 10 5)) ∧ (code 0x1000 0x00550533).status = .running ∧
    (code 0x1000 0x00550533).cfg.level = .isa ∧ (code 0x1000 0x00550533).staleFetch = false := by
  obtain ⟨u, hu⟩ := replied_some (show replied (fetch32 (code 0x1000 0x00550533).pc
    { code 0x1000 0x00550533 with memTime := 0 }) = some 0x00550533 by decide)
  exact ⟨⟨_, u, hu, by decide⟩, by decide, by decide, by decide⟩

theorem witness_StepRunsVisibleInstruction : let s := code 0xfffffffc 0x00550533
    HierarchyInv s ∧ Mapped s s.pc 4 0xfffffffc ∧ decodeBytes (s.viewBytes 0xfffffffc 4) = .ok (.add 10 10 5) ∧
    s.status = .running ∧ s.cfg.level = .isa ∧ s.staleFetch = false :=
  ⟨hierarchy_of_empty (by decide) ⟨rfl, rfl⟩ ⟨rfl, rfl⟩ ⟨rfl, rfl⟩ (by decide), ⟨by decide, by decide, by unfold blockInMemory; decide⟩,
    by decide, by decide, by decide, by decide⟩

theorem witness_UnknownInstructionIsFatal : let s := State.reset
    HierarchyInv s ∧ Mapped s s.pc 4 0x1000 ∧ decode (rawOfBytes (s.viewBytes 0x1000 4)) =
      .error (.unknownInstruction (rawOfBytes (s.viewBytes 0x1000 4))) ∧ s.staleFetch = false ∧ s.status = .running ∧
      s.cfg.level = .isa :=
  ⟨hierarchy_of_empty (by decide) ⟨rfl, rfl⟩ ⟨rfl, rfl⟩ ⟨rfl, rfl⟩ (by decide), ⟨by decide, by decide, by unfold blockInMemory; decide⟩,
    by decide, by decide, rfl, rfl⟩

/-- Reset with a `pc` and a memory size. -/
def sized (pc : Word) (memSize : Nat) : State :=
  { State.reset with pc := pc, cfg := { Config.default with memSize := memSize } }

/-- The first unmapped address; a word from the byte 61 of a block; a block of which 36 bytes exist. -/
theorem witness_FetchFatal :
    (∀ pc n, HierarchyInv (sized pc n) ∧ (sized pc n).status = .running ∧ (sized pc n).cfg.level = .isa ∧
      (sized pc n).staleFetch = false) ∧
    translate (sized 0x100000000 0x100000000).cfg (sized 0x100000000 0x100000000).pc = none ∧
    translate (sized 61 100).cfg (sized 61 100).pc = some 61 ∧ 60 < 61 % 64 ∧
    translate (sized 64 100).cfg (sized 64 100).pc = some 64 ∧ ¬ blockInMemory (sized 64 100).cfg.memSize 64 := by
  refine ⟨fun pc n => ⟨hierarchy_of_empty default_legal ⟨rfl, rfl⟩ ⟨rfl, rfl⟩ ⟨rfl, rfl⟩ reset_mem_wf, rfl, rfl, ?_⟩, by decide, by decide, by decide,
    by decide, by unfold blockInMemory; decide⟩
  simp only [State.staleFetch, sized, State.reset, List.any_nil]
  split <;> simp

theorem witness_StepOfEachStatus :
    { State.reset with cfg := { Config.default with level := .cycle } }.status = .running ∧
    (halt 7 State.reset).status = .halted 7 ∧ (raiseFatal .divide State.reset).status = .fatal .divide := by decide

/-- A store of 8 bytes whose last byte is the first of the fetched word, one whose first byte is its last, and one
that begins behind it. -/
theorem witness_StaleFetchRefused :
    { State.reset with recentStores := [none, none, some (0xff9, 8)] }.staleFetch = true ∧
    { State.reset with recentStores := [some (0x1003, 1)] }.staleFetch = true ∧
    { State.reset with recentStores := [some (0x1004, 8), some (0xff8, 8)] }.staleFetch = false ∧
    translate State.reset.cfg State.reset.pc = some 0x1000 := by decide

/-- The most negative number by 1, its successor by -1, 0 by -1, and the low halves of the same. -/
theorem witness_Divide :
    ([(0x8000000000000000, 1), (0x8000000000000001, 0xffffffffffffffff), (0, 0xffffffffffffffff)] : List (Word × Word)).all
      (fun p => (start 0 p.1 p.2).reg 2 ≠ 0 ∧ ¬ (((start 0 p.1 p.2).reg 1).toInt = -9223372036854775808 ∧
        ((start 0 p.1 p.2).reg 2).toInt = -1)) = true ∧ (-2 ^ 63 : Int) = -9223372036854775808 :=
  ⟨by decide, by norm_num⟩
theorem witness_DivideWord :
    ([(0x80000000, 1), (0x80000001, 0xffffffff), (0, 0xffffffff)] : List (Word × Word)).all
      (fun p => ((start 0 p.1 p.2).reg 2).setWidth 32 ≠ 0#32 ∧
        ¬ ((((start 0 p.1 p.2).reg 1).setWidth 32).toInt = -2147483648 ∧
          (((start 0 p.1 p.2).reg 2).setWidth 32).toInt = -1)) = true ∧ (-2 ^ 31 : Int) = -2147483648 :=
  ⟨by decide, by norm_num⟩

/-- Both policies; zero and overflow, of both widths; a word operand of zero under a high half that is not. -/
theorem witness_DivisionCorners :
    State.reset.cfg.divPolicy = .riscv ∧
    { State.reset with cfg := { Config.default with divPolicy := .fatal } }.cfg.divPolicy = .fatal ∧
    (start 0 5 0).reg 2 = 0 ∧
    ((start 0 0x8000000000000000 0xFFFFFFFFFFFFFFFF).reg 1 = 0x8000000000000000 ∧
      (start 0 0x8000000000000000 0xFFFFFFFFFFFFFFFF).reg 2 = 0xFFFFFFFFFFFFFFFF) ∧
    ((start 0 5 0x100000000).reg 2).setWidth 32 = 0#32 ∧
    ((start 0 0x80000000 0xFFFFFFFF).reg 1).setWidth 32 = 0x80000000#32 ∧
    ((start 0 0x80000000 0xFFFFFFFF).reg 2).setWidth 32 = 0xFFFFFFFF#32 := by decide

/-- The last bytes of a block, and of the memory. -/
theorem witness_LoadsAndStores :
    (let s := start 0x1000 0x2040 0;
      HierarchyInv s ∧ Mapped s (s.effectiveAddress 1 (-1)) 1 0x203f ∧ Mapped s (s.effectiveAddress 1 (-2)) 2 0x203e ∧
      Mapped s (s.effectiveAddress 1 (-4)) 4 0x203c ∧ Mapped s (s.effectiveAddress 1 (-8)) 8 0x2038) ∧
    Mapped (start 0x1000 0 0) ((start 0x1000 0 0).effectiveAddress 1 0) 8 0 ∧
      Mapped (start 0x1000 0xfffffff8 0) ((start 0x1000 0xfffffff8 0).effectiveAddress 1 0) 8 0xfffffff8 := by
  have h : ∀ pa, pa ≤ 0xffffffff → blockInMemory 0x100000000 pa := by unfold blockInMemory; omega
  exact ⟨⟨hierarchy_of_empty (by decide) ⟨rfl, rfl⟩ ⟨rfl, rfl⟩ ⟨rfl, rfl⟩ (by decide), ⟨by decide, by decide, h _ (by decide)⟩,
    ⟨by decide, by decide, h _ (by decide)⟩, ⟨by decide, by decide, h _ (by decide)⟩,
    ⟨by decide, by decide, h _ (by decide)⟩⟩,
    ⟨⟨by decide, by decide, h _ (by decide)⟩, ⟨by decide, by decide, h _ (by decide)⟩⟩⟩

/-- A memory of 100 bytes under caches that forward every write miss. -/
def forwarding : State :=
  { State.reset with
    cfg := { Config.default with
      memSize := 100, l1 := ⟨64, 1, true, false⟩, l2 := ⟨64, 1, true, false⟩, llc := ⟨64, 1, true, false⟩ } }

theorem forwarding_hierarchy : HierarchyInv forwarding :=
  hierarchy_of_empty (by decide) ⟨rfl, rfl⟩ ⟨rfl, rfl⟩ ⟨rfl, rfl⟩ reset_mem_wf

/-- A store of the last four bytes of a memory of 100, in a block of which 36 exist. -/
theorem witness_StoreInstructions :
    HierarchyInv forwarding ∧ Storable forwarding (forwarding.effectiveAddress 0 96) 4 96 ∧
    ¬ blockInMemory forwarding.cfg.memSize 96 :=
  ⟨forwarding_hierarchy, ⟨by decide, by decide, .inr (by decide)⟩, by unfold blockInMemory; decide⟩

/-- The first unmapped address; eight bytes from byte 57 of a block; a block of which 36 bytes exist, fetched by a load
and by a store; and bytes 96 to 103 of a memory of 100, forwarded. -/
theorem witness_LoadStoreFatal :
    (∀ pc n, HierarchyInv (sized pc n)) ∧ HierarchyInv forwarding ∧
    (let s := sized 0 100;
      ReadFails s (s.effectiveAddress 0 100) 1 (.translationMiss 100) ∧
      ReadFails s (s.effectiveAddress 0 57) 8 (.blockCrossing 57 8) ∧
      ReadFails s (s.effectiveAddress 0 65) 1 (.memoryRange 64 64) ∧
      WriteFails s (s.effectiveAddress 0 100) 1 (.translationMiss 100) ∧
      WriteFails s (s.effectiveAddress 0 57) 8 (.blockCrossing 57 8) ∧
      WriteFails s (s.effectiveAddress 0 65) 1 (.memoryRange 64 64)) ∧
    WriteFails forwarding (forwarding.effectiveAddress 0 96) 8 (.memoryRange 96 8) :=
  ⟨fun _ _ => hierarchy_of_empty default_legal ⟨rfl, rfl⟩ ⟨rfl, rfl⟩ ⟨rfl, rfl⟩ reset_mem_wf, forwarding_hierarchy,
    ⟨.unmapped (by decide), .crossing 57 (by decide) (by decide),
      .outside 65 (by decide) (by decide) (by unfold blockInMemory; decide),
      .unmapped (by decide), .crossing 57 (by decide) (by decide),
      .blockOutside 65 (by decide) (by decide) (by decide) (by unfold blockInMemory; decide)⟩,
    .bytesOutside 96 (by decide) (by decide) (by decide) (by decide)⟩

/-- Eight bytes at the end of a block, read again at an offset of 6 and whole. -/
theorem witness_MixedWidthAccess :
    HierarchyInv State.reset ∧ Mapped State.reset 0x2038 8 0x2038 ∧
    translate State.reset.cfg (0x2038 + BitVec.ofNat 64 0) = some (0x2038 + 0) ∧ 0 + 8 ≤ 8 ∧
    translate State.reset.cfg (0x2038 + 6) = some (0x2038 + 6) ∧ 6 + 2 ≤ 8 :=
  ⟨hierarchy_of_empty (by decide) ⟨rfl, rfl⟩ ⟨rfl, rfl⟩ ⟨rfl, rfl⟩ (by decide), ⟨by decide, by decide, by unfold blockInMemory; decide⟩,
    by decide, by decide, by decide, by decide⟩

theorem witness_LoadAfterStore : let s := start 0x1000 0x2040 0xFFFFFFFF80000000
    HierarchyInv s ∧ Mapped s (s.effectiveAddress 1 (-4)) 4 0x203c ∧ s.reg 2 = 0xFFFFFFFF80000000 :=
  ⟨hierarchy_of_empty (by decide) ⟨rfl, rfl⟩ ⟨rfl, rfl⟩ ⟨rfl, rfl⟩ (by decide), ⟨by decide, by decide, by unfold blockInMemory; decide⟩,
    by decide⟩

/-- The default caches and direct-mapped, write-through, no-allocate ones of one block. -/
theorem witness_CacheNeverChangesALoad :
    let t := { State.reset with cfg := { Config.default with l1 := ⟨64, 1, true, false⟩, l2 := ⟨64, 1, true, false⟩ } }
    HierarchyInv State.reset ∧ HierarchyInv t ∧ Mapped State.reset 0x2038 8 0x2038 ∧ Mapped t 0x2038 8 0x2038 ∧
    ∀ a, State.reset.viewByte a = t.viewByte a := by
  refine ⟨hierarchy_of_empty (by decide) ⟨rfl, rfl⟩ ⟨rfl, rfl⟩ ⟨rfl, rfl⟩ (by decide), hierarchy_of_empty (by decide) ⟨rfl, rfl⟩ ⟨rfl, rfl⟩ ⟨rfl, rfl⟩ (by decide),
    ⟨by decide, by decide, by unfold blockInMemory; decide⟩, ⟨by decide, by decide, by unfold blockInMemory; decide⟩,
    fun a => ?_⟩
  have look : ∀ cc pa, Cache.empty.lookup cc pa = none := by
    intro cc pa; simp [Cache.lookup, Cache.holds, Cache.entry, Entry.blank, Cache.empty, Sparse.find?]
  simp only [State.viewByte, State.chain, chainView, l2View, llcView, cacheView, State.reset, look]

/-- A machine about to make the call `n` with argument `a`. -/
def calling (n a : Word) : State := (State.reset.setReg 17 n).setReg 10 a

theorem witness_SleepAndPrintCalls : ([88, 89, 90] : List Word).all (fun n =>
    (calling n 0xffffffffffffffff).status = .running ∧
    (calling n 0xffffffffffffffff).reg (calling n 0xffffffffffffffff).cfg.sysNumReg = n) = true := by decide

/-- An empty string at the last mapped address: no byte after it need be mapped. -/
theorem witness_PrintStringCall : let s := calling 91 0xffffffff
    s.status = .running ∧ s.reg s.cfg.sysNumReg = 91 ∧ HierarchyInv s ∧
    ∀ k, k < s.cfg.strCap → (∀ j, j < k → s.viewByte (0xffffffff + j) ≠ 0) →
      Mapped s (s.reg s.cfg.sysArgReg + BitVec.ofNat 64 k) 1 (0xffffffff + k) := by
  refine ⟨by decide, by decide, hierarchy_of_empty (by decide) ⟨rfl, rfl⟩ ⟨rfl, rfl⟩ ⟨rfl, rfl⟩ (by decide), fun k _ h => ?_⟩
  rcases k with _ | k
  · exact ⟨by decide, by decide, by unfold blockInMemory; decide⟩
  · exact absurd (by decide) (h 0 (Nat.succ_pos k))

/-- With an integer listed and without one. -/
theorem witness_ReadIntegerCall :
    { calling 92 0 with input := [5, 6] }.reg 17 = 92 ∧ { calling 92 0 with input := [5, 6] }.input = 5 :: [6] ∧
    (calling 92 0).reg (calling 92 0).cfg.sysNumReg = 92 ∧ (calling 92 0).input = [] := by decide
theorem witness_ExitCall : (calling 93 7).reg (calling 93 7).cfg.sysNumReg = 93 := by decide
/-- The numbers next to 88 to 93; a string at the first unmapped address. -/
theorem witness_FatalCalls :
    ([0, 87, 94] : List Word).all (fun n => (calling n 0).reg (calling n 0).cfg.sysNumReg ∉ [88, 89, 90, 91, 92, 93]) = true ∧
    (calling 91 0x100000000).reg (calling 91 0x100000000).cfg.sysNumReg = 91 ∧ 0 < (calling 91 0x100000000).cfg.strCap ∧
    translate (calling 91 0x100000000).cfg ((calling 91 0x100000000).reg (calling 91 0x100000000).cfg.sysArgReg) = none := by
  decide

/-- The last mapped byte and the first unmapped one, also of a memory of 100 bytes; a table. -/
theorem witness_TranslationPort :
    translate (sized 0 100).cfg 99 = some 99 ∧ translate (sized 0 100).cfg 100 = none ∧ 100 % 64 ≠ 0 ∧
    translate Config.default 0xffffffff = some 0xffffffff ∧ Config.default.memSize % 64 = 0 ∧
    translate Config.default 0x100000000 = none ∧
    Machine.translate { Config.default with translation := .table [(1, 3)] } 64 = some 192 ∧ (64 : Word).toNat % 64 + 63 < 64 := by
  decide

/-- Up to the end of a memory of 100 bytes, and one byte beyond it. -/
theorem witness_FlatMemoryRequest : 96 + 4 ≤ 100 ∧ 100 < 97 + 4 ∧ 96 + [1, 2, 3, (4 : Byte)].length ≤ 100 ∧
    100 < 97 + [1, 2, 3, (4 : Byte)].length := by decide

/-- Inside the memory, and in a block of which 36 bytes exist. -/
theorem witness_CoherentView :
    let ch : Chain := (Cache.empty, Cache.empty, Cache.empty, FlatMemory.zero)
    LegalCaches Config.default ∧ ChainInv Config.default ch ∧ blockInMemory Config.default.memSize 0xffffffff ∧
    0xffffffff % 64 + 1 ≤ 64 ∧ ChainInv (sized 0 100).cfg ch ∧ ¬ blockInMemory (sized 0 100).cfg.memSize 64 :=
  ⟨⟨by decide, by decide, by decide⟩, ⟨cacheInv_empty rfl rfl, cacheInv_empty rfl rfl, cacheInv_empty rfl rfl, by decide⟩,
    by unfold blockInMemory; decide, by decide,
    ⟨cacheInv_empty rfl rfl, cacheInv_empty rfl rfl, cacheInv_empty rfl rfl, by decide⟩, by unfold blockInMemory; decide⟩

/-- A cache of one set of two ways, with a block at address 0 in entry 0 and, in entry 1, what is given. -/
def twoWays (e : Option Entry) : Cache :=
  let first : Entry := { valid := true, dirty := false, tag := 0, recency := 1, data := List.replicate 64 7 }
  { Cache.empty with untouched := 1, entries := (0, first) :: (match e with | some e => [(1, e)] | none => []) }

/-- A valid block at address 64. -/
def secondWay (dirty : Bool) : Entry :=
  { valid := true, dirty := dirty, tag := 1, recency := 9, data := List.replicate 64 8 }

/-- A hit at both ends of the block under both write policies; a miss of the next block with no-allocate; and one that
fills the free entry, over the flat memory. -/
theorem witness_CacheHitAndForward :
    (∀ wt, (twoWays none).lookup ⟨128, 2, wt, true⟩ 63 = some 0) ∧ ((twoWays none).entry 1).recency = 1 ∧
    63 % 64 + 1 ≤ 64 ∧ (∀ wa, (twoWays none).lookup ⟨128, 2, false, wa⟩ 64 = none) ∧
    let lower := memRequest 4096 ⟨100, 0⟩
    let mem := FlatMemory.zero.count ⟨100, 0⟩
    let written := (mem.writeBytes 64 [1]).count ⟨100, 0⟩
    lower (.write 64 [1]) FlatMemory.zero =
      .ok ⟨true, 100, []⟩ ((FlatMemory.zero.writeBytes 64 [1]).count ⟨100, 0⟩) ∧
    makeRoom lower ⟨⟨128, 2, false, true⟩, ⟨1, 0⟩, 9⟩ (64 / 64 % setCount ⟨128, 2, false, true⟩)
      (twoWays none, FlatMemory.zero) = .ok 1 (twoWays none, FlatMemory.zero) ∧
    lower (.read (64 - 64 % 64) 64) FlatMemory.zero = .ok ⟨true, 100, List.replicate 64 0⟩ mem ∧
    lower (.write 64 [1]) mem = .ok ⟨true, 100, []⟩ written ∧
    lower (.read (64 - 64 % 64) 64) written =
      .ok ⟨true, 100, 1 :: List.replicate 63 0⟩ (written.count ⟨100, 0⟩) := by decide

theorem witness_ColdMissLatency : LegalCaches Config.default ∧ blockInMemory Config.default.memSize 0xffffffff ∧
    0xffffffff % 64 + 1 ≤ 64 ∧ Config.default.l1Lat = ⟨1, 0⟩ ∧ Config.default.l2Lat = ⟨8, 0⟩ ∧
    Config.default.llcLat = ⟨20, 0⟩ ∧ Config.default.memLat = ⟨100, 0⟩ :=
  ⟨⟨by decide, by decide, by decide⟩, by unfold blockInMemory; decide, by decide, rfl, rfl, rfl, rfl⟩

/-- A set whose second entry is free; a full one, whose victim is clean or dirty. -/
theorem witness_Replacement :
    (((twoWays none).entry 1).valid = false ∧ ∀ j, j < 1 → ((twoWays none).entry j).valid = true) ∧
    (∀ d, ∀ i, i < 2 → ((twoWays (some (secondWay d))).entry i).valid = true) ∧
    (∀ d, (twoWays (some (secondWay d))).victim ⟨128, 2, false, true⟩ 0 = 1) ∧
    entryBase ⟨128, 2, false, true⟩ 1 1 = 64 := by decide

/-- R101 ages every other entry, valid or not: after a fill and a hit of entry 5, entry 0, never filled, has recency 2
and entry 5 has 0. -/
theorem test_touch_ages_every_entry :
    let c := (Cache.empty.install 9 5 0 (List.replicate 64 0)).touch 9 5
    (c.entry 0).recency = 2 ∧ (c.entry 5).recency = 0 := by decide

/-- The predictor after reset, with each scheme, in the first and the last bucket. -/
theorem witness_PredictorUpdate :
    (∀ scheme, PredictorInv { Config.default with predScheme := scheme } Predictor.initial) ∧
    (0 : Word).toNat / 4 % Config.default.predBuckets = 0 ∧
    (0xffffffffffffffff : Word).toNat / 4 % Config.default.predBuckets = 1023 :=
  ⟨fun _ => ⟨rfl, rfl, rfl, fun _ => Nat.two_pow_pos 4⟩, by decide, by decide⟩

/-! ### Pipelines -/

/-- DE as Decode fills it from an instruction. -/
def inDE (i : Instr) (v1 v2 : Word) (predTaken : Bool) : DecodeExecute :=
  let o := operandsOf i
  { pc := 0x1000, raw := encode i, op := i.mnemonic, fmt := classFormat (opClass i.mnemonic), imm := o.imm,
    rs1 := o.rs1, rs2 := o.rs2, v1 := v1, v2 := v2, rdAlu := rdAluOf i, rdMem := rdMemOf i, predTaken := predTaken }

/-- MW of an instruction. -/
def inMW (i : Instr) (alu mval : Word) : MemoryWriteback := memoryOut { executeOut (inDE i 0 0 false) with alu := alu } mval

/-- FD of an instruction. -/
def inFD (i : Instr) : FetchDecode := { pc := 0x1004, raw := encode i, predTaken := false }

/-- A running machine at level CYCLE with these registers. -/
def pipe (fd : Option Instr) (de : Option DecodeExecute) (mw : Option MemoryWriteback) : State :=
  { State.reset with cfg := { Config.default with level := .cycle }, fd := fd.map inFD, de := de, mw := mw }

/-- The pipeline of `pipe` with a word at its fetch address 0x1000, and predictor counters all `init`. -/
def fetching (w : Nat) (init : BitVec 2) (fd : Option Instr) (de : Option DecodeExecute) : State :=
  let s := pipe fd de none
  { s.pokeBytes 0x1000 (leBytes 4 w) with cfg := { s.cfg with predInit := init } }

/-- The normal case of R334 behind a JAL, a branch predicted taken and not taken, and an ADD, with an ADD in Decode that
reads twice what Execute writes, or a bubble. -/
theorem witness_OperandForwarding_normal :
    (∀ w init fd de, (fetching w init fd de).pcf.drain = false) ∧
    ([(0xfe9ff06f, 0), (0xfe029ce3, 3), (0xfe029ce3, 0), (0x00550533, 0)] : List (Nat × BitVec 2)).all (fun p =>
      let s := fetching p.1 p.2 (some (.add 6 5 5)) (some (inDE (.addi 5 1 0) 7 0 false))
      decide ((cycle s).status = .running) && rawOfBytes (s.viewBytes 0x1000 4) == BitVec.ofNat 32 p.1 &&
        s.mem.wf && s.l1.entries.isEmpty && s.l2.entries.isEmpty && s.llc.entries.isEmpty &&
        decide (translate s.cfg s.pcf.pc = some 0x1000)) = true ∧
    (cycle (fetching 0x00550533 0 none none)).status = .running ∧
    executeRedirect (inDE (.addi 5 1 0) 7 0 false) = none ∧ (inDE (.addi 5 1 0) 7 0 false).rdMem = 0 ∧
    decode (inFD (.add 6 5 5)).raw = .ok (.add 6 5 5) ∧
    PlainAccess Config.default.memSize 0x1000 4 :=
  ⟨fun _ _ _ _ => rfl, by decide, by decide, by decide, by decide, by decide,
    ⟨by decide, by unfold blockInMemory; decide⟩⟩

/-- Three producers of the same register, the one in Execute a load or not. -/
theorem witness_OperandForwarding :
    (∀ i ∈ [Instr.ld 5 1 0, .addi 5 1 0], (executeOut (inDE i 1 2 false)).rdAlu = 0 ∨ (executeOut (inDE i 1 2 false)).rdMem = 0) ∧
    (inMW (.ld 5 1 0) 3 4).rdAlu = 0 ∧ (inMW (.addi 5 1 0) 3 4).rdMem = 0 ∧
    (operand (pipe none none (some (inMW (.ld 5 1 0) 3 4))) (some (executeOut (inDE (.ld 5 1 0) 1 2 false)))
      (some (inMW (.addi 5 1 0) 3 4)) 5).isLoadUse = true ∧
    (operand (pipe none none (some (inMW (.ld 5 1 0) 3 4))) (some (executeOut (inDE (.ld 6 1 0) 1 2 false)))
      (some (inMW (.addi 5 1 0) 3 4)) 5).isLoadUse = false := by decide

/-- A load of x5, with an ADD behind it that reads x5 twice. -/
theorem witness_LoadUseStall : let s := pipe (some (.add 6 5 5)) (some (inDE (.ld 5 1 0) 0x2000 0 false)) none
    s.fd = some (inFD (.add 6 5 5)) ∧ decode (inFD (.add 6 5 5)).raw = .ok (.add 6 5 5) ∧
    opClass (inDE (.ld 5 1 0) 0x2000 0 false).op = .load ∧ (inDE (.ld 5 1 0) 0x2000 0 false).rdAlu = 0 ∧
    (operandsOf (.add 6 5 5)).rs1 = (inDE (.ld 5 1 0) 0x2000 0 false).rdMem ∧
    (operandsOf (.add 6 5 5)).rs2 = (inDE (.ld 5 1 0) 0x2000 0 false).rdMem ∧
    (cycle s).status = .running ∧ (cycle (cycle s)).status = .running := by decide

/-- A JALR; a branch that is taken and was predicted not taken, and the reverse; one that was predicted well. -/
theorem witness_ControlHazardFlush :
    (∀ d ∈ [inDE (.jalr 1 2 1) 0x2000 0 false, inDE (.beq 1 2 8) 5 5 false, inDE (.beq 1 2 8) 5 6 true,
        inDE (.beq 1 2 8) 5 5 true],
      (cycle (pipe none (some d) none)).status = .running ∧ (cycle (cycle (pipe none (some d) none))).status = .running ∨
      d.predTaken = branchTaken d.op d.v1 d.v2) ∧
    (cycle (pipe none (some (inDE (.beq 1 2 8) 5 5 true)) none)).status = .running ∧
    branchTaken .beq 5 5 = true ∧ branchTaken .beq 5 6 = false := by decide

/-- A conditional branch in Execute, another instruction there, and a bubble. -/
theorem witness_BranchResolution :
    (cycle (pipe none (some (inDE (.bltu 1 2 8) 5 6 true)) none)).status = .running ∧
    opClass (inDE (.bltu 1 2 8) 5 6 true).op = .branch ∧
    (cycle (pipe none (some (inDE (.jalr 1 2 0) 0x2000 0 false)) none)).status = .running ∧
    opClass (inDE (.jalr 1 2 0) 0x2000 0 false).op ≠ .branch ∧
    (cycle (pipe none none none)).status = .running := by decide

/-- An ECALL in Decode; a draining pipeline with nothing in flight, and with the call 88 in Writeback. -/
theorem witness_SystemCallDrain :
    ((cycle (pipe (some .ecall) none none)).status = .running ∧ decode (inFD .ecall).raw = .ok .ecall) ∧
    (let s := { pipe none none none with pcf := { pc := 0x1004, drain := true } };
      (cycle s).status = .running ∧ s.fd = none ∧ s.pcf.drain = true ∧ s.em = none ∧ s.mw = none) ∧
    let s := { (pipe none none (some (inMW .ecall 0 0))).setReg 17 88 with pcf := { pc := 0x1004, drain := true } }
    (cycle s).status = .running ∧ s.fd = none ∧ s.mw = some (inMW .ecall 0 0) ∧ (inMW .ecall 0 0).op = .ecall := by
  decide

/-- A machine whose system call is in Writeback, its number in x17 and its argument in x10, with the byte 0x41 last in
memory. -/
def inWritebackStage (n a : Word) : State :=
  { (((pipe none none (some (inMW .ecall 0 0))).setReg 17 n).setReg 10 a).pokeByte 0xffffffff 0x41 with
    pcf := { pc := 0x1004, drain := true } }

/-- The call 91 in Writeback with the string at 0x2000: empty, or one byte before a zero, or one byte under a cap of 1. -/
def inWritebackString (byte : Byte) (cap : Nat) : State :=
  let s := (inWritebackStage 91 0x2000).pokeByte 0x2000 byte
  { s with cfg := { s.cfg with strCap := cap } }

/-- Such a machine has the pipeline's shape and the invariant of the hierarchy, and its cycle goes on running. -/
theorem inWritebackString_meets :
    (∀ b cap, PipelineShape (inWritebackString b cap)) ∧
    HierarchyInv (inWritebackString 0 100) ∧ HierarchyInv (inWritebackString 0x41 100) ∧
    HierarchyInv (inWritebackString 0x41 1) ∧ dispatchesString (inWritebackString 0x41 1) ∧
    ([(0, 100), (0x41, 100), (0x41, 1)] : List (Byte × Nat)).all (fun p =>
      decide ((cycle (inWritebackString p.1 p.2)).status = .running)) = true :=
  ⟨fun _ _ => .draining 2 rfl rfl (.inWriteback (inMW .ecall 0 0) rfl rfl rfl rfl),
    hierarchy_of_empty (by decide) ⟨rfl, rfl⟩ ⟨rfl, rfl⟩ ⟨rfl, rfl⟩ (by decide),
    hierarchy_of_empty (by decide) ⟨rfl, rfl⟩ ⟨rfl, rfl⟩ ⟨rfl, rfl⟩ (by decide),
    hierarchy_of_empty (by decide) ⟨rfl, rfl⟩ ⟨rfl, rfl⟩ ⟨rfl, rfl⟩ (by decide), ⟨⟨_, rfl, rfl⟩, rfl⟩, by decide⟩

/-- Writeback with a bubble, an ADDI, a load, and each of the six calls; 91 with strings whose bytes are mapped. -/
theorem witness_RegisterWritesOnlyInWriteback :
    (∀ w ∈ [none, some (inMW (.addi 5 1 0) 3 4), some (inMW (.ld 5 1 0) 3 4)], (cycle (pipe none none w)).status = .running) ∧
    ([88, 89, 90, 92] : List Word).all (fun n => decide ((cycle (inWritebackStage n 7)).status = .running) &&
      (inWritebackStage n 7).reg (inWritebackStage n 7).cfg.sysNumReg == n) = true ∧
    (cycle { inWritebackStage 92 0 with input := [5] }).status = .running ∧
    (cycle (inWritebackStage 93 7)).status = .halted 7 ∧
    (∀ k, k < 1 → translate (inWritebackString 0x41 1).cfg (0x2000 + BitVec.ofNat 64 k) = some (0x2000 + k)) ∧
    (inWritebackString 0x41 1).reg 10 = 0x2000 ∧
    (inMW (.addi 5 1 0) 3 4).op ≠ .ecall ∧ (inMW .ecall 0 0).op = .ecall := by decide

/-- Execute with an instruction, with a bubble, and the cycle of an exit call; and strings that end at the first byte,
at the second, and at the cap. -/
theorem witness_CycleTicks :
    (cycle (pipe none (some (inDE (.mul 1 2 3) 5 6 false)) none)).status = .running ∧
    (cycle (pipe none none none)).status = .running ∧
    (cycle ((pipe none none (some (inMW .ecall 0 0))).setReg 17 93)).status = .halted 0 ∧
    (inWritebackString 0 100).viewByte 0x2000 = 0 ∧ (inWritebackString 0x41 100).viewByte 0x2000 ≠ 0 ∧
    (inWritebackString 0x41 100).viewByte (0x2000 + 1) = 0 ∧ 1 = (inWritebackString 0x41 1).cfg.strCap ∧
    ∀ k, k < 2 → translate (inWritebackString 0x41 100).cfg (0x2000 + BitVec.ofNat 64 k) = some (0x2000 + k) := by
  decide

/-- R340: no request, mem_time 0 while draining; a fetch that misses everywhere, 129 by default (R114). -/
theorem test_memTime :
    (cycle (inWritebackStage 88 0)).memTime = 0 ∧ (cycle (pipe none none none)).memTime = 129 := by decide

/-- A running machine at level CYCLE with this instruction in EM, over a memory of 0x2010 bytes. -/
def inMemoryStage (i : Instr) (address : Word) (forward : Bool) : State :=
  { State.reset with
    cfg := { Config.default with
      level := .cycle, memSize := 0x2010, l1 := ⟨64, 1, forward, !forward⟩, l2 := ⟨64, 1, forward, !forward⟩,
      llc := ⟨64, 1, forward, !forward⟩ }
    em := some (executeOut (inDE i address 0 false)) }

/-- Fetch at an unmapped address; an unknown word in Decode; a division by zero in Execute; in Memory an unmapped
address, eight bytes from byte 57 of a block, a block not wholly in memory, and bytes of it forwarded; in Writeback the
number 87, and a string that runs out of the mapped addresses. -/
theorem witness_FatalCycle :
    (let unmapped := { pipe none none none with pcf := { pc := 0x100000000, drain := false } };
      let unknown := { pipe none none none with fd := some { pc := 0x1004, raw := 0, predTaken := false } };
      let zero := { pipe none (some (inDE (.div 1 2 3) 5 0 false)) none with
        cfg := { Config.default with level := .cycle, divPolicy := .fatal } };
      (cycle unmapped).status = .fatal (.translationMiss 0x100000000) ∧ unmapped.status = .running ∧
      ReadFails unmapped unmapped.pcf.pc 4 (.translationMiss 0x100000000) ∧
      (cycle unknown).status = .fatal (.unknownInstruction 0 0x1004) ∧ unknown.status = .running ∧
      (cycle zero).status = .fatal .divide ∧ zero.status = .running) ∧
    (∀ i a f, HierarchyInv (inMemoryStage i a f) ∧ Mapped (inMemoryStage i a f) (inMemoryStage i a f).pcf.pc 4 0x1000) ∧
    ReadFails (inMemoryStage (.ld 5 1 0) 0x2010 false) 0x2010 8 (.translationMiss 0x2010) ∧
    ReadFails (inMemoryStage (.ld 5 1 0) 0x1039 false) 0x1039 8 (.blockCrossing 0x1039 8) ∧
    ReadFails (inMemoryStage (.ld 5 1 0) 0x2008 false) 0x2008 8 (.memoryRange 0x2000 64) ∧
    WriteFails (inMemoryStage (.sd 1 2 0) 0x2008 false) 0x2008 8 (.memoryRange 0x2000 64) ∧
    WriteFails (inMemoryStage (.sd 1 2 0) 0x200c true) 0x200c 8 (.memoryRange 0x200c 8) ∧
    (cycle (inMemoryStage (.sd 1 2 0) 0x200c true)).status = .fatal (.memoryRange 0x200c 8) ∧
    (∀ n a, PipelineShape (inWritebackStage n a)) ∧
    (inWritebackStage 87 0).reg 17 = 87 ∧ (inWritebackStage 91 0xffffffff).reg 17 = 91 ∧
    Mapped (inWritebackStage 91 0xffffffff) 0xffffffff 1 0xffffffff ∧
    (inWritebackStage 91 0xffffffff).viewByte 0xffffffff ≠ 0 ∧
    ReadFails (inWritebackStage 91 0xffffffff) 0x100000000 1 (.translationMiss 0x100000000) ∧
    (cycle (inWritebackStage 91 0xffffffff)).status = .fatal (.translationMiss 0x100000000) := by
  refine ⟨⟨by decide, by decide, .unmapped (by decide), by decide, by decide, by decide, by decide⟩,
    fun i a f => ⟨?_, ?_, ?_, ?_⟩, .unmapped (by decide), .crossing 0x1039 (by decide) (by decide),
    .outside 0x2008 (by decide) (by decide) (by unfold blockInMemory; decide),
    .blockOutside 0x2008 (by decide) (by decide) (by decide) (by unfold blockInMemory; decide),
    .bytesOutside 0x200c (by decide) (by decide) (by decide) (by decide), by decide, fun n a => ?_, by decide,
    by decide, ⟨by decide, by decide, by unfold blockInMemory; decide⟩, by decide, .unmapped (by decide), by decide⟩
  · have legal : ∀ b, (CacheConfig.mk 64 1 b !b).legal = true := by decide
    exact hierarchy_of_empty (by simp [inMemoryStage, legal]) ⟨rfl, rfl⟩ ⟨rfl, rfl⟩ ⟨rfl, rfl⟩ reset_mem_wf
  · rfl
  · show 0x1000 % 64 + 4 ≤ 64; decide
  · show (0x1000 / 64 + 1) * 64 ≤ 0x2010; decide
  · exact .draining 2 rfl rfl (.inWriteback (inMW .ecall 0 0) rfl rfl rfl rfl)

/-- A load, an ADD, and a division by zero under DIV_POLICY = riscv. -/
theorem witness_ExecuteAgreesWithIsa :
    opClass (Instr.ld 1 2 3).mnemonic ∈ [.load, .store] ∧
    opClass (Instr.add 1 2 3).mnemonic ∉ [.load, .store, .system] ∧
    opClass (Instr.div 1 2 3).mnemonic ∉ [.load, .store, .system] ∧ State.reset.cfg.divPolicy ≠ .fatal := by decide

/-- One instruction of each class in Execute, and a bubble. -/
theorem witness_ExecuteAgreesWithIsa_execute :
    ([.lui 5 1, .addi 5 1 1, .add 5 1 2, .ld 5 1 0, .sd 1 2 0, .jal 1 8, .jalr 1 2 1, .beq 1 2 8, .ecall] :
      List Instr).all (fun i => decide ((cycle (pipe none (some (inDE i 0x2000 5 false)) none)).status = .running)) =
      true ∧
    (cycle (pipe none none none)).status = .running := by decide

/-- R320: a store's address is its first operand plus the immediate, and its data, the second, goes with it. -/
theorem test_execute_store : (cycle (pipe none (some (inDE (.sd 1 2 8) 0x2000 5 false)) none)).em.map
    (fun e => (e.alu, e.v2, e.rdAlu, e.rdMem)) = some (0x2008, 5, 0, 0) := by decide

/-- A load, a store and an ADDI in Memory, and a bubble: the last eight bytes before a block that is not wholly there. -/
theorem witness_ExecuteAgreesWithIsa_memory :
    HierarchyInv (inMemoryStage (.ld 5 1 0) 0x1ff8 false) ∧
    ([.ld 5 1 0, .sd 1 2 0, .addi 5 1 0] : List Instr).all (fun i =>
      decide ((cycle (inMemoryStage i 0x1ff8 false)).status = .running)) = true ∧
    translate (inMemoryStage (.ld 5 1 0) 0x1ff8 false).cfg (executeOut (inDE (.ld 5 1 0) 0x1ff8 0 false)).alu =
      some 0x1ff8 ∧
    (cycle (pipe none none none)).status = .running :=
  ⟨hierarchy_of_empty (by decide) ⟨rfl, rfl⟩ ⟨rfl, rfl⟩ ⟨rfl, rfl⟩ reset_mem_wf, by decide, by decide, by decide⟩

/-- One ECALL at ENTRY, with INIT_REGS[17] = 93. -/
def exitProgram : State :=
  State.resetWith { Config.default with level := .cycle }
    { BootParams.default with image := [(0x1000, 0x73)], initRegs := (Vector.replicate 32 0).set 17 93 }

/-- One more cycle of a running machine. -/
theorem reaches_cycle {s t : State} (h : Reaches s t) (running : t.status = .running) (level : t.cfg.level = .cycle) :
    Reaches s (cycle t) := by
  refine .step h ?_
  simp only [step, running, level]

/-- Reset, whose first cycle goes on; the last cycle of an exit call; and a whole run: fetch, decode, three more cycles. -/
theorem witness_CycleAccounting :
    (CycleAccount (pipe none none none) ∧ (cycle (pipe none none none)).status = .running) ∧
    (∃ t, Reaches exitProgram t ∧ t.status = .halted 0) := by
  refine ⟨⟨⟨.flowing rfl (fun h => absurd rfl h) ((fun _ h => nomatch h)) ((fun _ h => nomatch h))
    ((fun _ h => nomatch h)), rfl⟩, by decide⟩, ?_⟩
  have h1 := reaches_cycle (.refl exitProgram) (by decide) (by decide)
  have h2 := reaches_cycle h1 (by decide) (by decide)
  have h3 := reaches_cycle h2 (by decide) (by decide)
  have h4 := reaches_cycle h3 (by decide) (by decide)
  have h5 := reaches_cycle h4 (by decide) (by decide)
  exact ⟨_, h5, by decide⟩

/-- A state of either level meets every invariant and its next step answers a state. -/
theorem witness_InvariantKept :
    (let s := code 0x1000 0x00550533; s.Inv ∧ DecodedInv s ∧ ∃ t, step s = .next t) ∧
    (let s := pipe none none none; s.Inv ∧ DecodedInv s ∧ ∃ t, step s = .next t) :=
  ⟨⟨⟨rfl, hierarchy_of_empty (by decide) ⟨rfl, rfl⟩ ⟨rfl, rfl⟩ ⟨rfl, rfl⟩ (by decide), ⟨rfl, rfl, rfl, fun _ => Nat.two_pow_pos 4⟩,
      by decide⟩, ⟨(fun _ h => nomatch h), (fun _ h => nomatch h), (fun _ h => nomatch h)⟩, answers_next (by decide)⟩,
    ⟨⟨rfl, hierarchy_of_empty (by decide) ⟨rfl, rfl⟩ ⟨rfl, rfl⟩ ⟨rfl, rfl⟩ (by decide), ⟨rfl, rfl, rfl, fun _ => Nat.two_pow_pos 4⟩,
      by decide⟩, ⟨(fun _ h => nomatch h), (fun _ h => nomatch h), (fun _ h => nomatch h)⟩, ⟨_, rfl⟩⟩⟩

/-- What Decode leaves in DE, EM and MW. -/
theorem witness_DecodedKept : (inDE (.ld 5 1 0) 1 2 false).fromWord ∧
    (executeOut (inDE (.ld 5 1 0) 1 2 false)).fromWord ∧ (inMW (.ld 5 1 0) 3 4).fromWord :=
  ⟨⟨.ld 5 1 0, by decide, rfl, rfl, rfl, rfl, rfl⟩, ⟨.ld 5 1 0, by decide, rfl, rfl, rfl, rfl, rfl⟩,
    ⟨.ld 5 1 0, by decide, rfl, rfl, rfl, rfl⟩⟩

end Sys2Proof.Tests.Slice0
end

section
/-! SUPPORT. A step of level ISA on the bytes the program sees (R12, R72, R430): the chain of R91 is a coherent store,
a read of mapped bytes answers View, and a fetch leaves all but the caches as it was. -/

namespace Sys2Proof.Machine

/-! ## The chain L1, L2, LLC, MEM is a coherent store (R73, R91) -/

/-- What a request to L1 is refused for: each cache over what lies below it (R95, R106 to R108). -/
def chainRefused (cfg : Config) : Request → Option FatalReason :=
  cacheRefused cfg.l1 cfg.memSize
    (cacheRefused cfg.l2 cfg.memSize (cacheRefused cfg.llc cfg.memSize (memRefused cfg.memSize)))

/-- The invariant of the chain is that of each cache stacked on the store below it. -/
theorem chainInv_iff_stackInv (cfg : Config) (ch : Chain) :
    ChainInv cfg ch ↔
      StackInv cfg.l1 cfg.memSize cfg.recencyMax (l2View cfg)
        (StackInv cfg.l2 cfg.memSize cfg.recencyMax (llcView cfg)
          (StackInv cfg.llc cfg.memSize cfg.recencyMax FlatMemory.byte (fun m => m.wf = true))) ch :=
  ⟨fun h => ⟨h.l1, h.l2, h.llc, h.mem⟩, fun ⟨l1, l2, llc, mem⟩ => ⟨l1, l2, llc, mem⟩⟩

/-- L1 over L2 over LLC over the flat memory is coherent, for every legal configuration of the caches. -/
theorem l1Request_coherent {cfg : Config} (legal : LegalCaches cfg) :
    Coherent cfg.memSize (chainRefused cfg) (l1Request cfg) (chainView cfg) (ChainInv cfg) := by
  have mem := memRequest_coherent cfg.memSize cfg.memLat
  have llc := cacheRequest_coherent (p := llcParams cfg) legal.llc mem
  have l2 := cacheRequest_coherent (p := l2Params cfg) legal.l2 llc
  have l1 := cacheRequest_coherent (p := l1Params cfg) legal.l1 l2
  rw [funext fun ch => propext (chainInv_iff_stackInv cfg ch)]
  exact l1

/-- A plain read of L1 answers the bytes of View, and keeps View and the invariant. -/
theorem l1Request_read_plain {cfg : Config} {ch : Chain} {pa n : Nat} (legal : LegalCaches cfg)
    (inv : ChainInv cfg ch) (plain : PlainAccess cfg.memSize pa n) :
    Answers (chainView cfg) (ChainInv cfg) (l1Request cfg (.read pa n) ch)
      (fun a => a.bytes = viewBytes (chainView cfg) ch pa n) (chainView cfg ch) := by
  have coherent := l1Request_coherent legal
  have accepted : chainRefused cfg (.read pa n) = none := coherent.inMemory plain.inMemory plain.inBlock
  rcases coherent.read inv plain.inBlock with ⟨_, answers⟩ | ⟨_, _, refused, _⟩
  · exact answers
  · rw [accepted] at refused; cases refused

/-! ## Reads of mapped bytes (R70, R72) -/

/-- Where the bytes are mapped and can be accessed, a read answers the bytes of View, and keeps View and the
invariant. -/
theorem accessAt_read_mapped {s : State} {va : Word} {n pa : Nat} (hier : HierarchyInv s) (mapped : Mapped s va n pa) :
    ∃ a u, accessAt va n (Request.read · n) s = .ok a u ∧ a.bytes = s.viewBytes pa n ∧
      (∀ b, u.viewByte b = s.viewByte b) ∧ HierarchyInv u := by
  obtain ⟨a, ch, answer, bytes, inv, view⟩ := l1Request_read_plain hier.legal hier.chain mapped.plain
  refine ⟨a, { s.withChain ch with memTime := max s.memTime a.time }, ?_, bytes, congrFun view, hier.legal, inv⟩
  rw [accessAt_inBlock mapped.translated mapped.plain.inBlock, l1Access, answer]

/-- Fetch32 of a mapped word is the word of View (R72). -/
theorem fetch32_mapped {s : State} {va : Word} {pa : Nat} (hier : HierarchyInv s) (mapped : Mapped s va 4 pa) :
    ∃ u, fetch32 va s = .ok (rawOfBytes (s.viewBytes pa 4)) u ∧
      (∀ b, u.viewByte b = s.viewByte b) ∧ HierarchyInv u := by
  obtain ⟨a, u, access, bytes, view, inv⟩ := accessAt_read_mapped hier mapped
  refine ⟨u, ?_, view, inv⟩
  rw [fetch32, access, Reply.map_ok, bytes]

/-! ## The fetch of a step -/

/-- What changes only the four stores and `memTime`, and keeps View and the invariant, is within the frame of a
fetch. -/
theorem OnlyHierarchy.fetchFrame {s u : State} (only : OnlyHierarchy s u) (view : ∀ b, u.viewByte b = s.viewByte b)
    (inv : HierarchyInv u) : FetchFrame s u where
  x := only.x
  pc := only.pc
  cfg := only.cfg
  pcf := only.pcf
  fd := only.fd
  de := only.de
  em := only.em
  mw := only.mw
  pred := only.pred
  counters := only.counters
  status := only.status
  trace := only.trace
  input := only.input
  inputsRead := only.inputsRead
  recentStores := only.recentStores
  view := view
  hierarchy := inv

theorem OnlyHierarchy.setMemTime (s : State) (m : Nat) : OnlyHierarchy s { s with memTime := m } := ⟨s.chain, m, rfl⟩

/-- The fetch of a step at a mapped `pc` answers the word of View, within its frame. -/
theorem fetch32_step_mapped {s : State} {pa : Nat} (hier : HierarchyInv s) (mapped : Mapped s s.pc 4 pa) :
    ∃ u, fetch32 s.pc { s with memTime := 0 } = .ok (rawOfBytes (s.viewBytes pa 4)) u ∧ FetchFrame s u := by
  obtain ⟨u, fetch, view, inv⟩ := fetch32_mapped (s := { s with memTime := 0 }) ⟨hier.legal, hier.chain⟩
    ⟨mapped.translated, mapped.plain⟩
  have only := (OnlyHierarchy.setMemTime s 0).trans ((fetch32_leaves _ _).of_ok fetch)
  exact ⟨u, fetch, only.fetchFrame view inv⟩

/-! ## The step -/

/-- A step of a running machine at level ISA whose fetch is not stale (R12, R430). -/
theorem step_isa {s : State} (running : s.status = .running) (isa : s.cfg.level = .isa)
    (fresh : s.staleFetch = false) : step s = settle (fetch32 s.pc { s with memTime := 0 }) runWord := by
  simp only [step, running, isa, stepIsa, fresh, Bool.false_eq_true, if_false]

/-- A word that decodes runs as its instruction (R151). -/
theorem runWord_decoded {raw : Raw} {i : Instr} (decoded : decode raw = .ok i) (s : State) :
    runWord raw s = exec i s := by
  simp only [runWord, decoded]

/-- Four bytes decode as the word they assemble to (R140). -/
theorem decodeBytes_viewBytes (s : State) (pa : Nat) :
    decodeBytes (s.viewBytes pa 4) = decode (rawOfBytes (s.viewBytes pa 4)) :=
  if_pos (by simp only [State.viewBytes, List.length_map, List.length_range])

/-! ## The obligations -/

/-- Settles O12: the step settles the fetch, and a word that decodes runs as its instruction. -/
theorem stepRunsFetchedInstruction : Obligations.StepRunsFetchedInstruction := by
  intro s u raw i running isa fresh fetch decoded
  rw [step_isa running isa fresh, fetch, settle_ok, runWord_decoded decoded]

/-- Settles O13: the fetch answers the word of View within its frame, and the step runs it by O12. -/
theorem stepRunsVisibleInstruction : Obligations.StepRunsVisibleInstruction := by
  intro s pa i running isa fresh hier mapped decoded
  obtain ⟨u, fetch, frame⟩ := fetch32_step_mapped hier mapped
  rw [decodeBytes_viewBytes] at decoded
  exact ⟨u, frame, stepRunsFetchedInstruction s u _ i running isa fresh fetch decoded⟩

end Sys2Proof.Machine
end

section
/-! SUPPORT. What every step keeps: the storage hierarchy's invariant (R121, R73) through each operation that makes a
request, and the predictor's through the resolution of a branch (R364, R366). -/

namespace Sys2Proof.Machine

/-! ## Requests to the chain -/

/-- What meets a coherent store's contract keeps the store's invariant, whether it answers or is fatal. -/
theorem Meets.leaves {σ : Type} {refused : Option FatalReason} {view : σ → Nat → Byte} {inv : σ → Prop}
    {r : Reply σ Answer} {bytes : Answer → Prop} {after before : Nat → Byte}
    (h : Meets refused view inv r bytes after before) : r.Leaves inv := by
  rcases h with ⟨_, _, _, rfl, _, kept, _⟩ | ⟨_, _, _, rfl, kept, _⟩
  · exact kept
  · exact kept

/-- The invariant of the hierarchy speaks of the configuration and the four stores alone. -/
theorem HierarchyInv.congr {s t : State} (h : HierarchyInv s) (cfg : t.cfg = s.cfg) (chain : t.chain = s.chain) :
    HierarchyInv t :=
  ⟨cfg ▸ h.legal, by rw [cfg, chain]; exact h.chain⟩

theorem HierarchyInv.setReg {s : State} (h : HierarchyInv s) (r : Reg) (v : Word) : HierarchyInv (s.setReg r v) :=
  h.congr (by simp) (by simp [State.chain])

theorem l1Access_keeps_hierarchy {s : State} {q : Request} (h : HierarchyInv s)
    (request : (l1Request s.cfg q s.chain).Leaves (ChainInv s.cfg)) : (l1Access q s).Leaves HierarchyInv := by
  unfold l1Access
  split
  next answer => exact ⟨h.legal, request.of_ok answer⟩
  next fatal => exact ⟨h.legal, request.of_fatal fatal⟩

/-- An access keeps the hierarchy where its request does in every block it is not refused for leaving (R74). -/
theorem accessAt_keeps_hierarchy {s : State} {va : Word} {n : Nat} {q : Nat → Request} (h : HierarchyInv s)
    (request : ∀ pa, pa % 64 + n ≤ 64 → (l1Request s.cfg (q pa) s.chain).Leaves (ChainInv s.cfg)) :
    (accessAt va n q s).Leaves HierarchyInv := by
  cases translated : translate s.cfg va with
  | none => rw [accessAt_unmapped translated]; exact h
  | some pa =>
    by_cases inBlock : pa % 64 + n ≤ 64
    · rw [accessAt_inBlock translated inBlock]; exact l1Access_keeps_hierarchy h (request pa inBlock)
    · rw [accessAt_crossing translated (by omega)]; exact h

theorem accessAt_read_keeps_hierarchy {s : State} (h : HierarchyInv s) (va : Word) (n : Nat) :
    (accessAt va n (Request.read · n) s).Leaves HierarchyInv :=
  accessAt_keeps_hierarchy h fun _ inBlock => ((l1Request_coherent h.legal).read h.chain inBlock).leaves

theorem memRead_keeps_hierarchy {s : State} (h : HierarchyInv s) (va : Word) (n : Nat) :
    (memRead va n s).Leaves HierarchyInv :=
  (accessAt_read_keeps_hierarchy h va n).map _

theorem fetch32_keeps_hierarchy {s : State} (h : HierarchyInv s) (va : Word) : (fetch32 va s).Leaves HierarchyInv :=
  (accessAt_read_keeps_hierarchy h va 4).map _

theorem memWrite_keeps_hierarchy {s : State} (h : HierarchyInv s) (va : Word) (n : Nat) (v : Word) :
    (memWrite va n v s).Leaves HierarchyInv := by
  refine (accessAt_keeps_hierarchy h fun pa inBlock => ?_).map _
  exact ((l1Request_coherent h.legal).write h.chain (by rwa [length_leBytes])).leaves

/-! ## System calls (R290 to R297) -/

theorem readString_keeps_hierarchy (cap : Nat) (va : Word) {s : State} (h : HierarchyInv s) :
    (readString cap va s).Leaves HierarchyInv := by
  induction cap generalizing va s with
  | zero => exact h
  | succ cap ih =>
    refine (memRead_keeps_hierarchy h va 1).bind fun v u _ hu => ?_
    split
    · exact hu
    · exact (ih (va + 1) hu).map _

/-- Of the six calls only 91 makes requests. -/
theorem dispatchSyscall_keeps_hierarchy {s : State} (h : HierarchyInv s) :
    (dispatchSyscall s).Leaves HierarchyInv := by
  have string := readString_keeps_hierarchy s.cfg.strCap (s.reg s.cfg.sysArgReg) h
  rcases dispatchSyscall_cases s with ⟨_, call, _⟩ | ⟨_, _, _, read, call⟩ | ⟨_, _, _, read, call⟩ | ⟨_, call⟩ |
    ⟨_, call⟩ | ⟨_, call⟩ <;> rw [call]
  · exact h.congr rfl rfl
  · exact (string.of_ok read).congr rfl rfl
  · exact string.of_fatal read
  · exact (h.congr rfl rfl : HierarchyInv (emit (.readInt s.nextInput) s.dropInput)).setReg _ _
  · exact h.congr rfl rfl
  · exact h

/-! ## Instructions at level ISA -/

theorem complete_keeps_hierarchy {s : State} (h : HierarchyInv s) (target : Word) (stored : Option (Nat × Nat)) :
    HierarchyInv (s.complete target stored) := h.congr rfl rfl

theorem raiseFatal_keeps_hierarchy {s : State} (h : HierarchyInv s) (r : FatalReason) : HierarchyInv (raiseFatal r s) :=
  h.congr rfl rfl

theorem trapReturn_keeps_hierarchy {s : State} (h : HierarchyInv s) : HierarchyInv (trapReturn s) :=
  h.congr (by simp) (by simp [State.chain])

/-- A reply that keeps the hierarchy settles in a state that does, where what follows it does. -/
theorem settle_keeps_hierarchy {α : Type} {r : Reply State α} {k : α → State → Host.Outcome State Fault Refusal}
    (reply : r.Leaves HierarchyInv) (next : ∀ a u, HierarchyInv u → Next HierarchyInv (k a u)) :
    Next HierarchyInv (settle r k) :=
  settle_next (fun e _ fatal => raiseFatal_keeps_hierarchy (reply.of_fatal fatal) e)
    fun a u answer => next a u (reply.of_ok answer)

theorem writeResult_keeps_hierarchy {s : State} (h : HierarchyInv s) (rd : Reg) (r : Word) :
    Next HierarchyInv (writeResult rd r s) := ⟨_, rfl, complete_keeps_hierarchy (h.setReg _ _) _ _⟩

theorem jumpLink_keeps_hierarchy {s : State} (h : HierarchyInv s) (rd : Reg) (target : Word) :
    Next HierarchyInv (jumpLink rd target s) := ⟨_, rfl, complete_keeps_hierarchy (h.setReg _ _) _ _⟩

theorem branchIf_keeps_hierarchy {s : State} (h : HierarchyInv s) (taken : Bool) (imm : BitVec 13) :
    Next HierarchyInv (branchIf taken imm s) := ⟨_, rfl, complete_keeps_hierarchy h _ _⟩

theorem divideResult_keeps_hierarchy {s : State} (h : HierarchyInv s) (marked : Bool) (rd : Reg) (r : Word) :
    Next HierarchyInv (divideResult marked rd r s) := by
  unfold divideResult
  split
  · exact ⟨_, rfl, raiseFatal_keeps_hierarchy h _⟩
  · exact writeResult_keeps_hierarchy h rd r

theorem loadWith_keeps_hierarchy {s : State} (h : HierarchyInv s) (k : LoadKind) (rd : Reg) (ea : Word) :
    Next HierarchyInv (loadWith k rd ea s) :=
  settle_keeps_hierarchy (memRead_keeps_hierarchy h ea k.size) fun _ _ hu =>
    ⟨_, rfl, complete_keeps_hierarchy (hu.setReg _ _) _ _⟩

theorem storeWith_keeps_hierarchy {s : State} (h : HierarchyInv s) (n : Nat) (ea v : Word) :
    Next HierarchyInv (storeWith n ea v s) :=
  settle_keeps_hierarchy (memWrite_keeps_hierarchy h ea n v) fun _ _ hu => ⟨_, rfl, complete_keeps_hierarchy hu _ _⟩

theorem execEcall_keeps_hierarchy {s : State} (h : HierarchyInv s) : Next HierarchyInv (execEcall s) :=
  settle_keeps_hierarchy (dispatchSyscall_keeps_hierarchy h) fun _ _ hu =>
    ⟨_, rfl, trapReturn_keeps_hierarchy (hu.congr rfl rfl)⟩

/-- Every instruction keeps the hierarchy. -/
theorem exec_keeps_hierarchy (i : Instr) {s : State} (h : HierarchyInv s) : Next HierarchyInv (exec i s) := by
  cases i with
  | lb | lh | lw | ld | lbu | lhu | lwu => exact loadWith_keeps_hierarchy h _ _ _
  | sb | sh | sw | sd => exact storeWith_keeps_hierarchy h _ _ _
  | ecall => exact execEcall_keeps_hierarchy h
  | jal | jalr => exact jumpLink_keeps_hierarchy h _ _
  | beq | bne | blt | bge | bltu | bgeu => exact branchIf_keeps_hierarchy h _ _
  | div | divu | rem | remu | divw | divuw | remw | remuw => exact divideResult_keeps_hierarchy h _ _ _
  | _ => exact writeResult_keeps_hierarchy h _ _

/-! ## The stages of a cycle -/

theorem fetchStage_keeps_hierarchy {s : State} (h : HierarchyInv s) : (fetchStage s).Leaves HierarchyInv := by
  unfold fetchStage
  split
  · exact h
  · exact (fetch32_keeps_hierarchy h _).map _

theorem decodeWord_keeps_hierarchy {s : State} (h : HierarchyInv s) : (decodeWord s).Leaves HierarchyInv := by
  cases answer : decodeWord s with
  | ok _ _ => obtain ⟨rfl, _⟩ := decodeWord_ok answer; exact h
  | fatal _ _ => obtain ⟨rfl, _⟩ := decodeWord_fatal answer; exact h

theorem executeStage_keeps_hierarchy {s : State} (h : HierarchyInv s) : (executeStage s).Leaves HierarchyInv := by
  cases answer : executeStage s with
  | ok _ _ =>
    rcases executeStage_ok answer with ⟨_, rfl, _⟩ | ⟨d, _, rfl, _⟩
    · exact h
    · exact h.congr (resolveBranch_cfg d s) (resolveBranch_chain d s)
  | fatal _ _ => obtain ⟨rfl, _⟩ := executeStage_fatal answer; exact h

theorem memoryStage_keeps_hierarchy {s : State} (h : HierarchyInv s) : (memoryStage s).Leaves HierarchyInv := by
  unfold memoryStage
  split
  · exact h
  · split
    · exact (memRead_keeps_hierarchy h _ _).map _
    · exact (memWrite_keeps_hierarchy h _ _ _).map _
    · exact h

theorem writebackStage_keeps_hierarchy {s : State} (h : HierarchyInv s) :
    (writebackStage s).Leaves HierarchyInv := by
  unfold writebackStage
  split
  · exact h
  · split
    · exact (dispatchSyscall_keeps_hierarchy h).bind fun _ _ _ hu => hu.congr rfl rfl
    · exact ((h.setReg _ _).setReg _ _).congr rfl rfl

/-- The five stages keep the hierarchy, also where a fatal condition ends them early (R380, R390). -/
theorem runStages_keeps_hierarchy {s : State} (h : HierarchyInv s) : (runStages s).Leaves HierarchyInv :=
  (fetchStage_keeps_hierarchy h).bind fun _ _ _ h₁ =>
  (decodeWord_keeps_hierarchy h₁).bind fun _ _ _ h₂ =>
  (executeStage_keeps_hierarchy h₂).bind fun _ _ _ h₃ =>
  (memoryStage_keeps_hierarchy h₃).bind fun _ _ _ h₄ =>
  (writebackStage_keeps_hierarchy h₄).bind fun _ _ _ h₅ => h₅

theorem cycle_keeps_hierarchy {s : State} (h : HierarchyInv s) : HierarchyInv (cycle s) := by
  have stages := runStages_keeps_hierarchy (s := { s with memTime := 0 }) (h.congr rfl rfl)
  rcases cycle_cases s with ⟨e, t, run, eq⟩ | ⟨r, t, run, _, eq⟩ <;> rw [eq]
  · exact raiseFatal_keeps_hierarchy (stages.of_fatal run) e
  · exact (stages.of_ok run).congr (commit_cfg _ _) (commit_chain _ _)

/-! ## The predictor (R363 to R366) -/

theorem nextHistory_lt (cfg : Config) (h : Nat) (wrong : Bool) : nextHistory cfg h wrong < 2 ^ cfg.histBits :=
  Nat.mod_lt _ (Nat.two_pow_pos _)

/-- An update keeps the canonical form of the tables and the width of the histories. -/
theorem PredictorInv.update {cfg : Config} {p : Predictor} (h : PredictorInv cfg p) (a : Word) (taken : Bool) :
    PredictorInv cfg (p.update cfg a taken) := by
  unfold Predictor.update
  split
  · exact h
  · exact h
  · exact { h with ctr := Sparse.wf_set _ _ _ _ h.ctr }
  · refine { ctr := h.ctr, actr := Sparse.wf_set _ _ _ _ h.actr, hist := Sparse.wf_set _ _ _ _ h.hist, histBound := ?_ }
    intro b
    rw [Predictor.histAt, Sparse.get_set]
    split
    · exact nextHistory_lt _ _ _
    · exact h.histBound b

theorem resolveBranch_keeps_predictor {s : State} (h : PredictorInv s.cfg s.pred) (d : DecodeExecute) :
    PredictorInv s.cfg (resolveBranch d s).pred := by
  by_cases branch : opClass d.op = .branch
  · rw [resolveBranch_branch branch]; exact h.update _ _
  · rw [resolveBranch_other branch]; exact h

end Sys2Proof.Machine
end

section
/-! SUPPORT. The invariants of every step, of either level: the whole machine's, and what a pipeline register says of
its instruction (R31). -/

namespace Sys2Proof.Machine

/-! ## A step of either level -/

/-- What the fetch of a step of level ISA leaves, and every instruction and every fatal condition keeps, the step
leaves. -/
theorem step_isa_leaves {P : State → Prop} {s t : State} (isa : s.cfg.level = .isa) (next : step s = .next t)
    (fetched : (fetch32 s.pc { s with memTime := 0 }).Leaves P) (fatal : ∀ e u, P u → P (raiseFatal e u))
    (instruction : ∀ i u, P u → Next P (exec i u)) : P t := by
  obtain ⟨_, ⟨_, _, ⟨_, u, i, fetch, _, run⟩ | ⟨_, u, _, fetch, _, rfl⟩ | ⟨_, u, fetch, rfl⟩⟩ | ⟨level, _⟩⟩ :=
    step_next next
  · obtain ⟨_, run', kept⟩ := instruction i u (fetched.of_ok fetch)
    obtain rfl := Host.Outcome.next.inj (run'.symm.trans run)
    exact kept
  · exact fatal _ _ (fetched.of_ok fetch)
  · exact fatal _ _ (fetched.of_fatal fetch)
  · rw [isa] at level; cases level

/-- What a step of level ISA leaves alone: what its fetch and its instruction do. -/
theorem step_isa_frame {s t : State} (isa : s.cfg.level = .isa) (next : step s = .next t) : ExecFrame s t := by
  refine step_isa_leaves isa next ?_ (fun e u frame => frame.trans (raiseFatal_execFrame e u)) fun i u frame => ?_
  · exact (fetch32_leaves _ _).mono fun _ only => ((OnlyHierarchy.setMemTime s 0).trans only).execFrame
  · obtain ⟨v, run, frame'⟩ := exec_next i u
    exact ⟨v, run, frame.trans frame'⟩

theorem step_isa_keeps_hierarchy {s t : State} (isa : s.cfg.level = .isa) (next : step s = .next t)
    (h : HierarchyInv s) : HierarchyInv t :=
  step_isa_leaves isa next (fetch32_keeps_hierarchy (s := { s with memTime := 0 }) (h.congr rfl rfl) _)
    (fun e _ hu => raiseFatal_keeps_hierarchy hu e) fun i _ hu => exec_keeps_hierarchy i hu

/-- A step of level CYCLE is a cycle (R301). -/
theorem step_cycle_eq {s t : State} (level : s.cfg.level = .cycle) (next : step s = .next t) : t = cycle s := by
  obtain ⟨_, ⟨isa, _⟩ | ⟨_, eq⟩⟩ := step_next next
  · rw [level] at isa; cases isa
  · exact eq

/-! ## The invariant of the machine -/

/-- A cycle changes neither slot 0 nor the window of recent stores, and the predictor by one resolution at most. -/
theorem cycle_keeps_inv {s : State} (h : s.Inv) : (cycle s).Inv := by
  have hierarchy := cycle_keeps_hierarchy h.hierarchy
  have resolved : ∀ d, PredictorInv s.cfg (resolveBranch d { s with memTime := 0 }).pred :=
    resolveBranch_keeps_predictor (s := { s with memTime := 0 }) h.predictor
  rcases cycle_cases s with ⟨e, t, run, eq⟩ | ⟨r, t, _, run, eq⟩ <;> rw [eq] at hierarchy ⊢
  · have kept := runStages_fatal run
    refine ⟨?zero, hierarchy, ?predictor, ?window⟩
    case zero => rw [raiseFatal_x, kept.x]; exact h.zero
    case predictor =>
      rw [raiseFatal_cfg, raiseFatal_pred, kept.cfg]
      rcases kept.pred with pred | ⟨d, _, pred⟩ <;> rw [pred]
      · exact h.predictor
      · exact resolved d
    case window => rw [raiseFatal_recentStores, kept.recentStores]; exact h.window
  · refine ⟨?zero, hierarchy, ?predictor, ?window⟩
    case zero => simp only [commit_x]; exact run.slot0.trans h.zero
    case predictor =>
      rw [commit_cfg, commit_pred, run.cfg]
      rcases run.branch with ⟨_, pred, _⟩ | ⟨d, _, pred, _⟩ <;> rw [pred]
      · exact h.predictor
      · exact resolved d
    case window => rw [commit_recentStores, run.recentStores]; exact h.window

/-- Settles O58: an instruction keeps all but the hierarchy by its frame, a cycle by what its stages do. -/
theorem invariantKept : Obligations.InvariantKept := by
  intro s t inv next
  cases level : s.cfg.level with
  | isa =>
    have frame := step_isa_frame level next
    refine ⟨frame.slot0.trans inv.zero, step_isa_keeps_hierarchy level next inv.hierarchy, ?_, frame.window inv.window⟩
    rw [frame.cfg, frame.pred]
    exact inv.predictor
  | cycle =>
    rw [step_cycle_eq level next]
    exact cycle_keeps_inv inv

/-! ## Immutable once decoded (R31) -/

theorem DecodedInv.congr {s t : State} (h : DecodedInv s) (de : t.de = s.de) (em : t.em = s.em) (mw : t.mw = s.mw) :
    DecodedInv t :=
  ⟨by rw [de]; exact h.de, by rw [em]; exact h.em, by rw [mw]; exact h.mw⟩

/-- What Decode puts out is what it makes of the word in FD (R310). -/
theorem CycleRun.decode_fromWord {s t : State} {r : StageResults} (run : CycleRun s r t) :
    ∀ d, r.decode.out = some d → d.fromWord := by
  intro d out
  rcases run.decode with ⟨_, eq⟩ | ⟨fd, i, _, decoded, eq⟩ <;> rw [eq] at out
  · cases out
  · obtain rfl := Option.some.inj out
    exact ⟨i, decoded, rfl, rfl, rfl, rfl, rfl⟩

/-- Execute hands on what DE says of its instruction (R320). -/
theorem CycleRun.execute_fromWord {s t : State} {r : StageResults} (run : CycleRun s r t) (h : DecodedInv s) :
    ∀ e, r.execute.out = some e → e.fromWord := by
  intro e out
  rcases run.execute with ⟨_, eq⟩ | ⟨d, de, eq⟩ <;> rw [eq] at out
  · cases out
  · obtain rfl := Option.some.inj out
    exact h.de d de

/-- Memory hands on what EM says of its instruction (R326). -/
theorem CycleRun.memory_fromWord {s t : State} {r : StageResults} (run : CycleRun s r t) (h : DecodedInv s) :
    ∀ w, r.memory = some w → w.fromWord := by
  intro w out
  rcases run.memory with ⟨_, eq⟩ | ⟨e, v, em, eq⟩ <;> rw [eq] at out
  · cases out
  · obtain rfl := Option.some.inj out
    obtain ⟨i, decoded, op, fmt, _, rdAlu, rdMem⟩ := h.em e em
    exact ⟨i, decoded, op, fmt, rdAlu, rdMem⟩

/-- Whatever the case of R334, the next DE is a bubble or what Decode puts out. -/
theorem nextFront_de (s : State) (r : StageResults) (c : CycleCase) :
    (nextFront s r c).2.2 = none ∨ (nextFront s r c).2.2 = r.decode.out := by
  cases c with
  | flush | loadUse => exact .inl rfl
  | syscallDecoded | draining | normal => exact .inr rfl

/-- A run that has ended commits nothing (R335). -/
theorem commit_stopped {t : State} (stopped : t.status ≠ .running) (r : StageResults) : commit r t = t := if_neg stopped

theorem cycle_keeps_decoded {s : State} (h : DecodedInv s) : DecodedInv (cycle s) := by
  by_cases running : (cycle s).status = .running
  · obtain ⟨r, t, run, _, eq⟩ := cycle_running running
    have h₀ : DecodedInv { s with memTime := 0 } := h.congr rfl rfl rfl
    rw [eq]
    refine ⟨fun d de => ?_, run.execute_fromWord h₀, run.memory_fromWord h₀⟩
    rcases nextFront_de s r (cycleCase s.pcf.drain r) with bubble | decoded
    · cases bubble.symm.trans de
    · exact run.decode_fromWord d (decoded.symm.trans de)
  · rcases cycle_cases s with ⟨e, t, run, eq⟩ | ⟨r, t, _, run, eq⟩ <;> rw [eq] at running ⊢
    · have kept := runStages_fatal run
      exact h.congr kept.de kept.em kept.mw
    · rw [commit_stopped (by rwa [commit_status] at running)]
      exact h.congr run.de run.em run.mw

/-- Settles O59: level ISA leaves the pipeline registers alone; in a cycle each register's next copy speaks of the same
word as the one it is made from, and DE's is made by Decode. -/
theorem decodedKept : Obligations.DecodedKept := by
  intro s t inv next
  cases level : s.cfg.level with
  | isa =>
    have frame := step_isa_frame level next
    exact inv.congr frame.de frame.em frame.mw
  | cycle =>
    rw [step_cycle_eq level next]
    exact cycle_keeps_decoded inv

end Sys2Proof.Machine
end

section
/-! SUPPORT. The memory interface on the bytes the program sees (R64 to R71): what the translation port does to the
addresses of one block, and that a read after a write answers the bytes written. -/

namespace Sys2Proof.Machine

/-! ## The translation port (R66) -/

theorem translate_identity {cfg : Config} (identity : cfg.translation = .identity) (va : Word) :
    translate cfg va = if va.toNat < cfg.memSize then some va.toNat else none := by
  unfold translate; rw [identity]

theorem translate_table {cfg : Config} {blocks : List (Nat × Nat)} (table : cfg.translation = .table blocks)
    (va : Word) : translate cfg va =
      (blocks.find? fun b => b.1 == va.toNat / 64).map fun b => b.2 * 64 + va.toNat % 64 := by
  unfold translate; rw [table]

/-- The port keeps the low 6 bits of an address (R66 a). -/
theorem translate_offset {cfg : Config} {va : Word} {pa : Nat} (translated : translate cfg va = some pa) :
    pa % 64 = va.toNat % 64 := by
  cases port : cfg.translation with
  | identity =>
    rw [translate_identity port, Option.ite_none_right_eq_some] at translated
    obtain ⟨_, same⟩ := translated
    rw [Option.some.inj same]
  | table blocks =>
    rw [translate_table port, Option.map_eq_some_iff] at translated
    obtain ⟨b, _, rfl⟩ := translated
    omega

/-- An address of the aligned block of `va` is reached without wrapping around, since 64 divides 2^64. -/
theorem toNat_add_inBlock {va : Word} {k : Nat} (inBlock : va.toNat % 64 + k < 64) :
    (va + BitVec.ofNat 64 k).toNat = va.toNat + k := by
  have := va.isLt
  rw [BitVec.toNat_add, BitVec.toNat_ofNat]
  omega

/-- The port maps the addresses of one aligned block together, in order, or not at all (R66 b); for the identity a
block must not be cut by the end of the memory. -/
theorem translate_add_inBlock {cfg : Config} {va : Word} {k : Nat}
    (whole : cfg.translation = .identity → cfg.memSize % 64 = 0) (inBlock : va.toNat % 64 + k < 64) :
    translate cfg (va + BitVec.ofNat 64 k) = (translate cfg va).map (fun pa => pa + k) := by
  have place := toNat_add_inBlock inBlock
  cases port : cfg.translation with
  | identity =>
    have ends := whole port
    rw [translate_identity port, translate_identity port, place]
    by_cases mapped : va.toNat < cfg.memSize
    · rw [if_pos mapped, if_pos (by omega), Option.map_some]
    · rw [if_neg mapped, if_neg (by omega), Option.map_none]
  | table blocks =>
    obtain ⟨block, offset⟩ := mod_block (n := k + 1) inBlock k.lt_succ_self
    rw [translate_table port, translate_table port, place, block, offset, Option.map_map]
    congr 1
    funext b
    exact (Nat.add_assoc _ _ _).symm

/-! ## Part of the bytes of a value (R64, R70, R71) -/

/-- The bytes of a value, each at its place (R71: `v[8k+7 : 8k]`). -/
theorem leBytes_eq_map (n v : Nat) : leBytes n v = (List.range n).map fun k => BitVec.ofNat 8 (v / 256 ^ k) := by
  refine List.ext_getElem (by simp [length_leBytes]) fun k inside _ => ?_
  rw [List.getElem_map, List.getElem_range, ← getD_leBytes n v k (length_leBytes n v ▸ inside),
    List.getD_eq_getElem _ _ inside]

/-- After the `n` low bytes of `v` are written at `pa`, the `m` bytes at offset `k` inside them are those of `v` from
byte `k` up. -/
theorem viewBytes_written {s t : State} {pa n v k m : Nat} (inside : k + m ≤ n)
    (written : t.viewByte = writtenView s.viewByte pa (leBytes n v)) :
    t.viewBytes (pa + k) m = leBytes m (v / 256 ^ k) := by
  rw [State.viewBytes, leBytes_eq_map]
  refine List.map_congr_left fun j inRange => ?_
  have lt : j < m := List.mem_range.mp inRange
  have place : pa + k + j - pa = k + j := by omega
  rw [written, writtenView_inside (by omega) (by rw [length_leBytes]; omega), place, getD_leBytes _ _ _ (by omega),
    Nat.pow_add, Nat.div_div_eq_div_mul]

/-- The value of those bytes: bits `8k` to `8(k+m)-1` of `v`. -/
theorem ofLeBytes_part (m k v : Nat) : ofLeBytes (leBytes m (v / 256 ^ k)) = v / 2 ^ (8 * k) % 2 ^ (8 * m) := by
  rw [ofLeBytes_leBytes, Nat.pow_mul, Nat.pow_mul]

/-! ## Reads and writes of mapped bytes (R70, R71) -/

/-- Some of the bytes that can be accessed can be accessed alone, at whatever address is mapped to them. -/
theorem Mapped.part {s t : State} {va vb : Word} {n pa k m : Nat} (mapped : Mapped s va n pa) (nonempty : 0 < m)
    (inside : k + m ≤ n) (cfg : t.cfg = s.cfg) (translated : translate s.cfg vb = some (pa + k)) :
    Mapped t vb m (pa + k) := by
  have within : pa % 64 + n ≤ 64 := mapped.plain.inBlock
  obtain ⟨block, offset⟩ := mod_block within (show k < n by omega)
  refine ⟨cfg ▸ translated, ?inBlock, ?inMemory⟩
  case inBlock => rw [blockOffset, offset]; omega
  case inMemory => rw [cfg, blockInMemory, block]; exact mapped.plain.inMemory

/-- A plain write to L1 makes View the bytes written there, and keeps it elsewhere, and the invariant. -/
theorem l1Request_write_plain {cfg : Config} {ch : Chain} {pa : Nat} {buffer : List Byte} (legal : LegalCaches cfg)
    (inv : ChainInv cfg ch) (plain : PlainAccess cfg.memSize pa buffer.length) :
    Answers (chainView cfg) (ChainInv cfg) (l1Request cfg (.write pa buffer) ch) (fun _ => True)
      (writtenView (chainView cfg ch) pa buffer) := by
  have coherent := l1Request_coherent legal
  have accepted : chainRefused cfg (.write pa buffer) = none := coherent.inMemory plain.inMemory plain.inBlock
  rcases coherent.write inv plain.inBlock with ⟨_, answers⟩ | ⟨_, _, refused, _⟩
  · exact answers
  · rw [accepted] at refused; cases refused

/-- MemRead of mapped bytes is their value in View (R70). -/
theorem memRead_mapped {s : State} {va : Word} {n pa : Nat} (hier : HierarchyInv s) (mapped : Mapped s va n pa) :
    ∃ u, memRead va n s = .ok (BitVec.ofNat 64 (ofLeBytes (s.viewBytes pa n))) u ∧
      (∀ b, u.viewByte b = s.viewByte b) ∧ HierarchyInv u := by
  obtain ⟨a, u, access, bytes, view, inv⟩ := accessAt_read_mapped hier mapped
  refine ⟨u, ?_, view, inv⟩
  rw [memRead, access, Reply.map_ok, bytes]

/-- MemWrite of mapped bytes makes View the low bytes of the value there, and keeps it elsewhere, and the invariant
(R71). -/
theorem memWrite_mapped {s : State} {va : Word} {n pa : Nat} (v : Word) (hier : HierarchyInv s)
    (mapped : Mapped s va n pa) :
    ∃ t, memWrite va n v s = .ok () t ∧ t.viewByte = writtenView s.viewByte pa (leBytes n v.toNat) ∧
      HierarchyInv t := by
  have plain : PlainAccess s.cfg.memSize pa (leBytes n v.toNat).length := by
    rw [length_leBytes]; exact mapped.plain
  obtain ⟨a, ch, answer, _, inv, view⟩ := l1Request_write_plain hier.legal hier.chain plain
  refine ⟨{ s.withChain ch with memTime := max s.memTime a.time }, ?_, view, hier.legal, inv⟩
  rw [memWrite, accessAt_inBlock mapped.translated mapped.plain.inBlock, l1Access, answer, Reply.map_ok]

/-- After a write of `n` bytes, a read of `m` of them from byte `k` up answers those bits of the value written (R64,
R70, R71). -/
theorem memRead_after_memWrite {s t : State} {va vb v : Word} {n pa k m : Nat} (hier : HierarchyInv s)
    (mapped : Mapped s va n pa) (store : memWrite va n v s = .ok () t) (nonempty : 0 < m) (inside : k + m ≤ n)
    (translated : translate s.cfg vb = some (pa + k)) :
    ∃ u, memRead vb m t = .ok (BitVec.ofNat 64 (v.toNat / 2 ^ (8 * k) % 2 ^ (8 * m))) u := by
  obtain ⟨_, store', written, kept⟩ := memWrite_mapped v hier mapped
  cases store.symm.trans store'
  have cfg : t.cfg = s.cfg := ((memWrite_leaves va n v s).of_ok store).cfg
  obtain ⟨u, load, _⟩ := memRead_mapped kept (mapped.part nonempty inside cfg translated)
  exact ⟨u, by rw [load, viewBytes_written inside written, ofLeBytes_part]⟩

/-! ## The obligations -/

/-- Settles O41: the offset is kept, a block is mapped as a whole, and the identity is what its definition says. -/
theorem translationPort : Obligations.TranslationPort := fun _ va =>
  ⟨fun _ => translate_offset, fun whole _ inBlock => translate_add_inBlock whole inBlock,
    fun identity => translate_identity identity va⟩

/-- Settles O33: the write leaves its bytes in View, a read inside them answers part of the value; the example is the
top two bytes of eight. -/
theorem mixedWidthAccess : Obligations.MixedWidthAccess := by
  intro s va n pa v hier _ mapped
  obtain ⟨t, store, _⟩ := memWrite_mapped v hier mapped
  refine ⟨t, store, fun _ m width inside translated => ?part, fun eight value translated => ?top⟩
  case part =>
    have nonempty : 0 < m := by
      simp only [List.mem_cons, List.not_mem_nil, or_false] at width
      omega
    exact memRead_after_memWrite hier mapped store nonempty inside translated
  case top =>
    subst eight value
    exact memRead_after_memWrite (k := 6) (m := 2) hier mapped store (by decide) (by decide) translated

end Sys2Proof.Machine
end

section
/-! SUPPORT. The storage hierarchy (21_cache_hierarchy.md): the chain of stores behaves as the bytes of View, and what
one request does to the flat memory and to one cache, with its times and statistics, said once per kind of request. -/

namespace Sys2Proof.Machine

/-! ## Coherence and the end of the flat memory (R73, R95) -/

/-- What a coherent store answers, byte by byte of its view: it is fatal only where the block does not lie in the flat
memory. -/
theorem Coherent.answers_or_outside {σ : Type} {memSize : Nat} {refused : Request → Option FatalReason}
    {request : Request → σ → Reply σ Answer} {view : σ → Nat → Byte} {inv : σ → Prop} {q : Request} {r : Reply σ Answer}
    {bytes : Answer → Prop} {after before : Nat → Byte} (coherent : Coherent memSize refused request view inv)
    (inBlock : q.addr % 64 + q.size ≤ 64) (meets : Meets (refused q) view inv r bytes after before) :
    (∃ a t, r = .ok a t ∧ bytes a ∧ (∀ pa, view t pa = after pa) ∧ inv t) ∨
    (¬ blockInMemory memSize q.addr ∧ ∃ e t, r = .fatal e t ∧ (∀ pa, view t pa = before pa) ∧ inv t) := by
  rcases meets with ⟨_, a, t, answer, bytes, inv, view⟩ | ⟨e, t, refuses, fatal, inv, view⟩
  · exact .inl ⟨a, t, answer, bytes, congrFun view, inv⟩
  · refine .inr ⟨fun inMemory => ?_, e, t, fatal, congrFun view, inv⟩
    rw [coherent.inMemory inMemory inBlock] at refuses
    cases refuses

/-! ## An empty cache (R416) -/

theorem Cache.entry_empty (i : Nat) : Cache.empty.entry i = Entry.blank 0 := rfl

/-- Every lookup in an empty cache misses. -/
theorem Cache.lookup_empty (cc : CacheConfig) (addr : Nat) : Cache.empty.lookup cc addr = none :=
  List.find?_eq_none.mpr fun _ _ => by simp [Cache.holds, Cache.entry_empty, Entry.blank]

/-- Through an empty cache the lower store shows. -/
theorem cacheView_empty {σ : Type} (cc : CacheConfig) (lowerView : σ → Nat → Byte) (l : σ) (pa : Nat) :
    cacheView cc lowerView (Cache.empty, l) pa = lowerView l pa := by
  rw [cacheView, Cache.lookup_empty]

/-- Behind three empty caches View is the flat memory (R73, R416). -/
theorem chainView_empty (cfg : Config) (m : FlatMemory) (pa : Nat) :
    chainView cfg (Cache.empty, Cache.empty, Cache.empty, m) pa = m.byte pa := by
  rw [chainView, cacheView_empty, l2View, cacheView_empty, llcView, cacheView_empty]

/-! ## The flat memory (R93 to R96) -/

theorem memRequest_beyond {memSize : Nat} {q : Request} (beyond : memSize < q.addr + q.size) (lat : Latency)
    (m : FlatMemory) : memRequest memSize lat q m = .fatal (.memoryRange q.addr q.size) m := by
  rcases memRequest_cases memSize lat q m with ⟨_, fatal⟩ | ⟨inside, _⟩ | ⟨inside, _⟩
  · exact fatal
  · omega
  · omega

theorem memRequest_read {memSize addr n : Nat} (inside : addr + n ≤ memSize) (lat : Latency) (m : FlatMemory) :
    memRequest memSize lat (.read addr n) m = .ok ⟨true, lat.hit + lat.bus, m.bytes addr n⟩ (m.count lat) := by
  rcases memRequest_cases memSize lat (.read addr n) m with ⟨beyond, _⟩ | ⟨_, _, answer⟩ | ⟨_, write, _⟩
  · exact absurd beyond (Nat.not_lt.mpr inside)
  · exact answer
  · cases write

theorem memRequest_write {memSize addr : Nat} {buffer : List Byte} (inside : addr + buffer.length ≤ memSize)
    (lat : Latency) (m : FlatMemory) : memRequest memSize lat (.write addr buffer) m =
      .ok ⟨true, lat.hit + lat.bus, []⟩ ((m.writeBytes addr buffer).count lat) := by
  rcases memRequest_cases memSize lat (.write addr buffer) m with ⟨beyond, _⟩ | ⟨_, read, _⟩ | ⟨_, _, answer⟩
  · exact absurd beyond (Nat.not_lt.mpr inside)
  · cases read
  · exact answer

theorem FlatMemory.getD_bytes (m : FlatMemory) (addr : Nat) {n k : Nat} (inside : k < n) :
    (m.bytes addr n).getD k 0 = m.byte (addr + k) := by
  simp [FlatMemory.bytes, inside]

/-- Part of a run of bytes of the flat memory is the run of bytes from there. -/
theorem FlatMemory.sliceBytes_bytes (m : FlatMemory) (addr : Nat) {offset n k : Nat} (inside : offset + k ≤ n) :
    sliceBytes (m.bytes addr n) offset k = m.bytes (addr + offset) k := by
  rw [sliceBytes_eq _ _ _ (by simpa [FlatMemory.bytes] using inside)]
  refine List.map_congr_left fun j inRange => ?_
  have lt := List.mem_range.mp inRange
  rw [m.getD_bytes addr (by omega), Nat.add_assoc]

/-! ## The entries of a set in order (R100) -/

theorem ways_eq_range' (cc : CacheConfig) (q : Nat) : ways cc q = List.range' (q * cc.assoc) cc.assoc :=
  List.range'_eq_map_range.symm

/-- What a search of a set finds: the first of its entries with the property. -/
theorem find?_ways_eq_some {cc : CacheConfig} {q i : Nat} {found : Nat → Bool} :
    (ways cc q).find? found = some i ↔
      found i = true ∧ (q * cc.assoc ≤ i ∧ i < (q + 1) * cc.assoc) ∧
        ∀ j, q * cc.assoc ≤ j → j < i → found j = false := by
  simp [ways_eq_range', List.find?_range'_eq_some, List.mem_range'_1, Nat.add_one_mul]

/-- A free entry is the lowest invalid one (R105). -/
theorem Cache.freeEntry_eq_some {cc : CacheConfig} {c : Cache} {q i : Nat} :
    c.freeEntry cc q = some i ↔
      (c.entry i).valid = false ∧ (q * cc.assoc ≤ i ∧ i < (q + 1) * cc.assoc) ∧
        ∀ j, q * cc.assoc ≤ j → j < i → (c.entry j).valid = true := by
  simp [Cache.freeEntry, find?_ways_eq_some]

theorem Cache.freeEntry_eq_none {cc : CacheConfig} {c : Cache} {q : Nat} :
    c.freeEntry cc q = none ↔ ∀ i, q * cc.assoc ≤ i → i < (q + 1) * cc.assoc → (c.entry i).valid = true := by
  simp [Cache.freeEntry, ways_eq_range', Nat.add_one_mul]

/-- The search of `Cache.victim`, for any ranks: of `s` and the `n` numbers from `s` up, the one with the
largest rank, the lowest on a tie. -/
theorem foldl_largest (rank : Nat → Nat) (s n : Nat) :
    let v := (List.range' s n).foldl (fun best i => if rank best < rank i then i else best) s
    (s ≤ v ∧ v < s + max n 1) ∧
      ∀ i, s ≤ i → i < s + n → rank i ≤ rank v ∧ (i < v → rank i < rank v) := by
  induction n with
  | zero => exact ⟨by simp, fun i _ _ => by omega⟩
  | succ n ih =>
    obtain ⟨⟨low, high⟩, largest⟩ := ih
    rw [List.range'_1_concat, List.foldl_append, List.foldl_cons, List.foldl_nil]
    generalize (List.range' s n).foldl (fun best i => if rank best < rank i then i else best) s = v at *
    by_cases larger : rank v < rank (s + n)
    · rw [if_pos larger]
      refine ⟨by omega, fun i from_s to_n => ?_⟩
      rcases (by omega : i < s + n ∨ i = s + n) with earlier | rfl
      · obtain ⟨le, _⟩ := largest i from_s earlier
        omega
      · omega
    · rw [if_neg larger]
      refine ⟨by omega, fun i from_s to_n => ?_⟩
      rcases (by omega : i < s + n ∨ i = s + n) with earlier | rfl
      · exact largest i from_s earlier
      · omega

/-- The victim is the entry of the set with the largest recency, the lowest on a tie (R109). -/
theorem Cache.victim_largest {cc : CacheConfig} (assoc : 0 < cc.assoc) (c : Cache) (q : Nat) :
    (q * cc.assoc ≤ c.victim cc q ∧ c.victim cc q < (q + 1) * cc.assoc) ∧
      ∀ i, q * cc.assoc ≤ i → i < (q + 1) * cc.assoc →
        (c.entry i).recency ≤ (c.entry (c.victim cc q)).recency ∧
          (i < c.victim cc q → (c.entry i).recency < (c.entry (c.victim cc q)).recency) := by
  have search := foldl_largest (fun i => (c.entry i).recency) (q * cc.assoc) cc.assoc
  rw [max_eq_left assoc, ← Nat.add_one_mul] at search
  rw [Cache.victim, ways_eq_range']
  exact search

/-! ## Statistics after an update (R125) -/

section
variable (c : Cache) (rm i time : Nat)

@[simp] theorem Cache.stats_countAccess : c.countAccess.stats = { c.stats with access := c.stats.access + 1 } := rfl
@[simp] theorem Cache.stats_countMiss : c.countMiss.stats = { c.stats with miss := c.stats.miss + 1 } := rfl
@[simp] theorem Cache.stats_countFetch : c.countFetch.stats = { c.stats with fetch := c.stats.fetch + 1 } := rfl
@[simp] theorem Cache.stats_countTime :
    (c.countTime time).stats = { c.stats with time := c.stats.time + time } := rfl
@[simp] theorem Cache.stats_install (tag : Nat) (data : List Byte) : (c.install rm i tag data).stats = c.stats := rfl

end

/-! ## Making room (R105, R109 to R111) -/

/-- The cache after its entry `v` is evicted: counted, and the entry invalid and clean (R110, R111). -/
def Cache.evicted (c : Cache) (v : Nat) : Cache :=
  c.countReplace.modify v fun e => { e with valid := false, dirty := false }

theorem Cache.entry_evicted (c : Cache) (v j : Nat) :
    (c.evicted v).entry j = if j = v then { c.entry j with valid := false, dirty := false } else c.entry j := by
  rw [Cache.evicted, Cache.entry_modify, Cache.entry_countReplace]

section
variable {σ : Type} {lower : Request → σ → Reply σ Answer} {p : CacheParams} {c : Cache} {l l' : σ} {q i v : Nat}

/-- What the victim `v` asks of the lower store as it leaves: a dirty block is written to it, a clean one makes no
request (R110). -/
def flush (lower : Request → σ → Reply σ Answer) (cc : CacheConfig) (c : Cache) (v : Nat) (l : σ) : Reply σ Unit :=
  if (c.entry v).dirty then
    (lower (.write (entryBase cc v (c.entry v).tag) (c.entry v).data) l).map fun _ => ()
  else .ok () l

theorem flush_dirty {cc : CacheConfig} (dirty : (c.entry v).dirty = true) :
    flush lower cc c v l =
      (lower (.write (entryBase cc v (c.entry v).tag) (c.entry v).data) l).map fun _ => () := if_pos dirty

theorem flush_clean {cc : CacheConfig} (clean : (c.entry v).dirty = false) : flush lower cc c v l = .ok () l :=
  if_neg (by rw [clean]; exact Bool.false_ne_true)

/-- With a free entry, room is made without a change (R105). -/
theorem makeRoom_free (free : c.freeEntry p.cfg q = some i) : makeRoom lower p q (c, l) = .ok i (c, l) := by
  simp only [makeRoom, free]

/-- In a full set the victim is flushed, then evicted (R109 to R111). -/
theorem makeRoom_full (full : c.freeEntry p.cfg q = none) (victim : c.victim p.cfg q = v) :
    makeRoom lower p q (c, l) =
      ((flush lower p.cfg c v l).embed fun l => (c.countReplace, l)).bind fun _ st => .ok v (c.evicted v, st.2) := by
  cases dirty : (c.entry v).dirty with
  | false =>
    simp [makeRoom, full, victim, dirty, flush_clean, Cache.evicted]
  | true =>
    simp only [makeRoom, full, victim, Cache.entry_countReplace, dirty, if_true, askLower, flush_dirty]
    cases lower (.write (entryBase p.cfg v (c.entry v).tag) (c.entry v).data) l with
    | ok _ _ => rfl
    | fatal _ _ => rfl

/-- Where the victim's flush answers, the victim is evicted. -/
theorem makeRoom_evicts (full : c.freeEntry p.cfg q = none) (victim : c.victim p.cfg q = v)
    (flushed : flush lower p.cfg c v l = .ok () l') :
    makeRoom lower p q (c, l) = .ok v (c.evicted v, l') := by
  rw [makeRoom_full full victim, flushed, Reply.embed_ok, Reply.bind_ok]

/-- All that making room can answer: a free entry, or the victim. -/
theorem makeRoom_ok {room : Cache} (made : makeRoom lower p q (c, l) = .ok i (room, l')) :
    (c.freeEntry p.cfg q = some i ∧ room = c ∧ l' = l) ∨
    (c.freeEntry p.cfg q = none ∧ c.victim p.cfg q = i ∧ room = c.evicted i ∧ flush lower p.cfg c i l = .ok () l') := by
  cases free : c.freeEntry p.cfg q with
  | some j =>
    rw [makeRoom_free free] at made
    cases made
    exact .inl ⟨rfl, rfl, rfl⟩
  | none =>
    rw [makeRoom_full free rfl] at made
    cases flushed : flush lower p.cfg c (c.victim p.cfg q) l with
    | ok _ _ =>
      rw [flushed] at made
      cases made
      exact .inr ⟨rfl, rfl, rfl, flushed⟩
    | fatal _ _ =>
      rw [flushed] at made
      cases made

/-- Of the statistics, making room touches the evictions alone. -/
theorem makeRoom_stats {room : Cache} (made : makeRoom lower p q (c, l) = .ok i (room, l')) :
    ∃ replaced, room.stats = { c.stats with replace := replaced } := by
  rcases makeRoom_ok made with ⟨_, rfl, _⟩ | ⟨_, _, rfl, _⟩
  · exact ⟨_, rfl⟩
  · exact ⟨_, rfl⟩

/-- The access and the miss counted before making room are counted after it as well. -/
theorem makeRoom_counted {room : Cache} (made : makeRoom lower p q (c, l) = .ok i (room, l')) :
    makeRoom lower p q (c.countAccess.countMiss, l) = .ok i (room.countAccess.countMiss, l') := by
  rcases makeRoom_ok made with ⟨free, rfl, rfl⟩ | ⟨full, victim, rfl, flushed⟩
  · exact makeRoom_free free
  · exact makeRoom_evicts (c := c.countAccess.countMiss) full victim flushed

end

/-! ## One request, by kind (R102 to R104, R106 to R108, R112) -/

section
variable {σ : Type} {lower : Request → σ → Reply σ Answer} {p : CacheParams} {c : Cache} {l l' : σ}
  {addr n i : Nat} {buffer : List Byte}

/-- A read hit (R102). -/
theorem cacheRequest_read_hit (hit : c.lookup p.cfg addr = some i) (inBlock : addr % 64 + n ≤ 64) :
    cacheRequest lower p (.read addr n) (c, l) =
      .ok ⟨true, p.hitTime, sliceBytes (c.entry i).data (addr % 64) n⟩
        ((c.countAccess.touch p.recencyMax i).countTime p.hitTime, l) := by
  rw [cacheRequest_hit (q := .read addr n) inBlock hit]
  simp only [cacheHit, Request.read, if_true, respond, blockOffset, Cache.entry_touch, Cache.entry_countAccess]

/-- A write hit under write-back stays in the cache (R104). -/
theorem cacheRequest_write_back (hit : c.lookup p.cfg addr = some i) (inBlock : addr % 64 + buffer.length ≤ 64)
    (policy : p.cfg.writeThrough = false) :
    cacheRequest lower p (.write addr buffer) (c, l) =
      .ok ⟨true, p.hitTime, []⟩
        ((c.countAccess.wrote p.recencyMax i (addr % 64) buffer true).countTime p.hitTime, l) := by
  rw [cacheRequest_hit (q := .write addr buffer) inBlock hit]
  simp only [cacheHit, Request.write, Bool.false_eq_true, if_false, policy, respond, blockOffset, Cache.wrote]

/-- A write hit under write-through goes to the lower store as well (R103). -/
theorem cacheRequest_write_through {a : Answer} (hit : c.lookup p.cfg addr = some i)
    (inBlock : addr % 64 + buffer.length ≤ 64) (policy : p.cfg.writeThrough = true)
    (written : lower (.write addr buffer) l = .ok a l') :
    cacheRequest lower p (.write addr buffer) (c, l) =
      .ok ⟨true, p.hitTime + a.time, []⟩
        ((c.countAccess.wrote p.recencyMax i (addr % 64) buffer false).countTime (p.hitTime + a.time), l') := by
  rw [cacheRequest_hit (q := .write addr buffer) inBlock hit]
  have writes : (Request.write addr buffer).isRead = false := rfl
  simp only [cacheHit, writes, Bool.false_eq_true, if_false, policy, if_true, askLower, written]
  rfl

/-- A write miss under no-allocate is forwarded (R108). -/
theorem cacheRequest_write_forward {a : Answer} (miss : c.lookup p.cfg addr = none)
    (inBlock : addr % 64 + buffer.length ≤ 64) (policy : p.cfg.writeAllocate = false)
    (written : lower (.write addr buffer) l = .ok a l') :
    cacheRequest lower p (.write addr buffer) (c, l) =
      .ok ⟨false, p.hitTime + a.time + p.lat.bus, []⟩
        (c.countAccess.countMiss.countTime (p.hitTime + a.time + p.lat.bus), l') := by
  rw [cacheRequest_miss (q := .write addr buffer) inBlock miss, if_pos (by simp [policy, Request.write])]
  simp only [cacheForward, askLower, written]
  rfl

variable {room : Cache} {l₀ l₁ l₂ l₃ : σ} {a₁ a₂ a₃ : Answer}

/-- A read miss fetches the block (R106). -/
theorem cacheRequest_read_miss (miss : c.lookup p.cfg addr = none) (inBlock : addr % 64 + n ≤ 64)
    (made : makeRoom lower p (setIndex p.cfg addr) (c, l) = .ok i (room, l₀))
    (fetched : lower (.read (blockBase addr) 64) l₀ = .ok a₁ l₁) :
    let time := p.hitTime + a₁.time + p.lat.bus
    cacheRequest lower p (.read addr n) (c, l) =
      .ok ⟨false, time, sliceBytes a₁.bytes (addr % 64) n⟩
        ((room.countAccess.countMiss.countFetch.install p.recencyMax i (tagOf p.cfg addr) a₁.bytes).countTime time,
          l₁) := by
  have reads : (Request.read addr n).isRead = true := rfl
  have place : (Request.read addr n).addr = addr := rfl
  rw [cacheRequest_miss (q := .read addr n) inBlock miss, if_neg (by simp [reads])]
  simp only [cacheFill, place, makeRoom_counted made, Reply.bind_ok, askLower, fetched, Reply.embed_ok, reads, if_true]
  rfl

/-- A write miss under write-allocate fetches the block, writes it in the lower store, and fetches it again (R107). -/
theorem cacheRequest_write_miss (miss : c.lookup p.cfg addr = none) (inBlock : addr % 64 + buffer.length ≤ 64)
    (policy : p.cfg.writeAllocate = true)
    (made : makeRoom lower p (setIndex p.cfg addr) (c, l) = .ok i (room, l₀))
    (fetched : lower (.read (blockBase addr) 64) l₀ = .ok a₁ l₁) (written : lower (.write addr buffer) l₁ = .ok a₂ l₂)
    (refetched : lower (.read (blockBase addr) 64) l₂ = .ok a₃ l₃) :
    let time := p.hitTime + a₁.time + a₂.time + a₃.time + p.lat.bus
    cacheRequest lower p (.write addr buffer) (c, l) =
      .ok ⟨false, time, []⟩
        ((room.countAccess.countMiss.countFetch.countFetch.install p.recencyMax i (tagOf p.cfg addr) a₃.bytes).countTime
          time, l₃) := by
  have writes : (Request.write addr buffer).isRead = false := rfl
  have place : (Request.write addr buffer).addr = addr := rfl
  rw [cacheRequest_miss (q := .write addr buffer) inBlock miss, if_neg (by simp [policy])]
  simp only [cacheFill, place, makeRoom_counted made, Reply.bind_ok, askLower, fetched, Reply.embed_ok, writes,
    Bool.false_eq_true, if_false, written, refetched]
  rfl

end

/-! ## The first read of a block after reset (R114, R416) -/

section
variable {σ : Type} {lower : Request → σ → Reply σ Answer} {p : CacheParams} {l l' : σ} {addr n : Nat}

/-- In an empty cache the first entry of each set is free. -/
theorem Cache.freeEntry_empty {cc : CacheConfig} (assoc : 0 < cc.assoc) (q : Nat) :
    Cache.empty.freeEntry cc q = some (q * cc.assoc) :=
  Cache.freeEntry_eq_some.mpr
    ⟨rfl, ⟨Nat.le_refl _, by rw [Nat.add_one_mul]; omega⟩, fun _ from_q below => absurd below (Nat.not_lt.mpr from_q)⟩

/-- A block installed in the first entry of its set is found there. -/
theorem Cache.lookup_installed_first {cc : CacheConfig} (assoc : 0 < cc.assoc) (c : Cache) (rm addr time : Nat)
    (data : List Byte) :
    ((c.install rm (setIndex cc addr * cc.assoc) (tagOf cc addr) data).countTime time).lookup cc addr =
      some (setIndex cc addr * cc.assoc) :=
  find?_ways_eq_some.mpr
    ⟨by simp [Cache.holds, Cache.entry_install, freshEntry], ⟨Nat.le_refl _, by rw [Nat.add_one_mul]; omega⟩,
      fun _ from_q below => absurd below (Nat.not_lt.mpr from_q)⟩

/-- A read of an empty cache over a store that answers the block as `m` holds it: it misses and returns the bytes of
`m`, and the same read again hits and returns them too. -/
theorem cacheRequest_cold_read {m : FlatMemory} {base time : Nat} {hit : Bool} (assoc : 0 < p.cfg.assoc)
    (inBlock : addr % 64 + n ≤ 64) (block : blockBase addr = base)
    (fetched : lower (.read base 64) l = .ok ⟨hit, time, m.bytes base 64⟩ l') :
    ∃ c, cacheRequest lower p (.read addr n) (Cache.empty, l) =
        .ok ⟨false, p.hitTime + time + p.lat.bus, m.bytes addr n⟩ (c, l') ∧
      ∃ c', cacheRequest lower p (.read addr n) (c, l') = .ok ⟨true, p.hitTime, m.bytes addr n⟩ (c', l') := by
  subst block
  have offset : blockBase addr + addr % 64 = addr := by unfold blockBase blockOffset; omega
  have bytes : sliceBytes (m.bytes (blockBase addr) 64) (addr % 64) n = m.bytes addr n := by
    rw [m.sliceBytes_bytes _ inBlock, offset]
  have made := makeRoom_free (lower := lower) (l := l) (Cache.freeEntry_empty assoc (setIndex p.cfg addr))
  have cold := cacheRequest_read_miss (n := n) (Cache.lookup_empty p.cfg addr) inBlock made fetched
  rw [bytes] at cold
  have warm := cacheRequest_read_hit (lower := lower) (l := l')
    (Cache.lookup_installed_first assoc Cache.empty.countAccess.countMiss.countFetch p.recencyMax addr
      (p.hitTime + time + p.lat.bus) (m.bytes (blockBase addr) 64)) inBlock
  rw [Cache.entry_countTime, Cache.entry_install, if_pos rfl, freshEntry, bytes] at warm
  exact ⟨_, cold, _, warm⟩

end

/-! ## The obligations -/

/-- Settles O43: each is what a coherent store owes its requester, and L1 over its lower stores is one. -/
theorem coherentView : Obligations.CoherentView := by
  intro cfg ch addr legal inv
  have coherent := l1Request_coherent legal
  refine ⟨fun n inBlock => coherent.answers_or_outside (q := .read addr n) inBlock (coherent.read inv inBlock),
    fun buffer inBlock => ?write, chainView_empty cfg⟩
  case write =>
    rcases coherent.answers_or_outside (q := .write addr buffer) inBlock (coherent.write inv inBlock) with
      ⟨a, ch', answer, _, written⟩ | outside
    · exact .inl ⟨a, ch', answer, written⟩
    · exact .inr outside

/-- Settles O44: one lemma per kind of request, then the entries and the statistics of the cache it leaves. -/
theorem cacheHitAndForward : Obligations.CacheHitAndForward := by
  intro σ lower p c l addr n buffer
  refine ⟨fun i hit => ⟨fun inBlock => ?readHit, fun inBlock policy => ?writeBack,
    fun inBlock policy a l' written => ?writeThrough⟩, fun miss policy inBlock a l' written => ?forward,
    fun miss i room l₀ a₁ l₁ made fetched => ⟨fun inBlock => ?readMiss,
      fun policy inBlock a₂ l₂ a₃ l₃ written refetched => ?writeMiss⟩⟩
  case readHit =>
    refine ⟨_, cacheRequest_read_hit hit inBlock, ?_, fun j other => ?_, rfl⟩
    · simp [Cache.entry_touch]
    · simp [Cache.entry_touch, other, older]
  case writeBack =>
    refine ⟨_, cacheRequest_write_back hit inBlock policy, ?_, fun j other => ?_, rfl⟩
    · simp [Cache.entry_wrote]
    · simp [Cache.entry_wrote, other, older]
  case writeThrough =>
    refine ⟨_, cacheRequest_write_through hit inBlock policy written, ?_, fun j other => ?_, rfl⟩
    · simp [Cache.entry_wrote]
    · simp [Cache.entry_wrote, other, older]
  case forward =>
    exact ⟨_, cacheRequest_write_forward miss inBlock policy written, fun _ => rfl, rfl⟩
  case readMiss =>
    obtain ⟨_, stats⟩ := makeRoom_stats made
    refine ⟨_, cacheRequest_read_miss miss inBlock made fetched, ?_, fun j other => ?_, ?_⟩
    · simp [Cache.entry_install, freshEntry, tagOf]
    · simp [Cache.entry_install, other, older]
    · simp [stats, CacheParams.hitTime]
  case writeMiss =>
    obtain ⟨_, stats⟩ := makeRoom_stats made
    refine ⟨_, cacheRequest_write_miss miss inBlock policy made fetched written refetched, ?_, fun j other => ?_, ?_⟩
    · simp [Cache.entry_install, freshEntry, tagOf]
    · simp [Cache.entry_install, other, older]
    · simp [stats, CacheParams.hitTime]

/-- Settles O45: each cache's cold read is the one below it plus its own times, the lowest the flat memory's. -/
theorem coldMissLatency : Obligations.ColdMissLatency := by
  intro cfg m addr n legal inMemory inBlock
  obtain ⟨l1Ways, _, _⟩ := legal_geometry legal.l1
  obtain ⟨l2Ways, _, _⟩ := legal_geometry legal.l2
  obtain ⟨llcWays, _, _⟩ := legal_geometry legal.llc
  have aligned : blockBase addr % 64 + 64 ≤ 64 := by unfold blockBase blockOffset; omega
  have same : blockBase (blockBase addr) = blockBase addr := by unfold blockBase blockOffset; omega
  have inside : blockBase addr + 64 ≤ cfg.memSize := by
    unfold blockInMemory at inMemory; unfold blockBase blockOffset; omega
  obtain ⟨_, llc, _⟩ := cacheRequest_cold_read (p := llcParams cfg) llcWays aligned same
    (memRequest_read inside cfg.memLat m)
  obtain ⟨_, l2, _⟩ := cacheRequest_cold_read (p := l2Params cfg) l2Ways aligned same llc
  obtain ⟨_, cold, _, warm⟩ := cacheRequest_cold_read (p := l1Params cfg) l1Ways inBlock rfl l2
  refine ⟨_, _, cold, rfl, rfl, rfl, _, _, warm, rfl, rfl, rfl, fun l1 l2 llc mem => ?_⟩
  simp [CacheParams.hitTime, l1Params, l2Params, llcParams, l1, l2, llc, mem]

/-- Settles O46: the free entry is the lowest invalid one, and the victim, of a full set, is evicted. -/
theorem replacement : Obligations.Replacement := by
  intro σ lower p c l q assoc
  refine ⟨fun i inSet invalid earlier => ?free, fun full => ?full⟩
  case free =>
    obtain ⟨low, high⟩ := inSet
    exact makeRoom_free (Cache.freeEntry_eq_some.mpr
      ⟨invalid, ⟨low, high⟩, fun j from_q below => earlier j ⟨from_q, by omega⟩ below⟩)
  case full =>
    have noneFree := Cache.freeEntry_eq_none.mpr fun i low high => full i ⟨low, high⟩
    obtain ⟨inSet, largest⟩ := c.victim_largest assoc q
    refine ⟨c.victim p.cfg q, inSet, fun i ⟨low, high⟩ => (largest i low high).1,
      fun i ⟨low, high⟩ => (largest i low high).2, fun a l' reply => ?_⟩
    have flushed : flush lower p.cfg c (c.victim p.cfg q) l = .ok () l' := by
      split at reply
      next dirty => rw [flush_dirty dirty, reply, Reply.map_ok]
      next clean => rw [flush_clean (by simpa using clean)]; cases reply; rfl
    refine ⟨_, makeRoom_evicts noneFree rfl flushed, ?_, fun j other => ?_, rfl⟩
    · rw [Cache.entry_evicted, if_pos rfl]
    · rw [Cache.entry_evicted, if_neg other]

/-- Settles O42: beyond the memory nothing is done; inside it the bytes are copied and the access counted. -/
theorem flatMemoryRequest : Obligations.FlatMemoryRequest := fun _ lat m addr n buffer =>
  ⟨fun beyond => memRequest_beyond (q := .read addr n) beyond lat m,
    fun beyond => memRequest_beyond (q := .write addr buffer) beyond lat m,
    fun inside => ⟨_, memRequest_read inside lat m, m.byte_count lat, rfl⟩,
    fun inside => ⟨_, memRequest_write inside lat m, fun pa => m.byte_writeBytes addr buffer pa, rfl⟩⟩

end Sys2Proof.Machine
end

section
/-! SUPPORT. Encoding and decoding (R141 to R155): what each field of an encoded word reads, that the fields of a word
assemble to it again, what a row of the opcode table says of a word that it accepts, and that at most one row accepts
a word. -/

namespace Sys2Proof

open BitVec (extractLsb'_append_eq_left extractLsb'_append_eq_right extractLsb'_eq_self
  extractLsb'_append_extractLsb'_eq_extractLsb')

/-! ## Slices -/

/-- A slice that lies above the low part of a concatenation is a slice of the high part. -/
theorem slice_above {v k start len : Nat} {high : BitVec v} {low : BitVec k} {field : BitVec len}
    (h : high.extractLsb' start len = field) : (high ++ low).extractLsb' (start + k) len = field := by
  rw [BitVec.extractLsb'_append_eq_of_le (Nat.le_add_left k start), Nat.add_sub_cancel, h]

/-- The low bit of an even number, as a slice. -/
theorem slice_zero_of_even {n : Nat} {imm : BitVec n} (even : imm.getLsbD 0 = false) :
    imm.extractLsb' 0 1 = 0#1 := by
  ext k hk
  obtain rfl : k = 0 := by omega
  simpa using even

/-! ## The fields of an encoded word (R142 to R148) -/

section Fields

variable (funct7 : BitVec 7) (rs2 rs1 : Reg) (funct3 : BitVec 3) (rd : Reg) (opcode : BitVec 7)

@[simp] theorem rd_encodeR : RawField.rd (encodeR funct7 rs2 rs1 funct3 rd opcode) = rd :=
  slice_above extractLsb'_append_eq_right

@[simp] theorem rs1_encodeR : RawField.rs1 (encodeR funct7 rs2 rs1 funct3 rd opcode) = rs1 := by
  iterate 3 apply slice_above
  exact extractLsb'_append_eq_right

@[simp] theorem rs2_encodeR : RawField.rs2 (encodeR funct7 rs2 rs1 funct3 rd opcode) = rs2 := by
  iterate 4 apply slice_above
  exact extractLsb'_append_eq_right

@[simp] theorem rd_encodeI (imm : BitVec 12) : RawField.rd (encodeI imm rs1 funct3 rd opcode) = rd :=
  slice_above extractLsb'_append_eq_right

@[simp] theorem rs1_encodeI (imm : BitVec 12) : RawField.rs1 (encodeI imm rs1 funct3 rd opcode) = rs1 := by
  iterate 3 apply slice_above
  exact extractLsb'_append_eq_right

@[simp] theorem immI_encodeI (imm : BitVec 12) : RawField.immI (encodeI imm rs1 funct3 rd opcode) = imm := by
  iterate 3 apply slice_above
  exact extractLsb'_append_eq_left

@[simp] theorem shamt6_encodeI (funct6 shamt : BitVec 6) :
    RawField.shamt6 (encodeI (funct6 ++ shamt) rs1 funct3 rd opcode) = shamt := by
  iterate 4 apply slice_above
  exact extractLsb'_append_eq_right

@[simp] theorem shamt5_encodeI (shamt : BitVec 5) :
    RawField.shamt5 (encodeI (funct7 ++ shamt) rs1 funct3 rd opcode) = shamt := by
  iterate 4 apply slice_above
  exact extractLsb'_append_eq_right

@[simp] theorem rs1_encodeS (imm : BitVec 12) : RawField.rs1 (encodeS imm rs2 rs1 funct3 opcode) = rs1 := by
  iterate 3 apply slice_above
  exact extractLsb'_append_eq_right

@[simp] theorem rs2_encodeS (imm : BitVec 12) : RawField.rs2 (encodeS imm rs2 rs1 funct3 opcode) = rs2 := by
  iterate 4 apply slice_above
  exact extractLsb'_append_eq_right

@[simp] theorem immS_encodeS (imm : BitVec 12) : RawField.immS (encodeS imm rs2 rs1 funct3 opcode) = imm := by
  have high : (encodeS imm rs2 rs1 funct3 opcode).extractLsb' 25 7 = imm.extractLsb' 5 7 := by
    iterate 4 apply slice_above
    exact extractLsb'_append_eq_left
  have low : (encodeS imm rs2 rs1 funct3 opcode).extractLsb' 7 5 = imm.extractLsb' 0 5 :=
    slice_above extractLsb'_append_eq_right
  simp (disch := decide) only [RawField.immS, high, low, extractLsb'_append_extractLsb'_eq_extractLsb']
  exact extractLsb'_eq_self

@[simp] theorem rs1_encodeB (imm : BitVec 13) : RawField.rs1 (encodeB imm rs2 rs1 funct3 opcode) = rs1 := by
  iterate 4 apply slice_above
  exact extractLsb'_append_eq_right

@[simp] theorem rs2_encodeB (imm : BitVec 13) : RawField.rs2 (encodeB imm rs2 rs1 funct3 opcode) = rs2 := by
  iterate 5 apply slice_above
  exact extractLsb'_append_eq_right

theorem immB_encodeB {imm : BitVec 13} (even : imm.getLsbD 0 = false) :
    RawField.immB (encodeB imm rs2 rs1 funct3 opcode) = imm := by
  have bit12 : (encodeB imm rs2 rs1 funct3 opcode).extractLsb' 31 1 = imm.extractLsb' 12 1 := by
    iterate 6 apply slice_above
    exact extractLsb'_append_eq_left
  have bit11 : (encodeB imm rs2 rs1 funct3 opcode).extractLsb' 7 1 = imm.extractLsb' 11 1 :=
    slice_above extractLsb'_append_eq_right
  have high : (encodeB imm rs2 rs1 funct3 opcode).extractLsb' 25 6 = imm.extractLsb' 5 6 := by
    iterate 6 apply slice_above
    exact extractLsb'_append_eq_right
  have low : (encodeB imm rs2 rs1 funct3 opcode).extractLsb' 8 4 = imm.extractLsb' 1 4 := by
    iterate 2 apply slice_above
    exact extractLsb'_append_eq_right
  simp (disch := decide) only [RawField.immB, bit12, bit11, high, low, ← slice_zero_of_even even,
    extractLsb'_append_extractLsb'_eq_extractLsb']
  exact extractLsb'_eq_self

@[simp] theorem rd_encodeU (imm : BitVec 20) : RawField.rd (encodeU imm rd opcode) = rd :=
  slice_above extractLsb'_append_eq_right

@[simp] theorem immU_encodeU (imm : BitVec 20) : RawField.immU (encodeU imm rd opcode) = imm :=
  slice_above extractLsb'_append_eq_left

@[simp] theorem rd_encodeJ (imm : BitVec 21) : RawField.rd (encodeJ imm rd opcode) = rd :=
  slice_above extractLsb'_append_eq_right

theorem immJ_encodeJ {imm : BitVec 21} (even : imm.getLsbD 0 = false) :
    RawField.immJ (encodeJ imm rd opcode) = imm := by
  have bit20 : (encodeJ imm rd opcode).extractLsb' 31 1 = imm.extractLsb' 20 1 := by
    iterate 4 apply slice_above
    exact extractLsb'_append_eq_left
  have high : (encodeJ imm rd opcode).extractLsb' 12 8 = imm.extractLsb' 12 8 := by
    iterate 2 apply slice_above
    exact extractLsb'_append_eq_right
  have bit11 : (encodeJ imm rd opcode).extractLsb' 20 1 = imm.extractLsb' 11 1 := by
    iterate 3 apply slice_above
    exact extractLsb'_append_eq_right
  have low : (encodeJ imm rd opcode).extractLsb' 21 10 = imm.extractLsb' 1 10 := by
    iterate 4 apply slice_above
    exact extractLsb'_append_eq_right
  simp (disch := decide) only [RawField.immJ, bit20, high, bit11, low, ← slice_zero_of_even even,
    extractLsb'_append_extractLsb'_eq_extractLsb']
  exact extractLsb'_eq_self

end Fields

/-! ## A word is assembled from its fields (R142 to R148) -/

section Assembly

open RawField

variable (w : Raw)

theorem encodeR_fields :
    encodeR (w.extractLsb' 25 7) (rs2 w) (rs1 w) (w.extractLsb' 12 3) (rd w) (w.extractLsb' 0 7) = w := by
  simp (disch := decide) only [encodeR, rs2, rs1, rd, extractLsb'_append_extractLsb'_eq_extractLsb']
  exact extractLsb'_eq_self

theorem encodeI_fields : encodeI (immI w) (rs1 w) (w.extractLsb' 12 3) (rd w) (w.extractLsb' 0 7) = w := by
  simp (disch := decide) only [encodeI, immI, rs1, rd, extractLsb'_append_extractLsb'_eq_extractLsb']
  exact extractLsb'_eq_self

/-- The I immediate of a 64-bit shift is its funct6 and its shift amount (R143). -/
theorem funct6_append_shamt6 : w.extractLsb' 26 6 ++ shamt6 w = immI w :=
  extractLsb'_append_extractLsb'_eq_extractLsb' rfl

/-- The I immediate of a 32-bit shift is its funct7 and its shift amount (R143). -/
theorem funct7_append_shamt5 : w.extractLsb' 25 7 ++ shamt5 w = immI w :=
  extractLsb'_append_extractLsb'_eq_extractLsb' rfl

theorem encodeS_fields : encodeS (immS w) (rs2 w) (rs1 w) (w.extractLsb' 12 3) (w.extractLsb' 0 7) = w := by
  have high : (immS w).extractLsb' 5 7 = w.extractLsb' 25 7 := extractLsb'_append_eq_left
  have low : (immS w).extractLsb' 0 5 = w.extractLsb' 7 5 := extractLsb'_append_eq_right
  simp (disch := decide) only [encodeS, high, low, rs2, rs1, extractLsb'_append_extractLsb'_eq_extractLsb']
  exact extractLsb'_eq_self

theorem encodeB_fields : encodeB (immB w) (rs2 w) (rs1 w) (w.extractLsb' 12 3) (w.extractLsb' 0 7) = w := by
  have bit12 : (immB w).extractLsb' 12 1 = w.extractLsb' 31 1 := by
    iterate 3 apply slice_above
    exact extractLsb'_append_eq_left
  have bit11 : (immB w).extractLsb' 11 1 = w.extractLsb' 7 1 := by
    iterate 3 apply slice_above
    exact extractLsb'_append_eq_right
  have high : (immB w).extractLsb' 5 6 = w.extractLsb' 25 6 := by
    iterate 2 apply slice_above
    exact extractLsb'_append_eq_right
  have low : (immB w).extractLsb' 1 4 = w.extractLsb' 8 4 := slice_above extractLsb'_append_eq_right
  simp (disch := decide) only [encodeB, bit12, bit11, high, low, rs2, rs1,
    extractLsb'_append_extractLsb'_eq_extractLsb']
  exact extractLsb'_eq_self

theorem encodeU_fields : encodeU (immU w) (rd w) (w.extractLsb' 0 7) = w := by
  simp (disch := decide) only [encodeU, immU, rd, extractLsb'_append_extractLsb'_eq_extractLsb']
  exact extractLsb'_eq_self

theorem encodeJ_fields : encodeJ (immJ w) (rd w) (w.extractLsb' 0 7) = w := by
  have bit20 : (immJ w).extractLsb' 20 1 = w.extractLsb' 31 1 := by
    iterate 3 apply slice_above
    exact extractLsb'_append_eq_left
  have high : (immJ w).extractLsb' 12 8 = w.extractLsb' 12 8 := by
    iterate 3 apply slice_above
    exact extractLsb'_append_eq_right
  have bit11 : (immJ w).extractLsb' 11 1 = w.extractLsb' 20 1 := by
    iterate 2 apply slice_above
    exact extractLsb'_append_eq_right
  have low : (immJ w).extractLsb' 1 10 = w.extractLsb' 21 10 := slice_above extractLsb'_append_eq_right
  simp (disch := decide) only [encodeJ, bit20, high, bit11, low, rd,
    extractLsb'_append_extractLsb'_eq_extractLsb']
  exact extractLsb'_eq_self

/-- A branch offset read from a word is even (R148). -/
theorem immB_even : (immB w).getLsbD 0 = false := BitVec.getLsbD_append.trans rfl

/-- A jump offset read from a word is even (R148). -/
theorem immJ_even : (immJ w).getLsbD 0 = false := BitVec.getLsbD_append.trans rfl

end Assembly

/-! ## A row of the opcode table and a word that it accepts (R150) -/

/-- Where the mask is all ones, an accepted word has the bits of the row's value. -/
theorem slice_of_accepts {r : Row} {w mask : Raw} {start len : Nat} (accepted : r.accepts w = true)
    (hmask : r.mask = mask) (masked : mask.extractLsb' start len = BitVec.allOnes len) :
    r.value.extractLsb' start len = w.extractLsb' start len := by
  rw [← beq_iff_eq.mp accepted, BitVec.extractLsb'_and, hmask, masked, BitVec.and_allOnes]

open RawField in
/-- The layout of a row's words (R142 to R147): its mask shows the fields that the format fixes, and what it builds from
a word is well formed and is encoded as the word's operands under the fixed fields of the row's value. -/
inductive Row.Layout (r : Row) : Prop where
  | formatR (mask : r.mask = 0xfe00707f) (word : ∀ w, (r.build w).wf = true ∧ encode (r.build w) =
      encodeR (r.value.extractLsb' 25 7) (rs2 w) (rs1 w) (r.value.extractLsb' 12 3) (rd w) (r.value.extractLsb' 0 7))
  | formatI (mask : r.mask = 0x0000707f) (word : ∀ w, (r.build w).wf = true ∧ encode (r.build w) =
      encodeI (immI w) (rs1 w) (r.value.extractLsb' 12 3) (rd w) (r.value.extractLsb' 0 7))
  | shift6 (mask : r.mask = 0xfc00707f) (word : ∀ w, (r.build w).wf = true ∧ encode (r.build w) =
      encodeI (r.value.extractLsb' 26 6 ++ shamt6 w) (rs1 w) (r.value.extractLsb' 12 3) (rd w)
        (r.value.extractLsb' 0 7))
  | shift5 (mask : r.mask = 0xfe00707f) (word : ∀ w, (r.build w).wf = true ∧ encode (r.build w) =
      encodeI (r.value.extractLsb' 25 7 ++ shamt5 w) (rs1 w) (r.value.extractLsb' 12 3) (rd w)
        (r.value.extractLsb' 0 7))
  | formatS (mask : r.mask = 0x0000707f) (word : ∀ w, (r.build w).wf = true ∧ encode (r.build w) =
      encodeS (immS w) (rs2 w) (rs1 w) (r.value.extractLsb' 12 3) (r.value.extractLsb' 0 7))
  | formatB (mask : r.mask = 0x0000707f) (word : ∀ w, (r.build w).wf = true ∧ encode (r.build w) =
      encodeB (immB w) (rs2 w) (rs1 w) (r.value.extractLsb' 12 3) (r.value.extractLsb' 0 7))
  | formatU (mask : r.mask = 0x0000007f) (word : ∀ w, (r.build w).wf = true ∧ encode (r.build w) =
      encodeU (immU w) (rd w) (r.value.extractLsb' 0 7))
  | formatJ (mask : r.mask = 0x0000007f) (word : ∀ w, (r.build w).wf = true ∧ encode (r.build w) =
      encodeJ (immJ w) (rd w) (r.value.extractLsb' 0 7))
  | fixed (mask : r.mask = 0xffffffff) (word : ∀ w, (r.build w).wf = true ∧ encode (r.build w) = r.value)

/-- What a row builds from an accepted word is well formed, and that word is its encoding: the mask and the operands
cover every bit. -/
theorem Row.Layout.encode_build {r : Row} (layout : r.Layout) {w : Raw} (accepted : r.accepts w = true) :
    (r.build w).wf = true ∧ encode (r.build w) = w := by
  cases layout with
  | formatR mask word => simpa (disch := decide) only [slice_of_accepts accepted mask, encodeR_fields] using word w
  | formatI mask word => simpa (disch := decide) only [slice_of_accepts accepted mask, encodeI_fields] using word w
  | shift6 mask word =>
    simpa (disch := decide) only [slice_of_accepts accepted mask, funct6_append_shamt6, encodeI_fields] using word w
  | shift5 mask word =>
    simpa (disch := decide) only [slice_of_accepts accepted mask, funct7_append_shamt5, encodeI_fields] using word w
  | formatS mask word => simpa (disch := decide) only [slice_of_accepts accepted mask, encodeS_fields] using word w
  | formatB mask word => simpa (disch := decide) only [slice_of_accepts accepted mask, encodeB_fields] using word w
  | formatU mask word => simpa (disch := decide) only [slice_of_accepts accepted mask, encodeU_fields] using word w
  | formatJ mask word => simpa (disch := decide) only [slice_of_accepts accepted mask, encodeJ_fields] using word w
  | fixed mask word =>
    have value : r.value = w := by rw [← beq_iff_eq.mp accepted, mask]; exact BitVec.and_allOnes
    exact value ▸ word w

section Layouts

open Row.Layout

theorem upperAndJumpRows_layout : ∀ r ∈ upperAndJumpRows, r.Layout := by
  intro r mem
  fin_cases mem
  exacts [formatU rfl fun _ => ⟨rfl, rfl⟩, formatU rfl fun _ => ⟨rfl, rfl⟩,
    formatJ rfl fun w => ⟨beq_iff_eq.mpr (immJ_even w), rfl⟩, formatI rfl fun _ => ⟨rfl, rfl⟩]

theorem branchRows_layout : ∀ r ∈ branchRows, r.Layout := by
  intro r mem
  fin_cases mem <;> exact formatB rfl fun w => ⟨beq_iff_eq.mpr (immB_even w), rfl⟩

theorem loadRows_layout : ∀ r ∈ loadRows, r.Layout := by
  intro r mem
  fin_cases mem <;> exact formatI rfl fun _ => ⟨rfl, rfl⟩

theorem storeRows_layout : ∀ r ∈ storeRows, r.Layout := by
  intro r mem
  fin_cases mem <;> exact formatS rfl fun _ => ⟨rfl, rfl⟩

theorem regImmRows_layout : ∀ r ∈ regImmRows, r.Layout := by
  intro r mem
  fin_cases mem
  iterate 6 exact formatI rfl fun _ => ⟨rfl, rfl⟩
  all_goals exact shift6 rfl fun _ => ⟨rfl, rfl⟩

theorem regRegRows_layout : ∀ r ∈ regRegRows, r.Layout := by
  intro r mem
  fin_cases mem <;> exact formatR rfl fun _ => ⟨rfl, rfl⟩

theorem wordRows_layout : ∀ r ∈ wordRows, r.Layout := by
  intro r mem
  fin_cases mem
  · exact formatI rfl fun _ => ⟨rfl, rfl⟩
  iterate 3 exact shift5 rfl fun _ => ⟨rfl, rfl⟩
  all_goals exact formatR rfl fun _ => ⟨rfl, rfl⟩

theorem mulDivRows_layout : ∀ r ∈ mulDivRows, r.Layout := by
  intro r mem
  fin_cases mem <;> exact formatR rfl fun _ => ⟨rfl, rfl⟩

theorem systemRows_layout : ∀ r ∈ systemRows, r.Layout := by
  intro r mem
  fin_cases mem
  exact fixed rfl fun _ => (by decide : Instr.ecall.wf = true ∧ encode .ecall = 0x00000073)

/-- Every row of the table has a layout. -/
theorem opcodeTable_layout : ∀ r ∈ opcodeTable, r.Layout := by
  simp only [opcodeTable, List.forall_mem_append, and_assoc]
  exact ⟨upperAndJumpRows_layout, branchRows_layout, loadRows_layout, storeRows_layout, regImmRows_layout,
    regRegRows_layout, wordRows_layout, mulDivRows_layout, systemRows_layout⟩

end Layouts

/-- A row builds instructions of its own mnemonic. -/
theorem build_mnemonic : ∀ r ∈ opcodeTable, ∀ w, (r.build w).mnemonic = r.op := fun r mem w =>
  have rows : (opcodeTable.map fun r w => (r.build w).mnemonic) = opcodeTable.map fun r _ => r.op := rfl
  congrFun (List.map_inj_left.mp rows r mem) w

/-! ## Decoding (R150, R151) -/

/-- No two rows of the table agree on the bits that both masks show. -/
theorem opcodeTable_disjoint : opcodeTable.Pairwise fun a b => a.value &&& b.mask ≠ b.value &&& a.mask := by decide

/-- Rows that accept one word agree on the bits that both masks show. -/
theorem agree_of_accepts {a b : Row} {w : Raw} (ha : a.accepts w = true) (hb : b.accepts w = true) :
    a.value &&& b.mask = b.value &&& a.mask := by
  rw [← beq_iff_eq.mp ha, ← beq_iff_eq.mp hb, BitVec.and_assoc, BitVec.and_assoc, BitVec.and_comm a.mask]

/-- Two rows that accept one word are the same row (R150). -/
theorem row_unique {a b : Row} {w : Raw} (ma : a ∈ opcodeTable) (mb : b ∈ opcodeTable) (ha : a.accepts w = true)
    (hb : b.accepts w = true) : a = b := by
  by_contra different
  have symm : Std.Symm fun a b : Row => a.value &&& b.mask ≠ b.value &&& a.mask := ⟨fun _ _ => Ne.symm⟩
  exact opcodeTable_disjoint.forall ma mb different (agree_of_accepts ha hb)

/-- A word that a row accepts decodes to what the row builds (R151). -/
theorem decode_of_accepts {r : Row} {w : Raw} (mem : r ∈ opcodeTable) (accepted : r.accepts w = true) :
    decode w = .ok (r.build w) := by
  cases found : opcodeTable.find? (fun r => r.accepts w) with
  | none => exact absurd accepted (List.find?_eq_none.mp found r mem)
  | some b =>
    have accepts : b.accepts w = true := (List.find?_eq_some_iff_append.mp found).1
    have same : b = r := row_unique (List.mem_of_find?_eq_some found) mem accepts accepted
    simp only [decode, found, same]

/-- A word that decodes is accepted by a row that builds its instruction. -/
theorem accepts_of_decode {w : Raw} {i : Instr} (decoded : decode w = .ok i) :
    ∃ r ∈ opcodeTable, r.accepts w = true ∧ r.build w = i := by
  cases found : opcodeTable.find? (fun r => r.accepts w) with
  | none => simp only [decode, found, reduceCtorEq] at decoded
  | some r =>
    simp only [decode, found, Except.ok.injEq] at decoded
    exact ⟨r, List.mem_of_find?_eq_some found, (List.find?_eq_some_iff_append.mp found).1, decoded⟩

/-- A word that no row accepts is unknown (R155). -/
theorem decode_unknown {w : Raw} (rejected : ∀ r ∈ opcodeTable, ¬ r.accepts w = true) :
    decode w = .error (.unknownInstruction w) := by
  simp only [decode, List.find?_eq_none.mpr rejected]

/-- Every mask shows the opcode, so a row's accepted words have its opcode (R149). -/
theorem opcode_of_accepts {r : Row} {w : Raw} (mem : r ∈ opcodeTable) (accepted : r.accepts w = true) :
    r.value.extractLsb' 0 7 = w.extractLsb' 0 7 := by
  have masked : ∀ r ∈ opcodeTable, r.mask.extractLsb' 0 7 = BitVec.allOnes 7 := by decide
  exact slice_of_accepts accepted rfl (masked r mem)

/-- The one row of the SYSTEM opcode accepts one word (R298). -/
theorem eq_ecall_of_accepts {r : Row} {w : Raw} (mem : r ∈ opcodeTable) (system : r.value.extractLsb' 0 7 = 0b1110011#7)
    (accepted : r.accepts w = true) : w = 0x00000073 := by
  have one : ∀ r ∈ opcodeTable, r.value.extractLsb' 0 7 = 0b1110011#7 →
      r.mask = BitVec.allOnes 32 ∧ r.value = 0x00000073 := by decide
  obtain ⟨mask, value⟩ := one r mem system
  calc w = w &&& r.mask := by rw [mask, BitVec.and_allOnes]
    _ = r.value := beq_iff_eq.mp accepted
    _ = 0x00000073 := value

/-! ## Decoding an encoded instruction -/

open Laws.EncodesItsRow in
/-- The word of every instruction matches the row of its mnemonic. -/
theorem encode_matches_row (i : Instr) : Statement i :=
  i.casesOn lui auipc jal jalr beq bne blt bge bltu bgeu lb lh lw ld lbu lhu lwu sb sh sw sd addi slti sltiu xori ori
    andi slli srli srai add sub sll slt sltu xor srl sra or and addiw slliw srliw sraiw addw subw sllw srlw sraw mul mulh
    mulhsu mulhu div divu rem remu mulw divw divuw remw remuw ecall

/-- What the row of the instruction's mnemonic builds from the instruction's word. -/
def Instr.rebuilt (i : Instr) : Option Instr :=
  (opcodeTable.find? fun r => decide (r.op = i.mnemonic)).map fun r => r.build (encode i)

/-- The word of an instruction decodes to what the row of its mnemonic builds from it. -/
theorem decode_encode_rebuilt {i j : Instr} (rebuilt : i.rebuilt = some j) : decode (encode i) = .ok j := by
  obtain ⟨r, found, accepted⟩ := encode_matches_row i
  rw [Instr.rebuilt, found, Option.map_some, Option.some.injEq] at rebuilt
  rw [decode_of_accepts (List.mem_of_find?_eq_some found) accepted, rebuilt]

/-! What a row of each format builds from a word that was encoded under that format. The operands stand on the left, so
that an instruction's constructor and operands are matched before the row is looked up. -/

section Rebuilt

variable (funct7 : BitVec 7) (rs2 rs1 : Reg) (funct3 : BitVec 3) (rd : Reg) (opcode : BitVec 7)

theorem build_encodeR (build : Reg → Reg → Reg → Instr) :
    let w := encodeR funct7 rs2 rs1 funct3 rd opcode
    build rd rs1 rs2 = build (RawField.rd w) (RawField.rs1 w) (RawField.rs2 w) := by
  simp only [rd_encodeR, rs1_encodeR, rs2_encodeR]

theorem build_encodeI (imm : BitVec 12) (build : Reg → Reg → BitVec 12 → Instr) :
    let w := encodeI imm rs1 funct3 rd opcode
    build rd rs1 imm = build (RawField.rd w) (RawField.rs1 w) (RawField.immI w) := by
  simp only [rd_encodeI, rs1_encodeI, immI_encodeI]

theorem build_shift6 (funct6 shamt : BitVec 6) (build : Reg → Reg → BitVec 6 → Instr) :
    let w := encodeI (funct6 ++ shamt) rs1 funct3 rd opcode
    build rd rs1 shamt = build (RawField.rd w) (RawField.rs1 w) (RawField.shamt6 w) := by
  simp only [rd_encodeI, rs1_encodeI, shamt6_encodeI]

theorem build_shift5 (shamt : BitVec 5) (build : Reg → Reg → BitVec 5 → Instr) :
    let w := encodeI (funct7 ++ shamt) rs1 funct3 rd opcode
    build rd rs1 shamt = build (RawField.rd w) (RawField.rs1 w) (RawField.shamt5 w) := by
  simp only [rd_encodeI, rs1_encodeI, shamt5_encodeI]

theorem build_encodeS (imm : BitVec 12) (build : Reg → Reg → BitVec 12 → Instr) :
    let w := encodeS imm rs2 rs1 funct3 opcode
    build rs1 rs2 imm = build (RawField.rs1 w) (RawField.rs2 w) (RawField.immS w) := by
  simp only [rs1_encodeS, rs2_encodeS, immS_encodeS]

theorem build_encodeB {imm : BitVec 13} (even : imm.getLsbD 0 = false) (build : Reg → Reg → BitVec 13 → Instr) :
    let w := encodeB imm rs2 rs1 funct3 opcode
    build rs1 rs2 imm = build (RawField.rs1 w) (RawField.rs2 w) (RawField.immB w) := by
  simp only [rs1_encodeB, rs2_encodeB, immB_encodeB _ _ _ _ even]

end Rebuilt

/-- Every operand of a well-formed instruction is read back from its word. -/
theorem rebuilt_eq {i : Instr} (wf : i.wf = true) : i.rebuilt = some i := by
  cases i with
  | lui d imm | auipc d imm =>
    exact congrArg some (congrArg₂ _ (rd_encodeU ..) (immU_encodeU ..))
  | jal d imm =>
    exact congrArg some (congrArg₂ _ (rd_encodeJ ..) (immJ_encodeJ _ _ (beq_iff_eq.mp wf)))
  | beq a b imm | bne a b imm | blt a b imm | bge a b imm | bltu a b imm | bgeu a b imm =>
    exact .symm (congrArg some (build_encodeB _ _ _ _ (beq_iff_eq.mp wf) _))
  | jalr d a imm | lb d a imm | lh d a imm | lw d a imm | ld d a imm | lbu d a imm | lhu d a imm | lwu d a imm
  | addi d a imm | slti d a imm | sltiu d a imm | xori d a imm | ori d a imm | andi d a imm | addiw d a imm =>
    exact .symm (congrArg some (build_encodeI ..))
  | sb a b imm | sh a b imm | sw a b imm | sd a b imm =>
    exact .symm (congrArg some (build_encodeS ..))
  | slli d a shamt | srli d a shamt | srai d a shamt =>
    exact .symm (congrArg some (build_shift6 ..))
  | slliw d a shamt | srliw d a shamt | sraiw d a shamt =>
    exact .symm (congrArg some (build_shift5 ..))
  | add d a b | sub d a b | sll d a b | slt d a b | sltu d a b | xor d a b | srl d a b | sra d a b | or d a b
  | and d a b | addw d a b | subw d a b | sllw d a b | srlw d a b | sraw d a b | mul d a b | mulh d a b
  | mulhsu d a b | mulhu d a b | div d a b | divu d a b | rem d a b | remu d a b | mulw d a b | divw d a b
  | divuw d a b | remw d a b | remuw d a b =>
    exact .symm (congrArg some (build_encodeR ..))
  | ecall => rfl

/-! ## The obligations -/

/-- Settles O1: the decoder is computed on each of the twelve words. -/
theorem decodeVectors : Obligations.DecodeVectors := by
  unfold Obligations.DecodeVectors
  decide

/-- Settles O2: the word matches the row of the mnemonic, and that row reads every operand back. -/
theorem decodeEncode : Obligations.DecodeEncode := fun _ wf => decode_encode_rebuilt (rebuilt_eq wf)

/-- Settles O3: the row that accepts the word encodes what it builds as that word. -/
theorem encodeDecode : Obligations.EncodeDecode := by
  intro w i decoded
  obtain ⟨r, mem, accepted, rfl⟩ := accepts_of_decode decoded
  exact (opcodeTable_layout r mem).encode_build accepted

/-- Settles O4: the masks and values of two rows never agree, so `decode` finds the row that accepts. -/
theorem oneRowPerWord : Obligations.OneRowPerWord :=
  ⟨fun _ _ _ ma mb ha hb => congrArg Row.op (row_unique ma mb ha hb),
    fun w a mem accepted => ⟨decode_of_accepts mem accepted, build_mnemonic a mem w⟩⟩

/-- Settles O5: an accepting row would have the word's opcode, and every row's opcode is listed. -/
theorem unknownOpcode : Obligations.UnknownOpcode := by
  intro w unlisted
  refine decode_unknown fun r mem accepted => unlisted ?_
  have listed : ∀ r ∈ opcodeTable, r.value.extractLsb' 0 7 ∈ [0b0110111#7, 0b0010111#7, 0b1101111#7, 0b1100111#7,
      0b1100011#7, 0b0000011#7, 0b0100011#7, 0b0010011#7, 0b0110011#7, 0b0011011#7, 0b0111011#7, 0b1110011#7] := by
    decide
  rw [← opcode_of_accepts mem accepted]
  exact listed r mem

/-- Settles O6: an accepting row would have the SYSTEM opcode, and only the row of ECALL has it. -/
theorem onlyEcallInSystem : Obligations.OnlyEcallInSystem := by
  intro w system
  split
  next ecall => rw [ecall]; decide
  next other =>
    exact decode_unknown fun r mem accepted =>
      other (eq_ecall_of_accepts mem ((opcode_of_accepts mem accepted).trans system) accepted)

end Sys2Proof

namespace Sys2Proof.Machine

/-! ## An unknown word ends the run (R155, R383) -/

/-- A word that does not decode is fatal. -/
theorem runWord_unknown {raw : Raw} {e : DecodeError} (unknown : decode raw = .error e) (s : State) :
    runWord raw s = .next (raiseFatal (.unknownInstruction raw s.pc) s) := by
  simp only [runWord, unknown]

/-- A fatal condition raised after a fetch keeps what the fetch keeps. -/
theorem FetchFrame.fatalFrame {s u : State} (frame : FetchFrame s u) (reason : FatalReason) :
    FatalFrame s (raiseFatal reason u) reason where
  status := rfl
  x := frame.x
  pc := frame.pc
  cfg := frame.cfg
  pcf := frame.pcf
  fd := frame.fd
  de := frame.de
  em := frame.em
  mw := frame.mw
  pred := frame.pred
  counters := frame.counters
  trace := frame.trace
  input := frame.input
  inputsRead := frame.inputsRead
  recent := frame.recentStores
  view := frame.view

/-- Settles O14: the fetch answers the word of View within its frame, and the word does not decode. -/
theorem unknownInstructionIsFatal : Obligations.UnknownInstructionIsFatal := by
  intro s pa running isa fresh hier mapped unknown
  obtain ⟨u, fetch, frame⟩ := fetch32_step_mapped hier mapped
  refine ⟨_, ?_, frame.fatalFrame _⟩
  rw [step_isa running isa fresh, fetch, settle_ok, runWord_unknown unknown, frame.pc]

end Sys2Proof.Machine
end

section
/-! SUPPORT. The integer computational instructions (40_integer_computational.md): what an instruction that writes one
register changes and what it leaves, and each ALU operation written out on integers and bit vectors. -/

namespace Sys2Proof.Machine

/-! ## An instruction that writes one register (R170) -/

/-- A register write and the completion of the instruction change that register and what completion counts, and nothing
else. -/
theorem registerFrame_complete_setReg (s : State) (rd : Reg) (v target : Word) :
    RegisterFrame s ((s.setReg rd v).complete target none) rd where
  frame :=
    { regs := fun r other => (State.reg_congr (State.complete_x ..) r).trans (State.reg_setReg_other s v other)
      zero := State.reg_zero _
      cfg := by simp
      pcf := by simp
      fd := by simp
      de := by simp
      em := by simp
      mw := by simp
      pred := by simp
      status := by simp
      trace := by simp
      input := by simp
      inputsRead := by simp
      counters := by simp }
  stores :=
    { l1 := by simp
      l2 := by simp
      llc := by simp
      mem := by simp
      memTime := by simp
      view := State.viewByte_congr (by simp) (by simp [State.chain]) }
  recent := by simp

/-- R170: writing a result completes the instruction. -/
theorem writeResult_completes (rd : Reg) (v : Word) (s : State) :
    ∃ t, writeResult rd v s = .next t ∧ (rd ≠ 0 → t.reg rd = v) ∧ t.pc = s.pc + 4 ∧ RegisterFrame s t rd :=
  ⟨_, rfl, fun written => (State.reg_congr (State.complete_x ..) rd).trans (State.reg_setReg_same s v written),
    State.complete_pc .., registerFrame_complete_setReg s rd v (s.pc + 4)⟩

/-- An instruction whose meaning is to write `result`, which is the rule's `value`, computes that value; its word is
what the encoder writes, which decodes by O2. -/
theorem computes_of_exec {w : Raw} {i : Instr} {rd : Reg} {value : State → Word} (result : State → Word)
    (runs : ∀ s, exec i s = writeResult rd (result s) s) (result_eq : ∀ s, result s = value s)
    (wf : i.wf = true := by rfl) (word : encode i = w := by rfl) : Computes w i rd value := by
  refine ⟨word ▸ decodeEncode i wf, fun s => ?_⟩
  rw [runs, result_eq]
  exact writeResult_completes rd (value s) s

/-! ## Comparisons (R174, R175, R185, R186) -/

theorem boolWord_decide (p : Prop) [Decidable p] : boolWord (decide p) = if p then 1 else 0 := by
  simp only [boolWord, decide_eq_true_eq]

theorem Alu.slt_eq_ite (a b : Word) : Alu.slt a b = if a.toInt < b.toInt then 1 else 0 := boolWord_decide _

theorem Alu.sltu_eq_ite (a b : Word) : Alu.sltu a b = if a.toNat < b.toNat then 1 else 0 := boolWord_decide _

/-- Sign extension keeps the immediate's value. -/
theorem imm12_toInt (imm : BitVec 12) : (imm12 imm).toInt = imm.toInt := BitVec.toInt_signExtend_of_le (by decide)

/-! ## Shift amounts (R179, R184, R193, R198, R201 c) -/

theorem Alu.shamt64_eq_mod (b : Word) : Alu.shamt64 b = b.toNat % 64 := BitVec.toNat_setWidth 6 b

theorem Alu.shamt32_eq_mod (b : Word) : Alu.shamt32 b = b.toNat % 32 := BitVec.toNat_setWidth 5 b

/-- Six bits are all of a 6-bit immediate. -/
theorem Alu.shamt64_immShift6 (shamt : BitVec 6) : Alu.shamt64 (immShift6 shamt) = shamt.toNat := by
  rw [Alu.shamt64_eq_mod, immShift6, BitVec.toNat_setWidth_of_le (by decide), Nat.mod_eq_of_lt shamt.isLt]

/-- Five bits are all of a 5-bit immediate. -/
theorem Alu.shamt32_immShift5 (shamt : BitVec 5) : Alu.shamt32 (immShift5 shamt) = shamt.toNat := by
  rw [Alu.shamt32_eq_mod, immShift5, BitVec.toNat_setWidth_of_le (by decide), Nat.mod_eq_of_lt shamt.isLt]

/-! ## Shifts by a known amount (R179 to R181, R184, R188, R189, R193 to R195, R198 to R200) -/

/-- An arithmetic shift divides by the power of two, rounding down. -/
theorem sshiftRight_toInt_eq_div {width : Nat} (v : BitVec width) (n : Nat) :
    (v.sshiftRight n).toInt = v.toInt / 2 ^ n := by
  rw [BitVec.toInt_sshiftRight, Int.shiftRight_eq_div_pow, Nat.cast_pow, Nat.cast_ofNat]

section Shifts

variable (a : Word) {b : Word} {n : Nat}

theorem Alu.sll_eq_shift (amount : Alu.shamt64 b = n) : Alu.sll a b = a <<< n := by rw [Alu.sll, amount]

theorem Alu.srl_eq_shift (amount : Alu.shamt64 b = n) : Alu.srl a b = a >>> n := by rw [Alu.srl, amount]

theorem Alu.sra_eq_div (amount : Alu.shamt64 b = n) : Alu.sra a b = BitVec.ofInt 64 (a.toInt / 2 ^ n) := by
  rw [Alu.sra, amount, ← sshiftRight_toInt_eq_div, BitVec.ofInt_toInt]

theorem Alu.sllw_eq_shift (amount : Alu.shamt32 b = n) : Alu.sllw a b = (a.setWidth 32 <<< n).signExtend 64 := by
  rw [Alu.sllw, amount, sextWord, low32]

theorem Alu.srlw_eq_shift (amount : Alu.shamt32 b = n) : Alu.srlw a b = (a.setWidth 32 >>> n).signExtend 64 := by
  rw [Alu.srlw, amount, sextWord, low32]

theorem Alu.sraw_eq_div (amount : Alu.shamt32 b = n) :
    Alu.sraw a b = BitVec.ofInt 64 ((a.setWidth 32).toInt / 2 ^ n) := by
  rw [Alu.sraw, amount, sextWord, low32, BitVec.signExtend, sshiftRight_toInt_eq_div]

end Shifts

/-! ## The obligations -/

/-- Settles O18: the meaning writes the rule's value as it stands. -/
theorem upperImmediate : Obligations.UpperImmediate := by
  intro rd imm20
  refine ⟨?lui, ?auipc⟩
  case lui | auipc => exact computes_of_exec _ (fun _ => rfl) fun _ => rfl

/-- Settles O19: SLTI compares with the value of the immediate, SLTIU with its sign extension; the others write the
rule's value as it stands. -/
theorem registerImmediate : Obligations.RegisterImmediate := by
  intro rd rs1 imm
  refine ⟨?addi, ?slti, ?sltiu, ?xori, ?ori, ?andi⟩
  case slti =>
    refine computes_of_exec _ (fun _ => rfl) fun s => ?_
    rw [Alu.slt_eq_ite, imm12_toInt]
  case sltiu => exact computes_of_exec _ (fun _ => rfl) fun s => Alu.sltu_eq_ite (s.reg rs1) (imm12 imm)
  case addi | xori | ori | andi => exact computes_of_exec _ (fun _ => rfl) fun _ => rfl

/-- Settles O20: the amount is the whole immediate. -/
theorem shiftImmediate : Obligations.ShiftImmediate := by
  intro rd rs1 shamt
  have amount := Alu.shamt64_immShift6 shamt
  refine ⟨?slli, ?srli, ?srai⟩
  case slli => exact computes_of_exec _ (fun _ => rfl) fun s => Alu.sll_eq_shift (s.reg rs1) amount
  case srli => exact computes_of_exec _ (fun _ => rfl) fun s => Alu.srl_eq_shift (s.reg rs1) amount
  case srai => exact computes_of_exec _ (fun _ => rfl) fun s => Alu.sra_eq_div (s.reg rs1) amount

/-- Settles O21: the amount of a shift is `x[rs2]` modulo 64, a comparison is that of the operands' values, and the
others write the rule's value as it stands. -/
theorem registerRegister : Obligations.RegisterRegister := by
  intro rd rs1 rs2
  have amount (s : State) := Alu.shamt64_eq_mod (s.reg rs2)
  refine ⟨?add, ?sub, ?sll, ?slt, ?sltu, ?xor, ?srl, ?sra, ?or, ?and⟩
  case sll => exact computes_of_exec _ (fun _ => rfl) fun s => Alu.sll_eq_shift (s.reg rs1) (amount s)
  case srl => exact computes_of_exec _ (fun _ => rfl) fun s => Alu.srl_eq_shift (s.reg rs1) (amount s)
  case sra => exact computes_of_exec _ (fun _ => rfl) fun s => Alu.sra_eq_div (s.reg rs1) (amount s)
  case slt => exact computes_of_exec _ (fun _ => rfl) fun s => Alu.slt_eq_ite (s.reg rs1) (s.reg rs2)
  case sltu => exact computes_of_exec _ (fun _ => rfl) fun s => Alu.sltu_eq_ite (s.reg rs1) (s.reg rs2)
  case add | sub | xor | or | and => exact computes_of_exec _ (fun _ => rfl) fun _ => rfl

/-- Settles O22: the amount is the whole immediate, and ADDIW writes the rule's value as it stands. -/
theorem wordImmediate : Obligations.WordImmediate := by
  refine ⟨fun rd rs1 imm => ?addiw, fun rd rs1 shamt => ?_⟩
  case addiw => exact computes_of_exec _ (fun _ => rfl) fun _ => rfl
  have amount := Alu.shamt32_immShift5 shamt
  refine ⟨?slliw, ?srliw, ?sraiw⟩
  case slliw => exact computes_of_exec _ (fun _ => rfl) fun s => Alu.sllw_eq_shift (s.reg rs1) amount
  case srliw => exact computes_of_exec _ (fun _ => rfl) fun s => Alu.srlw_eq_shift (s.reg rs1) amount
  case sraiw => exact computes_of_exec _ (fun _ => rfl) fun s => Alu.sraw_eq_div (s.reg rs1) amount

/-- Settles O23: the amount of a shift is `x[rs2]` modulo 32, and the sums write the rule's value as it stands. -/
theorem wordRegister : Obligations.WordRegister := by
  intro rd rs1 rs2
  have amount (s : State) := Alu.shamt32_eq_mod (s.reg rs2)
  refine ⟨?addw, ?subw, ?sllw, ?srlw, ?sraw⟩
  case sllw => exact computes_of_exec _ (fun _ => rfl) fun s => Alu.sllw_eq_shift (s.reg rs1) (amount s)
  case srlw => exact computes_of_exec _ (fun _ => rfl) fun s => Alu.srlw_eq_shift (s.reg rs1) (amount s)
  case sraw => exact computes_of_exec _ (fun _ => rfl) fun s => Alu.sraw_eq_div (s.reg rs1) (amount s)
  case addw | subw => exact computes_of_exec _ (fun _ => rfl) fun _ => rfl

end Sys2Proof.Machine
end

section
/-! SUPPORT. The control-transfer instructions (41_control_transfer.md): the words of branches and jumps with the bits of
their offsets in the order of the word, and what a jump and a branch change and leave. -/

namespace Sys2Proof

open BitVec (extractLsb'_append_eq_left extractLsb'_append_eq_right)

/-! ## Offsets assembled from their bits (R145, R147, R148) -/

/-- An offset that ends in a zero bit is even. -/
theorem append_zero_even {n : Nat} (high : BitVec n) : (high ++ 0#1).getLsbD 0 = false :=
  BitVec.getLsbD_append.trans rfl

/-- The word of a branch, with its offset assembled from the bits of the word (R145). -/
theorem encodeB_append (b12 b11 : BitVec 1) (b10 : BitVec 6) (b4 : BitVec 4) (rs2 rs1 : Reg) (funct3 : BitVec 3)
    (opcode : BitVec 7) :
    encodeB (b12 ++ b11 ++ b10 ++ b4 ++ 0#1) rs2 rs1 funct3 opcode =
      b12 ++ b10 ++ rs2 ++ rs1 ++ funct3 ++ b4 ++ b11 ++ opcode := by
  have bit12 : (b12 ++ b11 ++ b10 ++ b4 ++ 0#1).extractLsb' 12 1 = b12 := by
    iterate 3 apply slice_above
    exact extractLsb'_append_eq_left
  have bit11 : (b12 ++ b11 ++ b10 ++ b4 ++ 0#1).extractLsb' 11 1 = b11 := by
    iterate 3 apply slice_above
    exact extractLsb'_append_eq_right
  have high : (b12 ++ b11 ++ b10 ++ b4 ++ 0#1).extractLsb' 5 6 = b10 := by
    iterate 2 apply slice_above
    exact extractLsb'_append_eq_right
  have low : (b12 ++ b11 ++ b10 ++ b4 ++ 0#1).extractLsb' 1 4 = b4 := slice_above extractLsb'_append_eq_right
  rw [encodeB, bit12, bit11, high, low]

/-- The word of JAL, with its offset assembled from the bits of the word (R147). -/
theorem encodeJ_append (b20 b11 : BitVec 1) (b19 : BitVec 8) (b10 : BitVec 10) (rd : Reg) (opcode : BitVec 7) :
    encodeJ (b20 ++ b19 ++ b11 ++ b10 ++ 0#1) rd opcode = b20 ++ b10 ++ b11 ++ b19 ++ rd ++ opcode := by
  have bit20 : (b20 ++ b19 ++ b11 ++ b10 ++ 0#1).extractLsb' 20 1 = b20 := by
    iterate 3 apply slice_above
    exact extractLsb'_append_eq_left
  have high : (b20 ++ b19 ++ b11 ++ b10 ++ 0#1).extractLsb' 12 8 = b19 := by
    iterate 3 apply slice_above
    exact extractLsb'_append_eq_right
  have bit11 : (b20 ++ b19 ++ b11 ++ b10 ++ 0#1).extractLsb' 11 1 = b11 := by
    iterate 2 apply slice_above
    exact extractLsb'_append_eq_right
  have low : (b20 ++ b19 ++ b11 ++ b10 ++ 0#1).extractLsb' 1 10 = b10 := slice_above extractLsb'_append_eq_right
  rw [encodeJ, bit20, high, bit11, low]

end Sys2Proof

namespace Sys2Proof.Machine

/-! ## Jumps (R231, R232) -/

/-- A jump links `pc + 4`, goes to its target whatever that is (R239), and changes nothing else. -/
theorem jumpLink_completes (rd : Reg) (target : Word) (s : State) :
    ∃ t, jumpLink rd target s = .next t ∧ (rd ≠ 0 → t.reg rd = s.pc + 4) ∧ t.pc = target ∧ RegisterFrame s t rd :=
  ⟨_, rfl, fun written => (State.reg_congr (State.complete_x ..) rd).trans (State.reg_setReg_same s _ written),
    State.complete_pc .., registerFrame_complete_setReg s rd (s.pc + 4) target⟩

/-- Clearing bit 0 of the sum keeps every other bit. -/
theorem jalrTarget_getLsbD (a imm : Word) (k : Nat) :
    (jalrTarget a imm).getLsbD k = (decide (0 < k) && (a + imm).getLsbD k) := by
  rw [jalrTarget, BitVec.getLsbD_and, BitVec.getLsbD_not, BitVec.getLsbD_one]
  by_cases inWord : k < 64
  · cases k <;> simp [inWord]
  · simp [BitVec.getLsbD_of_ge _ _ (Nat.le_of_not_lt inWord)]

/-! ## Conditional branches (R233 to R238) -/

theorem condBeq_eq_decide (a b : Word) : condBeq a b = decide (a = b) := rfl

theorem condBne_eq_decide (a b : Word) : condBne a b = decide (a ≠ b) := (decide_not ..).symm

theorem condBlt_eq_decide (a b : Word) : condBlt a b = decide (a.toInt < b.toInt) := rfl

theorem condBge_eq_decide (a b : Word) : condBge a b = decide (b.toInt ≤ a.toInt) := by
  rw [condBge, ltSigned, ← decide_not, decide_eq_decide, Int.not_lt]

theorem condBltu_eq_decide (a b : Word) : condBltu a b = decide (a.toNat < b.toNat) := rfl

theorem condBgeu_eq_decide (a b : Word) : condBgeu a b = decide (b.toNat ≤ a.toNat) := by
  rw [condBgeu, ltUnsigned, ← decide_not, decide_eq_decide, Nat.not_lt]

/-- A branch chooses where it goes and changes nothing else: it frames as a write to `x0`. -/
theorem branchIf_completes (taken : Bool) (imm : BitVec 13) (s : State) :
    ∃ t, branchIf taken imm s = .next t ∧ t.pc = (if taken then s.pc + imm.signExtend 64 else s.pc + 4) ∧
      RegisterFrame s t 0 :=
  ⟨_, rfl, State.complete_pc .., registerFrame_complete_setReg s 0 0 _⟩

/-- An instruction whose meaning is to branch on `condition`, which is the rule's, is that branch; its word is what the
encoder writes, which decodes by O2. -/
theorem branches_of_exec {w : Raw} {i : Instr} {imm : BitVec 13} {taken : State → Bool} (condition : State → Bool)
    (runs : ∀ s, exec i s = branchIf (condition s) imm s) (condition_eq : ∀ s, condition s = taken s)
    (wf : i.wf = true) (word : encode i = w) : Branches w i (imm.signExtend 64) taken := by
  refine ⟨word ▸ decodeEncode i wf, fun s => ?_⟩
  rw [runs, condition_eq]
  exact branchIf_completes (taken s) imm s

/-! ## The obligations -/

/-- Settles O28: the words are those of the encoder, and both meanings are one jump; JALR's target is the sum with bit 0
cleared. -/
theorem jumps : Obligations.Jumps := by
  refine ⟨fun rd b20 b10 b11 b19 => ?jalWord, fun rd imm s => ?jal, fun rd rs1 imm => ⟨?jalrWord, fun s => ?jalr⟩⟩
  case jalWord =>
    rw [← encodeJ_append]
    exact decodeEncode (.jal rd (b20 ++ b19 ++ b11 ++ b10 ++ 0#1)) (beq_iff_eq.mpr (append_zero_even _))
  case jal => exact jumpLink_completes rd (s.pc + immJump imm) s
  case jalrWord => exact decodeEncode (.jalr rd rs1 imm) rfl
  case jalr =>
    obtain ⟨t, runs, link, target, frame⟩ := jumpLink_completes rd (jalrTarget (s.reg rs1) (imm12 imm)) s
    refine ⟨t, runs, link, ?even, fun k above => ?kept, frame⟩
    case even => rw [target, jalrTarget_getLsbD]; rfl
    case kept => rw [target, jalrTarget_getLsbD, decide_eq_true above, Bool.true_and, imm12]

/-- Settles O29: the words are those of the encoder, and each meaning is one branch on the rule's condition. -/
theorem conditionalBranches : Obligations.ConditionalBranches := by
  intro rs1 rs2 b12 b10 b4 b11 imm
  have even : (imm.getLsbD 0 == false) = true := beq_iff_eq.mpr (append_zero_even _)
  have word (funct3 : BitVec 3) := encodeB_append b12 b11 b10 b4 rs2 rs1 funct3 0b1100011#7
  refine ⟨?beq, ?bne, ?blt, ?bge, ?bltu, ?bgeu⟩
  case beq => exact branches_of_exec _ (fun _ => rfl) (fun _ => condBeq_eq_decide ..) even (word _)
  case bne => exact branches_of_exec _ (fun _ => rfl) (fun _ => condBne_eq_decide ..) even (word _)
  case blt => exact branches_of_exec _ (fun _ => rfl) (fun _ => condBlt_eq_decide ..) even (word _)
  case bge => exact branches_of_exec _ (fun _ => rfl) (fun _ => condBge_eq_decide ..) even (word _)
  case bltu => exact branches_of_exec _ (fun _ => rfl) (fun _ => condBltu_eq_decide ..) even (word _)
  case bgeu => exact branches_of_exec _ (fun _ => rfl) (fun _ => condBgeu_eq_decide ..) even (word _)

end Sys2Proof.Machine
end

section
/-! SUPPORT. The loads and stores (42_load_store.md): which requests the chain of stores refuses and why, what an access
to memory changes whether it completes or is fatal, and what a load and a store do at level ISA. -/

namespace Sys2Proof.Machine

/-! ## Requests that are accepted and refused (R73, R95, R106 to R108) -/

/-- Every cache fetches the block that a read misses (R106). -/
theorem chainRefused_read (cfg : Config) (pa n : Nat) :
    chainRefused cfg (.read pa n) = blockRefused cfg.memSize pa := rfl

/-- A write is refused for its block where some cache fetches it (R107), else for its own bytes (R95, R108). -/
theorem chainRefused_write (cfg : Config) (pa : Nat) (buffer : List Byte) :
    chainRefused cfg (.write pa buffer) =
      if allocatesOnWrite cfg then blockRefused cfg.memSize pa else memRefused cfg.memSize (.write pa buffer) := by
  have writes : (Request.write pa buffer).isRead = false := rfl
  have addr : (Request.write pa buffer).addr = pa := rfl
  simp only [chainRefused, cacheRefused, allocatesOnWrite, writes, addr, Bool.false_or, Bool.or_eq_true, or_assoc,
    ite_or]

section
variable {σ : Type} {refused : Option FatalReason} {view : σ → Nat → Byte} {inv : σ → Prop} {r : Reply σ Answer}
  {bytes : Answer → Prop} {after before : Nat → Byte} (meets : Meets refused view inv r bytes after before)
include meets

theorem Meets.answers (accepted : refused = none) : Answers view inv r bytes after := by
  rcases meets with ⟨_, answers⟩ | ⟨_, _, refuses, _⟩
  · exact answers
  · rw [accepted] at refuses; cases refuses

theorem Meets.fatal {e : FatalReason} (refuses : refused = some e) :
    ∃ t, r = .fatal e t ∧ inv t ∧ view t = before := by
  rcases meets with ⟨accepted, _⟩ | ⟨_, t, refuses', fatal⟩
  · rw [refuses] at accepted; cases accepted
  · rw [refuses, Option.some.injEq] at refuses'
    exact ⟨t, refuses' ▸ fatal⟩

end

theorem blockRefused_outside {memSize pa : Nat} (outside : ¬ blockInMemory memSize pa) :
    blockRefused memSize pa = some (.memoryRange (pa - pa % 64) 64) := if_neg outside

theorem memRefused_beyond {memSize pa : Nat} {buffer : List Byte} (outside : memSize < pa + buffer.length) :
    memRefused memSize (.write pa buffer) = some (.memoryRange pa buffer.length) := if_pos outside

/-- Bytes that can be stored are refused by no store of the chain. -/
theorem Storable.accepted {s : State} {va : Word} {pa : Nat} {buffer : List Byte}
    (storable : Storable s va buffer.length pa) : chainRefused s.cfg (.write pa buffer) = none := by
  have inBlock : pa % 64 + buffer.length ≤ 64 := storable.inBlock
  rw [chainRefused_write]
  rcases storable.inMemory with inMemory | ⟨forwards, inside⟩
  · have bytesInside : pa + buffer.length ≤ s.cfg.memSize := by unfold blockInMemory at inMemory; omega
    split
    · exact if_pos inMemory
    · exact if_neg (Nat.not_lt.mpr bytesInside)
  · rw [if_neg (by simp [forwards])]
    exact if_neg (Nat.not_lt.mpr inside)

/-! ## Accesses that are fatal (R67, R74, R95, R384) -/

/-- An access whose request the chain refuses is fatal for that reason, and keeps View and the invariant. -/
theorem accessAt_refused {s : State} {va : Word} {n pa : Nat} {q : Nat → Request} {refused : Option FatalReason}
    {e : FatalReason} {bytes : Answer → Prop} {after : Nat → Byte} (hier : HierarchyInv s)
    (translated : translate s.cfg va = some pa) (inBlock : pa % 64 + n ≤ 64)
    (meets : Meets refused (chainView s.cfg) (ChainInv s.cfg) (l1Request s.cfg (q pa) s.chain) bytes after
      (chainView s.cfg s.chain)) (refuses : refused = some e) :
    ∃ u, accessAt va n q s = .fatal e u ∧ FetchFrame s u := by
  obtain ⟨ch, fatal, inv, view⟩ := meets.fatal refuses
  have access : accessAt va n q s = .fatal e (s.withChain ch) := by
    rw [accessAt_inBlock translated inBlock, l1Access, fatal]
  exact ⟨_, access, ((accessAt_leaves va n q s).of_fatal access).fetchFrame (congrFun view) ⟨hier.legal, inv⟩⟩

/-- An access that ends before its request changes nothing. -/
theorem HierarchyInv.fetchFrame_refl {s : State} (hier : HierarchyInv s) : FetchFrame s s :=
  (OnlyHierarchy.refl s).fetchFrame (fun _ => rfl) hier

/-- A read that fails is fatal for the reason given, and keeps all but the stores, among it View. -/
theorem accessAt_read_fails {s : State} {va : Word} {n : Nat} {reason : FatalReason} (hier : HierarchyInv s)
    (fails : ReadFails s va n reason) :
    ∃ u, accessAt va n (Request.read · n) s = .fatal reason u ∧ FetchFrame s u := by
  cases fails with
  | unmapped none => exact ⟨s, accessAt_unmapped none _ _, hier.fetchFrame_refl⟩
  | crossing pa translated crosses => exact ⟨s, accessAt_crossing translated crosses _, hier.fetchFrame_refl⟩
  | outside pa translated inBlock outside =>
    exact accessAt_refused hier translated inBlock ((l1Request_coherent hier.legal).read hier.chain inBlock)
      (blockRefused_outside outside)

/-- A write that fails is fatal for the reason given, and keeps all but the stores, among it View. -/
theorem accessAt_write_fails {s : State} {va : Word} {reason : FatalReason} {buffer : List Byte}
    (hier : HierarchyInv s) (fails : WriteFails s va buffer.length reason) :
    ∃ u, accessAt va buffer.length (Request.write · buffer) s = .fatal reason u ∧ FetchFrame s u := by
  have request {pa : Nat} (inBlock : pa % 64 + buffer.length ≤ 64) :=
    (l1Request_coherent hier.legal).write hier.chain (buffer := buffer) inBlock
  cases fails with
  | unmapped none => exact ⟨s, accessAt_unmapped none _ _, hier.fetchFrame_refl⟩
  | crossing pa translated crosses => exact ⟨s, accessAt_crossing translated crosses _, hier.fetchFrame_refl⟩
  | blockOutside pa translated inBlock allocates outside =>
    refine accessAt_refused hier translated inBlock (request inBlock) ?_
    rw [chainRefused_write, if_pos allocates, blockRefused_outside outside]
  | bytesOutside pa translated inBlock forwards outside =>
    refine accessAt_refused hier translated inBlock (request inBlock) ?_
    rw [chainRefused_write, forwards, if_neg Bool.false_ne_true, memRefused_beyond outside]

theorem memRead_fails {s : State} {va : Word} {n : Nat} {reason : FatalReason} (hier : HierarchyInv s)
    (fails : ReadFails s va n reason) : ∃ u, memRead va n s = .fatal reason u ∧ FetchFrame s u := by
  obtain ⟨u, fatal, frame⟩ := accessAt_read_fails hier fails
  exact ⟨u, by rw [memRead, fatal, Reply.map_fatal], frame⟩

theorem memWrite_fails {s : State} {va : Word} {n : Nat} {reason : FatalReason} (v : Word) (hier : HierarchyInv s)
    (fails : WriteFails s va n reason) : ∃ u, memWrite va n v s = .fatal reason u ∧ FetchFrame s u := by
  have size := length_leBytes n v.toNat
  obtain ⟨u, fatal, frame⟩ := accessAt_write_fails (buffer := leBytes n v.toNat) hier (size.symm ▸ fails)
  rw [size] at fatal
  exact ⟨u, by rw [memWrite, fatal, Reply.map_fatal], frame⟩

/-! ## Stores that complete (R71, R75, R108) -/

/-- MemWrite of bytes that can be stored makes View the low bytes of the value there, and keeps it elsewhere, and the
invariant. -/
theorem memWrite_storable {s : State} {va : Word} {n pa : Nat} (v : Word) (hier : HierarchyInv s)
    (storable : Storable s va n pa) :
    ∃ t, memWrite va n v s = .ok () t ∧ t.viewByte = writtenView s.viewByte pa (leBytes n v.toNat) ∧
      HierarchyInv t := by
  have size := length_leBytes n v.toNat
  have accepted : chainRefused s.cfg (.write pa (leBytes n v.toNat)) = none :=
    Storable.accepted (va := va) (size.symm ▸ storable)
  have inBlock : pa % 64 + (leBytes n v.toNat).length ≤ 64 := by rw [size]; exact storable.inBlock
  obtain ⟨a, ch, answer, _, inv, view⟩ :=
    ((l1Request_coherent hier.legal).write hier.chain inBlock).answers accepted
  refine ⟨{ s.withChain ch with memTime := max s.memTime a.time }, ?_, view, hier.legal, inv⟩
  rw [memWrite, accessAt_inBlock storable.translated storable.inBlock, l1Access, answer, Reply.map_ok]

theorem Mapped.storable {s : State} {va : Word} {n pa : Nat} (mapped : Mapped s va n pa) : Storable s va n pa :=
  ⟨mapped.translated, mapped.plain.inBlock, .inl mapped.plain.inMemory⟩

/-- Which bytes can be accessed is a matter of the configuration alone. -/
theorem Mapped.congr {s t : State} {va : Word} {n pa : Nat} (mapped : Mapped s va n pa) (cfg : t.cfg = s.cfg) :
    Mapped t va n pa :=
  ⟨cfg ▸ mapped.translated, cfg ▸ mapped.plain⟩

/-- The view after a store, byte by byte (R71: `v[8k+7 : 8k]`). -/
theorem writtenView_leBytes (old : Nat → Byte) (pa n : Nat) (v : Word) (a : Nat) :
    writtenView old pa (leBytes n v.toNat) a =
      if pa ≤ a ∧ a < pa + n then v.extractLsb' (8 * (a - pa)) 8 else old a := by
  rw [writtenView, length_leBytes]
  split
  next inside =>
    rw [getD_leBytes _ _ _ (by omega), BitVec.extractLsb', Nat.shiftRight_eq_div_pow, Nat.pow_mul]
  next => rfl

/-! ## The frame of an instruction that accesses memory -/

/-- Completing an instruction writes no register: it frames as a write to `x0`. -/
theorem frame_complete (s : State) (target : Word) (stored : Option (Nat × Nat)) :
    Frame s (s.complete target stored) 0 where
  regs _ _ := rfl
  zero := rfl
  cfg := rfl
  pcf := rfl
  fd := rfl
  de := rfl
  em := rfl
  mw := rfl
  pred := rfl
  status := rfl
  trace := rfl
  input := rfl
  inputsRead := rfl
  counters := rfl

/-- An access before the frame's change is within the frame. -/
theorem OnlyHierarchy.frame {s u t : State} {rd : Reg} (only : OnlyHierarchy s u) (frame : Frame u t rd) :
    Frame s t rd where
  regs r other := (frame.regs r other).trans (only.reg r)
  zero := frame.zero
  cfg := frame.cfg.trans only.cfg
  pcf := frame.pcf.trans only.pcf
  fd := frame.fd.trans only.fd
  de := frame.de.trans only.de
  em := frame.em.trans only.em
  mw := frame.mw.trans only.mw
  pred := frame.pred.trans only.pred
  status := frame.status.trans only.status
  trace := frame.trace.trans only.trace
  input := frame.input.trans only.input
  inputsRead := frame.inputsRead.trans only.inputsRead
  counters := by rw [frame.counters, only.counters]

/-- A write to `x0` leaves every register. -/
theorem Frame.reg_of_zero {s t : State} (frame : Frame s t 0) (r : Reg) : t.reg r = s.reg r := by
  by_cases zero : r = 0
  · rw [zero, frame.zero, State.reg_zero]
  · exact frame.regs r zero

/-! ## The value of a load (R251 to R257) -/

/-- Sign extension of a value of `n` bytes. -/
theorem LoadKind.extend_signed {n : Nat} (narrow : 8 * n ≤ 64) (v : Nat) :
    LoadKind.extend ⟨n, true⟩ (BitVec.ofNat 64 v) = (BitVec.ofNat (8 * n) v).signExtend 64 := by
  rw [LoadKind.extend, if_pos rfl, sext, BitVec.setWidth_ofNat_of_le narrow]

/-- Zero extension leaves a value of `n` bytes as it is. -/
theorem LoadKind.extend_unsigned {n v : Nat} (narrow : 8 * n ≤ 64) (small : v < 256 ^ n) :
    LoadKind.extend ⟨n, false⟩ (BitVec.ofNat 64 v) = BitVec.ofNat 64 v := by
  rw [LoadKind.extend, if_neg Bool.false_ne_true, zext, BitVec.setWidth_ofNat_of_le narrow]
  refine BitVec.eq_of_toNat_eq ?_
  have fits : v < 2 ^ (8 * n) := by rw [Nat.pow_mul]; exact small
  rw [BitVec.toNat_setWidth, BitVec.toNat_ofNat, BitVec.toNat_ofNat, Nat.mod_eq_of_lt fits]

/-- A load of a width takes the low bits of that width from a value, and no others. -/
theorem LoadKind.extend_low (k : LoadKind) (v : Word) :
    k.extend (BitVec.ofNat 64 (v.toNat % 2 ^ (8 * k.size))) = k.extend v := by
  have low : (BitVec.ofNat 64 (v.toNat % 2 ^ (8 * k.size))).setWidth (8 * k.size) = v.setWidth (8 * k.size) := by
    refine BitVec.eq_of_toNat_eq ?_
    have inWord : v.toNat % 2 ^ (8 * k.size) < 2 ^ 64 := lt_of_le_of_lt (Nat.mod_le _ _) v.isLt
    rw [BitVec.toNat_setWidth, BitVec.toNat_setWidth, BitVec.toNat_ofNat, Nat.mod_eq_of_lt inWord, Nat.mod_mod]
  rw [LoadKind.extend, LoadKind.extend, sext, sext, zext, zext, low]

/-! ## Loads and stores at level ISA (R250, R262, R263) -/

section
variable {s : State} {ea : Word} {n pa : Nat} {reason : FatalReason} (hier : HierarchyInv s)
include hier

/-- A load of bytes that can be accessed writes their value, extended, and changes no byte the program sees. -/
theorem loadWith_completes (k : LoadKind) (rd : Reg) (mapped : Mapped s ea k.size pa) :
    ∃ t, loadWith k rd ea s = .next t ∧
      (rd ≠ 0 → t.reg rd = k.extend (BitVec.ofNat 64 (ofLeBytes (s.viewBytes pa k.size)))) ∧ t.pc = s.pc + 4 ∧
      Frame s t rd ∧ (∀ a, t.viewByte a = s.viewByte a) ∧ HierarchyInv t ∧
      t.recentStores = (none :: s.recentStores).take 3 := by
  obtain ⟨u, read, view, inv⟩ := memRead_mapped hier mapped
  have only : OnlyHierarchy s u := (memRead_leaves ea k.size s).of_ok read
  have writes := registerFrame_complete_setReg u rd
    (k.extend (BitVec.ofNat 64 (ofLeBytes (s.viewBytes pa k.size)))) (u.pc + 4)
  refine ⟨_, by rw [loadWith, read, settle_ok], fun written => ?value, ?pc, only.frame writes.frame,
    fun a => (writes.stores.view a).trans (view a), complete_keeps_hierarchy (inv.setReg _ _) _ _, ?recent⟩
  case value => exact (State.reg_congr (State.complete_x ..) rd).trans (State.reg_setReg_same u _ written)
  case pc => rw [State.complete_pc, only.pc]
  case recent => rw [writes.recent, only.recentStores]

/-- A store of bytes that can be stored makes View the low bytes of the value there, and writes no register. -/
theorem storeWith_completes (v : Word) (storable : Storable s ea n pa) :
    ∃ t, storeWith n ea v s = .next t ∧ t.viewByte = writtenView s.viewByte pa (leBytes n v.toNat) ∧
      t.pc = s.pc + 4 ∧ Frame s t 0 ∧ HierarchyInv t ∧
      t.recentStores = (some (pa, n) :: s.recentStores).take 3 := by
  obtain ⟨u, write, view, inv⟩ := memWrite_storable v hier storable
  have only : OnlyHierarchy s u := (memWrite_leaves ea n v s).of_ok write
  have stored : (translate u.cfg ea).map (fun pa => (pa, n)) = some (pa, n) := by
    rw [only.cfg, storable.translated, Option.map_some]
  refine ⟨u.complete (u.pc + 4) (some (pa, n)), ?runs, view, ?pc, only.frame (frame_complete u _ _),
    complete_keeps_hierarchy inv _ _, ?recent⟩
  case runs => rw [storeWith, write, settle_ok, stored]
  case pc => rw [State.complete_pc, only.pc]
  case recent => rw [State.complete_recentStores, only.recentStores]

/-- A load whose read fails ends the run for that reason, with every register and every visible byte as before. -/
theorem loadWith_fatal (k : LoadKind) (rd : Reg) (fails : ReadFails s ea k.size reason) :
    ∃ t, loadWith k rd ea s = .next t ∧ FatalFrame s t reason := by
  obtain ⟨u, fatal, frame⟩ := memRead_fails hier fails
  exact ⟨_, by rw [loadWith, fatal, settle_fatal], frame.fatalFrame reason⟩

/-- A store whose write fails ends the run for that reason, with every register and every visible byte as before. -/
theorem storeWith_fatal (v : Word) (fails : WriteFails s ea n reason) :
    ∃ t, storeWith n ea v s = .next t ∧ FatalFrame s t reason := by
  obtain ⟨u, fatal, frame⟩ := memWrite_fails v hier fails
  exact ⟨_, by rw [storeWith, fatal, settle_fatal], frame.fatalFrame reason⟩

/-- A load of the bytes just stored gives the value stored, cut to its width and extended (R64, R70, R71). -/
theorem loadWith_after_storeWith {t : State} {v : Word} (k : LoadKind) (rd : Reg) (mapped : Mapped s ea k.size pa)
    (store : storeWith k.size ea v s = .next t) :
    ∃ u, loadWith k rd ea t = .next u ∧ (rd ≠ 0 → u.reg rd = k.extend v) := by
  obtain ⟨_, store', written, _, frame, inv, _⟩ := storeWith_completes hier v mapped.storable
  cases store.symm.trans store'
  obtain ⟨u, load, value, _⟩ := loadWith_completes inv k rd (mapped.congr frame.cfg)
  have bytes : t.viewBytes pa k.size = leBytes k.size v.toNat := by
    simpa using viewBytes_written (k := 0) (Nat.zero_add _).le written
  have read : ofLeBytes (t.viewBytes pa k.size) = v.toNat % 2 ^ (8 * k.size) := by
    rw [bytes, ofLeBytes_leBytes, Nat.pow_mul]
  exact ⟨u, load, fun nonzero => by rw [value nonzero, read, LoadKind.extend_low]⟩

end

/-! ## The instructions -/

/-- The meaning of a load is one read of its width at the effective address. -/
theorem exec_load {rd rs1 : Reg} {imm : BitVec 12} {i : Instr} {n : Nat}
    (load : (i, n) ∈ [(Instr.lb rd rs1 imm, 1), (.lbu rd rs1 imm, 1), (.lh rd rs1 imm, 2), (.lhu rd rs1 imm, 2),
      (.lw rd rs1 imm, 4), (.lwu rd rs1 imm, 4), (.ld rd rs1 imm, 8)]) :
    ∃ signed, ∀ s, exec i s = loadWith ⟨n, signed⟩ rd (s.effectiveAddress rs1 imm) s := by
  simp only [List.mem_cons, Prod.mk.injEq, List.not_mem_nil, or_false] at load
  rcases load with ⟨rfl, rfl⟩ | ⟨rfl, rfl⟩ | ⟨rfl, rfl⟩ | ⟨rfl, rfl⟩ | ⟨rfl, rfl⟩ | ⟨rfl, rfl⟩ | ⟨rfl, rfl⟩
  all_goals exact ⟨_, fun _ => rfl⟩

/-- The meaning of a store is one write of its width at the effective address. -/
theorem exec_store {rs1 rs2 : Reg} {imm : BitVec 12} {i : Instr} {n : Nat}
    (store : (i, n) ∈ [(Instr.sb rs1 rs2 imm, 1), (.sh rs1 rs2 imm, 2), (.sw rs1 rs2 imm, 4),
      (.sd rs1 rs2 imm, 8)]) (s : State) :
    exec i s = storeWith n (s.effectiveAddress rs1 imm) (s.reg rs2) s := by
  simp only [List.mem_cons, Prod.mk.injEq, List.not_mem_nil, or_false] at store
  rcases store with ⟨rfl, rfl⟩ | ⟨rfl, rfl⟩ | ⟨rfl, rfl⟩ | ⟨rfl, rfl⟩
  all_goals rfl

/-- An instruction whose meaning is to load `k.size` bytes, with the rule's extension, is that load; its word is what
the encoder writes, which decodes by O2. -/
theorem loads_of_exec {w : Raw} {i : Instr} {rd rs1 : Reg} {imm : BitVec 12} {extend : Nat → Word} (k : LoadKind)
    (extends_eq : ∀ v, v < 256 ^ k.size → k.extend (BitVec.ofNat 64 v) = extend v)
    (runs : ∀ s, exec i s = loadWith k rd (s.effectiveAddress rs1 imm) s) (wf : i.wf = true) (word : encode i = w) :
    Loads w i rd rs1 imm k.size extend := by
  refine ⟨word ▸ decodeEncode i wf, fun s pa hier mapped => ?_⟩
  obtain ⟨t, load, value, kept⟩ := loadWith_completes hier k rd mapped
  have small : ofLeBytes (s.viewBytes pa k.size) < 256 ^ k.size := by
    simpa [State.viewBytes] using ofLeBytes_lt (s.viewBytes pa k.size)
  exact ⟨t, (runs s).trans load, fun nonzero => (value nonzero).trans (extends_eq _ small), kept⟩

/-- The word of a store, with its immediate assembled from the two fields of the word (R144). -/
theorem encodeS_append (hi : BitVec 7) (lo : BitVec 5) (rs2 rs1 : Reg) (funct3 : BitVec 3) (opcode : BitVec 7) :
    encodeS (hi ++ lo) rs2 rs1 funct3 opcode = hi ++ rs2 ++ rs1 ++ funct3 ++ lo ++ opcode := by
  rw [encodeS, BitVec.extractLsb'_append_eq_left, BitVec.extractLsb'_append_eq_right]

/-- An instruction whose meaning is to store the `n` low bytes of `x[rs2]` is that store; its word is what the encoder
writes, which decodes by O2. -/
theorem stores_of_exec {w : Raw} {i : Instr} {rs1 rs2 : Reg} {imm : BitVec 12} {n : Nat}
    (runs : ∀ s, exec i s = storeWith n (s.effectiveAddress rs1 imm) (s.reg rs2) s) (wf : i.wf = true)
    (word : encode i = w) : Stores w i rs1 rs2 imm n := by
  refine ⟨word ▸ decodeEncode i wf, fun s pa hier storable => ?_⟩
  obtain ⟨t, store, written, kept⟩ := storeWith_completes hier (s.reg rs2) storable
  exact ⟨t, (runs s).trans store, fun a => by rw [written, writtenView_leBytes], kept⟩

/-! ## The obligations -/

/-- Settles O30: each meaning is one load of its width, with the rule's extension. -/
theorem loadInstructions : Obligations.LoadInstructions := by
  intro rd rs1 imm
  have signed {n : Nat} (narrow : 8 * n ≤ 64) (v : Nat) (_ : v < 256 ^ n) :=
    LoadKind.extend_signed narrow v
  have unsigned {n : Nat} (narrow : 8 * n ≤ 64) (v : Nat) (small : v < 256 ^ n) :=
    LoadKind.extend_unsigned narrow small
  refine ⟨?lb, ?lh, ?lw, ?ld, ?lbu, ?lhu, ?lwu⟩
  case lb | lh | lw => exact loads_of_exec ⟨_, true⟩ (signed (by decide)) (fun _ => rfl) rfl rfl
  case ld =>
    refine loads_of_exec ⟨8, true⟩ (fun v small => ?_) (fun _ => rfl) rfl rfl
    exact (signed (by decide) v small).trans (BitVec.signExtend_eq _)
  case lbu | lhu | lwu => exact loads_of_exec ⟨_, false⟩ (unsigned (by decide)) (fun _ => rfl) rfl rfl

/-- Settles O31: the words are those of the encoder, and each meaning is one store of its width. -/
theorem storeInstructions : Obligations.StoreInstructions := by
  intro rs1 rs2 hi lo
  have word (funct3 : BitVec 3) := encodeS_append hi lo rs2 rs1 funct3 0b0100011#7
  refine ⟨?sb, ?sh, ?sw, ?sd⟩
  case sb | sh | sw | sd => exact stores_of_exec (fun _ => rfl) rfl (word _)

/-- Settles O32: the meaning is one read or one write at the effective address, which is fatal for the reason given. -/
theorem loadStoreFatal : Obligations.LoadStoreFatal := by
  refine fun rd rs1 rs2 imm s reason hier => ⟨rfl, fun i n load fails => ?load, fun i n store fails => ?store⟩
  case load =>
    obtain ⟨signed, runs⟩ := exec_load load
    rw [runs]
    exact loadWith_fatal hier ⟨n, signed⟩ rd fails
  case store =>
    rw [exec_store store]
    exact storeWith_fatal hier (s.reg rs2) fails

/-- Settles O34: the store leaves the base register and the port as they were, so the load reads the bytes just
stored. -/
theorem loadAfterStore : Obligations.LoadAfterStore := by
  intro rs1 rs2 rd imm s pa hier mapped nonzero low
  obtain ⟨t, store, _, _, frame, _⟩ := storeWith_completes hier (s.reg rs2) mapped.storable
  have same : t.effectiveAddress rs1 imm = s.effectiveAddress rs1 imm := by
    rw [State.effectiveAddress, frame.reg_of_zero, State.effectiveAddress]
  have reload (signed : Bool) := loadWith_after_storeWith hier ⟨4, signed⟩ rd mapped store
  rw [← same] at reload
  obtain ⟨u, lw, value⟩ := reload true
  obtain ⟨u', lwu, value'⟩ := reload false
  have cut : (s.reg rs2).setWidth 32 = low := BitVec.setWidth_eq_extractLsb' (by decide)
  refine ⟨t, store, ⟨u, ?lw, ?signed, fun top => ?signedTop⟩, ⟨u', ?lwu, ?unsigned, fun top => ?unsignedTop⟩⟩
  case lw => exact lw
  case lwu => exact lwu
  case signed => rw [value nonzero, ← cut]; rfl
  case unsigned => rw [value' nonzero, ← cut]; rfl
  case signedTop => rw [value nonzero, top]; rfl
  case unsignedTop => rw [value' nonzero, top]; rfl

end Sys2Proof.Machine
end

section
/-! SUPPORT. The multiply, divide and remainder instructions (43_muldiv.md): the products written out on integers, which
divisions R284 marks and what each division answers, and what a division changes under either DIV_POLICY. -/

namespace Sys2Proof.Machine

/-! ## Products (R271 to R274) -/

theorem Alu.mul_eq_product (a b : Word) : Alu.mul a b = BitVec.ofInt 64 (a.toInt * b.toInt) := by
  rw [Alu.mul, BitVec.ofInt_mul, BitVec.ofInt_toInt, BitVec.ofInt_toInt]

/-- The high half of an exact product is its quotient by 2^64, rounded down. -/
theorem Alu.highHalf_eq_div (product : Int) : Alu.highHalf product = BitVec.ofInt 64 (product / 2 ^ 64) := by
  refine BitVec.eq_of_toNat_eq ?_
  rw [Alu.highHalf, BitVec.extractLsb'_toNat, Nat.shiftRight_eq_div_pow, BitVec.toNat_ofInt, BitVec.toNat_ofInt]
  omega

theorem Alu.mulhu_eq_div (a b : Word) : Alu.mulhu a b = BitVec.ofNat 64 (a.toNat * b.toNat / 2 ^ 64) := by
  rw [Alu.mulhu, Alu.highHalf_eq_div, ← BitVec.ofInt_natCast]
  norm_cast

/-! ## The cases R284 marks -/

section
variable {a b : Word}

theorem divZero_iff : divZero b = true ↔ b = 0 := beq_iff_eq

theorem divOverflow_iff : divOverflow a b = true ↔ a = 0x8000000000000000 ∧ b = 0xFFFFFFFFFFFFFFFF :=
  Bool.and_eq_true_iff.trans (and_congr beq_iff_eq beq_iff_eq)

theorem divZeroW_iff : divZeroW b = true ↔ b.setWidth 32 = 0#32 := beq_iff_eq

theorem divOverflowW_iff :
    divOverflowW a b = true ↔ a.setWidth 32 = 0x80000000#32 ∧ b.setWidth 32 = 0xFFFFFFFF#32 :=
  Bool.and_eq_true_iff.trans (and_congr beq_iff_eq beq_iff_eq)

variable {op : Mnemonic}

theorem divMarked_signed (signed : op = .div ∨ op = .rem) :
    divMarked op a b = true ↔ b = 0 ∨ (a = 0x8000000000000000 ∧ b = 0xFFFFFFFFFFFFFFFF) := by
  rcases signed with rfl | rfl
  all_goals rw [divMarked, Bool.or_eq_true, divZero_iff, divOverflow_iff]

theorem divMarked_unsigned (unsigned : op = .divu ∨ op = .remu) : divMarked op a b = true ↔ b = 0 := by
  rcases unsigned with rfl | rfl
  all_goals exact divZero_iff

theorem divMarked_signedWord (signed : op = .divw ∨ op = .remw) :
    divMarked op a b = true ↔
      b.setWidth 32 = 0#32 ∨ (a.setWidth 32 = 0x80000000#32 ∧ b.setWidth 32 = 0xFFFFFFFF#32) := by
  rcases signed with rfl | rfl
  all_goals rw [divMarked, Bool.or_eq_true, divZeroW_iff, divOverflowW_iff]

theorem divMarked_unsignedWord (unsigned : op = .divuw ∨ op = .remuw) :
    divMarked op a b = true ↔ b.setWidth 32 = 0#32 := by
  rcases unsigned with rfl | rfl
  all_goals exact divZeroW_iff

end

/-- The signed overflow on integers: the most negative value by -1. -/
theorem overflow_iff_toInt (a b : Word) :
    (a = 0x8000000000000000 ∧ b = 0xFFFFFFFFFFFFFFFF) ↔ (a.toInt = -2 ^ 63 ∧ b.toInt = -1) := by
  rw [← BitVec.toInt_inj, ← BitVec.toInt_inj]
  rfl

/-- The signed overflow of the word forms on integers. -/
theorem overflowWord_iff_toInt (a b : BitVec 32) :
    (a = 0x80000000#32 ∧ b = 0xFFFFFFFF#32) ↔ (a.toInt = -2 ^ 31 ∧ b.toInt = -1) := by
  rw [← BitVec.toInt_inj, ← BitVec.toInt_inj]
  rfl

/-! ## Quotients and remainders, with the table of R284 (R275 to R278, R280 to R284) -/

section
variable (a b : Word)

theorem Alu.div_eq : Alu.div a b =
    if b = 0 then 0xFFFFFFFFFFFFFFFF
    else if a = 0x8000000000000000 ∧ b = 0xFFFFFFFFFFFFFFFF then a
    else BitVec.ofInt 64 (a.toInt.tdiv b.toInt) := by
  simp only [Alu.div, divZero_iff, divOverflow_iff, BitVec.ofNat_eq_ofNat]

theorem Alu.divu_eq : Alu.divu a b = if b = 0 then 0xFFFFFFFFFFFFFFFF else BitVec.ofNat 64 (a.toNat / b.toNat) := by
  simp only [Alu.divu, divZero_iff, BitVec.ofNat_eq_ofNat]

theorem Alu.rem_eq : Alu.rem a b =
    if b = 0 then a
    else if a = 0x8000000000000000 ∧ b = 0xFFFFFFFFFFFFFFFF then 0
    else BitVec.ofInt 64 (a.toInt.tmod b.toInt) := by
  simp only [Alu.rem, divZero_iff, divOverflow_iff, BitVec.ofNat_eq_ofNat, Int.tmod_def]

theorem Alu.remu_eq : Alu.remu a b = if b = 0 then a else BitVec.ofNat 64 (a.toNat % b.toNat) := by
  simp only [Alu.remu, divZero_iff, BitVec.ofNat_eq_ofNat]

theorem Alu.divw_eq : Alu.divw a b =
    if b.setWidth 32 = 0#32 then 0xFFFFFFFFFFFFFFFF
    else if a.setWidth 32 = 0x80000000#32 ∧ b.setWidth 32 = 0xFFFFFFFF#32 then (a.setWidth 32).signExtend 64
    else (BitVec.ofInt 32 ((a.setWidth 32).toInt.tdiv (b.setWidth 32).toInt)).signExtend 64 := by
  simp only [Alu.divw, divZeroW_iff, divOverflowW_iff, sextWord, low32, BitVec.ofNat_eq_ofNat]

theorem Alu.divuw_eq : Alu.divuw a b =
    if b.setWidth 32 = 0#32 then 0xFFFFFFFFFFFFFFFF
    else (BitVec.ofNat 32 ((a.setWidth 32).toNat / (b.setWidth 32).toNat)).signExtend 64 := by
  simp only [Alu.divuw, divZeroW_iff, sextWord, low32, BitVec.ofNat_eq_ofNat]

theorem Alu.remw_eq : Alu.remw a b =
    if b.setWidth 32 = 0#32 then (a.setWidth 32).signExtend 64
    else if a.setWidth 32 = 0x80000000#32 ∧ b.setWidth 32 = 0xFFFFFFFF#32 then 0
    else (BitVec.ofInt 32 ((a.setWidth 32).toInt.tmod (b.setWidth 32).toInt)).signExtend 64 := by
  simp only [Alu.remw, divZeroW_iff, divOverflowW_iff, sextWord, low32, BitVec.ofNat_eq_ofNat, Int.tmod_def]

theorem Alu.remuw_eq : Alu.remuw a b =
    if b.setWidth 32 = 0#32 then (a.setWidth 32).signExtend 64
    else (BitVec.ofNat 32 ((a.setWidth 32).toNat % (b.setWidth 32).toNat)).signExtend 64 := by
  simp only [Alu.remuw, divZeroW_iff, sextWord, low32]

end

/-! ## A division under either DIV_POLICY (R284, R385) -/

/-- A fatal condition raised before any change keeps everything but the run status. -/
theorem raiseFatal_fatalFrame (reason : FatalReason) (s : State) : FatalFrame s (raiseFatal reason s) reason :=
  ⟨rfl, rfl, rfl, rfl, rfl, rfl, rfl, rfl, rfl, rfl, rfl, rfl, rfl, rfl, rfl, fun _ => rfl⟩

section
variable {i : Instr} {rd : Reg} {marked : Bool} {result v : Word} {s : State}

/-- A division that the policy lets go on writes its result and completes. -/
theorem division_completes (runs : exec i s = divideResult marked rd result s)
    (goesOn : ¬ (s.cfg.divPolicy = .fatal ∧ marked = true)) (result_eq : result = v) :
    ∃ t, exec i s = .next t ∧ (rd ≠ 0 → t.reg rd = v) ∧ t.pc = s.pc + 4 ∧ RegisterFrame s t rd := by
  rw [runs, divideResult, if_neg goesOn, result_eq]
  exact writeResult_completes rd v s

/-- A marked division under DIV_POLICY = fatal ends the run and writes nothing. -/
theorem division_fatal (runs : exec i s = divideResult marked rd result s) (policy : s.cfg.divPolicy = .fatal)
    (isMarked : marked = true) : ∃ t, exec i s = .next t ∧ FatalFrame s t .divide := by
  rw [runs, divideResult, if_pos ⟨policy, isMarked⟩]
  exact ⟨_, rfl, raiseFatal_fatalFrame _ s⟩

end

/-- A division that is not marked under the condition, and whose result there is the rule's `value`, computes that value
there under either policy; its word is what the encoder writes, which decodes by O2. -/
theorem computesIf_of_exec {w : Raw} {i : Instr} {rd : Reg} {condition : State → Prop} {value : State → Word}
    {marked : State → Bool} {result : State → Word} (runs : ∀ s, exec i s = divideResult (marked s) rd (result s) s)
    (regular : ∀ s, condition s → ¬ marked s = true ∧ result s = value s) (wf : i.wf = true := by rfl)
    (word : encode i = w := by rfl) : ComputesIf w i rd condition value := by
  refine ⟨word ▸ decodeEncode i wf, fun s holds => ?_⟩
  obtain ⟨unmarked, result_eq⟩ := regular s holds
  exact division_completes (runs s) (fun stops => unmarked stops.2) result_eq

/-! ## The obligations -/

/-- Settles O24: a high half is the quotient of the exact product by 2^64, and MULW writes the rule's value as it
stands. -/
theorem multiply : Obligations.Multiply := by
  intro rd rs1 rs2
  refine ⟨?mul, ?mulh, ?mulhsu, ?mulhu, ?mulw⟩
  case mul => exact computes_of_exec _ (fun _ => rfl) fun s => Alu.mul_eq_product (s.reg rs1) (s.reg rs2)
  case mulh | mulhsu => exact computes_of_exec _ (fun _ => rfl) fun _ => Alu.highHalf_eq_div _
  case mulhu => exact computes_of_exec _ (fun _ => rfl) fun s => Alu.mulhu_eq_div (s.reg rs1) (s.reg rs2)
  case mulw => exact computes_of_exec _ (fun _ => rfl) fun _ => rfl

/-- Settles O25: the condition is that R284 marks no case, and there the result is the last case of its equation. -/
theorem divide : Obligations.Divide := by
  intro rd rs1 rs2
  refine ⟨?div, ?divu, ?rem, ?remu⟩
  case div | rem =>
    refine computesIf_of_exec (fun _ => rfl) fun s ⟨nonzero, noOverflow⟩ => ?_
    rw [← overflow_iff_toInt] at noOverflow
    rw [divMarked_signed (by decide)]
    simp only [Alu.div_eq, Alu.rem_eq, nonzero, noOverflow, or_self, not_false_eq_true, if_false, and_self]
  case divu | remu =>
    refine computesIf_of_exec (fun _ => rfl) fun s nonzero => ?_
    rw [divMarked_unsigned (by decide)]
    simp only [Alu.divu_eq, Alu.remu_eq, nonzero, not_false_eq_true, if_false, and_self]

/-- Settles O26: as O25, on the low words. -/
theorem divideWord : Obligations.DivideWord := by
  intro rd rs1 rs2
  refine ⟨?divw, ?divuw, ?remw, ?remuw⟩
  case divw | remw =>
    refine computesIf_of_exec (fun _ => rfl) fun s ⟨nonzero, noOverflow⟩ => ?_
    rw [← overflowWord_iff_toInt] at noOverflow
    rw [divMarked_signedWord (by decide)]
    simp only [Alu.divw_eq, Alu.remw_eq, nonzero, noOverflow, or_self, not_false_eq_true, if_false, and_self]
  case divuw | remuw =>
    refine computesIf_of_exec (fun _ => rfl) fun s nonzero => ?_
    rw [divMarked_unsignedWord (by decide)]
    simp only [Alu.divuw_eq, Alu.remuw_eq, nonzero, not_false_eq_true, if_false, and_self]

/-- Settles O27: under riscv a marked case goes on with the value of its row, one of the first cases of the equation;
under fatal it ends the run. -/
theorem divisionCorners : Obligations.DivisionCorners := by
  intro rd rs1 rs2
  dsimp only
  refine ⟨fun s policy => ?riscv, ?div, ?rem, ?divu, ?remu, ?divw, ?remw, ?divuw, ?remuw⟩
  case riscv =>
    have goesOn (marked : Bool) : ¬ (s.cfg.divPolicy = .fatal ∧ marked = true) := by simp [policy]
    simp only [List.mem_cons, Prod.mk.injEq, List.not_mem_nil, or_false]
    refine ⟨fun i v row byZero => ?zero, fun i v row overflows => ?overflow, fun i v row byZero => ?zeroW,
      fun i v row overflows => ?overflowW⟩
    case zero =>
      rcases row with ⟨rfl, rfl⟩ | ⟨rfl, rfl⟩ | ⟨rfl, rfl⟩ | ⟨rfl, rfl⟩
      all_goals refine division_completes rfl (goesOn _) ?_
      all_goals simp only [Alu.div_eq, Alu.divu_eq, Alu.rem_eq, Alu.remu_eq, if_pos byZero]
    case overflow =>
      have nonzero : s.reg rs2 ≠ 0 := by rw [overflows.2]; decide
      rcases row with ⟨rfl, rfl⟩ | ⟨rfl, rfl⟩
      all_goals refine division_completes rfl (goesOn _) ?_
      all_goals simp only [Alu.div_eq, Alu.rem_eq, if_neg nonzero, if_pos overflows]
    case zeroW =>
      rcases row with ⟨rfl, rfl⟩ | ⟨rfl, rfl⟩ | ⟨rfl, rfl⟩ | ⟨rfl, rfl⟩
      all_goals refine division_completes rfl (goesOn _) ?_
      all_goals simp only [Alu.divw_eq, Alu.divuw_eq, Alu.remw_eq, Alu.remuw_eq, if_pos byZero]
    case overflowW =>
      have nonzero : (s.reg rs2).setWidth 32 ≠ 0#32 := by rw [overflows.2]; decide
      rcases row with ⟨rfl, rfl⟩ | ⟨rfl, rfl⟩
      all_goals refine division_completes rfl (goesOn _) ?_
      all_goals simp only [Alu.divw_eq, Alu.remw_eq, if_neg nonzero, if_pos overflows]
  case div | rem => exact fun s ⟨policy, corner⟩ => division_fatal rfl policy ((divMarked_signed (by decide)).mpr corner)
  case divu | remu =>
    exact fun s ⟨policy, byZero⟩ => division_fatal rfl policy ((divMarked_unsigned (by decide)).mpr byZero)
  case divw | remw =>
    exact fun s ⟨policy, corner⟩ => division_fatal rfl policy ((divMarked_signedWord (by decide)).mpr corner)
  case divuw | remuw =>
    exact fun s ⟨policy, byZero⟩ => division_fatal rfl policy ((divMarked_unsignedWord (by decide)).mpr byZero)

end Sys2Proof.Machine
end

section
/-! SUPPORT. The system calls (44_system.md): what each call number hands to the host, the string the program sees, and
what ECALL changes and leaves at level ISA once its call is served or fatal. -/

namespace Sys2Proof.Machine

/-! ## What each call number does (R291 to R297) -/

section
variable {s : State}

/-- R291 to R293: the full argument goes to the host. -/
theorem dispatchSyscall_hands {e : Word → HostEvent} {n : Word}
    (call : (n, e) ∈ [((88 : Word), HostEvent.sleep), (89, .printInt), (90, .printChar)])
    (number : s.reg s.cfg.sysNumReg = n) : dispatchSyscall s = .ok () (emit (e (s.reg s.cfg.sysArgReg)) s) := by
  simp only [List.mem_cons, Prod.mk.injEq, List.not_mem_nil, or_false] at call
  rcases call with ⟨rfl, rfl⟩ | ⟨rfl, rfl⟩ | ⟨rfl, rfl⟩
  all_goals simp [dispatchSyscall, number]

/-- R294: call 91 hands over the string at the argument, or fails as reading it does. -/
theorem dispatchSyscall_string (number : s.reg s.cfg.sysNumReg = 91) :
    dispatchSyscall s = (readString s.cfg.strCap (s.reg s.cfg.sysArgReg) s).bind
      fun r u => .ok () (emit (.printString r.1 r.2) u) := by
  simp [dispatchSyscall, number]

/-- R295: call 92 delivers the host's next integer. -/
theorem dispatchSyscall_readInt (number : s.reg s.cfg.sysNumReg = 92) :
    dispatchSyscall s = .ok () ((emit (.readInt s.nextInput) s.dropInput).setReg s.cfg.sysRetReg s.nextInput) := by
  simp [dispatchSyscall, number]

/-- R296: call 93 halts with the argument. -/
theorem dispatchSyscall_exit (number : s.reg s.cfg.sysNumReg = 93) :
    dispatchSyscall s =
      .ok () (halt (s.reg s.cfg.sysArgReg) (emit (.exit (s.reg s.cfg.sysArgReg)) s)) := by
  simp [dispatchSyscall, number]

/-- R297: any other number is fatal. -/
theorem dispatchSyscall_unknown (number : s.reg s.cfg.sysNumReg ∉ [(88 : Word), 89, 90, 91, 92, 93]) :
    dispatchSyscall s = .fatal (.unknownSyscall (s.reg s.cfg.sysNumReg)) s := by
  simp only [List.mem_cons, List.not_mem_nil, or_false, not_or] at number
  obtain ⟨not88, not89, not90, not91, not92, not93⟩ := number
  simp only [dispatchSyscall, if_neg not88, if_neg not89, if_neg not90, if_neg not91, if_neg not92, if_neg not93]

/-- The listed integers come first. -/
theorem State.nextInput_cons {v : Word} {rest : List Word} (input : s.input = v :: rest) : s.nextInput = v := by
  rw [nextInput, input]

theorem State.nextInput_nil (input : s.input = []) : s.nextInput = Config.readInt s.inputsRead := by
  rw [nextInput, input]

end

/-! ## The string the program sees (R73, R294) -/

/-- The first `cap` bytes the program sees at the addresses `pa 0`, `pa 1`, and so on. -/
def State.stringBytes (s : State) (pa : Nat → Nat) (cap : Nat) : List Byte :=
  (List.range cap).map fun k => s.viewByte (pa k)

theorem State.stringBytes_succ (s : State) (pa : Nat → Nat) (cap : Nat) :
    s.stringBytes pa (cap + 1) = s.viewByte (pa 0) :: s.stringBytes (fun k => pa (k + 1)) cap := by
  rw [stringBytes, List.range_succ_eq_map, List.map_cons, List.map_map]
  rfl

theorem State.stringBytes_congr {s t : State} (view : ∀ b, t.viewByte b = s.viewByte b) (pa : Nat → Nat) (cap : Nat) :
    t.stringBytes pa cap = s.stringBytes pa cap :=
  List.map_congr_left fun k _ => view (pa k)

/-- The bytes a read of the string reaches, those up to the first zero or the cap, are mapped one by one. -/
def StringMapped (s : State) (va : Word) (pa : Nat → Nat) (cap : Nat) : Prop :=
  ∀ k, k < cap → (∀ j, j < k → s.viewByte (pa j) ≠ 0) → Mapped s (va + BitVec.ofNat 64 k) 1 (pa k)

theorem StringMapped.head {s : State} {va : Word} {pa : Nat → Nat} {cap : Nat}
    (mapped : StringMapped s va pa (cap + 1)) : Mapped s va 1 (pa 0) := by
  simpa using mapped 0 (Nat.succ_pos cap) fun _ before => absurd before (Nat.not_lt_zero _)

/-- After a byte that is not zero the rest of the string is mapped, in any state with the same port and bytes. -/
theorem StringMapped.tail {s t : State} {va : Word} {pa : Nat → Nat} {cap : Nat}
    (mapped : StringMapped s va pa (cap + 1)) (nonzero : s.viewByte (pa 0) ≠ 0) (cfg : t.cfg = s.cfg)
    (view : ∀ b, t.viewByte b = s.viewByte b) : StringMapped t (va + 1) (fun k => pa (k + 1)) cap := by
  intro k inCap before
  have reached : ∀ j, j < k + 1 → s.viewByte (pa j) ≠ 0
    | 0, _ => nonzero
    | j + 1, lt => view (pa (j + 1)) ▸ before j (Nat.lt_of_succ_lt_succ lt)
  have address : va + 1 + BitVec.ofNat 64 k = va + BitVec.ofNat 64 (k + 1) := by
    rw [BitVec.add_assoc, Nat.add_comm, BitVec.ofNat_add]; rfl
  rw [address]
  exact (mapped (k + 1) (Nat.succ_lt_succ inCap) reached).congr cfg

/-- MemRead of one mapped byte is that byte of View, extended with zeros (R70). -/
theorem memRead_mapped_byte {s : State} {va : Word} {pa : Nat} (hier : HierarchyInv s) (mapped : Mapped s va 1 pa) :
    ∃ u, memRead va 1 s = .ok ((s.viewByte pa).setWidth 64) u ∧ (∀ b, u.viewByte b = s.viewByte b) ∧
      HierarchyInv u := by
  obtain ⟨u, read, kept⟩ := memRead_mapped hier mapped
  have value : ofLeBytes (s.viewBytes pa 1) = (s.viewByte pa).toNat := by simp [State.viewBytes, ofLeBytes]
  exact ⟨u, by rw [read, value, BitVec.ofNat_toNat], kept⟩

theorem setWidth_byte_eq_zero (b : Byte) : b.setWidth 64 = 0 ↔ b = 0 := by bv_omega

/-- R294: reading a mapped string answers its bytes before the first zero, and whether the cap came before any zero;
no byte the program sees changes. -/
theorem readString_mapped {s : State} {va : Word} {pa : Nat → Nat} {cap : Nat} (hier : HierarchyInv s)
    (mapped : StringMapped s va pa cap) :
    ∃ u, readString cap va s =
        .ok ((s.stringBytes pa cap).takeWhile (· != 0), (s.stringBytes pa cap).all (· != 0)) u ∧
      (∀ b, u.viewByte b = s.viewByte b) ∧ HierarchyInv u := by
  induction cap generalizing s va pa with
  | zero => exact ⟨s, rfl, fun _ => rfl, hier⟩
  | succ cap ih =>
    obtain ⟨u, read, view, inv⟩ := memRead_mapped_byte hier mapped.head
    rw [readString, read, Reply.bind_ok, State.stringBytes_succ]
    simp only [setWidth_byte_eq_zero]
    by_cases zero : s.viewByte (pa 0) = 0
    · exact ⟨u, by simp [zero], view, inv⟩
    · have cfg : u.cfg = s.cfg := ((memRead_leaves va 1 s).of_ok read).cfg
      obtain ⟨w, rest, view', inv'⟩ := ih inv (mapped.tail zero cfg view)
      refine ⟨w, ?_, fun b => (view' b).trans (view b), inv'⟩
      have nonzero : (s.viewByte (pa 0) != 0) = true := bne_iff_ne.mpr zero
      have byte : ((s.viewByte (pa 0)).setWidth 64).setWidth 8 = s.viewByte (pa 0) := by simp
      rw [if_neg zero, rest, State.stringBytes_congr view, Reply.map_ok, byte, List.takeWhile_cons, nonzero,
        if_pos rfl, List.all_cons, nonzero, Bool.true_and]

/-- A string at an unmapped address is fatal at its first byte (R386). -/
theorem readString_unmapped {s : State} {va : Word} {cap : Nat} (nonempty : 0 < cap)
    (unmapped : translate s.cfg va = none) : readString cap va s = .fatal (.translationMiss va) s := by
  obtain ⟨cap, rfl⟩ := Nat.exists_eq_succ_of_ne_zero nonempty.ne'
  rw [readString, memRead, accessAt_unmapped unmapped]
  rfl

/-! ## ECALL at level ISA (R290, R331, R393) -/

/-- Where ECALL ends once its call has left `u`: the call counted, no store made, execution on behind it. -/
abbrev State.afterCall (u : State) : State := trapReturn (u.countSyscall.pushStore none)

theorem State.afterCall_reg (u : State) (r : Reg) : u.afterCall.reg r = u.reg r := State.reg_congr (by simp) r

theorem trapReturn_pc {s : State} (running : s.status = .running) : (trapReturn s).pc = s.pc + 4 := by
  rw [trapReturn, if_pos running]

/-- A halted machine makes no step (R396). -/
theorem step_halted {s : State} {status : Word} (halted : s.status = .halted status) :
    step s = .fault (.halted status) := by
  rw [step, halted]

section
variable {s u : State}

/-- A call that is served is counted, and execution goes on behind it. -/
theorem exec_ecall_ok (call : dispatchSyscall s = .ok () u) :
    exec .ecall s = .next u.afterCall := by
  change execEcall s = _
  rw [execEcall, call, settle_ok]

/-- A call that is fatal ends the run. -/
theorem exec_ecall_fatal {reason : FatalReason} (call : dispatchSyscall s = .fatal reason u) :
    exec .ecall s = .next (raiseFatal reason u) := by
  change execEcall s = _
  rw [execEcall, call, settle_fatal]

/-- The call leaves alone what `DispatchFrame` says, and the return changes the pc, the count of calls and the window of
recent stores: together the frame of a system call. -/
theorem syscallFrame_of_dispatch (call : dispatchSyscall s = .ok () u) (running : s.status = .running)
    (status : u.status = s.status) (view : ∀ b, u.viewByte b = s.viewByte b) : SyscallFrame s u.afterCall := by
  have frame : DispatchFrame s u := (dispatchSyscall_frame s).of_ok call
  exact
    { pc := by rw [trapReturn_pc (by simpa using status.trans running)]; simp [frame.pc]
      status := by simpa using status
      cfg := by simpa using frame.cfg
      pcf := by simpa using frame.pcf
      fd := by simpa using frame.fd
      de := by simpa using frame.de
      em := by simpa using frame.em
      mw := by simpa using frame.mw
      pred := by simpa using frame.pred
      counters := by simp [frame.counters]
      view := fun b => (State.viewByte_congr (by simp) (by simp [State.chain]) b).trans (view b)
      recent := by simp [frame.recentStores] }

theorem StoresUntouched.of_chain (cfg : u.cfg = s.cfg) (chain : u.chain = s.chain) (memTime : u.memTime = s.memTime) :
    StoresUntouched s u := by
  obtain ⟨l1, l2, llc, mem⟩ : u.l1 = s.l1 ∧ u.l2 = s.l2 ∧ u.llc = s.llc ∧ u.mem = s.mem := by
    simpa [State.chain] using chain
  exact ⟨l1, l2, llc, mem, memTime, State.viewByte_congr cfg chain⟩

/-- The return from the trap touches no store. -/
theorem StoresUntouched.afterCall (stores : StoresUntouched s u) : StoresUntouched s u.afterCall where
  l1 := by simpa using stores.l1
  l2 := by simpa using stores.l2
  llc := by simpa using stores.llc
  mem := by simpa using stores.mem
  memTime := by simpa using stores.memTime
  view b := (State.viewByte_congr (by simp) (by simp [State.chain]) b).trans (stores.view b)

/-- A call that is fatal before it makes any request changes the run status and nothing else. -/
theorem ecall_fatal {reason : FatalReason} (call : dispatchSyscall s = .fatal reason s) :
    ∃ t, exec .ecall s = .next t ∧ FatalFrame s t reason ∧ StoresUntouched s t :=
  ⟨_, exec_ecall_fatal call, raiseFatal_fatalFrame reason s, .of_chain rfl rfl rfl⟩

end

/-! ## The obligations -/

/-- Settles O37: the string is read byte by byte, each byte that of View, and handed over once. -/
theorem printStringCall : Obligations.PrintStringCall := by
  intro s pa running number hier mapped bytes
  obtain ⟨u, read, view, inv⟩ := readString_mapped hier mapped
  have only : OnlyHierarchy s u := (readString_leaves _ _ s).of_ok read
  have call : dispatchSyscall s =
      .ok () (emit (.printString (bytes.takeWhile (· != 0)) (bytes.all (· != 0))) u) := by
    rw [dispatchSyscall_string number, read]; rfl
  exact ⟨_, exec_ecall_ok call, by simp [only.trace], by simp [only.x], by simp [only.input], by simp [only.inputsRead],
    syscallFrame_of_dispatch call running only.status view, trapReturn_keeps_hierarchy (inv.congr rfl rfl)⟩

/-- Settles O36: the call adds its event to the trace, and ECALL counts it and goes on. -/
theorem sleepAndPrintCalls : Obligations.SleepAndPrintCalls := by
  intro s e n listed running number
  have call := dispatchSyscall_hands listed number
  exact ⟨_, exec_ecall_ok call, by simp, by simp, by simp, by simp,
    syscallFrame_of_dispatch call running rfl fun _ => rfl, StoresUntouched.afterCall (.of_chain rfl rfl rfl)⟩

/-- Settles O38, for the integer `State.nextInput`. -/
theorem readIntegerCall : Obligations.ReadIntegerCall := by
  intro s running number
  have call := dispatchSyscall_readInt number
  have stores : StoresUntouched s
      ((emit (.readInt s.nextInput) s.dropInput).setReg s.cfg.sysRetReg s.nextInput) :=
    .of_chain (by simp) (by simp [State.chain]) (by simp)
  refine ⟨_, s.nextInput, exec_ecall_ok call, fun w rest input => ⟨State.nextInput_cons input, ?listed⟩,
    fun input => ⟨State.nextInput_nil input, ?unlisted⟩, by simp, fun written => ?value, fun r other => ?others,
    State.reg_zero _, by simp, syscallFrame_of_dispatch call running (by simp) stores.view, stores.afterCall⟩
  case listed | unlisted => simp [input]
  case value => rw [State.afterCall_reg, State.reg_setReg_same _ _ written]
  case others => rw [State.afterCall_reg, State.reg_setReg_other _ _ other]; rfl

/-- Settles O39: the return keeps the status the call sets, so the next `step` finds a halted machine. -/
theorem exitCall : Obligations.ExitCall := by
  intro s number
  have call := dispatchSyscall_exit number
  exact ⟨_, exec_ecall_ok call, by simp, by simp, by simp, StoresUntouched.afterCall (.of_chain rfl rfl rfl), by simp,
    step_halted (by simp)⟩

/-- Settles O40: either condition arises before any request is made. -/
theorem fatalCalls : Obligations.FatalCalls := by
  refine fun s => ⟨fun number => ?unknown, fun number nonempty unmapped => ?string⟩
  case unknown => exact ecall_fatal (dispatchSyscall_unknown number)
  case string =>
    refine ecall_fatal ?_
    rw [dispatchSyscall_string number, readString_unmapped nonempty unmapped, Reply.bind_fatal]

end Sys2Proof.Machine
end

section
/-! SUPPORT. A cycle of the pipeline that meets no fatal condition (50_pipeline.md): the case of R334 it is in, what it
leaves in each pipeline register, and what it counts. -/

namespace Sys2Proof.Machine

/-! ## The step of each run status -/

/-- Settles O16: `step` looks at the run status, and only of a running machine at the level. -/
theorem stepOfEachStatus : Obligations.StepOfEachStatus := by
  refine fun s => ⟨fun running level => ?cycle, fun _ halted => step_halted halted, fun _ fatal => ?fatal⟩
  case cycle => rw [step, running]; simp only [level]
  case fatal => rw [step, fatal]

/-! ## The next fetch address (R306) -/

/-- Fetch goes on at a JAL's target, at the target of a branch predicted taken, or at the next word; only a branch is
predicted taken. -/
theorem fetchNext_eq (s : State) (raw : Raw) :
    fetchNext s raw =
      (if RawField.opcode raw = 0b1101111#7 then s.pcf.pc + immJump (RawField.immJ raw)
        else if decide (RawField.opcode raw = 0b1100011#7) && predict s.cfg s.pred s.pcf.pc then
          s.pcf.pc + immBranch (RawField.immB raw)
        else s.pcf.pc + 4,
      decide (RawField.opcode raw = 0b1100011#7) && predict s.cfg s.pred s.pcf.pc) := by
  unfold fetchNext fetchClass
  by_cases jump : RawField.opcode raw = 0b1101111#7
  · simp [jump]
  · by_cases branch : RawField.opcode raw = 0b1100011#7
    · simp [branch]
    · simp [jump, branch]

/-! ## The case of R334 -/

theorem cycleCase_redirect {r : StageResults} {target : Word} (redirect : r.execute.redirect = some target)
    (drain : Bool) : cycleCase drain r = .flush target := by
  rw [cycleCase, redirect]

theorem cycleCase_no_redirect {r : StageResults} (redirect : r.execute.redirect = none) (drain : Bool) :
    cycleCase drain r =
      if r.decode.loadUse then .loadUse else if r.decode.ecall then .syscallDecoded
      else if drain then .draining else .normal := by
  rw [cycleCase, redirect]

/-- Where nothing flushes and nothing waits, Decode's output moves on in whichever case is left. -/
theorem cycleCase_ready {r : StageResults} (redirect : r.execute.redirect = none) (ready : r.decode.loadUse = false)
    (drain : Bool) :
    cycleCase drain r = .syscallDecoded ∨ cycleCase drain r = .draining ∨ cycleCase drain r = .normal := by
  rw [cycleCase_no_redirect redirect, ready, if_neg Bool.false_ne_true]
  split
  · exact .inl rfl
  · split
    · exact .inr (.inl rfl)
    · exact .inr (.inr rfl)

/-- Only a JALR and a branch flush (R323). -/
theorem executeRedirect_eq_none {d : DecodeExecute} (notJalr : opClass d.op ≠ .jumpReg)
    (notBranch : opClass d.op ≠ .branch) : executeRedirect d = none := by
  unfold executeRedirect
  split <;> simp_all

theorem executeRedirect_jumpReg {d : DecodeExecute} (jalr : opClass d.op = .jumpReg) :
    executeRedirect d = some (jalrTarget d.v1 d.imm) := by
  simp only [executeRedirect, branchTarget, jalr]

theorem executeRedirect_branch {d : DecodeExecute} (branch : opClass d.op = .branch) :
    executeRedirect d =
      if branchTaken d.op d.v1 d.v2 = d.predTaken then none
      else some (if branchTaken d.op d.v1 d.v2 then d.pc + d.imm else d.pc + 4) := by
  simp only [executeRedirect, branchTarget, branch]

theorem opClass_eq_jumpReg {op : Mnemonic} : opClass op = .jumpReg ↔ op = .jalr := by
  cases op <;> decide

theorem mnemonic_eq_ecall {i : Instr} : i.mnemonic = .ecall ↔ i = .ecall := by
  cases i <;> simp [Instr.mnemonic]

/-! ## What the stages of a cycle have computed -/

section
variable {s t : State} {r : StageResults} (run : CycleRun { s with memTime := 0 } r t)
include run

/-- Execute's output is what it makes of DE (R320). -/
theorem CycleRun.execute_out : r.execute.out = s.de.map executeOut := by
  rcases run.execute with ⟨de, eq⟩ | ⟨d, de, eq⟩
  all_goals
    change s.de = _ at de
    rw [eq, de]
    rfl

/-- Execute redirects for the instruction in DE or not at all (R323). -/
theorem CycleRun.execute_redirect : r.execute.redirect = s.de.bind executeRedirect := by
  rcases run.execute with ⟨de, eq⟩ | ⟨d, de, eq⟩
  all_goals
    change s.de = _ at de
    rw [eq, de]
    rfl

theorem CycleRun.no_redirect (none : ∀ d, s.de = some d → executeRedirect d = none) :
    r.execute.redirect = .none := by
  rw [run.execute_redirect]
  exact Option.bind_eq_none_iff.mpr none

/-- Memory's output is what is in EM with the value loaded (R326). -/
theorem CycleRun.memory_out : ∃ v, r.memory = s.em.map (memoryOut · v) := by
  rcases run.memory with ⟨em, eq⟩ | ⟨e, v, em, eq⟩ <;> change s.em = _ at em
  · exact ⟨0, by rw [eq, em]; rfl⟩
  · exact ⟨v, by rw [eq, em]; rfl⟩

theorem CycleRun.decode_bubble (fd : s.fd = none) :
    r.decode = { out := none, loadUse := false, ecall := false, forwards := 0 } := by
  rcases run.decode with ⟨_, eq⟩ | ⟨_, _, fd', _⟩
  · exact eq
  · change s.fd = _ at fd'
    rw [fd] at fd'
    cases fd'

/-- A cycle that is not fatal has decoded the word in FD (R310). -/
theorem CycleRun.decode_word {f : FetchDecode} (fd : s.fd = some f) :
    ∃ i, Sys2Proof.decode f.raw = .ok i ∧ r.decode = decodeStage s (some (f, i)) r.execute.out r.memory := by
  rcases run.decode with ⟨fd', _⟩ | ⟨f', i, fd', decoded, eq⟩ <;> change s.fd = _ at fd'
  · rw [fd] at fd'
    cases fd'
  · obtain rfl := Option.some.inj (fd.symm.trans fd')
    exact ⟨i, decoded, eq.trans (decodeStage_congr rfl rfl _ _ _)⟩

theorem CycleRun.decode_instr {f : FetchDecode} {i : Instr} (fd : s.fd = some f)
    (decoded : Sys2Proof.decode f.raw = .ok i) :
    r.decode = decodeStage s (some (f, i)) r.execute.out r.memory := by
  obtain ⟨j, decoded', eq⟩ := run.decode_word fd
  obtain rfl := Except.ok.inj (decoded.symm.trans decoded')
  exact eq

end

/-! ## Operands (R314, R315) -/

/-- The instruction writes `r`: its result, or in Execute the value it will load. -/
def ExecuteMemory.Writes (w : ExecuteMemory) (r : Reg) : Prop := w.rdAlu = r ∨ w.rdMem = r

/-- The instruction writes `r`: its result, or the value it loaded. -/
def MemoryWriteback.Writes (w : MemoryWriteback) (r : Reg) : Prop := w.rdAlu = r ∨ w.rdMem = r

/-- What the instruction leaves in the register it writes. -/
def MemoryWriteback.result (w : MemoryWriteback) (r : Reg) : Word := if w.rdAlu = r then w.alu else w.mval

theorem MemoryWriteback.result_loaded {w : MemoryWriteback} {r : Reg} (other : w.rdAlu ≠ r) : w.result r = w.mval :=
  if_neg other

section
variable {s : State} {e : Option ExecuteMemory} {m : Option MemoryWriteback} {r : Reg} (nonzero : r ≠ 0)
include nonzero

theorem operand_execute {w : ExecuteMemory} (out : e = some w) (writes : w.Writes r) :
    operand s e m r = if w.rdAlu = r then .forwarded w.alu else .loadUse := by
  have line : e.filter (fun w => w.rdAlu = r || w.rdMem = r) = some w := by
    rw [out, Option.filter_some_pos]
    simpa [ExecuteMemory.Writes] using writes
  rw [operand, if_neg nonzero, line]

variable (execute : ∀ w, e = some w → ¬ w.Writes r)
include execute

theorem operand_memory {w : MemoryWriteback} (out : m = some w) (writes : w.Writes r) :
    operand s e m r = .forwarded (w.result r) := by
  have line₁ : e.filter (fun w => w.rdAlu = r || w.rdMem = r) = none := by
    simpa [ExecuteMemory.Writes] using execute
  have line₂ : m.filter (fun w => w.rdAlu = r || w.rdMem = r) = some w := by
    rw [out, Option.filter_some_pos]
    simpa [MemoryWriteback.Writes] using writes
  simp only [operand, if_neg nonzero, line₁, line₂, MemoryWriteback.result,
    apply_ite OperandSource.forwarded]

variable (memory : ∀ w, m = some w → ¬ w.Writes r)
include memory

theorem operand_writeback {w : MemoryWriteback} (out : s.mw = some w) (writes : w.Writes r) :
    operand s e m r = .forwarded (w.result r) := by
  have line₁ : e.filter (fun w => w.rdAlu = r || w.rdMem = r) = none := by
    simpa [ExecuteMemory.Writes] using execute
  have line₂ : m.filter (fun w => w.rdAlu = r || w.rdMem = r) = none := by
    simpa [MemoryWriteback.Writes] using memory
  have line₃ : s.mw.filter (fun w => w.rdAlu = r || w.rdMem = r) = some w := by
    rw [out, Option.filter_some_pos]
    simpa [MemoryWriteback.Writes] using writes
  simp only [operand, if_neg nonzero, line₁, line₂, line₃, MemoryWriteback.result,
    apply_ite OperandSource.forwarded]

theorem operand_register (writeback : ∀ w, s.mw = some w → ¬ w.Writes r) :
    operand s e m r = .plain (s.reg r) := by
  have line₁ : e.filter (fun w => w.rdAlu = r || w.rdMem = r) = none := by
    simpa [ExecuteMemory.Writes] using execute
  have line₂ : m.filter (fun w => w.rdAlu = r || w.rdMem = r) = none := by
    simpa [MemoryWriteback.Writes] using memory
  have line₃ : s.mw.filter (fun w => w.rdAlu = r || w.rdMem = r) = none := by
    simpa [MemoryWriteback.Writes] using writeback
  simp only [operand, if_neg nonzero, line₁, line₂, line₃]
end

/-- The lines of R314, in their order: which one serves an operand, and what it answers. -/
inductive OperandLine (s : State) (e : Option ExecuteMemory) (m : Option MemoryWriteback) (r : Reg) :
    OperandSource → Prop where
  | zero (zero : r = 0) : OperandLine s e m r (.plain 0)
  | result (nonzero : r ≠ 0) (w : ExecuteMemory) (out : e = some w) (writes : w.rdAlu = r) :
      OperandLine s e m r (.forwarded w.alu)
  | waits (nonzero : r ≠ 0) (w : ExecuteMemory) (out : e = some w) (other : w.rdAlu ≠ r) (writes : w.rdMem = r) :
      OperandLine s e m r .loadUse
  | memory (nonzero : r ≠ 0) (execute : ∀ w, e = some w → ¬ w.Writes r) (w : MemoryWriteback) (out : m = some w)
      (writes : w.Writes r) : OperandLine s e m r (.forwarded (w.result r))
  | writeback (nonzero : r ≠ 0) (execute : ∀ w, e = some w → ¬ w.Writes r) (memory : ∀ w, m = some w → ¬ w.Writes r)
      (w : MemoryWriteback) (out : s.mw = some w) (writes : w.Writes r) :
      OperandLine s e m r (.forwarded (w.result r))
  | register (nonzero : r ≠ 0) (execute : ∀ w, e = some w → ¬ w.Writes r) (memory : ∀ w, m = some w → ¬ w.Writes r)
      (writeback : ∀ w, s.mw = some w → ¬ w.Writes r) : OperandLine s e m r (.plain (s.reg r))

/-- One of the lines serves. -/
theorem operand_line (s : State) (e : Option ExecuteMemory) (m : Option MemoryWriteback) (r : Reg) :
    OperandLine s e m r (operand s e m r) := by
  by_cases zero : r = 0
  · subst zero; exact .zero rfl
  by_cases execute : ∃ w, e = some w ∧ w.Writes r
  · obtain ⟨w, out, writes⟩ := execute
    rw [operand_execute zero out writes]
    split
    next result => exact .result zero w out result
    next other => exact .waits zero w out other (writes.resolve_left other)
  push Not at execute
  by_cases memory : ∃ w, m = some w ∧ w.Writes r
  · obtain ⟨w, out, writes⟩ := memory
    rw [operand_memory zero execute out writes]
    exact .memory zero execute w out writes
  push Not at memory
  by_cases writeback : ∃ w, s.mw = some w ∧ w.Writes r
  · obtain ⟨w, out, writes⟩ := writeback
    rw [operand_writeback zero execute memory out writes]
    exact .writeback zero execute memory w out writes
  · push Not at writeback
    rw [operand_register zero execute memory writeback]
    exact .register zero execute memory writeback

/-- An operand waits only for a load in Execute, of a register that is not x0. -/
theorem operand_loadUse {s : State} {e : Option ExecuteMemory} {m : Option MemoryWriteback} {r : Reg}
    (waits : (operand s e m r).isLoadUse = true) : r ≠ 0 ∧ ∃ w, e = some w ∧ w.rdMem = r := by
  have line := operand_line s e m r
  generalize operand s e m r = o at line waits
  cases line with
  | waits nonzero w out _ writes => exact ⟨nonzero, w, out, writes⟩
  | zero | result | memory | writeback | register => cases waits

theorem OperandSource.forwards_le_one (o : OperandSource) : o.forwards ≤ 1 := by
  cases o with
  | forwarded => exact le_rfl
  | plain | loadUse => exact Nat.zero_le 1

theorem decodeStage_ecall (s : State) (e : Option ExecuteMemory) (m : Option MemoryWriteback) (f : FetchDecode)
    (i : Instr) : (decodeStage s (some (f, i)) e m).ecall = decide (i.mnemonic = .ecall) := rfl

/-- An instruction that reads nothing the load in Execute writes does not wait. -/
theorem decodeStage_ready {s : State} {e : Option ExecuteMemory} {m : Option MemoryWriteback} {f : FetchDecode}
    {i : Instr} (unread : ∀ w, e = some w → w.rdMem = 0 ∨ w.rdMem ≠ (operandsOf i).rs1 ∧ w.rdMem ≠ (operandsOf i).rs2) :
    (decodeStage s (some (f, i)) e m).loadUse = false := by
  have ready (r : Reg) (read : r = (operandsOf i).rs1 ∨ r = (operandsOf i).rs2) :
      (operand s e m r).isLoadUse = false := by
    rw [Bool.eq_false_iff]
    intro waits
    obtain ⟨nonzero, w, out, writes⟩ := operand_loadUse waits
    rcases unread w out with zero | ⟨not1, not2⟩
    · exact nonzero (writes.symm.trans zero)
    · exact read.elim (fun eq => not1 (writes.trans eq)) (fun eq => not2 (writes.trans eq))
  exact Bool.or_eq_false_iff.mpr ⟨ready _ (.inl rfl), ready _ (.inr rfl)⟩

/-! ## The writes still pending (R314, R434) -/

/-- The state once an instruction of Writeback has written its registers. -/
def State.afterWriteback (s : State) : Option MemoryWriteback → State
  | some w => (s.setReg w.rdAlu w.alu).setReg w.rdMem w.mval
  | none => s

theorem pendingWrites_none (s : State) (m : Option MemoryWriteback) :
    pendingWrites s none m = (s.afterWriteback s.mw).afterWriteback m := rfl

theorem pendingWrites_some (s : State) (w : ExecuteMemory) (m : Option MemoryWriteback) :
    pendingWrites s (some w) m = ((s.afterWriteback s.mw).afterWriteback m).setReg w.rdAlu w.alu := rfl

section
variable {s : State} {w : MemoryWriteback} {o : Option MemoryWriteback} {r : Reg}

theorem State.reg_afterWriteback_silent (silent : ∀ w, o = some w → ¬ w.Writes r) :
    (s.afterWriteback o).reg r = s.reg r := by
  cases o with
  | none => rfl
  | some w =>
    obtain ⟨notAlu, notMem⟩ := not_or.mp (silent w rfl)
    rw [afterWriteback, State.reg_setReg_other _ _ (Ne.symm notMem), State.reg_setReg_other _ _ (Ne.symm notAlu)]

theorem State.reg_afterWriteback (nonzero : r ≠ 0) (single : w.rdAlu = 0 ∨ w.rdMem = 0) (out : o = some w)
    (writes : w.Writes r) : (s.afterWriteback o).reg r = w.result r := by
  subst out
  rw [afterWriteback, MemoryWriteback.result]
  split
  next alu =>
    have noMem : w.rdMem = 0 := single.resolve_left (alu ▸ nonzero)
    rw [noMem, State.setReg_zero, alu, State.reg_setReg_same _ _ nonzero]
  next other =>
    have mem : w.rdMem = r := writes.resolve_left other
    rw [mem, State.reg_setReg_same _ _ nonzero]

end

section
variable {s : State} {e : Option ExecuteMemory} {m : Option MemoryWriteback} {r : Reg}

/-- An instruction in Execute whose result goes elsewhere leaves the register to those before it. -/
theorem pendingWrites_reg (execute : ∀ w, e = some w → ¬ w.Writes r) :
    (pendingWrites s e m).reg r = ((s.afterWriteback s.mw).afterWriteback m).reg r := by
  cases e with
  | none => rw [pendingWrites_none]
  | some w =>
    have other : w.rdAlu ≠ r := (not_or.mp (execute w rfl)).1
    rw [pendingWrites_some, State.reg_setReg_other _ _ other.symm]

/-- What an operand that does not wait answers is what the register holds after the pending writes. -/
theorem operand_value (single₁ : ∀ w, s.mw = some w → w.rdAlu = 0 ∨ w.rdMem = 0)
    (single₂ : ∀ w, m = some w → w.rdAlu = 0 ∨ w.rdMem = 0) (ready : (operand s e m r).isLoadUse = false) :
    (operand s e m r).value = (pendingWrites s e m).reg r := by
  have line := operand_line s e m r
  generalize operand s e m r = o at line ready
  cases line with
  | zero zero => rw [zero, State.reg_zero]; rfl
  | result nonzero w out writes =>
    subst out writes
    rw [pendingWrites_some, State.reg_setReg_same _ _ nonzero]; rfl
  | waits => cases ready
  | memory nonzero execute w out writes =>
    rw [pendingWrites_reg execute, State.reg_afterWriteback nonzero (single₂ w out) out writes]; rfl
  | writeback nonzero execute memory w out writes =>
    rw [pendingWrites_reg execute, State.reg_afterWriteback_silent memory,
      State.reg_afterWriteback nonzero (single₁ w out) out writes]; rfl
  | register nonzero execute memory writeback =>
    rw [pendingWrites_reg execute, State.reg_afterWriteback_silent memory, State.reg_afterWriteback_silent writeback]
    rfl

/-- An operand waits exactly for the load in Execute. -/
theorem operand_loadUse_iff (single : ∀ w, e = some w → w.rdAlu = 0 ∨ w.rdMem = 0) :
    (operand s e m r).isLoadUse = true ↔ r ≠ 0 ∧ ∃ w, e = some w ∧ w.rdMem = r := by
  refine ⟨operand_loadUse, fun ⟨nonzero, w, out, writes⟩ => ?_⟩
  have other : w.rdAlu ≠ r := fun alu => (single w out).elim (alu ▸ nonzero) (writes ▸ nonzero)
  rw [operand_execute nonzero out (.inr writes), if_neg other]; rfl

/-- An operand is forwarded exactly when it does not wait and one of the three producers writes its register. -/
theorem operand_forwards_iff :
    (operand s e m r).forwards = 1 ↔ r ≠ 0 ∧ (operand s e m r).isLoadUse = false ∧
      ((∃ w, e = some w ∧ w.rdAlu = r) ∨ (∃ w, m = some w ∧ w.Writes r) ∨ ∃ w, s.mw = some w ∧ w.Writes r) := by
  have line := operand_line s e m r
  generalize operand s e m r = o at line
  cases line with
  | zero zero => simp [OperandSource.forwards, zero]
  | result nonzero w out writes => exact iff_of_true rfl ⟨nonzero, rfl, .inl ⟨w, out, writes⟩⟩
  | waits => simp [OperandSource.forwards, OperandSource.isLoadUse]
  | memory nonzero _ w out writes => exact iff_of_true rfl ⟨nonzero, rfl, .inr (.inl ⟨w, out, writes⟩)⟩
  | writeback nonzero _ _ w out writes => exact iff_of_true rfl ⟨nonzero, rfl, .inr (.inr ⟨w, out, writes⟩)⟩
  | register _ execute memory writeback =>
    refine iff_of_false Nat.zero_ne_one fun ⟨_, _, served⟩ => ?_
    rcases served with ⟨w, out, writes⟩ | ⟨w, out, writes⟩ | ⟨w, out, writes⟩
    · exact execute w out (.inl writes)
    · exact memory w out writes
    · exact writeback w out writes

end

/-! ## The commit (R334, R335) -/

/-- The next copies read of the state only Fetch's register and FD. -/
theorem nextFront_congr {s u : State} (pcf : u.pcf = s.pcf) (fd : u.fd = s.fd) (r : StageResults) (k : CycleCase) :
    nextFront u r k = nextFront s r k := by
  cases k <;> simp only [nextFront, pcf, fd]

theorem commit_registers {r : StageResults} {u : State} (running : (commit r u).status = .running) :
    ((commit r u).pcf, (commit r u).fd, (commit r u).de) = nextFront u r (cycleCase u.pcf.drain r) ∧
      (commit r u).em = r.execute.out ∧ (commit r u).mw = r.memory := by
  rw [(commit_running running).2]
  exact ⟨rfl, rfl, rfl⟩

/-- 1 in the cases in which Fetch's word is not used and no flush replaces it (R341). -/
def CycleCase.fetchStalls : CycleCase → Nat
  | .loadUse | .syscallDecoded | .draining => 1
  | .flush _ | .normal => 0

/-! ## A cycle without a fatal condition (R334, R335, R341) -/

/-- The state before the commit with the cycle's counters and ticks (R340, R341). -/
def State.counted (t : State) (r : StageResults) : State := { t with counters := account t r (cycleTicks t) }

/-- The cycle has run its five stages; it commits and counts what they computed. -/
structure CycleCompletes (s : State) (r : StageResults) (t : State) : Prop where
  stages : runStages { s with memTime := 0 } = .ok r t
  commits : cycle s = commit r (t.counted r)

theorem cycle_completes {s : State} (notFatal : ∀ reason, (cycle s).status ≠ .fatal reason) :
    ∃ r t, CycleCompletes s r t := by
  rcases cycle_cases s with ⟨e, t, _, eq⟩ | ⟨r, t, stages, _, eq⟩
  · exact absurd (by rw [eq]; rfl) (notFatal e)
  · exact ⟨r, t, stages, eq⟩

theorem cycle_completes_running {s : State} (running : (cycle s).status = .running) :
    ∃ r t, CycleCompletes s r t :=
  cycle_completes fun _ fatal => by rw [running] at fatal; cases fatal

section
variable {s t : State} {r : StageResults} (c : CycleCompletes s r t)
include c

theorem CycleCompletes.run : CycleRun { s with memTime := 0 } r t := runStages_run c.stages

theorem CycleCompletes.counters : (cycle s).counters = account t r (cycleTicks t) := by
  rw [c.commits, commit_counters]; rfl

theorem CycleCompletes.cycles : (cycle s).counters.cycles = s.counters.cycles + 1 :=
  (congrArg Counters.cycles c.counters).trans (account_cycles c.run _)

theorem CycleCompletes.retired : (cycle s).counters.retired =
    s.counters.retired + (if s.mw.any fun w => w.op != .ecall then 1 else 0) :=
  (congrArg Counters.retired c.counters).trans (account_retired c.run _)

theorem CycleCompletes.syscall : (cycle s).counters.syscall =
    s.counters.syscall + (if s.mw.any fun w => w.op == .ecall then 1 else 0) :=
  (congrArg Counters.syscall c.counters).trans (account_syscall c.run _)

theorem CycleCompletes.loadUse : (cycle s).counters.loadUse =
    s.counters.loadUse + (if cycleCase s.pcf.drain r = .loadUse then 1 else 0) :=
  (congrArg Counters.loadUse c.counters).trans (account_loadUse c.run _)

theorem CycleCompletes.controlHazard : (cycle s).counters.controlHazard =
    s.counters.controlHazard + (if r.execute.redirect.isSome then 1 else 0) :=
  (congrArg Counters.controlHazard c.counters).trans (account_controlHazard c.run _)

theorem CycleCompletes.dataHazard : (cycle s).counters.dataHazard =
    s.counters.dataHazard + (if cycleCase s.pcf.drain r = .normal then r.decode.forwards else 0) :=
  (congrArg Counters.dataHazard c.counters).trans (account_dataHazard c.run _)

theorem CycleCompletes.fetchStall : (cycle s).counters.fetchStall =
    s.counters.fetchStall + (cycleCase s.pcf.drain r).fetchStalls := by
  rw [c.counters, account_fetchStall c.run]
  cases cycleCase s.pcf.drain r <;> rfl

/-- Fetch of a mapped word puts out the word of View and goes on behind it (R305 to R307). -/
theorem CycleCompletes.fetch_mapped {pa : Nat} (drain : s.pcf.drain = false) (hier : HierarchyInv s)
    (mapped : Mapped s s.pcf.pc 4 pa) :
    r.fetch =
      { out := some { pc := s.pcf.pc, raw := rawOfBytes (s.viewBytes pa 4),
                      predTaken := (fetchNext s (rawOfBytes (s.viewBytes pa 4))).2 }
        next := (fetchNext s (rawOfBytes (s.viewBytes pa 4))).1 } := by
  obtain ⟨u, _, _, _, stage, _⟩ := runStages_ok c.stages
  obtain ⟨v, word, _⟩ := fetch32_mapped (s := { s with memTime := 0 }) (hier.congr rfl rfl) (mapped.congr rfl)
  rcases fetchStage_ok stage with ⟨drains, _⟩ | ⟨_, raw, fetch, eq⟩
  · change s.pcf.drain = true at drains
    rw [drain] at drains
    cases drains
  · obtain ⟨rfl, _⟩ := Reply.ok.inj (fetch.symm.trans word)
    exact eq

variable (running : (cycle s).status = .running)
include running

/-- Fetch, FD and DE after a cycle that leaves the machine running, by its case (R334). -/
theorem CycleCompletes.front {k : CycleCase} {pcf : FetchReg} {fd : Option FetchDecode} {de : Option DecodeExecute}
    (branch : cycleCase s.pcf.drain r = k) (next : nextFront s r k = (pcf, fd, de)) :
    (cycle s).pcf = pcf ∧ (cycle s).fd = fd ∧ (cycle s).de = de := by
  rw [c.commits] at running ⊢
  have front := (commit_registers running).1
  have same : (t.counted r).pcf = s.pcf := c.run.pcf
  rw [nextFront_congr same c.run.fd, same, branch, next, Prod.mk.injEq, Prod.mk.injEq] at front
  exact front

/-- Whatever the case, a bubble in FD leaves a bubble in DE. -/
theorem CycleCompletes.de_of_bubble (fd : s.fd = none) : (cycle s).de = none := by
  have out : r.decode.out = none := by rw [c.run.decode_bubble fd]
  obtain ⟨_, _, de⟩ := c.front running rfl rfl
  rw [de]
  rcases nextFront_de s r (cycleCase s.pcf.drain r) with bubble | decoded
  · exact bubble
  · exact decoded.trans out

/-- Where nothing flushes and nothing waits, what Decode puts out moves on to Execute (R334). -/
theorem CycleCompletes.de_decoded (redirect : r.execute.redirect = none) (ready : r.decode.loadUse = false) :
    (cycle s).de = r.decode.out := by
  rcases cycleCase_ready redirect ready s.pcf.drain with branch | branch | branch
  all_goals
    obtain ⟨_, _, de⟩ := c.front running branch rfl
    exact de

/-- What Execute puts out moves on to Memory in every case (R334). -/
theorem CycleCompletes.em : (cycle s).em = s.de.map executeOut := by
  rw [← c.run.execute_out, c.commits]
  exact (commit_registers (c.commits ▸ running)).2.1

/-- What Memory puts out moves on to Writeback in every case (R334). -/
theorem CycleCompletes.mw : (cycle s).mw = r.memory := by
  rw [c.commits]
  exact (commit_registers (c.commits ▸ running)).2.2

end

/-! ## The cycle after a load-use stall (R315) -/

/-- With a bubble in Execute nothing waits, and a load in Memory serves the operands that read its register. -/
theorem cycle_serves_load {s : State} {fd : FetchDecode} {i : Instr} {d : DecodeExecute} (held : s.fd = some fd)
    (decoded : decode fd.raw = .ok i) (bubble : s.de = none) (em : s.em = some (executeOut d)) (noResult : d.rdAlu = 0)
    (nonzero : d.rdMem ≠ 0) (running : (cycle s).status = .running) :
    ∃ d' w, (cycle s).de = some d' ∧ d'.raw = fd.raw ∧ (cycle s).mw = some w ∧ w.rdMem = d.rdMem ∧
      ((operandsOf i).rs1 = d.rdMem → d'.v1 = w.mval) ∧ ((operandsOf i).rs2 = d.rdMem → d'.v2 = w.mval) ∧
      (cycle s).counters.loadUse = s.counters.loadUse := by
  obtain ⟨r, t, c⟩ := cycle_completes_running running
  have out : r.execute.out = none := by rw [c.run.execute_out, bubble]; rfl
  have redirect : r.execute.redirect = none := c.run.no_redirect fun _ holds => nomatch bubble.symm.trans holds
  have decode := c.run.decode_instr held decoded
  have ready : r.decode.loadUse = false := by
    rw [decode]
    exact decodeStage_ready fun _ holds => nomatch out.symm.trans holds
  obtain ⟨v, memory⟩ := c.run.memory_out
  rw [em, Option.map_some] at memory
  have served (e : Reg) (reads : e = d.rdMem) : (operand s r.execute.out r.memory e).value = v := by
    subst reads
    have other : (memoryOut (executeOut d) v).rdAlu ≠ d.rdMem := fun alu => nonzero (alu.symm.trans noResult)
    rw [operand_memory nonzero (fun _ holds => nomatch out.symm.trans holds) memory (.inr rfl), OperandSource.value,
      MemoryWriteback.result_loaded other]
    rfl
  refine ⟨_, _, (c.de_decoded running redirect ready).trans (by rw [decode]; rfl), rfl, (c.mw running).trans memory,
    rfl, served _, served _, ?_⟩
  rcases cycleCase_ready redirect ready s.pcf.drain with branch | branch | branch
  all_goals rw [c.loadUse, branch]; rfl

/-! ## The obligations -/

/-- Settles O51: a completed cycle resolves the instruction in DE once, and nothing else moves the predictor. -/
theorem branchResolution : Obligations.BranchResolution := by
  intro s running
  obtain ⟨r, t, c⟩ := cycle_completes_running running
  have pred : (cycle s).pred = t.pred := by rw [c.commits, commit_pred]; rfl
  have counts : (cycle s).counters.branchTotal = t.counters.branchTotal ∧
      (cycle s).counters.branchOk = t.counters.branchOk := by rw [c.counters]; exact account_branch t r _
  rw [pred, counts.1, counts.2]
  refine ⟨fun d de branch => ?branch, fun other => ?other⟩
  case branch =>
    rcases c.run.branch with ⟨de', _⟩ | ⟨d', de', resolved⟩ <;> change s.de = _ at de' <;> rw [de] at de'
    · cases de'
    · obtain rfl := Option.some.inj de'
      rw [resolveBranch_branch branch] at resolved
      exact resolved
  case other =>
    rcases c.run.branch with ⟨_, resolved⟩ | ⟨d, de, resolved⟩
    · exact resolved
    · rw [resolveBranch_other (other d de)] at resolved
      exact resolved

/-- Settles O50: Execute redirects exactly for a JALR and a branch that was predicted wrong; the squashed slots are
bubbles, which Execute and Decode pass on. -/
theorem controlHazardFlush : Obligations.ControlHazardFlush := by
  intro s d de running taken flushed
  obtain ⟨r, t, c⟩ := cycle_completes_running running
  have redirect : r.execute.redirect = executeRedirect d := by rw [c.run.execute_redirect, de]; rfl
  have flush {target : Word} (eq : executeRedirect d = some target) : flushed target := by
    have redirects : r.execute.redirect = some target := redirect.trans eq
    have branch := cycleCase_redirect redirects s.pcf.drain
    obtain ⟨pcf', fd', de'⟩ := c.front running branch rfl
    refine ⟨pcf', fd', de', by rw [c.em running, de]; rfl, ?_, ?_, ?_, ?_, fun running' => ?_⟩
    · rw [c.controlHazard, redirects]; rfl
    · rw [c.dataHazard, branch]; rfl
    · rw [c.loadUse, branch]; rfl
    · rw [c.fetchStall, branch]; rfl
    · obtain ⟨r', t', c'⟩ := cycle_completes_running running'
      exact ⟨by rw [c'.em running', de']; rfl, c'.de_of_bubble running' fd'⟩
  refine ⟨fun jalr => ?jalr, fun branch wrong => ?branch, fun notJalr right => ?other⟩
  case jalr => exact flush (executeRedirect_jumpReg (opClass_eq_jumpReg.mpr jalr))
  case branch => exact flush ((executeRedirect_branch branch).trans (if_neg wrong))
  case other =>
    have none : executeRedirect d = none := by
      by_cases branch : opClass d.op = .branch
      · rw [executeRedirect_branch branch, if_pos (right branch)]
      · exact executeRedirect_eq_none (mt opClass_eq_jumpReg.mp notJalr) branch
    rw [c.controlHazard, redirect, none]; rfl

/-- Settles O48: the lines of R314 in their order; and in a normal cycle what Fetch makes of the visible word, and
Decode of the word in FD. -/
theorem operandForwarding : Obligations.OperandForwarding := by
  refine ⟨fun s e m r single₁ single₂ single₃ => ?operand, fun s pa running drain unflushed word hier mapped => ?normal⟩
  case operand =>
    exact ⟨operand_loadUse_iff single₃, operand_value single₁ single₂, OperandSource.forwards_le_one _,
      operand_forwards_iff⟩
  case normal =>
    intro u raw isBranch immJ immB predTaken
    obtain ⟨r, t, c⟩ := cycle_completes_running running
    have redirect := c.run.no_redirect unflushed
    have em : u.em = r.execute.out := (c.em running).trans c.run.execute_out.symm
    have mw : u.mw = r.memory := c.mw running
    have fetch : r.fetch = _ := c.fetch_mapped drain hier mapped
    have normal : cycleCase s.pcf.drain r = .normal := by
      rw [cycleCase_no_redirect redirect, drain]
      cases held : s.fd with
      | none => rw [c.run.decode_bubble held]; rfl
      | some fd =>
        obtain ⟨i, decoded, decode⟩ := c.run.decode_word held
        obtain ⟨notEcall, unread⟩ := word fd i held decoded
        have ready : r.decode.loadUse = false := by
          rw [decode]
          refine decodeStage_ready fun w out => ?_
          rw [c.run.execute_out, Option.map_eq_some_iff] at out
          obtain ⟨d, de, rfl⟩ := out
          exact unread d de
        have ecall : r.decode.ecall = false := by
          rw [decode, decodeStage_ecall]
          exact decide_eq_false (mt mnemonic_eq_ecall.mp notEcall)
        rw [ready, ecall]; rfl
    obtain ⟨pcf', fd', de'⟩ := c.front running normal rfl
    have hazards : u.counters.dataHazard = s.counters.dataHazard + r.decode.forwards := by
      rw [c.dataHazard, if_pos normal]
    refine ⟨by rw [pcf'], ?pc, ?fd, c.em running, ?loadUse, ?controlHazard, ?fetchStall,
      fun bubble => ?bubble, fun fd i held decoded => ?word⟩
    case loadUse => rw [c.loadUse, normal]; rfl
    case controlHazard => rw [c.controlHazard, redirect]; rfl
    case fetchStall => rw [c.fetchStall, normal]; rfl
    case pc => rw [pcf', fetch]; exact congrArg Prod.fst (fetchNext_eq s raw)
    case fd => rw [fd', fetch, fetchNext_eq]; rfl
    case bubble =>
      have decode := c.run.decode_bubble bubble
      exact ⟨by rw [de', decode], by rw [hazards, decode]; rfl⟩
    case word =>
      have decode := c.run.decode_instr held decoded
      rw [em, mw]
      exact ⟨by rw [de', decode]; rfl, by rw [hazards, decode, Nat.add_assoc]; rfl⟩

/-- Settles O49: the load in Execute makes Decode wait; a cycle later it is in Memory, whose line serves the value
loaded, and Execute holds a bubble. -/
theorem loadUseStall : Obligations.LoadUseStall := by
  intro s fd i d held decoded de load noResult nonzero reads running u
  obtain ⟨r, t, c⟩ := cycle_completes_running running
  have unflushed : executeRedirect d = none := executeRedirect_eq_none (by rw [load]; nofun) (by rw [load]; nofun)
  have redirect : r.execute.redirect = none := by rw [c.run.execute_redirect, de]; exact unflushed
  have waits (e : Reg) (reads : e = d.rdMem) (m : Option MemoryWriteback) :
      (operand s r.execute.out m e).isLoadUse = true := by
    subst reads
    rw [operand_execute nonzero (w := executeOut d) (by rw [c.run.execute_out, de]; rfl) (.inr rfl), if_neg]
    · rfl
    · exact fun alu => nonzero (alu.symm.trans noResult)
  have stall : r.decode.loadUse = true := by
    rw [c.run.decode_instr held decoded]
    exact Bool.or_eq_true_iff.mpr (reads.imp (waits _ · _) (waits _ · _))
  have branch : cycleCase s.pcf.drain r = .loadUse := by rw [cycleCase_no_redirect redirect, if_pos stall]
  obtain ⟨pcf', fd', de'⟩ := c.front running branch rfl
  refine ⟨pcf', fd', de', by rw [c.em running, de]; rfl, ?_, ?_, ?_, ?_, fun running' => ?next⟩
  · rw [c.loadUse, branch]; rfl
  · rw [c.fetchStall, branch]; rfl
  · rw [c.controlHazard, redirect]; rfl
  · rw [c.dataHazard, branch]; rfl
  case next =>
    exact cycle_serves_load (fd'.trans held) decoded de' (by rw [c.em running, de]; rfl) noResult nonzero running'

end Sys2Proof.Machine
end

section
/-! SUPPORT. Writeback (R330, R331): what the stages before it leave alone, what a dispatched call does to the registers
and the host's side, and that a call has the pipeline to itself; and the account of the cycles spent (R342). -/

namespace Sys2Proof.Machine

/-! ## The stages before Writeback (R301, R302) -/

/-- What Fetch, Decode, Execute and Memory leave alone: all that Writeback reads but the four stores. -/
structure BeforeWriteback (s u : State) : Prop where
  cfg : u.cfg = s.cfg
  x : u.x = s.x
  mw : u.mw = s.mw
  status : u.status = s.status
  trace : u.trace = s.trace
  input : u.input = s.input
  inputsRead : u.inputsRead = s.inputsRead

theorem BeforeWriteback.trans {s u v : State} (h : BeforeWriteback s u) (g : BeforeWriteback u v) :
    BeforeWriteback s v :=
  ⟨g.cfg.trans h.cfg, g.x.trans h.x, g.mw.trans h.mw, g.status.trans h.status, g.trace.trans h.trace,
    g.input.trans h.input, g.inputsRead.trans h.inputsRead⟩

/-- The registers are as they were. -/
theorem BeforeWriteback.reg {s u : State} (h : BeforeWriteback s u) (r : Reg) : u.reg r = s.reg r :=
  State.reg_congr h.x r

theorem OnlyHierarchy.beforeWriteback {s u : State} (only : OnlyHierarchy s u) : BeforeWriteback s u :=
  ⟨only.cfg, only.x, only.mw, only.status, only.trace, only.input, only.inputsRead⟩

theorem resolveBranch_beforeWriteback (d : DecodeExecute) (s : State) : BeforeWriteback s (resolveBranch d s) :=
  ⟨by simp, by simp, by simp, by simp, by simp, by simp, by simp⟩

theorem executeStage_beforeWriteback {s u : State} {e : ExecuteResult} (execute : executeStage s = .ok e u) :
    BeforeWriteback s u := by
  rcases executeStage_ok execute with ⟨_, rfl, _⟩ | ⟨d, _, rfl, _⟩
  · exact (OnlyHierarchy.refl u).beforeWriteback
  · exact resolveBranch_beforeWriteback d s

theorem runStages_writeback {s t : State} {r : StageResults} (stages : runStages s = .ok r t) :
    ∃ u, BeforeWriteback s u ∧ writebackStage u = .ok r.dispatched t := by
  obtain ⟨u₁, _, u₃, u₄, fetch, _, execute, memory, _, writeback⟩ := runStages_ok stages
  have fetched : BeforeWriteback s u₁ := ((fetchStage_leaves s).of_ok fetch).beforeWriteback
  have accessed : BeforeWriteback u₃ u₄ := ((memoryStage_leaves u₃).of_ok memory).beforeWriteback
  exact ⟨u₄, (fetched.trans (executeStage_beforeWriteback execute)).trans accessed, writeback⟩

/-! ## A dispatched call (R291 to R297) -/

/-- What a call that is served leaves alone: the registers but for call 92, the inputs but for call 92, and the run
status but for call 93. -/
structure DispatchKeeps (s v : State) : Prop where
  regs : ∀ r, r ≠ s.cfg.sysRetReg ∨ s.reg s.cfg.sysNumReg ≠ 92 → v.reg r = s.reg r
  input : s.reg s.cfg.sysNumReg ≠ 92 → v.input = s.input ∧ v.inputsRead = s.inputsRead
  status : s.reg s.cfg.sysNumReg ≠ 93 → v.status = s.status

theorem dispatchSyscall_keeps {s v : State} (call : dispatchSyscall s = .ok () v) : DispatchKeeps s v := by
  rcases dispatchSyscall_cases s with ⟨e, call', _⟩ | ⟨_, _, u, read, call'⟩ | ⟨_, _, _, _, call'⟩ | ⟨number, call'⟩ |
    ⟨number, call'⟩ | ⟨_, call'⟩ <;> rw [call] at call' <;> cases call'
  · exact ⟨fun _ _ => rfl, fun _ => ⟨rfl, rfl⟩, fun _ => rfl⟩
  · have only := (readString_leaves _ _ s).of_ok read
    exact ⟨fun r _ => only.reg r, fun _ => ⟨only.input, only.inputsRead⟩, fun _ => only.status⟩
  · refine ⟨fun r other => ?_, fun not92 => absurd number not92, fun _ => by simp⟩
    exact State.reg_setReg_other _ _ (other.resolve_right (not_not_intro number))
  · exact ⟨fun _ _ => rfl, fun _ => ⟨rfl, rfl⟩, fun not93 => absurd number not93⟩

/-- So does a call that is served after the other stages of a cycle. -/
theorem DispatchKeeps.after {s u v : State} (keeps : DispatchKeeps u v) (before : BeforeWriteback s u) :
    DispatchKeeps s v := by
  have number : u.reg u.cfg.sysNumReg = s.reg s.cfg.sysNumReg := by rw [before.cfg, before.reg]
  refine ⟨fun r other => ?_, fun not92 => ?_, fun not93 => ?_⟩
  · rw [keeps.regs r (by rwa [number, before.cfg]), before.reg]
  · obtain ⟨input, inputsRead⟩ := keeps.input (by rwa [number])
    exact ⟨input.trans before.input, inputsRead.trans before.inputsRead⟩
  · rw [keeps.status (by rwa [number]), before.status]

/-! ## The commit leaves alone what Writeback has done (R335) -/

@[simp] theorem commit_trace (r : StageResults) (t : State) : (commit r t).trace = t.trace := by
  unfold commit; split <;> rfl
@[simp] theorem commit_input (r : StageResults) (t : State) : (commit r t).input = t.input := by
  unfold commit; split <;> rfl
@[simp] theorem commit_inputsRead (r : StageResults) (t : State) : (commit r t).inputsRead = t.inputsRead := by
  unfold commit; split <;> rfl

section
variable {s t : State} {r : StageResults} (c : CycleCompletes s r t)
include c

theorem CycleCompletes.x : (cycle s).x = t.x := by rw [c.commits, commit_x]; rfl
theorem CycleCompletes.status : (cycle s).status = t.status := by rw [c.commits, commit_status]; rfl
theorem CycleCompletes.trace : (cycle s).trace = t.trace := by rw [c.commits, commit_trace]; rfl
theorem CycleCompletes.input : (cycle s).input = t.input := by rw [c.commits, commit_input]; rfl
theorem CycleCompletes.inputsRead : (cycle s).inputsRead = t.inputsRead := by rw [c.commits, commit_inputsRead]; rfl
theorem CycleCompletes.chain : (cycle s).chain = t.chain := by rw [c.commits, commit_chain]; rfl
theorem CycleCompletes.memTime : (cycle s).memTime = t.memTime := by rw [c.commits, commit_memTime]; rfl
theorem CycleCompletes.cfg : (cycle s).cfg = s.cfg := by rw [c.commits, commit_cfg]; exact c.run.cfg

/-- Writeback runs last, on a state that the other stages have left as it was but for the stores. -/
theorem CycleCompletes.writeback :
    ∃ u, BeforeWriteback s u ∧ writebackStage u = .ok r.dispatched t := by
  obtain ⟨u, before, writeback⟩ := runStages_writeback c.stages
  exact ⟨u, (OnlyHierarchy.setMemTime s 0).beforeWriteback.trans before, writeback⟩

/-- An ECALL in Writeback is dispatched. -/
theorem CycleCompletes.dispatch {w : MemoryWriteback} (mw : s.mw = some w) (ecall : w.op = .ecall) :
    ∃ u v, BeforeWriteback s u ∧ dispatchSyscall u = .ok () v ∧ t = v.countSyscall := by
  obtain ⟨u, before, writeback⟩ := c.writeback
  have holds : u.mw = some w := before.mw.trans mw
  rcases writebackStage_ok writeback with ⟨mw', _⟩ | ⟨w', mw', notEcall, _⟩ | ⟨_, v, _, _, _, call, eq⟩
  · rw [holds] at mw'; cases mw'
  · rw [holds] at mw'; cases mw'; exact absurd ecall notEcall
  · exact ⟨u, v, before, call, eq⟩

/-- Anything else in Writeback leaves the host and the run status alone. -/
theorem CycleCompletes.undispatched (none : ∀ w, s.mw = some w → w.op ≠ .ecall) :
    (cycle s).trace = s.trace ∧ (cycle s).input = s.input ∧ (cycle s).inputsRead = s.inputsRead ∧
      (cycle s).status = s.status := by
  obtain ⟨u, before, writeback⟩ := c.writeback
  rw [c.trace, c.input, c.inputsRead, c.status]
  rcases writebackStage_ok writeback with ⟨_, _, rfl⟩ | ⟨w, _, _, _, rfl⟩ | ⟨w, _, mw, ecall, _⟩
  · exact ⟨before.trace, before.input, before.inputsRead, before.status⟩
  · exact ⟨by simpa using before.trace, by simpa using before.input, by simpa using before.inputsRead,
      by simpa using before.status⟩
  · exact absurd ecall (none w (before.mw.symm.trans mw))

end

/-! ## The shape of the pipeline (R336) -/

/-- An ECALL in Writeback has the pipeline to itself (R336 c). -/
theorem PipelineShape.alone {s : State} {w : MemoryWriteback} (shape : PipelineShape s) (mw : s.mw = some w)
    (ecall : w.op = .ecall) : s.pcf.drain = true ∧ s.fd = none ∧ s.de = none ∧ s.em = none := by
  cases shape with
  | draining k drain fd position =>
    cases position with
    | inExecute _ _ _ _ none => exact absurd ecall (none w mw)
    | inMemory _ _ _ _ none => exact absurd ecall (none w mw)
    | inWriteback _ de em _ _ => exact ⟨drain, fd, de, em⟩
  | flowing _ _ _ _ none => exact absurd ecall (none w mw)

/-- The pipeline with nothing draining and no ECALL past Decode. -/
structure Flowing (s : State) : Prop where
  drain : s.pcf.drain = false
  full : s.de ≠ none → s.fd ≠ none
  de : ∀ d, s.de = some d → d.op ≠ .ecall
  em : ∀ e, s.em = some e → e.op ≠ .ecall
  mw : ∀ w, s.mw = some w → w.op ≠ .ecall

section
variable {s t : State} {r : StageResults} (c : CycleCompletes s r t) (running : (cycle s).status = .running)
include c running

/-- The instruction in Memory is the one that was in Execute. -/
theorem CycleCompletes.em_op (none : ∀ d, s.de = some d → d.op ≠ .ecall) :
    ∀ e, (cycle s).em = some e → e.op ≠ .ecall := by
  intro e em
  rw [c.em running, Option.map_eq_some_iff] at em
  obtain ⟨d, de, rfl⟩ := em
  exact none d de

/-- The instruction in Writeback is the one that was in Memory. -/
theorem CycleCompletes.mw_op (none : ∀ e, s.em = some e → e.op ≠ .ecall) :
    ∀ w, (cycle s).mw = some w → w.op ≠ .ecall := by
  intro w mw
  obtain ⟨v, memory⟩ := c.run.memory_out
  rw [c.mw running, memory, Option.map_eq_some_iff] at mw
  obtain ⟨e, em, rfl⟩ := mw
  exact none e em

end

/-! ## The account of the cycles (R342) -/

theorem occupied_map {α β : Type} (f : α → β) (o : Option α) : occupied (o.map f) = occupied o := by
  cases o <;> rfl

section
variable {s t : State} {r : StageResults} (c : CycleCompletes s r t)
include c

/-- What Decode puts out is occupied where FD is. -/
theorem CycleCompletes.occupied_decode : occupied r.decode.out = occupied s.fd := by
  cases fd : s.fd with
  | none => rw [c.run.decode_bubble fd]; rfl
  | some f =>
    obtain ⟨i, _, decode⟩ := c.run.decode_word fd
    rw [decode]; rfl

/-- An instruction that is no ECALL retires. -/
theorem CycleCompletes.retired_of_none (none : ∀ w, s.mw = some w → w.op ≠ .ecall) :
    (cycle s).counters.retired = s.counters.retired + occupied s.mw ∧
      (cycle s).counters.syscall = s.counters.syscall := by
  rw [c.retired, c.syscall]
  cases mw : s.mw with
  | none => exact ⟨rfl, rfl⟩
  | some w => simp [none w mw, occupied]

variable (running : (cycle s).status = .running)
include running

theorem CycleCompletes.occupied_em : occupied (cycle s).em = occupied s.de := by
  rw [c.em running, occupied_map]

theorem CycleCompletes.occupied_mw : occupied (cycle s).mw = occupied s.em := by
  obtain ⟨v, memory⟩ := c.run.memory_out
  rw [c.mw running, memory, occupied_map]

/-- What the cycles were spent on, after a cycle with no ECALL in Writeback. -/
theorem CycleCompletes.accounted (none : ∀ w, s.mw = some w → w.op ≠ .ecall) :
    (cycle s).cyclesAccounted =
      s.counters.retired + occupied s.mw + (cycle s).counters.loadUse + 2 * (cycle s).counters.controlHazard +
        5 * s.counters.syscall + (occupied (cycle s).fd + occupied (cycle s).de + occupied s.de + occupied s.em) +
        (cycle s).drained := by
  obtain ⟨retired, syscall⟩ := c.retired_of_none none
  rw [State.cyclesAccounted, State.inFlight, retired, syscall, c.occupied_em running, c.occupied_mw running]

end

theorem State.drained_flowing {s : State} (drain : s.pcf.drain = false) : s.drained = 0 := by
  rw [drained, drain, if_neg Bool.false_ne_true]

theorem State.drained_draining {s : State} (drain : s.pcf.drain = true) :
    s.drained = if s.de.isSome then 1 else if s.em.isSome then 2 else 3 := by
  rw [drained, drain, if_pos rfl]

section
variable {s t : State} {r : StageResults} (c : CycleCompletes s r t)
include c

/-- Decode says of what it puts out whether it is an ECALL (R316). -/
theorem CycleCompletes.decode_op : ∀ d, r.decode.out = some d → r.decode.ecall = decide (d.op = .ecall) := by
  intro d out
  cases fd : s.fd with
  | none => rw [c.run.decode_bubble fd] at out; cases out
  | some f =>
    obtain ⟨i, _, decode⟩ := c.run.decode_word fd
    rw [decode] at out ⊢
    obtain rfl := Option.some.inj out
    rfl

theorem CycleCompletes.out_of_ecall (ecall : r.decode.ecall = true) :
    ∃ d, r.decode.out = some d ∧ d.op = .ecall := by
  cases out : r.decode.out with
  | none =>
    have empty := c.occupied_decode
    rw [out] at empty
    cases fd : s.fd with
    | none => rw [c.run.decode_bubble fd] at ecall; cases ecall
    | some f => rw [fd] at empty; cases empty
  | some d => exact ⟨d, rfl, of_decide_eq_true ((c.decode_op d out).symm.trans ecall)⟩

/-- Fetch puts out a word unless it is held (R305). -/
theorem CycleCompletes.fetch_out (drain : s.pcf.drain = false) : ∃ f, r.fetch.out = some f := by
  rcases c.run.fetch with ⟨drains, _⟩ | ⟨_, raw, fetch⟩
  · change s.pcf.drain = true at drains
    rw [drain] at drains
    cases drains
  · exact ⟨_, by rw [fetch]⟩

end

/-! ## A cycle in which nothing drains -/

section
variable {s t : State} {r : StageResults} (c : CycleCompletes s r t) (flowing : Flowing s)
  (cycles : s.counters.cycles = s.cyclesAccounted) (running : (cycle s).status = .running)
include c flowing cycles running

/-- The count of a cycle in which nothing drains, by what it leaves in FD and DE. -/
theorem Flowing.cycles_iff :
    (cycle s).counters.cycles = (cycle s).cyclesAccounted ↔
      occupied s.fd + 1 + (s.counters.loadUse + 2 * s.counters.controlHazard) =
        occupied (cycle s).fd + occupied (cycle s).de + (cycle s).drained +
          ((cycle s).counters.loadUse + 2 * (cycle s).counters.controlHazard) := by
  have accounted := c.accounted running flowing.mw
  have ticked := c.cycles
  rw [State.cyclesAccounted, State.drained_flowing flowing.drain, State.inFlight] at cycles
  omega

/-- A flush replaces two instructions by bubbles. -/
theorem Flowing.account_flush {target : Word} (redirect : r.execute.redirect = some target) :
    CycleAccount (cycle s) := by
  obtain ⟨pcf', fd', de'⟩ := c.front running (cycleCase_redirect redirect s.pcf.drain) rfl
  have drain : (cycle s).pcf.drain = false := by rw [pcf']
  refine ⟨.flowing drain (absurd de') (by rw [de']; exact fun _ h => nomatch h) (c.em_op running flowing.de)
    (c.mw_op running flowing.em), (flowing.cycles_iff c cycles running).mpr ?_⟩
  have full : occupied s.fd = 1 := by
    rw [c.run.execute_redirect, Option.bind_eq_some_iff] at redirect
    obtain ⟨d, de, _⟩ := redirect
    obtain ⟨f, fd⟩ := Option.ne_none_iff_exists'.mp (flowing.full (by rw [de]; exact Option.some_ne_none d))
    rw [fd]; rfl
  rw [full, fd', de', c.loadUse, cycleCase_redirect redirect, c.controlHazard, redirect, State.drained_flowing drain]
  simp [occupied]
  omega

/-- A load-use stall puts in one bubble. -/
theorem Flowing.account_loadUse (redirect : r.execute.redirect = none) (waits : r.decode.loadUse = true) :
    CycleAccount (cycle s) := by
  have branch : cycleCase s.pcf.drain r = .loadUse := by rw [cycleCase_no_redirect redirect, if_pos waits]
  obtain ⟨pcf', fd', de'⟩ := c.front running branch rfl
  have drain : (cycle s).pcf.drain = false := by rw [pcf', flowing.drain]
  refine ⟨.flowing drain (absurd de') (by rw [de']; exact fun _ h => nomatch h) (c.em_op running flowing.de)
    (c.mw_op running flowing.em), (flowing.cycles_iff c cycles running).mpr ?_⟩
  rw [fd', de', c.loadUse, branch, c.controlHazard, redirect, State.drained_flowing drain]
  simp [occupied]
  omega

/-- An ECALL in Decode takes the place of the word that Fetch does not put out. -/
theorem Flowing.account_syscall (redirect : r.execute.redirect = none) (ready : r.decode.loadUse = false)
    (ecall : r.decode.ecall = true) : CycleAccount (cycle s) := by
  have branch : cycleCase s.pcf.drain r = .syscallDecoded := by
    rw [cycleCase_no_redirect redirect, ready, ecall]; rfl
  obtain ⟨pcf', fd', de'⟩ := c.front running branch rfl
  obtain ⟨d, out, op⟩ := c.out_of_ecall ecall
  have drain : (cycle s).pcf.drain = true := by rw [pcf']
  have de : (cycle s).de = some d := de'.trans out
  refine ⟨.draining 0 drain fd' (.inExecute d de op (c.em_op running flowing.de) (c.mw_op running flowing.em)),
    (flowing.cycles_iff c cycles running).mpr ?_⟩
  have full : occupied s.fd = 1 := by rw [← c.occupied_decode, out]; rfl
  rw [full, fd', de, c.loadUse, branch, c.controlHazard, redirect, State.drained_draining drain, de]
  simp [occupied]

/-- Else the pipeline moves on by one instruction. -/
theorem Flowing.account_normal (redirect : r.execute.redirect = none) (ready : r.decode.loadUse = false)
    (ecall : r.decode.ecall = false) : CycleAccount (cycle s) := by
  have branch : cycleCase s.pcf.drain r = .normal := by
    rw [cycleCase_no_redirect redirect, ready, ecall, flowing.drain]; rfl
  obtain ⟨pcf', fd', de'⟩ := c.front running branch rfl
  obtain ⟨f, fetched⟩ := c.fetch_out flowing.drain
  have drain : (cycle s).pcf.drain = false := by rw [pcf']
  have fd : (cycle s).fd = some f := fd'.trans fetched
  refine ⟨.flowing drain (fun _ => by rw [fd]; exact Option.some_ne_none f) (fun d out => ?_)
    (c.em_op running flowing.de) (c.mw_op running flowing.em), (flowing.cycles_iff c cycles running).mpr ?_⟩
  · exact of_decide_eq_false ((c.decode_op d (de'.symm.trans out)).symm.trans ecall)
  · rw [fd, de', c.occupied_decode, c.loadUse, branch, c.controlHazard, redirect, State.drained_flowing drain]
    simp [occupied]
    omega

end

/-- A cycle in which nothing drains keeps the account, in each case of R334 that is left. -/
theorem Flowing.account {s : State} (flowing : Flowing s) (cycles : s.counters.cycles = s.cyclesAccounted)
    (running : (cycle s).status = .running) : CycleAccount (cycle s) := by
  obtain ⟨r, t, c⟩ := cycle_completes_running running
  cases redirect : r.execute.redirect with
  | some target => exact flowing.account_flush c cycles running redirect
  | none =>
    cases waits : r.decode.loadUse with
    | true => exact flowing.account_loadUse c cycles running redirect waits
    | false =>
      cases ecall : r.decode.ecall with
      | true => exact flowing.account_syscall c cycles running redirect waits ecall
      | false => exact flowing.account_normal c cycles running redirect waits ecall

/-! ## A cycle that drains -/

section
variable {s t : State} {r : StageResults} (c : CycleCompletes s r t) (drain : s.pcf.drain = true) (fd : s.fd = none)
include c drain fd

/-- No flush comes from an ECALL in Execute or from a bubble, so a draining cycle is nothing else. -/
theorem CycleCompletes.case_draining (unflushed : ∀ d, s.de = some d → executeRedirect d = none) :
    cycleCase s.pcf.drain r = .draining := by
  rw [cycleCase_no_redirect (c.run.no_redirect unflushed), c.run.decode_bubble fd, drain]; rfl

end

theorem executeRedirect_ecall {d : DecodeExecute} (ecall : d.op = .ecall) : executeRedirect d = none :=
  executeRedirect_eq_none (by rw [ecall]; decide) (by rw [ecall]; decide)

theorem DrainPosition.unflushed {s : State} {k : Nat} (position : DrainPosition s k) :
    ∀ d, s.de = some d → executeRedirect d = none := by
  intro d de
  cases position with
  | inExecute d' de' op =>
    rw [de] at de'
    cases de'
    exact executeRedirect_ecall op
  | inMemory _ bubble => exact nomatch bubble.symm.trans de
  | inWriteback _ bubble => exact nomatch bubble.symm.trans de

section
variable {s t : State} {r : StageResults} (c : CycleCompletes s r t)
include c

theorem CycleCompletes.dispatched_of_none (none : ∀ w, s.mw = some w → w.op ≠ .ecall) : r.dispatched = false := by
  rw [c.run.dispatched]
  cases mw : s.mw with
  | none => rfl
  | some w => simp [none w mw]

/-- An ECALL in Writeback is dispatched and counted, and does not retire (R331). -/
theorem CycleCompletes.counts_of_ecall {w : MemoryWriteback} (mw : s.mw = some w) (ecall : w.op = .ecall) :
    r.dispatched = true ∧ (cycle s).counters.retired = s.counters.retired ∧
      (cycle s).counters.syscall = s.counters.syscall + 1 := by
  rw [c.run.dispatched, c.retired, c.syscall, mw]
  simp [ecall]

end

section
variable {s t : State} {r : StageResults} (c : CycleCompletes s r t) (drain : s.pcf.drain = true) (fd : s.fd = none)
  (cycles : s.counters.cycles = s.cyclesAccounted)
include c drain fd cycles

/-- What a draining cycle leaves in Fetch, FD and DE, and the count of one with no ECALL in Writeback. -/
theorem CycleCompletes.draining (running : (cycle s).status = .running)
    (unflushed : ∀ d, s.de = some d → executeRedirect d = none) (none : ∀ w, s.mw = some w → w.op ≠ .ecall) :
    (cycle s).pcf.drain = true ∧ (cycle s).fd = .none ∧ (cycle s).de = .none ∧
      ((cycle s).drained = s.drained + 1 → (cycle s).counters.cycles = (cycle s).cyclesAccounted) := by
  have branch := c.case_draining drain fd unflushed
  obtain ⟨pcf', fd', _⟩ := c.front running branch rfl
  have de' := c.de_of_bubble running fd
  refine ⟨by rw [pcf', c.dispatched_of_none none]; rfl, fd', de', fun drained => ?_⟩
  have accounted := c.accounted running none
  have ticked := c.cycles
  have loadUse := c.loadUse
  have controlHazard := c.controlHazard
  rw [branch, if_neg (by decide)] at loadUse
  rw [c.run.no_redirect unflushed, Option.isSome_none, if_neg Bool.false_ne_true] at controlHazard
  rw [State.cyclesAccounted, State.inFlight, fd] at cycles
  rw [fd', de'] at accounted
  simp only [occupied, Option.isSome_none, Bool.false_eq_true, if_false] at accounted cycles
  omega

/-- The count of the cycle in which the ECALL in flight is dispatched, which nothing accompanies. -/
theorem CycleCompletes.cycles_of_ecall {w : MemoryWriteback} (mw : s.mw = some w) (ecall : w.op = .ecall)
    (de : s.de = none) (em : s.em = none) :
    (cycle s).counters.cycles = (cycle s).counters.retired + (cycle s).counters.loadUse +
      2 * (cycle s).counters.controlHazard + 5 * (cycle s).counters.syscall := by
  have unflushed : ∀ d, s.de = some d → executeRedirect d = .none := fun d holds => nomatch de.symm.trans holds
  obtain ⟨_, retired, syscall⟩ := c.counts_of_ecall mw ecall
  have ticked := c.cycles
  have loadUse := c.loadUse
  have controlHazard := c.controlHazard
  rw [c.case_draining drain fd unflushed, if_neg (by decide)] at loadUse
  rw [c.run.no_redirect unflushed, Option.isSome_none, if_neg Bool.false_ne_true] at controlHazard
  rw [State.cyclesAccounted, State.inFlight, State.drained_draining drain, fd, de, em, mw] at cycles
  simp only [occupied, Option.isSome_none, Option.isSome_some, Bool.false_eq_true, if_false, if_true] at cycles
  omega

end

/-- A cycle in which an ECALL drains: it moves on by one stage, behind it nothing but bubbles, until it is
dispatched. -/
theorem DrainPosition.account {s : State} {k : Nat} (position : DrainPosition s k) (drain : s.pcf.drain = true)
    (fd : s.fd = none) (cycles : s.counters.cycles = s.cyclesAccounted) (running : (cycle s).status = .running) :
    CycleAccount (cycle s) := by
  obtain ⟨r, t, c⟩ := cycle_completes_running running
  have unflushed := position.unflushed
  cases position with
  | inExecute d de op em mw =>
    obtain ⟨drain', fd', de', count⟩ := c.draining drain fd cycles running unflushed mw
    have em' : (cycle s).em = some (executeOut d) := by rw [c.em running, de]; rfl
    refine ⟨.draining 1 drain' fd' (.inMemory _ de' em' op (c.mw_op running em)), count ?_⟩
    rw [State.drained_draining drain', State.drained_draining drain, de', em', de]; rfl
  | inMemory e de em op mw =>
    obtain ⟨drain', fd', de', count⟩ := c.draining drain fd cycles running unflushed mw
    have em' : (cycle s).em = none := by rw [c.em running, de]; rfl
    obtain ⟨v, memory⟩ := c.run.memory_out
    have mw' : (cycle s).mw = some (memoryOut e v) := by rw [c.mw running, memory, em]; rfl
    refine ⟨.draining 2 drain' fd' (.inWriteback _ de' em' mw' op), count ?_⟩
    rw [State.drained_draining drain', State.drained_draining drain, de', em', de, em]; rfl
  | inWriteback w de em mw op =>
    have total := c.cycles_of_ecall drain fd cycles mw op de em
    obtain ⟨dispatched, _⟩ := c.counts_of_ecall mw op
    obtain ⟨pcf', fd', _⟩ := c.front running (c.case_draining drain fd unflushed) rfl
    have drain' : (cycle s).pcf.drain = false := by rw [pcf', dispatched]; rfl
    have de' := c.de_of_bubble running fd
    have em' : (cycle s).em = none := by rw [c.em running, de]; rfl
    obtain ⟨v, memory⟩ := c.run.memory_out
    have mw' : (cycle s).mw = none := by rw [c.mw running, memory, em]; rfl
    refine ⟨.flowing drain' (absurd de') (by rw [de']; exact fun _ h => nomatch h)
      (by rw [em']; exact fun _ h => nomatch h) (by rw [mw']; exact fun _ h => nomatch h), ?_⟩
    rw [State.cyclesAccounted, State.inFlight, State.drained_flowing drain', fd', de', em', mw']
    exact total

/-! ## Runs from reset -/

theorem CycleAccount.cycle {s : State} (account : CycleAccount s) (running : (cycle s).status = .running) :
    CycleAccount (cycle s) := by
  obtain ⟨shape, cycles⟩ := account
  cases shape with
  | draining k drain fd position => exact position.account drain fd cycles running
  | flowing drain full de em mw => exact Flowing.account ⟨drain, full, de, em, mw⟩ cycles running

/-- Only a call in Writeback halts the machine, and it has the pipeline to itself. -/
theorem CycleAccount.halts {s : State} {v : Word} (account : CycleAccount s) (before : s.status = .running)
    (halted : (Machine.cycle s).status = .halted v) :
    (Machine.cycle s).counters.cycles =
      (Machine.cycle s).counters.retired + (Machine.cycle s).counters.loadUse +
        2 * (Machine.cycle s).counters.controlHazard + 5 * (Machine.cycle s).counters.syscall := by
  obtain ⟨r, t, c⟩ := cycle_completes (s := s) fun reason fatal => by rw [halted] at fatal; cases fatal
  by_cases call : ∃ w, s.mw = some w ∧ w.op = .ecall
  · obtain ⟨w, mw, ecall⟩ := call
    obtain ⟨drain, fd, de, em⟩ := account.shape.alone mw ecall
    exact c.cycles_of_ecall drain fd account.cycles mw ecall de em
  · push Not at call
    have kept := (c.undispatched call).2.2.2
    rw [halted, before] at kept
    cases kept

/-- What holds of every state of a run from reset at level CYCLE: the account, and once halted its total (R342). -/
structure AccountedRun (s : State) : Prop where
  level : s.cfg.level = .cycle
  running : s.status = .running → CycleAccount s
  halted : ∀ v, s.status = .halted v → s.counters.cycles =
    s.counters.retired + s.counters.loadUse + 2 * s.counters.controlHazard + 5 * s.counters.syscall

theorem resetWith_accounted {cfg : Config} (level : cfg.level = .cycle) (boot : BootParams) :
    AccountedRun (State.resetWith cfg boot) where
  level := level
  running _ := ⟨.flowing rfl (absurd rfl) (fun _ h => nomatch h) (fun _ h => nomatch h) (fun _ h => nomatch h), rfl⟩
  halted _ h := nomatch h

theorem cycle_cfg (s : State) : (cycle s).cfg = s.cfg := by
  rcases cycle_cases s with ⟨e, t, run, eq⟩ | ⟨r, t, _, run, eq⟩ <;> rw [eq]
  · exact (runStages_fatal run).cfg
  · exact (commit_cfg _ _).trans run.cfg

theorem AccountedRun.step {s t : State} (h : AccountedRun s) (next : Machine.step s = .next t) : AccountedRun t := by
  obtain rfl := step_cycle_eq h.level next
  have running : s.status = .running := (step_next next).1
  have account := h.running running
  exact ⟨(congrArg Config.level (cycle_cfg s)).trans h.level, account.cycle, fun _ => account.halts running⟩

theorem Reaches.accounted {s t : State} (reaches : Reaches s t) (h : AccountedRun s) : AccountedRun t := by
  induction reaches with
  | refl => exact h
  | step _ next ih => exact ih.step next

/-- Settles O57: every cycle after which the machine runs on keeps the account, the cycle of an exit call closes it, and
a run from reset is made of such cycles. -/
theorem cycleAccounting : Obligations.CycleAccounting :=
  ⟨fun _ account running => account.cycle running, fun _ _ account running halted => account.halts running halted,
    fun _ boot _ v level reaches halted => (reaches.accounted (resetWith_accounted level boot)).halted v halted⟩

end Sys2Proof.Machine
end

section
/-! SUPPORT. What a cycle asks of the storage hierarchy (R79, R340) and what it gets from it: the requests of each stage
and the time of the longest, that what is read is View (R73), and the string of call 91 (R294). -/

namespace Sys2Proof.Machine

/-! ## Requests in sequence (R79, R340) -/

/-- L1 serves the requests in order, and leaves the hierarchy and mem_time of `u`. -/
def Serves (s : State) (qs : List Request) (u : State) : Prop :=
  ∃ time, Served s.cfg qs s.chain time u.chain ∧ u.memTime = max s.memTime time

theorem Serves.nothing {s u : State} (chain : u.chain = s.chain) (memTime : u.memTime = s.memTime) : Serves s [] u :=
  ⟨0, by rw [chain]; exact .done _, by rw [memTime, Nat.max_zero]⟩

theorem Served.chain_of_nil {cfg : Config} {ch ch' : Chain} {time : Nat} (h : Served cfg [] ch time ch') :
    ch' = ch := by
  cases h; rfl

theorem Served.append {cfg : Config} {qs qs' : List Request} {ch ch' ch'' : Chain} {time time' : Nat}
    (h : Served cfg qs ch time ch') (h' : Served cfg qs' ch' time' ch'') :
    Served cfg (qs ++ qs') ch (max time time') ch'' := by
  induction h with
  | done => rwa [List.nil_append, Nat.zero_max]
  | request first _ ih =>
    rw [List.cons_append, Nat.max_assoc]
    exact .request first (ih h')

theorem Serves.trans {s u v : State} {qs qs' : List Request} (h : Serves s qs u) (cfg : u.cfg = s.cfg)
    (h' : Serves u qs' v) : Serves s (qs ++ qs') v := by
  obtain ⟨time, served, memTime⟩ := h
  obtain ⟨time', served', memTime'⟩ := h'
  rw [cfg] at served'
  exact ⟨_, served.append served', by rw [memTime', memTime, Nat.max_assoc]⟩

/-! ## Accesses that answer (R67 to R72) -/

theorem Reply.map_eq_ok {σ α β : Type} {f : α → β} {r : Reply σ α} {b : β} {t : σ} (h : r.map f = .ok b t) :
    ∃ a, r = .ok a t ∧ f a = b := by
  cases r with
  | ok a u =>
    obtain ⟨rfl, rfl⟩ := Reply.ok.inj h
    exact ⟨a, rfl, rfl⟩
  | fatal => cases h

/-- An access that answers is one request to L1, at the address of the port, inside its block. -/
theorem accessAt_ok {va : Word} {n : Nat} {q : Nat → Request} {s u : State} {a : Answer}
    (access : accessAt va n q s = .ok a u) :
    ∃ pa ch, translate s.cfg va = some pa ∧ pa % 64 + n ≤ 64 ∧ l1Request s.cfg (q pa) s.chain = .ok a ch ∧
      u = { s.withChain ch with memTime := max s.memTime a.time } := by
  cases translated : translate s.cfg va with
  | none => rw [accessAt_unmapped translated] at access; cases access
  | some pa =>
    by_cases inBlock : pa % 64 + n ≤ 64
    · rw [accessAt_inBlock translated inBlock, l1Access] at access
      split at access
      next b ch answer =>
        obtain ⟨rfl, rfl⟩ := Reply.ok.inj access
        exact ⟨pa, ch, rfl, inBlock, answer, rfl⟩
      next => cases access
    · rw [accessAt_crossing translated (Nat.lt_of_not_le inBlock)] at access
      cases access

theorem accessAt_serves {va : Word} {n : Nat} {q : Nat → Request} {s u : State} {a : Answer}
    (access : accessAt va n q s = .ok a u) : Serves s ((translate s.cfg va).toList.map q) u := by
  obtain ⟨pa, ch, translated, _, answer, rfl⟩ := accessAt_ok access
  rw [translated]
  exact ⟨max a.time 0, .request answer (.done ch), by rw [Nat.max_zero]⟩

theorem memRead_serves {va : Word} {n : Nat} {s u : State} {v : Word} (read : memRead va n s = .ok v u) :
    Serves s ((translate s.cfg va).toList.map (Request.read · n)) u := by
  obtain ⟨_, access, _⟩ := Reply.map_eq_ok read
  exact accessAt_serves access

theorem memWrite_serves {va : Word} {n : Nat} {v : Word} {s u : State} (write : memWrite va n v s = .ok () u) :
    Serves s ((translate s.cfg va).toList.map (Request.write · (leBytes n v.toNat))) u := by
  obtain ⟨_, access, _⟩ := Reply.map_eq_ok write
  exact accessAt_serves access

/-! ## The requests of the stages (R305, R326) -/

theorem fetchStage_serves {s u : State} {f : FetchResult} (fetch : fetchStage s = .ok f u) :
    Serves s (fetchRequests s) u := by
  rcases fetchStage_ok fetch with ⟨drain, rfl, _⟩ | ⟨drain, raw, word, _⟩
  · rw [fetchRequests, drain, if_pos rfl]
    exact .nothing rfl rfl
  · rw [fetchRequests, drain, if_neg Bool.false_ne_true]
    obtain ⟨_, access, _⟩ := Reply.map_eq_ok word
    exact accessAt_serves access

theorem executeStage_serves {s u : State} {e : ExecuteResult} (execute : executeStage s = .ok e u) :
    Serves s [] u := by
  rcases executeStage_ok execute with ⟨_, rfl, _⟩ | ⟨d, _, rfl, _⟩
  · exact .nothing rfl rfl
  · exact .nothing (resolveBranch_chain d s) (resolveBranch_memTime d s)

theorem memoryStage_load {s u : State} {m : Option MemoryWriteback} {e : ExecuteMemory} {k : LoadKind}
    (memory : memoryStage s = .ok m u) (em : s.em = some e) (load : memAccess e.op = .load k) :
    ∃ v, memRead e.alu k.size s = .ok v u ∧ m = some (memoryOut e (k.extend v)) := by
  simp only [memoryStage, em, load] at memory
  obtain ⟨v, read, rfl⟩ := Reply.map_eq_ok memory
  exact ⟨v, read, rfl⟩

theorem memoryStage_store {s u : State} {m : Option MemoryWriteback} {e : ExecuteMemory} {n : Nat}
    (memory : memoryStage s = .ok m u) (em : s.em = some e) (store : memAccess e.op = .store n) :
    memWrite e.alu n e.v2 s = .ok () u := by
  simp only [memoryStage, em, store] at memory
  obtain ⟨_, write, _⟩ := Reply.map_eq_ok memory
  exact write

theorem memoryStage_passes {s u : State} {m : Option MemoryWriteback} {e : ExecuteMemory}
    (memory : memoryStage s = .ok m u) (em : s.em = some e) (none : memAccess e.op = .none) : u = s := by
  simp only [memoryStage, em, none] at memory
  exact (Reply.ok.inj memory).2.symm

theorem memoryStage_serves {s u : State} {m : Option MemoryWriteback} (memory : memoryStage s = .ok m u) :
    Serves s (memoryRequests s) u := by
  cases em : s.em with
  | none =>
    rw [memoryStage_idle em] at memory
    obtain ⟨_, rfl⟩ := Reply.ok.inj memory
    simpa [memoryRequests, em] using Serves.nothing rfl rfl
  | some e =>
    cases access : memAccess e.op with
    | load k =>
      obtain ⟨_, read, _⟩ := memoryStage_load memory em access
      simpa only [memoryRequests, em, access] using memRead_serves read
    | store n => simpa only [memoryRequests, em, access] using memWrite_serves (memoryStage_store memory em access)
    | none =>
      obtain rfl := memoryStage_passes memory em access
      simpa only [memoryRequests, em, access] using Serves.nothing rfl rfl

/-- Of what Writeback does, only call 91 makes requests. -/
theorem writebackStage_serves {s u : State} {b : Bool} (writeback : writebackStage s = .ok b u)
    (noString : ¬ dispatchesString s) : Serves s [] u := by
  rcases writebackStage_ok writeback with ⟨_, _, rfl⟩ | ⟨w, _, _, _, rfl⟩ | ⟨w, v, mw, ecall, _, call, rfl⟩
  · exact .nothing rfl rfl
  · exact .nothing (by simp [State.chain]) (by simp)
  · have not91 : s.reg s.cfg.sysNumReg ≠ 91 := fun number => noString ⟨⟨w, mw, ecall⟩, number⟩
    rcases dispatchSyscall_cases s with ⟨e, call', _⟩ | ⟨number, _⟩ | ⟨number, _⟩ | ⟨_, call'⟩ | ⟨_, call'⟩ |
      ⟨_, call'⟩
    · cases call.symm.trans call'; exact .nothing rfl rfl
    · exact absurd number not91
    · exact absurd number not91
    · cases call.symm.trans call'; exact .nothing (by simp [State.chain]) (by simp)
    · cases call.symm.trans call'; exact .nothing rfl rfl
    · cases call.symm.trans call'

/-! ## The requests of a cycle (R79) -/

theorem memoryRequests_congr {s u : State} (cfg : u.cfg = s.cfg) (em : u.em = s.em) :
    memoryRequests u = memoryRequests s := by
  simp only [memoryRequests, cfg, em]

theorem dispatchesString_congr {s u : State} (cfg : u.cfg = s.cfg) (x : u.x = s.x) (mw : u.mw = s.mw) :
    dispatchesString u ↔ dispatchesString s := by
  rw [dispatchesString, dispatchesString, mw, cfg, State.reg_congr x]

/-- Execute leaves alone what Memory and Writeback read. -/
theorem executeStage_em {s u : State} {e : ExecuteResult} (execute : executeStage s = .ok e u) : u.em = s.em := by
  rcases executeStage_ok execute with ⟨_, rfl, _⟩ | ⟨d, _, rfl, _⟩
  · rfl
  · exact resolveBranch_em d s

/-- Without a string to read, the stages make Fetch's request and then Memory's. -/
theorem runStages_serves {s t : State} {r : StageResults} (stages : runStages s = .ok r t)
    (noString : ¬ dispatchesString s) : Serves s (fetchRequests s ++ memoryRequests s) t := by
  obtain ⟨u₁, _, u₃, u₄, fetch, _, execute, memory, _, writeback⟩ := runStages_ok stages
  have fetched : OnlyHierarchy s u₁ := (fetchStage_leaves s).of_ok fetch
  have executed := fetched.beforeWriteback.trans (executeStage_beforeWriteback execute)
  have accessed := executed.trans ((memoryStage_leaves u₃).of_ok memory).beforeWriteback
  have request := memoryStage_serves memory
  rw [memoryRequests_congr executed.cfg ((executeStage_em execute).trans fetched.em)] at request
  have string := writebackStage_serves writeback
    (mt (dispatchesString_congr accessed.cfg accessed.x accessed.mw).mp noString)
  have first := (fetchStage_serves fetch).trans fetched.cfg (executeStage_serves execute)
  have both := ((first.trans executed.cfg request).trans accessed.cfg string)
  rwa [List.append_nil, List.append_nil] at both

/-- A call in Writeback behind which there is nothing is all that its cycle does. -/
theorem runStages_alone {s t : State} {r : StageResults} (stages : runStages s = .ok r t) {w : MemoryWriteback}
    (mw : s.mw = some w) (ecall : w.op = .ecall) (drain : s.pcf.drain = true) (de : s.de = none) (em : s.em = none) :
    ∃ v, dispatchSyscall s = .ok () v ∧ t = v.countSyscall := by
  obtain ⟨u₁, _, u₃, u₄, fetch, _, execute, memory, _, writeback⟩ := runStages_ok stages
  obtain rfl : u₁ = s := by
    rcases fetchStage_ok fetch with ⟨_, eq, _⟩ | ⟨flows, _⟩
    · exact eq
    · exact nomatch drain.symm.trans flows
  obtain rfl : u₃ = u₁ := by
    rcases executeStage_ok execute with ⟨_, eq, _⟩ | ⟨d, holds, _⟩
    · exact eq
    · exact nomatch de.symm.trans holds
  rw [memoryStage_idle em] at memory
  obtain ⟨_, rfl⟩ := Reply.ok.inj memory
  rcases writebackStage_ok writeback with ⟨none, _⟩ | ⟨w', holds, notEcall, _⟩ | ⟨_, v, _, _, _, call, eq⟩
  · exact nomatch mw.symm.trans none
  · obtain rfl := Option.some.inj (mw.symm.trans holds)
    exact absurd ecall notEcall
  · exact ⟨v, call, eq⟩

section
variable {s t : State} {r : StageResults} (c : CycleCompletes s r t)
include c

theorem CycleCompletes.served {qs : List Request} (serves : Serves { s with memTime := 0 } qs t) :
    Served s.cfg qs s.chain (cycle s).memTime (cycle s).chain := by
  obtain ⟨time, served, memTime⟩ := serves
  have longest : (cycle s).memTime = time := c.memTime.trans (memTime.trans (Nat.zero_max time))
  rw [c.chain, longest]
  exact served

theorem CycleCompletes.dispatch_alone {w : MemoryWriteback} (mw : s.mw = some w) (ecall : w.op = .ecall)
    (shape : PipelineShape s) :
    ∃ v, dispatchSyscall { s with memTime := 0 } = .ok () v ∧ t = v.countSyscall := by
  obtain ⟨drain, _, de, em⟩ := shape.alone mw ecall
  exact runStages_alone (s := { s with memTime := 0 }) c.stages mw ecall drain de em

end

/-! ## Reads and writes that answer (R70, R71, R73) -/

/-- A read that answers was of bytes that can be accessed. -/
theorem memRead_mapped_of_ok {s u : State} {va v : Word} {n pa : Nat} (hier : HierarchyInv s)
    (translated : translate s.cfg va = some pa) (read : memRead va n s = .ok v u) : Mapped s va n pa := by
  obtain ⟨_, access, _⟩ := Reply.map_eq_ok read
  obtain ⟨pa', _, translated', inBlock, _⟩ := accessAt_ok access
  obtain rfl := Option.some.inj (translated.symm.trans translated')
  refine ⟨translated, inBlock, by_contra fun outside => ?_⟩
  obtain ⟨_, fatal, _⟩ := memRead_fails hier (.outside pa translated inBlock outside)
  cases read.symm.trans fatal

/-- A write that answers has made View the low bytes of the value there. -/
theorem memWrite_view_of_ok {s u : State} {va v : Word} {n pa : Nat} (hier : HierarchyInv s)
    (translated : translate s.cfg va = some pa) (write : memWrite va n v s = .ok () u) :
    u.viewByte = writtenView s.viewByte pa (leBytes n v.toNat) := by
  obtain ⟨a, access, _⟩ := Reply.map_eq_ok write
  obtain ⟨pa', ch, translated', inBlock, answer, rfl⟩ := accessAt_ok access
  obtain rfl := Option.some.inj (translated.symm.trans translated')
  rw [← length_leBytes n v.toNat] at inBlock
  rcases (l1Request_coherent hier.legal).write hier.chain inBlock with ⟨_, a', ch', answer', _, _, view⟩ |
    ⟨_, _, _, fatal, _⟩
  · cases answer.symm.trans answer'
    exact view
  · cases answer.symm.trans fatal

/-! ## The string of call 91 (R294) -/

/-- The port maps the bytes that a read of the string reaches. -/
def StringTranslated (s : State) (va : Word) (pa : Nat → Nat) (cap : Nat) : Prop :=
  ∀ k, k < cap → (∀ j, j < k → s.viewByte (pa j) ≠ 0) → translate s.cfg (va + BitVec.ofNat 64 k) = some (pa k)

theorem add_one_add_ofNat (va : Word) (k : Nat) : va + 1 + BitVec.ofNat 64 k = va + BitVec.ofNat 64 (k + 1) := by
  rw [BitVec.add_assoc, Nat.add_comm, BitVec.ofNat_add]; rfl

theorem StringTranslated.head {s : State} {va : Word} {pa : Nat → Nat} {cap : Nat}
    (translated : StringTranslated s va pa (cap + 1)) : translate s.cfg va = some (pa 0) := by
  simpa using translated 0 (Nat.succ_pos cap) fun _ before => absurd before (Nat.not_lt_zero _)

theorem StringTranslated.tail {s t : State} {va : Word} {pa : Nat → Nat} {cap : Nat}
    (translated : StringTranslated s va pa (cap + 1)) (nonzero : s.viewByte (pa 0) ≠ 0) (cfg : t.cfg = s.cfg)
    (view : ∀ b, t.viewByte b = s.viewByte b) : StringTranslated t (va + 1) (fun k => pa (k + 1)) cap := by
  intro k inCap before
  rw [add_one_add_ofNat, cfg]
  refine translated (k + 1) (Nat.succ_lt_succ inCap) fun j lt => ?_
  cases j with
  | zero => exact nonzero
  | succ j => exact view (pa (j + 1)) ▸ before j (Nat.lt_of_succ_lt_succ lt)

/-- The string that a read reaches can be accessed byte by byte, if the read answers. -/
theorem readString_mapped_of_ok {s u : State} {va : Word} {pa : Nat → Nat} {cap : Nat} {r : List Byte × Bool}
    (hier : HierarchyInv s) (translated : StringTranslated s va pa cap) (read : readString cap va s = .ok r u) :
    StringMapped s va pa cap := by
  induction cap generalizing s va pa r with
  | zero => exact fun k inCap => absurd inCap (Nat.not_lt_zero k)
  | succ cap ih =>
    obtain ⟨v, u₁, byte, rest⟩ := Reply.bind_eq_ok read
    have head := memRead_mapped_of_ok hier translated.head byte
    obtain ⟨u', byte', view, inv⟩ := memRead_mapped_byte hier head
    cases byte.symm.trans byte'
    intro k inCap before
    cases k with
    | zero => simpa using head
    | succ k =>
      have nonzero := before 0 (Nat.succ_pos k)
      rw [if_neg (mt (setWidth_byte_eq_zero _).mp nonzero)] at rest
      obtain ⟨_, rest, _⟩ := Reply.map_eq_ok rest
      have cfg : u₁.cfg = s.cfg := ((memRead_leaves va 1 s).of_ok byte).cfg
      have mapped := ih inv (translated.tail nonzero cfg view) rest k (Nat.lt_of_succ_lt_succ inCap) fun j lt => by
        rw [view]
        exact before (j + 1) (Nat.succ_lt_succ lt)
      rw [add_one_add_ofNat] at mapped
      exact mapped.congr cfg.symm

/-- The string is read up to and with its first zero byte, or up to the cap: these are the `n` bytes. -/
structure StringEnds (s : State) (pa : Nat → Nat) (cap n : Nat) : Prop where
  bound : n ≤ cap
  nonzero : ∀ k, k + 1 < n → s.viewByte (pa k) ≠ 0
  ends : n = cap ∨ 0 < n ∧ s.viewByte (pa (n - 1)) = 0

/-- Reading a mapped string makes one request for each byte up to the end of the string. -/
theorem readString_serves {s : State} {va : Word} {pa : Nat → Nat} {cap n : Nat} (hier : HierarchyInv s)
    (mapped : StringMapped s va pa cap) (string : StringEnds s pa cap n) {u : State} {r : List Byte × Bool}
    (read : readString cap va s = .ok r u) : Serves s ((List.range n).map fun k => .read (pa k) 1) u := by
  induction cap generalizing s va pa n r with
  | zero =>
    obtain rfl : n = 0 := Nat.le_zero.mp string.bound
    obtain ⟨_, rfl⟩ := Reply.ok.inj read
    exact .nothing rfl rfl
  | succ cap ih =>
    obtain ⟨v, u₁, byte, rest⟩ := Reply.bind_eq_ok read
    obtain ⟨u', byte', view, inv⟩ := memRead_mapped_byte hier mapped.head
    cases byte.symm.trans byte'
    have cfg : u₁.cfg = s.cfg := ((memRead_leaves va 1 s).of_ok byte).cfg
    have first := memRead_serves byte
    rw [mapped.head.translated] at first
    obtain ⟨m, rfl⟩ : ∃ m, n = m + 1 :=
      Nat.exists_eq_succ_of_ne_zero (string.ends.elim (fun eq => by rw [eq]; exact Nat.succ_ne_zero cap)
        fun ⟨pos, _⟩ => pos.ne')
    rw [List.range_succ_eq_map, List.map_cons, List.map_map]
    by_cases zero : s.viewByte (pa 0) = 0
    · have last : m = 0 := by
        by_contra more
        exact string.nonzero 0 (Nat.succ_lt_succ (Nat.pos_of_ne_zero more)) zero
      subst last
      rw [if_pos ((setWidth_byte_eq_zero _).mpr zero)] at rest
      obtain ⟨_, rfl⟩ := Reply.ok.inj rest
      exact first
    · rw [if_neg (mt (setWidth_byte_eq_zero _).mp zero)] at rest
      obtain ⟨_, rest, _⟩ := Reply.map_eq_ok rest
      have tail : StringEnds u₁ (fun k => pa (k + 1)) cap m := by
        refine ⟨Nat.le_of_succ_le_succ string.bound, fun k lt => ?_, ?_⟩
        · rw [view]
          exact string.nonzero (k + 1) (Nat.succ_lt_succ lt)
        · refine string.ends.imp Nat.succ.inj fun ⟨_, ends⟩ => ?_
          cases m with
          | zero => exact absurd ends zero
          | succ m => exact ⟨Nat.succ_pos m, (view _).trans ends⟩
      exact first.trans cfg (ih inv (mapped.tail zero cfg view) tail rest)

/-! ## Call 91 in Writeback -/

theorem dispatchSyscall_string_ok {s v : State} (number : s.reg s.cfg.sysNumReg = 91)
    (call : dispatchSyscall s = .ok () v) :
    ∃ r u, readString s.cfg.strCap (s.reg s.cfg.sysArgReg) s = .ok r u ∧ v = emit (.printString r.1 r.2) u := by
  rw [dispatchSyscall_string number] at call
  obtain ⟨r, u, read, rest⟩ := Reply.bind_eq_ok call
  obtain ⟨_, rfl⟩ := Reply.ok.inj rest
  exact ⟨r, u, read, rfl⟩

/-- A string that ends after `n` bytes is translated as far as a read of it reaches, if those bytes are. -/
theorem StringEnds.translated {s : State} {va : Word} {pa : Nat → Nat} {cap n : Nat} (string : StringEnds s pa cap n)
    (translated : ∀ k, k < n → translate s.cfg (va + BitVec.ofNat 64 k) = some (pa k)) :
    StringTranslated s va pa cap := by
  refine fun k inCap before => translated k ?_
  rcases string.ends with eq | ⟨pos, zero⟩
  · rwa [eq]
  · by_contra beyond
    exact before (n - 1) (by omega) zero

section
variable {s t : State} {r : StageResults} (c : CycleCompletes s r t)
include c

/-- What the string's call asks of L1: the string's bytes, one by one, and nothing else (R294, R336 c). -/
theorem CycleCompletes.string_requests (dispatches : dispatchesString s) (shape : PipelineShape s)
    (hier : HierarchyInv s) {pa : Nat → Nat} {n : Nat} (string : StringEnds s pa s.cfg.strCap n)
    (translated : ∀ k, k < n → translate s.cfg (s.reg s.cfg.sysArgReg + BitVec.ofNat 64 k) = some (pa k)) :
    Served s.cfg ((List.range n).map fun k => .read (pa k) 1) s.chain (cycle s).memTime (cycle s).chain := by
  obtain ⟨⟨w, mw, ecall⟩, number⟩ := dispatches
  obtain ⟨v, call, rfl⟩ := c.dispatch_alone mw ecall shape
  obtain ⟨text, u, read, rfl⟩ := dispatchSyscall_string_ok (s := { s with memTime := 0 }) number call
  have hier₀ : HierarchyInv { s with memTime := 0 } := hier.congr rfl rfl
  have string₀ : StringEnds { s with memTime := 0 } pa s.cfg.strCap n := ⟨string.bound, string.nonzero, string.ends⟩
  have mapped := readString_mapped_of_ok hier₀ (string₀.translated translated) read
  have serves := readString_serves hier₀ mapped string₀ read
  exact c.served serves

/-- The event of the string's call: its bytes in View before the first zero (R294, R73). -/
theorem CycleCompletes.string_event (dispatches : dispatchesString s) (shape : PipelineShape s)
    (hier : HierarchyInv s) {pa : Nat → Nat}
    (translated : StringTranslated s (s.reg s.cfg.sysArgReg) pa s.cfg.strCap) :
    (cycle s).trace = s.trace ++ [.printString ((s.stringBytes pa s.cfg.strCap).takeWhile (· != 0))
      ((s.stringBytes pa s.cfg.strCap).all (· != 0))] := by
  obtain ⟨⟨w, mw, ecall⟩, number⟩ := dispatches
  obtain ⟨v, call, rfl⟩ := c.dispatch_alone mw ecall shape
  obtain ⟨text, u, read, rfl⟩ := dispatchSyscall_string_ok (s := { s with memTime := 0 }) number call
  have hier₀ : HierarchyInv { s with memTime := 0 } := hier.congr rfl rfl
  have mapped := readString_mapped_of_ok (s := { s with memTime := 0 }) hier₀ translated read
  obtain ⟨u', read', _⟩ := readString_mapped hier₀ mapped
  obtain ⟨rfl, rfl⟩ := Reply.ok.inj (read.symm.trans read')
  rw [c.trace]
  exact congrArg (· ++ _) ((readString_leaves _ _ _).of_ok read).trace

/-- The ticks of a cycle: the longest of 1, mem_time and the latency of the instruction in Execute (R340). -/
theorem CycleCompletes.ticks : (cycle s).counters.ticks = s.counters.ticks +
    max 1 (max (cycle s).memTime ((s.de.map fun d => latency s.cfg d.op).getD 0)) := by
  have de : t.de = s.de := c.run.de
  have cfg : t.cfg = s.cfg := c.run.cfg
  rw [c.counters, account_ticks c.run, cycleTicks, c.memTime, de, cfg]
  cases s.de <;> rfl

end

/-- The first latency listed for the mnemonic, 1 where none is (entry 16). -/
theorem latency_eq (cfg : Config) (op : Mnemonic) :
    latency cfg op = ((cfg.lat.find? fun p => p.1 = op).map (·.2)).getD 1 := by
  unfold latency
  cases cfg.lat.find? fun p => p.1 = op <;> rfl

/-! ## What Writeback leaves in the registers (R330) -/

theorem State.setReg_x_congr {s u : State} (x : u.x = s.x) (r : Reg) (v : Word) :
    (u.setReg r v).x = (s.setReg r v).x := by
  by_cases zero : r = 0
  · rwa [zero, State.setReg_zero, State.setReg_zero]
  · simp only [State.setReg, if_neg zero, x]

section
variable {s t : State} {r : StageResults} (c : CycleCompletes s r t)
include c

theorem CycleCompletes.x_of_bubble (bubble : s.mw = none) : (cycle s).x = s.x := by
  obtain ⟨u, before, writeback⟩ := c.writeback
  have mw : u.mw = none := before.mw.trans bubble
  rcases writebackStage_ok writeback with ⟨_, _, rfl⟩ | ⟨w, holds, _⟩ | ⟨w, _, holds, _⟩
  · exact c.x.trans before.x
  · exact nomatch mw.symm.trans holds
  · exact nomatch mw.symm.trans holds

theorem CycleCompletes.x_of_instr {w : MemoryWriteback} (mw : s.mw = some w) (notEcall : w.op ≠ .ecall) :
    (cycle s).x = ((s.setReg w.rdAlu w.alu).setReg w.rdMem w.mval).x := by
  obtain ⟨u, before, writeback⟩ := c.writeback
  have holds : u.mw = some w := before.mw.trans mw
  rcases writebackStage_ok writeback with ⟨none, _⟩ | ⟨w', holds', _, _, rfl⟩ | ⟨w', _, holds', ecall, _⟩
  · exact nomatch holds.symm.trans none
  · cases holds.symm.trans holds'
    have written : ((u.setReg w.rdAlu w.alu).setReg w.rdMem w.mval).x =
        ((s.setReg w.rdAlu w.alu).setReg w.rdMem w.mval).x :=
      State.setReg_x_congr (State.setReg_x_congr before.x _ _) _ _
    exact c.x.trans written
  · cases holds.symm.trans holds'
    exact absurd ecall notEcall

end

/-! ## The obligations -/

/-- Settles O52: an ECALL waits for no register, so it is decoded or draining by R334; a draining cycle with bubbles in
EM and MW makes no request. -/
theorem systemCallDrain : Obligations.SystemCallDrain := by
  intro s running unflushed stalled
  obtain ⟨r, t, c⟩ := cycle_completes_running running
  have redirect := c.run.no_redirect unflushed
  have stalls (one : (cycleCase s.pcf.drain r).fetchStalls = 1) (notLoadUse : cycleCase s.pcf.drain r ≠ .loadUse) :
      stalled := by
    refine ⟨c.em running, by rw [c.fetchStall, one], ?_, ?_, ?_⟩
    · rw [c.dataHazard, if_neg (fun normal => by rw [normal] at one; cases one), Nat.add_zero]
    · rw [c.loadUse, if_neg notLoadUse, Nat.add_zero]
    · rw [c.controlHazard, redirect]; rfl
  refine ⟨fun fd held ecall => ?decoded, fun bubble drain => ?draining⟩
  case decoded =>
    have decode := c.run.decode_instr held ecall
    have branch : cycleCase s.pcf.drain r = .syscallDecoded := by
      rw [cycleCase_no_redirect redirect, decode]; rfl
    obtain ⟨pcf', fd', de'⟩ := c.front running branch rfl
    exact ⟨pcf', fd', ⟨_, by rw [de', decode]; rfl, rfl, rfl⟩, stalls (by rw [branch]; rfl) (by rw [branch]; decide)⟩
  case draining =>
    have branch : cycleCase s.pcf.drain r = .draining := by
      rw [cycleCase_no_redirect redirect, c.run.decode_bubble bubble, drain]; rfl
    obtain ⟨pcf', fd', _⟩ := c.front running branch rfl
    refine ⟨?pcf, fd', c.de_of_bubble running bubble, fun em mw => ?idle,
      stalls (by rw [branch]; rfl) (by rw [branch]; decide)⟩
    case pcf => rw [pcf', c.run.dispatched]
    case idle =>
      have noString : ¬ dispatchesString s := fun ⟨⟨_, holds, _⟩, _⟩ => nomatch mw.symm.trans holds
      have served := c.served (runStages_serves c.stages noString)
      have fetches : fetchRequests { s with memTime := 0 } = [] := if_pos drain
      have accesses : memoryRequests { s with memTime := 0 } = [] := by simp [memoryRequests, em]
      rw [fetches, accesses] at served
      exact congrArg Prod.fst served.chain_of_nil

/-- Settles O53: Writeback runs last, on registers and a host's side that the stages before it leave alone. -/
theorem registerWritesOnlyInWriteback : Obligations.RegisterWritesOnlyInWriteback := by
  intro s notFatal u number arg noInput
  obtain ⟨r, t, c⟩ := cycle_completes notFatal
  refine ⟨fun bubble => ?bubble, fun w mw notEcall => ?instr, fun none => ?none, fun w mw ecall => ?call⟩
  case bubble =>
    have none : ∀ w, s.mw = some w → w.op ≠ .ecall := fun _ holds => nomatch bubble.symm.trans holds
    obtain ⟨retired, syscall⟩ := c.retired_of_none none
    exact ⟨c.x_of_bubble bubble, by rw [retired, bubble]; rfl, syscall⟩
  case instr =>
    have none : ∀ w, s.mw = some w → w.op ≠ .ecall := fun w' holds => by cases mw.symm.trans holds; exact notEcall
    obtain ⟨retired, syscall⟩ := c.retired_of_none none
    exact ⟨c.x_of_instr mw notEcall, by rw [retired, mw]; rfl, syscall⟩
  case none =>
    obtain ⟨trace, input, inputsRead, status⟩ := c.undispatched none
    exact ⟨trace, ⟨input, inputsRead⟩, status⟩
  case call =>
    obtain ⟨_, retired, syscall⟩ := c.counts_of_ecall mw ecall
    obtain ⟨p, v, before, call, rfl⟩ := c.dispatch mw ecall
    have sameNumber : p.reg p.cfg.sysNumReg = number := by rw [before.cfg, before.reg]
    have sameArg : p.reg p.cfg.sysArgReg = arg := by rw [before.cfg, before.reg]
    have reg (q : Reg) : u.reg q = v.reg q := State.reg_congr c.x q
    have keeps := (dispatchSyscall_keeps call).after before
    refine ⟨retired, syscall, fun q other => (reg q).trans (keeps.regs q other), fun not92 => ?input,
      fun not93 => c.status.trans (keeps.status not93), fun e listed => ?event,
      fun is91 shape hier pa translated => ?string, fun is92 => ?readInt, fun is93 => ?exit⟩
    case input =>
      obtain ⟨input, inputsRead⟩ := keeps.input not92
      exact ⟨c.input.trans input, c.inputsRead.trans inputsRead⟩
    case event =>
      obtain ⟨_, rfl⟩ := Reply.ok.inj (call.symm.trans (dispatchSyscall_hands listed sameNumber))
      refine c.trace.trans ?_
      rw [State.countSyscall_trace, emit_trace, before.trace, sameArg]
    case string => exact c.string_event ⟨⟨w, mw, ecall⟩, is91⟩ shape hier translated
    case readInt =>
      obtain ⟨_, rfl⟩ := Reply.ok.inj (call.symm.trans (dispatchSyscall_readInt (sameNumber.trans is92)))
      refine ⟨p.nextInput, fun x rest listed => ⟨?value, ?input⟩, fun unlisted => ⟨?free, ?noInput⟩, ?count,
        fun nonzero => ?register, ?trace⟩
      case value => exact State.nextInput_cons (before.input.trans listed)
      case input => exact c.input.trans (by simp [before.input, listed])
      case free => exact (State.nextInput_nil (before.input.trans unlisted)).trans (by rw [before.inputsRead])
      case noInput => exact c.input.trans (by simp [before.input, unlisted])
      case count => exact c.inputsRead.trans (by simp [before.inputsRead])
      case register => rw [reg, before.cfg, State.reg_setReg_same _ _ nonzero]
      case trace => exact c.trace.trans (by simp [before.trace])
    case exit =>
      obtain ⟨_, rfl⟩ := Reply.ok.inj (call.symm.trans (dispatchSyscall_exit (sameNumber.trans is93)))
      rw [sameArg] at c
      refine ⟨c.status, c.trace.trans ?_⟩
      rw [State.countSyscall_trace, halt_trace, emit_trace, before.trace]

end Sys2Proof.Machine

namespace Sys2Proof

/-- Settles O54: the counters are the account's, and what L1 serves is what the stages ask of it, in their order. -/
theorem cycleTicks : Obligations.CycleTicks := by
  intro s notFatal
  obtain ⟨r, t, c⟩ := Machine.cycle_completes notFatal
  refine ⟨c.cycles, fun d de => ?instr, fun bubble => ?bubble, fun noString => ?requests,
    fun string shape hier n pa bound translated nonzero ends => ?string⟩
  case instr => rw [c.ticks, de, Option.map_some, Option.getD_some, Machine.latency_eq]
  case bubble => rw [c.ticks, bubble, Option.map_none, Option.getD_none, Nat.max_zero]
  case requests => exact c.served (Machine.runStages_serves c.stages noString)
  case string => exact c.string_requests string shape hier ⟨bound, nonzero, ends⟩ translated

end Sys2Proof
end

section
/-! SUPPORT. Execute and Memory against level ISA (R12, R320, R326): each instruction's meaning is Execute's value and
branch condition, and Memory's accesses are to View. -/

namespace Sys2Proof.Machine

/-! ## An instruction's meaning, by what Execute computes (R320) -/

/-- The instruction completes with Execute's value in its destination, goes to `target`, and changes nothing else. -/
def ExecutesTo (i : Instr) (s : State) (target : Word) : Prop :=
  ∃ t, exec i s = .next t ∧
    ((operandsOf i).rd ≠ 0 → t.reg (operandsOf i).rd =
      aluValue i.mnemonic s.pc (s.reg (operandsOf i).rs1) (s.reg (operandsOf i).rs2) (operandsOf i).imm) ∧
    RegisterFrame s t (operandsOf i).rd ∧ t.pc = target

section
variable {i : Instr} {s : State} {value : Word}
  (alu : aluValue i.mnemonic s.pc (s.reg (operandsOf i).rs1) (s.reg (operandsOf i).rs2) (operandsOf i).imm = value)
include alu

theorem executesTo_writeResult (runs : exec i s = writeResult (operandsOf i).rd value s) :
    ExecutesTo i s (s.pc + 4) := by
  obtain ⟨t, completes, result, pc, frame⟩ := writeResult_completes (operandsOf i).rd value s
  exact ⟨t, runs.trans completes, fun written => (result written).trans alu.symm, frame, pc⟩

theorem executesTo_divideResult {marked : Bool} (runs : exec i s = divideResult marked (operandsOf i).rd value s)
    (goesOn : ¬ (s.cfg.divPolicy = .fatal ∧ marked = true)) : ExecutesTo i s (s.pc + 4) :=
  executesTo_writeResult alu (runs.trans (if_neg goesOn))

end

theorem executesTo_jumpLink {i : Instr} {s : State} {target : Word}
    (alu : aluValue i.mnemonic s.pc (s.reg (operandsOf i).rs1) (s.reg (operandsOf i).rs2) (operandsOf i).imm = s.pc + 4)
    (runs : exec i s = jumpLink (operandsOf i).rd target s) : ExecutesTo i s target := by
  obtain ⟨t, completes, link, pc, frame⟩ := jumpLink_completes (operandsOf i).rd target s
  exact ⟨t, runs.trans completes, fun written => (link written).trans alu.symm, frame, pc⟩

theorem executesTo_branchIf {i : Instr} {s : State} {taken : Bool} {imm : BitVec 13} (noResult : (operandsOf i).rd = 0)
    (runs : exec i s = branchIf taken imm s) :
    ExecutesTo i s (if taken then s.pc + immBranch imm else s.pc + 4) := by
  obtain ⟨t, completes, pc, frame⟩ := branchIf_completes taken imm s
  exact ⟨t, runs.trans completes, fun written => absurd noResult written, noResult ▸ frame, pc⟩

/-- Where the instruction in Execute sends the machine (R230 to R239). -/
def executeTarget (i : Instr) (s : State) : Word :=
  match opClass i.mnemonic with
  | .jump => s.pc + (operandsOf i).imm
  | .jumpReg => jalrTarget (s.reg (operandsOf i).rs1) (operandsOf i).imm
  | .branch =>
    if branchTaken i.mnemonic (s.reg (operandsOf i).rs1) (s.reg (operandsOf i).rs2) then s.pc + (operandsOf i).imm
    else s.pc + 4
  | .upper | .load | .store | .regImm | .regReg | .system => s.pc + 4

theorem exec_executesTo (i : Instr) (s : State) (plain : opClass i.mnemonic ∉ [OpClass.load, .store, .system])
    (goesOn : s.cfg.divPolicy = .fatal →
      divMarked i.mnemonic (s.reg (operandsOf i).rs1) (s.reg (operandsOf i).rs2) = false) :
    ExecutesTo i s (executeTarget i s) := by
  have unmarked : ¬ (s.cfg.divPolicy = .fatal ∧
      divMarked i.mnemonic (s.reg (operandsOf i).rs1) (s.reg (operandsOf i).rs2) = true) :=
    fun ⟨policy, marked⟩ => by rw [goesOn policy] at marked; cases marked
  cases i with
  | lb | lh | lw | ld | lbu | lhu | lwu | sb | sh | sw | sd | ecall =>
    simp [Instr.mnemonic, opClass] at plain
  | jal | jalr => exact executesTo_jumpLink rfl rfl
  | beq | bne | blt | bge | bltu | bgeu => exact executesTo_branchIf rfl rfl
  | div | divu | rem | remu | divw | divuw | remw | remuw => exact executesTo_divideResult rfl rfl unmarked
  | _ => exact executesTo_writeResult rfl rfl

/-- For a load or a store Execute computes the address (R250, R320). -/
theorem aluValue_address (op : Mnemonic) (pc a b imm : Word) (access : opClass op ∈ [OpClass.load, .store]) :
    aluValue op pc a b imm = a + imm := by
  cases op with
  | lb | lh | lw | ld | lbu | lhu | lwu | sb | sh | sw | sd => rfl
  | _ => exact absurd access (by decide)

/-! ## View through a cycle (R73) -/

/-- A read that answers leaves View as it was. -/
theorem accessAt_read_view_of_ok {s u : State} {va : Word} {n : Nat} {a : Answer} (hier : HierarchyInv s)
    (access : accessAt va n (Request.read · n) s = .ok a u) : ∀ b, u.viewByte b = s.viewByte b := by
  obtain ⟨pa, ch, _, inBlock, answer, rfl⟩ := accessAt_ok access
  rcases (l1Request_coherent hier.legal).read hier.chain inBlock with ⟨_, _, _, answer', _, _, view⟩ |
    ⟨_, _, _, fatal, _⟩
  · cases answer.symm.trans answer'
    exact congrFun view
  · cases answer.symm.trans fatal

theorem memRead_view_of_ok {s u : State} {va v : Word} {n : Nat} (hier : HierarchyInv s)
    (read : memRead va n s = .ok v u) : ∀ b, u.viewByte b = s.viewByte b := by
  obtain ⟨_, access, _⟩ := Reply.map_eq_ok read
  exact accessAt_read_view_of_ok hier access

theorem readString_view_of_ok {s u : State} {cap : Nat} {va : Word} {r : List Byte × Bool} (hier : HierarchyInv s)
    (read : readString cap va s = .ok r u) : ∀ b, u.viewByte b = s.viewByte b := by
  induction cap generalizing s va r with
  | zero =>
    obtain ⟨_, rfl⟩ := Reply.ok.inj read
    exact fun _ => rfl
  | succ cap ih =>
    obtain ⟨v, u₁, byte, rest⟩ := Reply.bind_eq_ok read
    have view := memRead_view_of_ok hier byte
    split at rest
    · obtain ⟨_, rfl⟩ := Reply.ok.inj rest
      exact view
    · obtain ⟨_, rest, _⟩ := Reply.map_eq_ok rest
      have inv : HierarchyInv u₁ := (memRead_keeps_hierarchy hier va 1).of_ok byte
      exact fun b => (ih inv rest b).trans (view b)

theorem fetchStage_view {s u : State} {f : FetchResult} (hier : HierarchyInv s) (fetch : fetchStage s = .ok f u) :
    ∀ b, u.viewByte b = s.viewByte b := by
  rcases fetchStage_ok fetch with ⟨_, rfl, _⟩ | ⟨_, _, word, _⟩
  · exact fun _ => rfl
  · obtain ⟨_, access, _⟩ := Reply.map_eq_ok word
    exact accessAt_read_view_of_ok hier access

theorem executeStage_view {s u : State} {e : ExecuteResult} (execute : executeStage s = .ok e u) :
    ∀ b, u.viewByte b = s.viewByte b := by
  rcases executeStage_ok execute with ⟨_, rfl, _⟩ | ⟨d, _, rfl, _⟩
  · exact fun _ => rfl
  · exact State.viewByte_congr (resolveBranch_cfg d s) (resolveBranch_chain d s)

theorem dispatchSyscall_view {s v : State} (hier : HierarchyInv s) (call : dispatchSyscall s = .ok () v) :
    ∀ b, v.viewByte b = s.viewByte b := by
  rcases dispatchSyscall_cases s with ⟨_, call', _⟩ | ⟨_, _, u, read, call'⟩ | ⟨_, _, _, _, call'⟩ | ⟨_, call'⟩ |
    ⟨_, call'⟩ | ⟨_, call'⟩ <;> rw [call] at call' <;> cases call'
  · exact fun _ => rfl
  · have view := readString_view_of_ok hier read
    exact view
  · exact State.viewByte_congr (by simp) (by simp [State.chain])
  · exact fun _ => rfl

theorem writebackStage_view {s u : State} {b : Bool} (hier : HierarchyInv s) (writeback : writebackStage s = .ok b u) :
    ∀ b, u.viewByte b = s.viewByte b := by
  rcases writebackStage_ok writeback with ⟨_, _, rfl⟩ | ⟨w, _, _, _, rfl⟩ | ⟨_, v, _, _, _, call, rfl⟩
  · exact fun _ => rfl
  · exact State.viewByte_congr (by simp) (by simp [State.chain])
  · have view := dispatchSyscall_view hier call
    exact view

/-- Memory runs on the instruction in EM and on View as they were before the cycle, and Writeback leaves View as Memory
does. -/
theorem CycleCompletes.memory_on_view {s t : State} {r : StageResults} (c : CycleCompletes s r t)
    (hier : HierarchyInv s) :
    ∃ u u', memoryStage u = .ok r.memory u' ∧ HierarchyInv u ∧ u.cfg = s.cfg ∧ u.em = s.em ∧
      (∀ b, u.viewByte b = s.viewByte b) ∧ ∀ b, (cycle s).viewByte b = u'.viewByte b := by
  have hier₀ : HierarchyInv { s with memTime := 0 } := hier.congr rfl rfl
  obtain ⟨u₁, _, u₃, u₄, fetch, _, execute, memory, _, writeback⟩ := runStages_ok c.stages
  have fetched : OnlyHierarchy _ u₁ := (fetchStage_leaves _).of_ok fetch
  have executed := executeStage_beforeWriteback execute
  have inv₁ := (fetchStage_keeps_hierarchy hier₀).of_ok fetch
  have inv₃ := (executeStage_keeps_hierarchy inv₁).of_ok execute
  have inv₄ := (memoryStage_keeps_hierarchy inv₃).of_ok memory
  refine ⟨u₃, u₄, memory, inv₃, executed.cfg.trans fetched.cfg, (executeStage_em execute).trans fetched.em,
    fun b => (executeStage_view execute b).trans (fetchStage_view hier₀ fetch b), fun b => ?_⟩
  have committed : (cycle s).viewByte b = t.viewByte b := State.viewByte_congr (c.cfg.trans c.run.cfg.symm) c.chain b
  exact committed.trans (writebackStage_view inv₄ writeback b)

/-! ## Memory's accesses (R326) -/

theorem opClass_of_memAccess_store {op : Mnemonic} {n : Nat} (store : memAccess op = .store n) :
    opClass op = .store := by
  cases op with
  | sb | sh | sw | sd => rfl
  | _ => cases store

/-- The extension of each load, on values of its width (R251 to R257). -/
theorem memAccess_load {op : Mnemonic} {n : Nat} {extend : Nat → Word}
    (load : (op, n, extend) ∈ ([(.lb, 1, fun v => (BitVec.ofNat 8 v).signExtend 64),
      (.lh, 2, fun v => (BitVec.ofNat 16 v).signExtend 64), (.lw, 4, fun v => (BitVec.ofNat 32 v).signExtend 64),
      (.ld, 8, BitVec.ofNat 64), (.lbu, 1, BitVec.ofNat 64), (.lhu, 2, BitVec.ofNat 64),
      (.lwu, 4, BitVec.ofNat 64)] : List (Mnemonic × Nat × (Nat → Word)))) :
    ∃ signed, memAccess op = .load ⟨n, signed⟩ ∧
      ∀ v, v < 256 ^ n → LoadKind.extend ⟨n, signed⟩ (BitVec.ofNat 64 v) = extend v := by
  simp only [List.mem_cons, Prod.mk.injEq, List.not_mem_nil, or_false] at load
  rcases load with ⟨rfl, rfl, rfl⟩ | ⟨rfl, rfl, rfl⟩ | ⟨rfl, rfl, rfl⟩ | ⟨rfl, rfl, rfl⟩ | ⟨rfl, rfl, rfl⟩ |
    ⟨rfl, rfl, rfl⟩ | ⟨rfl, rfl, rfl⟩
  case inr.inr.inr.inl =>
    refine ⟨true, rfl, fun v _ => (LoadKind.extend_signed (by decide) v).trans (BitVec.signExtend_eq _)⟩
  iterate 3 exact ⟨true, rfl, fun v _ => LoadKind.extend_signed (by decide) v⟩
  iterate 3 exact ⟨false, rfl, fun v small => LoadKind.extend_unsigned (by decide) small⟩

theorem memAccess_store {op : Mnemonic} {n : Nat}
    (store : (op, n) ∈ [(Mnemonic.sb, 1), (.sh, 2), (.sw, 4), (.sd, 8)]) : memAccess op = .store n := by
  simp only [List.mem_cons, Prod.mk.injEq, List.not_mem_nil, or_false] at store
  rcases store with ⟨rfl, rfl⟩ | ⟨rfl, rfl⟩ | ⟨rfl, rfl⟩ | ⟨rfl, rfl⟩
  all_goals rfl

theorem State.viewBytes_congr {s u : State} (view : ∀ b, u.viewByte b = s.viewByte b) (pa n : Nat) :
    u.viewBytes pa n = s.viewBytes pa n :=
  List.map_congr_left fun k _ => view (pa + k)

/-- A load that answers is the extension of the bytes of View there. -/
theorem memRead_value_of_ok {s u : State} {va v : Word} {n pa : Nat} (hier : HierarchyInv s)
    (translated : translate s.cfg va = some pa) (read : memRead va n s = .ok v u) :
    v = BitVec.ofNat 64 (ofLeBytes (s.viewBytes pa n)) := by
  obtain ⟨_, read', _⟩ := memRead_mapped hier (memRead_mapped_of_ok hier translated read)
  exact (Reply.ok.inj (read.symm.trans read')).1

/-- The target of a jump or a branch (R320). -/
theorem branchTarget_relative {d : DecodeExecute} (relative : opClass d.op ∈ [OpClass.jump, .branch]) :
    branchTarget d = d.pc + d.imm := by
  simp only [List.mem_cons, List.not_mem_nil, or_false] at relative
  rcases relative with jump | branch
  · simp only [branchTarget, jump]
  · simp only [branchTarget, branch]

theorem branchTarget_jumpReg {d : DecodeExecute} (jalr : opClass d.op = .jumpReg) :
    branchTarget d = jalrTarget d.v1 d.imm := by
  simp only [branchTarget, jalr]

section
variable {s u : State} {m : Option MemoryWriteback} {e : ExecuteMemory} (memory : memoryStage s = .ok m u)
  (em : s.em = some e) (hier : HierarchyInv s)
include memory em

/-- Memory hands on what EM says of its instruction, with the value loaded (R326). -/
theorem memoryStage_out : ∃ v, m = some (memoryOut e v) := by
  rcases memoryStage_ok memory with ⟨bubble, _⟩ | ⟨e', v, em', out⟩
  · exact nomatch em.symm.trans bubble
  · obtain rfl := Option.some.inj (em.symm.trans em')
    exact ⟨v, out⟩

include hier

/-- What is no store leaves View as it was. -/
theorem memoryStage_view (noStore : opClass e.op ≠ .store) : ∀ b, u.viewByte b = s.viewByte b := by
  cases access : memAccess e.op with
  | load k =>
    obtain ⟨_, read, _⟩ := memoryStage_load memory em access
    exact memRead_view_of_ok hier read
  | store n => exact absurd (opClass_of_memAccess_store access) noStore
  | none =>
    obtain rfl := memoryStage_passes memory em access
    exact fun _ => rfl

end

/-! ## The obligation -/

/-- Settles O56: each instruction completes with Execute's value and target; EM is what Execute makes of DE; and
Memory's read and write are of View as it was before the cycle. -/
theorem executeAgreesWithIsa : Obligations.ExecuteAgreesWithIsa := by
  refine ⟨fun i s => ⟨aluValue_address _ _ _ _ _, exec_executesTo i s⟩, fun s running => ?execute,
    fun s hier running => ?memory⟩
  case execute =>
    obtain ⟨r, t, c⟩ := cycle_completes_running running
    exact ⟨fun bubble => by rw [c.em running, bubble]; rfl, fun d de => ⟨executeOut d, by rw [c.em running, de]; rfl,
      rfl, rfl, rfl, rfl, rfl, rfl, rfl, rfl, fun _ => rfl, branchTarget_relative, branchTarget_jumpReg⟩⟩
  case memory =>
    obtain ⟨r, t, c⟩ := cycle_completes_running running
    obtain ⟨u, u', memory, inv, cfg, em, view, after⟩ := c.memory_on_view hier
    refine ⟨fun bubble => ?bubble, fun e holds => ?instr⟩
    case bubble =>
      rw [memoryStage_idle (em.trans bubble)] at memory
      obtain ⟨out, rfl⟩ := Reply.ok.inj memory
      exact ⟨(c.mw running).trans out.symm, fun b => (after b).trans (view b)⟩
    case instr =>
      have held : u.em = some e := em.trans holds
      refine ⟨?mw, fun n pa store translated a => ?store, fun noStore b => ?view⟩
      case mw =>
        obtain ⟨v, out⟩ := memoryStage_out memory held
        refine ⟨memoryOut e v, (c.mw running).trans out, rfl, rfl, rfl, rfl, rfl, rfl, rfl,
          fun n pa extend load translated => ?_⟩
        obtain ⟨signed, access, extends_eq⟩ := memAccess_load load
        obtain ⟨w, read, out'⟩ := memoryStage_load memory held access
        obtain rfl : v = LoadKind.extend ⟨n, signed⟩ w :=
          congrArg MemoryWriteback.mval (Option.some.inj (out.symm.trans out'))
        have small : ofLeBytes (s.viewBytes pa n) < 256 ^ n := by
          simpa [State.viewBytes] using ofLeBytes_lt (s.viewBytes pa n)
        have value := memRead_value_of_ok inv (by rwa [cfg]) read
        rw [State.viewBytes_congr view] at value
        rw [← extends_eq _ small, ← value]; rfl
      case store =>
        have write := memoryStage_store memory held (memAccess_store store)
        rw [after, memWrite_view_of_ok inv (by rwa [cfg]) write, writtenView_leBytes, view]
      case view => rw [after, memoryStage_view memory held inv noStore, view]

end Sys2Proof.Machine
end

section
/-! SUPPORT. Reset and configuration (70_reset_and_hazards.md): the registers, memory and tables that reset leaves, and
which cache records stop the machine before it starts. -/

namespace Sys2Proof.Machine

/-! ## Registers after reset (R411) -/

theorem resetWith_reg (cfg : Config) (boot : BootParams) {r : Reg} (nonzero : r ≠ 0) :
    (State.resetWith cfg boot).reg r = boot.initRegs[r.toNat]'r.isLt := by
  have index : 0 ≠ r.toNat := fun zero => nonzero (BitVec.eq_of_toNat_eq zero.symm)
  rw [State.reg, if_neg nonzero]
  exact Vector.getElem_set_ne (by decide) _ index

/-! ## The image in memory (R413) -/

/-- The last byte that an image places at `pa`, where it places one (log entry 21). -/
def imageByte (image : List MemCell) (pa : Nat) : Option Byte :=
  (image.reverse.find? fun cell => cell.1 == pa).map (·.2)

/-- A cell counts for its address unless a later one places a byte there. -/
theorem imageByte_cons (a : Nat) (b : Byte) (image : List MemCell) (pa : Nat) :
    imageByte ((a, b) :: image) pa = (imageByte image pa).or (if a = pa then some b else none) := by
  simp only [imageByte, List.reverse_cons, List.find?_append, Option.map_or, List.find?_singleton, beq_iff_eq]
  split <;> rfl

/-- Placing an image in a memory: below MEM_SIZE its last byte at an address counts; where it places none, and from
MEM_SIZE up, the memory is as before (log entry 3). -/
theorem get_placeImage (memSize : Nat) (image : List MemCell) (cells : List Host.Cell) (pa : Nat) :
    Sparse.get FlatMemory.background (placeImage memSize image cells) pa =
      if pa < memSize then (imageByte image pa).getD (Sparse.get FlatMemory.background cells pa)
      else Sparse.get FlatMemory.background cells pa := by
  induction image generalizing cells with
  | nil => exact (ite_self _).symm
  | cons cell image ih =>
    obtain ⟨a, b⟩ := cell
    rw [placeImage, ih, imageByte_cons]
    by_cases placed : a < memSize
    · rw [if_pos placed, Sparse.get_set]
      by_cases here : pa = a
      · subst here
        rw [if_pos placed, if_pos placed, if_pos rfl, if_pos rfl]
        cases imageByte image pa <;> rfl
      · rw [if_neg here, if_neg (Ne.symm here), Option.or_none]
    · rw [if_neg placed]
      by_cases inside : pa < memSize
      · rw [if_neg (show a ≠ pa by omega), Option.or_none]
      · rw [if_neg inside, if_neg inside]

/-- Placing an image keeps the canonical form. -/
theorem wf_placeImage (memSize : Nat) (image : List MemCell) (cells : List Host.Cell)
    (wf : Sparse.wf FlatMemory.background cells = true) :
    Sparse.wf FlatMemory.background (placeImage memSize image cells) = true := by
  induction image generalizing cells with
  | nil => exact wf
  | cons cell image ih =>
    refine ih _ ?_
    split
    · exact Sparse.wf_set _ _ _ _ wf
    · exact wf

/-! ## The invariants at reset -/

/-- An empty cache meets its invariant over any lower store. -/
theorem CacheInv.empty (cc : CacheConfig) (memSize recencyMax : Nat) (lowerView : Nat → Byte) :
    CacheInv cc memSize recencyMax lowerView Cache.empty where
  sorted := rfl
  indexBound _ listed := nomatch listed
  dataLength _ := List.length_replicate
  recencyBound _ := Nat.zero_le _
  newest _ filled := absurd rfl filled
  dirtyValid _ dirty := absurd dirty Bool.false_ne_true
  writeThroughClean _ _ := rfl
  unique _ _ valid := absurd valid Bool.false_ne_true
  inMemory _ valid := absurd valid Bool.false_ne_true
  cleanAgrees _ valid := absurd valid Bool.false_ne_true

/-- Empty tables meet the predictor's invariant. -/
theorem PredictorInv.initial (cfg : Config) : PredictorInv cfg Predictor.initial where
  ctr := rfl
  actr := rfl
  hist := rfl
  histBound _ := Nat.two_pow_pos _

theorem resetWith_hierarchy {cfg : Config} (legal : LegalCaches cfg) (boot : BootParams) :
    HierarchyInv (State.resetWith cfg boot) :=
  ⟨legal, .empty .., .empty .., .empty .., wf_placeImage _ _ _ rfl⟩

theorem resetWith_inv {cfg : Config} (legal : LegalCaches cfg) (boot : BootParams) :
    (State.resetWith cfg boot).Inv where
  zero := Vector.getElem_set_self _
  hierarchy := resetWith_hierarchy legal boot
  predictor := .initial cfg
  window := Nat.zero_le _

/-- At reset the pipeline is empty and nothing drains: no cycle is to be accounted for. -/
theorem resetWith_cycleAccount (cfg : Config) (boot : BootParams) : CycleAccount (State.resetWith cfg boot) where
  shape := .flowing rfl (absurd rfl) (fun _ held => nomatch held) (fun _ held => nomatch held)
    (fun _ held => nomatch held)
  cycles := rfl

theorem resetWith_decoded (cfg : Config) (boot : BootParams) : DecodedInv (State.resetWith cfg boot) :=
  ⟨(fun _ held => nomatch held), (fun _ held => nomatch held), (fun _ held => nomatch held)⟩

/-! ## Illegal cache records (R92, R387) -/

/-- What R387 calls an illegal record. -/
def IllegalRecord (cc : CacheConfig) : Prop :=
  cc.assoc = 0 ∨ cc.size = 0 ∨ cc.size % (cc.assoc * 64) ≠ 0 ∨
    (cc.size / 64) % (cc.size / (cc.assoc * 64)) ≠ 0 ∨ ∀ k, cc.size / (cc.assoc * 64) ≠ 2 ^ k

/-- A number is no power of two exactly when it is not the one its logarithm names. -/
theorem ne_two_pow_log2_iff (n : Nat) : n ≠ 2 ^ n.log2 ↔ ∀ k, n ≠ 2 ^ k := by
  refine ⟨fun differs k power => differs ?_, fun none => none _⟩
  rw [power, Nat.log2_two_pow]

theorem illegalRecord_iff (cc : CacheConfig) : IllegalRecord cc ↔ cc.legal = false := by
  simp only [IllegalRecord, ← ne_two_pow_log2_iff, CacheConfig.legal, Bool.and_eq_false_iff, decide_eq_false_iff_not,
    beq_eq_false_iff_ne, Nat.pos_iff_ne_zero, ne_eq, not_not, or_assoc]

/-- The record of one cache in a configuration (R36). -/
def cacheRecord (cfg : Config) : CacheLevel → CacheConfig
  | .l1 => cfg.l1
  | .l2 => cfg.l2
  | .llc => cfg.llc

theorem LegalCaches.record {cfg : Config} (legal : LegalCaches cfg) (level : CacheLevel) :
    ¬ IllegalRecord (cacheRecord cfg level) := by
  rw [illegalRecord_iff, Bool.not_eq_false]
  cases level with
  | l1 => exact legal.l1
  | l2 => exact legal.l2
  | llc => exact legal.llc

/-- Either an illegal cache is named with its record, or all three are legal. -/
theorem illegalCache_cases (cfg : Config) :
    (∃ level, illegalCache cfg = some (level, cacheRecord cfg level) ∧ IllegalRecord (cacheRecord cfg level)) ∨
      (illegalCache cfg = none ∧ LegalCaches cfg) := by
  simp only [illegalRecord_iff]
  unfold illegalCache
  split
  next l1 => exact .inl ⟨.l1, rfl, by simpa [cacheRecord] using l1⟩
  next l1 =>
    split
    next l2 => exact .inl ⟨.l2, rfl, by simpa [cacheRecord] using l2⟩
    next l2 =>
      split
      next llc => exact .inl ⟨.llc, rfl, by simpa [cacheRecord] using llc⟩
      next llc => exact .inr ⟨rfl, by simpa using l1, by simpa using l2, by simpa using llc⟩

/-! ## Configuration (R36, R410) -/

/-- The first directive for a cache, after accepted ones, is refused if its record is illegal. -/
theorem configure_illegal {cfg accepted : Config} {configured : List CacheLevel} {level : CacheLevel}
    {cc : CacheConfig} {before : List Directive} (after : List Directive) (illegal : cc.legal = false)
    (accepts : configure cfg configured before = .ok accepted) (fresh : level ∉ configured)
    (first : ∀ other, .cache level other ∉ before) :
    configure cfg configured (before ++ .cache level cc :: after) = .error (.badCacheConfig level cc) := by
  induction before generalizing cfg configured with
  | nil => rw [List.nil_append, configure, if_neg fresh, illegal, if_neg Bool.false_ne_true]
  | cons directive before ih =>
    have rest : ∀ other, .cache level other ∉ before := fun other mem => first other (List.mem_cons_of_mem _ mem)
    cases directive with
    | cache l record =>
      have differs : level ≠ l := fun same => first record (same ▸ List.mem_cons_self)
      rw [configure] at accepts
      rw [List.cons_append, configure]
      split at accepts
      · cases accepts
      next unconfigured =>
        split at accepts
        next legal =>
          rw [if_neg unconfigured, if_pos legal]
          exact ih accepts (List.not_mem_cons_of_ne_of_not_mem differs fresh) rest
        · cases accepts
    | latency => exact ih accepts fresh rest
    | opLatency => exact ih accepts fresh rest

section
variable {cfg accepted : Config} {directives : List Directive} (boot : BootParams)

theorem powerOn_refused {reason : FatalReason} (refused : configure cfg [] directives = .error reason) :
    powerOn cfg directives boot = raiseFatal reason (State.resetWith cfg boot) := by
  rw [powerOn, refused]

theorem powerOn_illegal {level : CacheLevel} {cc : CacheConfig} (accepts : configure cfg [] directives = .ok accepted)
    (illegal : illegalCache accepted = some (level, cc)) :
    powerOn cfg directives boot = raiseFatal (.badCacheConfig level cc) (State.resetWith accepted boot) := by
  simp only [powerOn, accepts, illegal]

theorem powerOn_legal (accepts : configure cfg [] directives = .ok accepted) (legal : illegalCache accepted = none) :
    powerOn cfg directives boot = State.resetWith accepted boot := by
  simp only [powerOn, accepts, legal]

end

/-- A machine that a fatal condition has stopped answers no next state (R380). -/
theorem step_raiseFatal_ne_next (reason : FatalReason) (s t : State) : step (raiseFatal reason s) ≠ .next t := by
  rw [step, raiseFatal_status]
  exact fun next => nomatch next

/-! ## The obligations -/

/-- Settles O7: slot 0 of the file is written with 0, the others are INIT_REGS. -/
theorem resetRegisters : Obligations.ResetRegisters := fun cfg boot =>
  ⟨State.reg_zero _, fun _ nonzero => resetWith_reg cfg boot nonzero, rfl, rfl⟩

/-- Settles O8: the image is placed in a memory of zeros, and behind empty caches View is MEM. -/
theorem resetMemory : Obligations.ResetMemory := fun cfg boot pa =>
  ⟨get_placeImage cfg.memSize boot.image [] pa, chainView_empty cfg _ pa⟩

/-- Settles O9: each field is what `State.reset` gives it, and an empty table reads its default. -/
theorem resetEverythingElse : Obligations.ResetEverythingElse :=
  ⟨fun _ _ _ _ _ => ⟨rfl, rfl, rfl, rfl, rfl, rfl, rfl, rfl, rfl, rfl, rfl, rfl, rfl, rfl, rfl, rfl⟩, rfl⟩

/-- Settles O10: the caches and tables are empty, the image is placed in canonical form, the pipeline holds bubbles. -/
theorem resetInvariants : Obligations.ResetInvariants := fun cfg boot legal =>
  ⟨resetWith_inv legal boot, resetWith_cycleAccount cfg boot, resetWith_decoded cfg boot⟩

/-- Settles O11: `configure` refuses the directive with the illegal record; of a configuration that it accepts, the
first illegal cache is named. -/
theorem illegalCacheConfiguration : Obligations.IllegalCacheConfiguration := by
  unfold Obligations.IllegalCacheConfiguration
  intro illegal record
  refine ⟨fun cfg accepted before after level cc boot accepts first bad => ?directive,
    fun cfg accepted directives boot accepts => ⟨fun ⟨level, bad⟩ => ?base, fun good => ?legal⟩⟩
  case directive =>
    have refused := configure_illegal after ((illegalRecord_iff cc).mp bad) accepts List.not_mem_nil first
    rw [powerOn_refused boot refused]
    exact ⟨rfl, step_raiseFatal_ne_next _ _⟩
  case base =>
    rcases illegalCache_cases accepted with ⟨named, found, named_bad⟩ | ⟨_, legal⟩
    · rw [powerOn_illegal boot accepts found]
      exact ⟨named, named_bad, rfl, step_raiseFatal_ne_next _ _⟩
    · exact absurd bad (legal.record level)
  case legal =>
    rcases illegalCache_cases accepted with ⟨named, _, named_bad⟩ | ⟨none, _⟩
    · exact absurd named_bad (good named)
    · exact powerOn_legal boot accepts none

end Sys2Proof.Machine
end

section
/-! SUPPORT. The branch predictor (51_branch_predictor.md): what an update leaves in each counter and history. -/

namespace Sys2Proof.Machine

/-! ## One counter (R362, R364) -/

theorem nextCounter_toNat (c : BitVec 2) (taken : Bool) :
    (nextCounter c taken).toNat = if taken then min (c.toNat + 1) 3 else c.toNat - 1 := by
  revert c taken; decide

theorem predictsTaken_iff (c : BitVec 2) : predictsTaken c = true ↔ c = 2 ∨ c = 3 := by
  revert c; decide

/-! ## The tables (R34, R365, R366) -/

/-- The counters of a bucket lie apart from those of any other. -/
theorem actrIndex_inj {cfg : Config} {b h b' h' : Nat} (small : h < 2 ^ cfg.histBits) (small' : h' < 2 ^ cfg.histBits) :
    actrIndex cfg b h = actrIndex cfg b' h' ↔ b = b' ∧ h = h' := by
  refine ⟨fun same => ?_, fun ⟨rfl, rfl⟩ => rfl⟩
  have positive := Nat.two_pow_pos cfg.histBits
  unfold actrIndex at same
  have bucket : b = b' := by
    have := congrArg (· / 2 ^ cfg.histBits) same
    simpa [Nat.add_comm, Nat.add_mul_div_right _ _ positive, Nat.div_eq_of_lt small, Nat.div_eq_of_lt small'] using this
  subst bucket
  exact ⟨rfl, Nat.add_left_cancel same⟩

theorem bne_toNat (x y : Bool) : (x != y).toNat = if x = y then 0 else 1 := by
  cases x <;> cases y <;> rfl

section
variable {cfg : Config} {p : Predictor} {a : Word} {taken : Bool}

theorem Predictor.update_bimodal (scheme : cfg.predScheme = .bimodal) :
    let b := bucket cfg a
    p.update cfg a taken =
      { p with ctr := Sparse.set cfg.predInit p.ctr b (nextCounter (p.ctrAt cfg b) taken) } := by
  simp only [Predictor.update, scheme]

theorem Predictor.update_adaptive (scheme : cfg.predScheme = .adaptive) :
    let b := bucket cfg a
    let c := p.actrAt cfg b (p.histAt b)
    p.update cfg a taken =
      { p with
        actr := Sparse.set cfg.predInit p.actr (actrIndex cfg b (p.histAt b)) (nextCounter c taken)
        hist := Sparse.set 0 p.hist b (nextHistory cfg (p.histAt b) (predictsTaken c != taken)) } := by
  simp only [Predictor.update, scheme]

end

/-! ## The obligation -/

/-- Settles O47: each scheme writes one counter, the adaptive one also one history, and reading another place is as
before. -/
theorem predictorUpdate : Obligations.PredictorUpdate := by
  refine ⟨fun c taken => ⟨nextCounter_toNat c taken, predictsTaken_iff c⟩,
    fun cfg p a taken inv => ⟨inv.update a taken, fun scheme => ?always, fun scheme => ?never, fun scheme => ?bimodal,
      fun scheme => ?adaptive⟩⟩
  case always | never => exact ⟨by simp only [predict, scheme], by simp only [Predictor.update, scheme]⟩
  case bimodal =>
    refine ⟨by simp only [predict, scheme]; rfl, fun j => ?counters, ?others⟩ <;>
      rw [Predictor.update_bimodal scheme]
    case counters => exact Sparse.get_set _ _ _ _ _
    case others => exact ⟨rfl, rfl⟩
  case adaptive =>
    have predicts : predict cfg p a =
        predictsTaken (p.actrAt cfg (bucket cfg a) (p.histAt (bucket cfg a))) := by
      simp only [predict, scheme]
    rw [Predictor.update_adaptive scheme, predicts]
    refine ⟨rfl, fun j h small => ?counters, fun j => ?histories, rfl⟩
    case counters =>
      refine (Sparse.get_set _ _ _ _ _).trans ?_
      simp only [actrIndex_inj small (inv.histBound _)]
      rfl
    case histories =>
      refine (Sparse.get_set _ _ _ _ _).trans ?_
      rw [nextHistory, bne_toNat]
      rfl

end Sys2Proof.Machine
end

section
/-! SUPPORT. Steps of level ISA that do not run an instruction (R382, R431), and what every step and every load keeps of
the configuration and of View (R410, R264). -/

namespace Sys2Proof.Machine

/-! ## A fetch that is fatal (R382) -/

theorem fetch32_fails {s : State} {va : Word} {reason : FatalReason} (hier : HierarchyInv s)
    (fails : ReadFails s va 4 reason) : ∃ u, fetch32 va s = .fatal reason u ∧ FetchFrame s u := by
  obtain ⟨u, fatal, frame⟩ := accessAt_read_fails hier fails
  exact ⟨u, by rw [fetch32, fatal, Reply.map_fatal], frame⟩

/-- Whether a read fails depends on the configuration alone. -/
theorem ReadFails.congr {s t : State} {va : Word} {n : Nat} {reason : FatalReason} (fails : ReadFails s va n reason)
    (cfg : t.cfg = s.cfg) : ReadFails t va n reason := by
  cases fails with
  | unmapped none => exact .unmapped (by rwa [cfg])
  | crossing pa translated crosses => exact .crossing pa (by rwa [cfg]) crosses
  | outside pa translated inBlock outside => exact .outside pa (by rwa [cfg]) inBlock (by rwa [cfg])

theorem FetchFrame.of_setMemTime {s u : State} {m : Nat} (frame : FetchFrame { s with memTime := m } u) :
    FetchFrame s u :=
  { frame with }

/-- Where the fetch of a step fails, the step ends the run for the same reason. -/
theorem step_fetch_fails {s : State} {reason : FatalReason} (running : s.status = .running)
    (isa : s.cfg.level = .isa) (fresh : s.staleFetch = false) (hier : HierarchyInv s)
    (fails : ReadFails s s.pc 4 reason) : ∃ t, step s = .next t ∧ FatalFrame s t reason := by
  obtain ⟨u, fatal, frame⟩ := fetch32_fails (s := { s with memTime := 0 }) (hier.congr rfl rfl) (fails.congr rfl)
  exact ⟨_, by rw [step_isa running isa fresh, fatal, settle_fatal], frame.of_setMemTime.fatalFrame reason⟩

/-! ## A fetch that is refused (R82, R431) -/

/-- A word that is fetched runs, and answers a next state whether it decodes or not. -/
theorem runWord_next (raw : Raw) (s : State) : ∃ t, runWord raw s = .next t := by
  cases decoded : decode raw with
  | ok i =>
    obtain ⟨t, runs, _⟩ := exec_next i s
    exact ⟨t, by rw [runWord_decoded decoded, runs]⟩
  | error e => exact ⟨_, runWord_unknown decoded s⟩

/-- Level ISA refuses a step exactly where the fetch is stale. -/
theorem step_refused_iff {s : State} (running : s.status = .running) (isa : s.cfg.level = .isa) :
    step s = .refused (.staleFetch s.pc) ↔ s.staleFetch = true := by
  cases stale : s.staleFetch with
  | true => exact ⟨fun _ => rfl, fun _ => by simp only [step, running, isa, stepIsa, stale, if_true]⟩
  | false =>
    refine ⟨fun refused => ?_, fun impossible => absurd impossible Bool.false_ne_true⟩
    rw [step_isa running isa stale] at refused
    cases fetch : fetch32 s.pc { s with memTime := 0 } with
    | ok raw u =>
      obtain ⟨t, runs⟩ := runWord_next raw u
      rw [fetch, settle_ok, runs] at refused
      cases refused
    | fatal e u =>
      rw [fetch, settle_fatal] at refused
      cases refused

/-- Two runs of bytes overlap exactly where some byte lies in both. -/
theorem overlap_iff (a n pa m : Nat) :
    max a pa < min (a + n) (pa + m) ↔ ∃ b, a ≤ b ∧ b < a + n ∧ pa ≤ b ∧ b < pa + m := by
  refine ⟨fun overlap => ⟨max a pa, ?_⟩, fun ⟨b, _⟩ => ?_⟩ <;> omega

/-- A fetch within one block is stale exactly where a recent store covers one of its bytes. -/
theorem staleFetch_iff {s : State} {pa : Nat} (translated : translate s.cfg s.pc = some pa) (inBlock : pa % 64 ≤ 60) :
    s.staleFetch = true ↔
      ∃ a n b, some (a, n) ∈ s.recentStores ∧ a ≤ b ∧ b < a + n ∧ pa ≤ b ∧ b < pa + 4 := by
  have plain : blockOffset pa + 4 ≤ 64 := by unfold blockOffset; omega
  simp only [State.staleFetch, translated, plain, decide_true, Bool.true_and, List.any_eq_true]
  constructor
  · rintro ⟨_ | ⟨a, n⟩, recent, covers⟩
    · cases covers
    · obtain ⟨b, inside⟩ := (overlap_iff a n pa 4).mp (of_decide_eq_true covers)
      exact ⟨a, n, b, recent, inside⟩
  · rintro ⟨a, n, b, recent, inside⟩
    exact ⟨_, recent, decide_eq_true ((overlap_iff a n pa 4).mpr ⟨b, inside⟩)⟩

/-! ## The obligations -/

/-- Settles O15: each condition is one of those a read fails for, of the four bytes at `pc`. -/
theorem fetchFatal : Obligations.FetchFatal := by
  intro s running isa fresh hier
  refine ⟨fun unmapped => ?unmapped, fun pa translated crosses => ?crossing,
    fun pa translated inBlock outside => ?outside⟩ <;> refine step_fetch_fails running isa fresh hier ?_
  case unmapped => exact .unmapped unmapped
  case crossing => exact .crossing pa translated (by omega)
  case outside => exact .outside pa translated (by omega) outside

/-- Settles O17: a step that is not refused as stale runs its word or is fatal, and so is not refused at all. -/
theorem staleFetchRefused : Obligations.StaleFetchRefused := fun _ _ running isa translated inBlock =>
  (step_refused_iff running isa).trans (staleFetch_iff translated inBlock)

/-- Settles O35: either machine loads the value of the bytes it shows, and goes on showing them. -/
theorem cacheNeverChangesALoad : Obligations.CacheNeverChangesALoad := by
  intro k rd va s t pa hier_s hier_t _ mapped_s mapped_t same written
  obtain ⟨s', load_s, value_s, _, _, view_s, _⟩ := loadWith_completes hier_s k rd mapped_s
  obtain ⟨t', load_t, value_t, _, _, view_t, _⟩ := loadWith_completes hier_t k rd mapped_t
  refine ⟨s', t', load_s, load_t, ?value, fun a => ?view⟩
  case value => rw [value_s written, value_t written, State.viewBytes_congr same]
  case view => rw [view_s, view_t, same]

/-- Settles O60: no instruction and no cycle touches it. -/
theorem configurationConstant : Obligations.ConfigurationConstant := by
  intro s t next
  cases level : s.cfg.level with
  | isa => exact (step_isa_frame level next).cfg
  | cycle => rw [step_cycle_eq level next, cycle_cfg]

end Sys2Proof.Machine
end

section
/-! SUPPORT. A cycle that meets a fatal condition (R380 to R386, R390): what it keeps, and which stage's condition it
reports. -/

namespace Sys2Proof.Machine

/-! ## What a fatal cycle keeps (R380) -/

/-- A cycle whose stages all answer leaves a running machine running or halted. -/
theorem CycleCompletes.notFatal {s t : State} {r : StageResults} (c : CycleCompletes s r t)
    (running : s.status = .running) (reason : FatalReason) : (cycle s).status ≠ .fatal reason := by
  by_cases ecall : ∃ w, s.mw = some w ∧ w.op = .ecall
  · obtain ⟨w, mw, op⟩ := ecall
    obtain ⟨u, v, before, call, rfl⟩ := c.dispatch mw op
    rw [c.status, State.countSyscall_status]
    by_cases exits : u.reg u.cfg.sysNumReg = 93
    · obtain ⟨_, rfl⟩ := Reply.ok.inj (call.symm.trans (dispatchSyscall_exit exits))
      exact fun fatal => nomatch fatal
    · rw [(dispatchSyscall_keeps call).status exits, before.status, running]
      exact fun fatal => nomatch fatal
  · obtain ⟨_, _, _, status⟩ := c.undispatched fun w mw op => ecall ⟨w, mw, op⟩
    rw [status, running]
    exact fun fatal => nomatch fatal

/-- A cycle of a running machine that ends fatal has met the condition in one of its stages. -/
theorem cycle_fatal_run {s : State} {reason : FatalReason} (running : s.status = .running)
    (fatal : (cycle s).status = .fatal reason) :
    ∃ t, FatalRun { s with memTime := 0 } t ∧ cycle s = raiseFatal reason t := by
  rcases cycle_cases s with ⟨e, t, stages, eq⟩ | ⟨r, t, stages, _, eq⟩
  · rw [eq, raiseFatal_status] at fatal
    cases fatal
    exact ⟨t, runStages_fatal stages, eq⟩
  · exact absurd fatal (CycleCompletes.notFatal ⟨stages, eq⟩ running reason)

/-! ## Replies that are fatal -/

/-- A reply that is fatal for a reason, whatever state it leaves. -/
def Reply.Fails {σ α : Type} (r : Reply σ α) (reason : FatalReason) : Prop := ∃ u, r = .fatal reason u

section
variable {σ α β : Type} {r : Reply σ α} {reason : FatalReason}

theorem Reply.Fails.map (fails : r.Fails reason) (f : α → β) : (r.map f).Fails reason := by
  obtain ⟨u, rfl⟩ := fails
  exact ⟨u, rfl⟩

/-- A sequence is fatal where its first part is. -/
theorem Reply.Fails.bind (fails : r.Fails reason) (k : α → σ → Reply σ β) : (r.bind k).Fails reason := by
  obtain ⟨u, rfl⟩ := fails
  exact ⟨u, rfl⟩

/-- A sequence is fatal where its first part answers and what follows is fatal. -/
theorem Reply.Fails.after {a : α} {s : σ} {k : α → σ → Reply σ β} (answer : r = .ok a s)
    (fails : (k a s).Fails reason) : (r.bind k).Fails reason := by
  rw [answer]
  exact fails

end

/-! ## Stages that meet no fatal condition (R382, R383, R385) -/

/-- Fetch meets none: it drains, or its word can be read. -/
def FetchClear (s : State) : Prop := s.pcf.drain = false → ∃ pa, Mapped s s.pcf.pc 4 pa

/-- Decode meets none: its word, where there is one, is an instruction. -/
def DecodeClear (s : State) : Prop := ∀ fd, s.fd = some fd → ∃ i, decode fd.raw = .ok i

/-- Execute meets none: under DIV_POLICY = fatal its instruction is no marked division. -/
def ExecuteClear (s : State) : Prop :=
  s.cfg.divPolicy = .fatal → ∀ d, s.de = some d → divMarked d.op d.v1 d.v2 = false

theorem FetchClear.congr {s t : State} (clear : FetchClear s) (cfg : t.cfg = s.cfg) (pcf : t.pcf = s.pcf) :
    FetchClear t := by
  rw [FetchClear, pcf]
  intro drain
  obtain ⟨pa, mapped⟩ := clear drain
  exact ⟨pa, mapped.congr cfg⟩

theorem DecodeClear.congr {s t : State} (clear : DecodeClear s) (fd : t.fd = s.fd) : DecodeClear t := by
  rwa [DecodeClear, fd]

theorem ExecuteClear.congr {s t : State} (clear : ExecuteClear s) (cfg : t.cfg = s.cfg) (de : t.de = s.de) :
    ExecuteClear t := by
  rwa [ExecuteClear, cfg, de]

theorem fetchStage_clear {s : State} (hier : HierarchyInv s) (clear : FetchClear s) :
    ∃ f u, fetchStage s = .ok f u := by
  cases drain : s.pcf.drain with
  | true => exact ⟨_, s, if_pos drain⟩
  | false =>
    obtain ⟨pa, mapped⟩ := clear drain
    obtain ⟨u, fetch, _⟩ := fetch32_mapped hier mapped
    exact ⟨_, u, by rw [fetchStage, drain, if_neg Bool.false_ne_true, fetch, Reply.map_ok]⟩

theorem decodeWord_bubble {s : State} (bubble : s.fd = none) : decodeWord s = .ok none s := by
  simp only [decodeWord, bubble]

theorem decodeWord_clear {s : State} (clear : DecodeClear s) : ∃ w, decodeWord s = .ok w s := by
  cases held : s.fd with
  | none => exact ⟨none, decodeWord_bubble held⟩
  | some fd =>
    obtain ⟨i, decoded⟩ := clear fd held
    exact ⟨some (fd, i), by simp only [decodeWord, held, decoded]⟩

theorem executeStage_bubble {s : State} (bubble : s.de = none) :
    executeStage s = .ok { out := none, redirect := none } s := by
  simp only [executeStage, bubble]

theorem executeStage_clear {s : State} (clear : ExecuteClear s) : ∃ e u, executeStage s = .ok e u := by
  cases de : s.de with
  | none => exact ⟨_, s, executeStage_bubble de⟩
  | some d =>
    have goesOn : ¬ (s.cfg.divPolicy = .fatal ∧ divMarked d.op d.v1 d.v2 = true) := fun ⟨policy, marked⟩ =>
      Bool.false_ne_true ((clear policy d de).symm.trans marked)
    exact ⟨_, resolveBranch d s, by simp only [executeStage, de, if_neg goesOn]; rfl⟩

/-! ## The condition of each stage (R382 to R386) -/

theorem fetchStage_fails {s : State} {reason : FatalReason} (hier : HierarchyInv s) (drain : s.pcf.drain = false)
    (fails : ReadFails s s.pcf.pc 4 reason) : (fetchStage s).Fails reason := by
  obtain ⟨u, fatal, _⟩ := fetch32_fails hier fails
  rw [fetchStage, drain, if_neg Bool.false_ne_true]
  exact Reply.Fails.map ⟨u, fatal⟩ _

theorem decodeWord_unknown {s : State} {fd : FetchDecode} {e : DecodeError} (held : s.fd = some fd)
    (unknown : decode fd.raw = .error e) : (decodeWord s).Fails (.unknownInstruction fd.raw fd.pc) :=
  ⟨s, by simp only [decodeWord, held, unknown]⟩

theorem executeStage_marked {s : State} {d : DecodeExecute} (de : s.de = some d) (policy : s.cfg.divPolicy = .fatal)
    (marked : divMarked d.op d.v1 d.v2 = true) : (executeStage s).Fails .divide :=
  ⟨s, by simp only [executeStage, de, policy, marked, and_self, if_true]⟩

/-- The mnemonics of the loads, with their widths (R251 to R257). -/
theorem memAccess_load_size {op : Mnemonic} {n : Nat}
    (load : (op, n) ∈ [(Mnemonic.lb, 1), (.lbu, 1), (.lh, 2), (.lhu, 2), (.lw, 4), (.lwu, 4), (.ld, 8)]) :
    ∃ signed, memAccess op = .load ⟨n, signed⟩ := by
  simp only [List.mem_cons, Prod.mk.injEq, List.not_mem_nil, or_false] at load
  rcases load with ⟨rfl, rfl⟩ | ⟨rfl, rfl⟩ | ⟨rfl, rfl⟩ | ⟨rfl, rfl⟩ | ⟨rfl, rfl⟩ | ⟨rfl, rfl⟩ | ⟨rfl, rfl⟩
  all_goals exact ⟨_, rfl⟩

/-- What the Memory stage's access raises (R384). -/
inductive AccessFails (s : State) (em : ExecuteMemory) (reason : FatalReason) : Prop where
  | load (k : LoadKind) (access : memAccess em.op = .load k) (fails : ReadFails s em.alu k.size reason)
  | store (n : Nat) (access : memAccess em.op = .store n) (fails : WriteFails s em.alu n reason)

/-- Whether a write fails depends on the configuration alone. -/
theorem WriteFails.congr {s t : State} {va : Word} {n : Nat} {reason : FatalReason} (fails : WriteFails s va n reason)
    (cfg : t.cfg = s.cfg) : WriteFails t va n reason := by
  cases fails with
  | unmapped none => exact .unmapped (by rwa [cfg])
  | crossing pa translated crosses => exact .crossing pa (by rwa [cfg]) crosses
  | blockOutside pa translated inBlock allocates outside =>
    exact .blockOutside pa (by rwa [cfg]) inBlock (by rwa [cfg]) (by rwa [cfg])
  | bytesOutside pa translated inBlock forwards outside =>
    exact .bytesOutside pa (by rwa [cfg]) inBlock (by rwa [cfg]) (by rwa [cfg])

theorem AccessFails.congr {s t : State} {em : ExecuteMemory} {reason : FatalReason} (fails : AccessFails s em reason)
    (cfg : t.cfg = s.cfg) : AccessFails t em reason := by
  cases fails with
  | load k access fails => exact .load k access (fails.congr cfg)
  | store n access fails => exact .store n access (fails.congr cfg)

theorem memoryStage_fails {s : State} {em : ExecuteMemory} {reason : FatalReason} (hier : HierarchyInv s)
    (held : s.em = some em) (fails : AccessFails s em reason) : (memoryStage s).Fails reason := by
  cases fails with
  | load k access fails =>
    obtain ⟨u, fatal, _⟩ := memRead_fails hier fails
    exact ⟨u, by simp only [memoryStage, held, access, fatal, Reply.map_fatal]⟩
  | store n access fails =>
    obtain ⟨u, fatal, _⟩ := memWrite_fails em.v2 hier fails
    exact ⟨u, by simp only [memoryStage, held, access, fatal, Reply.map_fatal]⟩

theorem writebackStage_fails {s : State} {w : MemoryWriteback} {reason : FatalReason} (mw : s.mw = some w)
    (ecall : w.op = .ecall) (call : (dispatchSyscall s).Fails reason) : (writebackStage s).Fails reason := by
  simp only [writebackStage, mw, ecall, if_true]
  exact call.bind _

/-- The string of call 91 ends the run where a byte that cannot be read comes before any zero and before the cap. -/
theorem readString_fails {s : State} {va : Word} {pa : Nat → Nat} {cap k : Nat} {reason : FatalReason}
    (hier : HierarchyInv s) (inCap : k < cap)
    (before : ∀ j, j < k → Mapped s (va + BitVec.ofNat 64 j) 1 (pa j) ∧ s.viewByte (pa j) ≠ 0)
    (fails : ReadFails s (va + BitVec.ofNat 64 k) 1 reason) : (readString cap va s).Fails reason := by
  induction cap generalizing s va pa k with
  | zero => exact absurd inCap (Nat.not_lt_zero k)
  | succ cap ih =>
    cases k with
    | zero =>
      obtain ⟨u, fatal, _⟩ := memRead_fails hier (va := va) (by simpa using fails)
      exact Reply.Fails.bind ⟨u, fatal⟩ _
    | succ k =>
      obtain ⟨mapped, nonzero⟩ := before 0 (Nat.succ_pos k)
      obtain ⟨u, read, view, inv⟩ := memRead_mapped_byte hier (va := va) (by simpa using mapped)
      have cfg : u.cfg = s.cfg := ((memRead_leaves va 1 s).of_ok read).cfg
      refine .after read ?_
      rw [if_neg (mt (setWidth_byte_eq_zero _).mp nonzero)]
      refine (ih (pa := fun j => pa (j + 1)) inv (Nat.lt_of_succ_lt_succ inCap) (fun j lt => ?_) ?_).map _ <;>
        rw [add_one_add_ofNat]
      · obtain ⟨mapped', nonzero'⟩ := before (j + 1) (Nat.succ_lt_succ lt)
        exact ⟨mapped'.congr cfg, by rwa [view]⟩
      · exact fails.congr cfg

theorem dispatchSyscall_string_fails {s : State} {reason : FatalReason} (number : s.reg s.cfg.sysNumReg = 91)
    (string : (readString s.cfg.strCap (s.reg s.cfg.sysArgReg) s).Fails reason) : (dispatchSyscall s).Fails reason := by
  rw [dispatchSyscall_string number]
  exact string.bind _

/-! ## The first condition ends the cycle (R390) -/

section
variable {s : State} {reason : FatalReason}

theorem cycle_fails (stages : (runStages { s with memTime := 0 }).Fails reason) :
    (cycle s).status = .fatal reason := by
  obtain ⟨u, fatal⟩ := stages
  rw [cycle, fatal]
  rfl

theorem runStages_decode_fails {fd : FetchDecode} {e : DecodeError} (hier : HierarchyInv s) (fetchClear : FetchClear s)
    (held : s.fd = some fd) (unknown : decode fd.raw = .error e) :
    (runStages s).Fails (.unknownInstruction fd.raw fd.pc) := by
  obtain ⟨f, u, fetch⟩ := fetchStage_clear hier fetchClear
  have only : OnlyHierarchy s u := (fetchStage_leaves s).of_ok fetch
  exact .after fetch ((decodeWord_unknown (only.fd.trans held) unknown).bind _)

/-- Where Fetch and Decode meet nothing, they leave to Execute a state that differs in the four stores alone. -/
theorem frontStages_clear (hier : HierarchyInv s) (fetchClear : FetchClear s) (decodeClear : DecodeClear s) :
    ∃ f u w, fetchStage s = .ok f u ∧ decodeWord u = .ok w u ∧ OnlyHierarchy s u ∧ HierarchyInv u := by
  obtain ⟨f, u, fetch⟩ := fetchStage_clear hier fetchClear
  have only : OnlyHierarchy s u := (fetchStage_leaves s).of_ok fetch
  obtain ⟨w, word⟩ := decodeWord_clear (decodeClear.congr only.fd)
  exact ⟨f, u, w, fetch, word, only, (fetchStage_keeps_hierarchy hier).of_ok fetch⟩

theorem runStages_execute_fails {d : DecodeExecute} (hier : HierarchyInv s) (fetchClear : FetchClear s)
    (decodeClear : DecodeClear s) (de : s.de = some d) (policy : s.cfg.divPolicy = .fatal)
    (marked : divMarked d.op d.v1 d.v2 = true) : (runStages s).Fails .divide := by
  obtain ⟨f, u, w, fetch, word, only, _⟩ := frontStages_clear hier fetchClear decodeClear
  have execute : (executeStage u).Fails .divide :=
    executeStage_marked (only.de.trans de) (by rwa [only.cfg]) marked
  exact .after fetch (.after word (execute.bind _))

theorem runStages_memory_fails {em : ExecuteMemory} (hier : HierarchyInv s) (fetchClear : FetchClear s)
    (decodeClear : DecodeClear s) (executeClear : ExecuteClear s) (held : s.em = some em)
    (fails : AccessFails s em reason) : (runStages s).Fails reason := by
  obtain ⟨f, u, w, fetch, word, only, inv⟩ := frontStages_clear hier fetchClear decodeClear
  obtain ⟨e, v, execute⟩ := executeStage_clear (executeClear.congr only.cfg only.de)
  have cfg : v.cfg = s.cfg := (executeStage_beforeWriteback execute).cfg.trans only.cfg
  have em : v.em = some em := (executeStage_em execute).trans (only.em.trans held)
  have memory := memoryStage_fails ((executeStage_keeps_hierarchy inv).of_ok execute) em (fails.congr cfg)
  exact .after fetch (.after word (.after execute (memory.bind _)))

/-- With bubbles before an ECALL in Writeback the other stages change nothing, and the call is dispatched in the state
the cycle began in. -/
theorem runStages_call_fails {w : MemoryWriteback} (drain : s.pcf.drain = true) (fd : s.fd = none) (de : s.de = none)
    (em : s.em = none) (mw : s.mw = some w) (ecall : w.op = .ecall) (call : (dispatchSyscall s).Fails reason) :
    (runStages s).Fails reason := by
  have fetch : fetchStage s = .ok { out := none, next := s.pcf.pc } s := if_pos drain
  have writeback := writebackStage_fails mw ecall call
  exact .after fetch (.after (decodeWord_bubble fd) (.after (executeStage_bubble de) (.after (memoryStage_idle em)
    (writeback.bind _))))

end

/-! ## The obligation -/

/-- Settles O55: the stages run in the order of R390 and the first that is fatal ends the cycle; the commit, Writeback's
register write and its event come after every condition but the call's own. -/
theorem fatalCycle : Obligations.FatalCycle := by
  refine ⟨fun s reason running fatal => ?keeps, fun s reason hier => ?order⟩
  case keeps =>
    obtain ⟨t, kept, eq⟩ := cycle_fatal_run running fatal
    rw [eq]
    refine ⟨kept.pcf, kept.fd, kept.de, kept.em, kept.mw, kept.x, kept.trace, ?_⟩
    rw [raiseFatal_counters, kept.counters]
    exact ⟨rfl, rfl, rfl⟩
  case order =>
    have hier₀ : HierarchyInv { s with memTime := 0 } := hier.congr rfl rfl
    have clear₀ : FetchClear s → FetchClear { s with memTime := 0 } := fun clear => clear.congr rfl rfl
    refine ⟨fun drain fails => cycle_fails ?fetch, fun fd e fetchClear held unknown => cycle_fails ?decode,
      fun d fetchClear decodeClear de policy marked => cycle_fails ?execute,
      fun em n fetchClear decodeClear executeClear held => ?memory, fun w mw ecall shape => ?writeback⟩
    case fetch => exact (fetchStage_fails hier₀ drain (fails.congr rfl)).bind _
    case decode => exact runStages_decode_fails hier₀ (clear₀ fetchClear) held unknown
    case execute => exact runStages_execute_fails hier₀ (clear₀ fetchClear) decodeClear de policy marked
    case memory =>
      have accessFails (fails : AccessFails s em reason) : (cycle s).status = .fatal reason :=
        cycle_fails (runStages_memory_fails hier₀ (clear₀ fetchClear) decodeClear executeClear held (fails.congr rfl))
      refine ⟨fun load fails => ?load, fun store fails => accessFails (.store n (memAccess_store store) fails)⟩
      case load =>
        obtain ⟨signed, access⟩ := memAccess_load_size load
        exact accessFails (.load ⟨n, signed⟩ access fails)
    case writeback =>
      obtain ⟨drain, fd, de, em⟩ := shape.alone mw ecall
      have callFails {e : FatalReason} (call : (dispatchSyscall { s with memTime := 0 }).Fails e) :
          (cycle s).status = .fatal e :=
        cycle_fails (runStages_call_fails drain fd de em mw ecall call)
      refine ⟨fun number => callFails ⟨_, dispatchSyscall_unknown number⟩,
        fun number k pa inCap before fails => callFails (dispatchSyscall_string_fails number ?string)⟩
      case string =>
        exact readString_fails (pa := pa) hier₀ inCap
          (fun j lt => (before j lt).imp_left fun mapped => mapped.congr rfl) (fails.congr rfl)

end Sys2Proof.Machine
end
